-- ==== Sys2Proof/Word.lean ====
section
/-! DEFINITION. The word types of SHL-CFS (spec 00_scope.md R12): unsigned bit vectors of the widths the
spec names, bit 0 least significant. -/

namespace Sys2Proof

/-- An 8-bit byte (R12). -/
abbrev Byte := BitVec 8

/-- A 16-bit value: a record address, a length operand, a load address (R12, R102). -/
abbrev Half := BitVec 16

/-- A 32-bit value: a CSR word, a linear address (R12, R30). -/
abbrev Word := BitVec 32

end Sys2Proof
end

