-- ==== Sys2Proof/Syntax.lean ====
section
/-! DEFINITION. The syntax of SHL-CFS: command kinds, session commands, input events, the images that stand
where the machine takes its next input, and `Instr`, one constructor per row of spec/opcode_table.json. -/

namespace Sys2Proof

/-- The memory kind bit (spec R23 MEMKIND, R39, R114): 0 Flash, 1 EEPROM. -/
inductive MemKind where
  | flash
  | eeprom
  deriving DecidableEq, Repr, Inhabited

/-- The command kinds 1 to 7 of spec R27. Code 0, NONE, is `Option.none` wherever a field may hold it. -/
inductive Kind where
  | setDevice
  | enterProgrammingMode
  | loadAddress
  | programPage
  | readPage
  | leaveProgrammingMode
  | readSignature
  deriving DecidableEq, Repr, Inhabited

/-- One element of the command sequence Q (spec R28). `a32` is the linear address kept for failure context. -/
inductive Cmd where
  | setDevice
  | enterProgrammingMode
  | loadAddress (a16 : Half) (a32 : Word)
  | programPage (mk : MemKind) (a32 : Word) (data : List Byte)
  | readPage (mk : MemKind) (a32 : Word) (n : Half)
  | leaveProgrammingMode
  | readSignature
  deriving DecidableEq, Repr, Inhabited

/-- The kind of a session command (spec R27, R28). -/
def Cmd.kind : Cmd → Kind
  | .setDevice => .setDevice
  | .enterProgrammingMode => .enterProgrammingMode
  | .loadAddress _ _ => .loadAddress
  | .programPage _ _ _ => .programPage
  | .readPage _ _ _ => .readPage
  | .leaveProgrammingMode => .leaveProgrammingMode
  | .readSignature => .readSignature

/-- The nine host commands of the opcode map (spec R97). -/
inductive Command where
  | nop
  | ckClr
  | ckAdd (b : Byte)
  | encStart
  | sesFlash
  | sesSig
  | sesReset
  | sesStop
  | softReset
  deriving DecidableEq, Repr

/-- The closed set of input events (spec R122). A CSR access carries its width in bits, because an access of
another width than 32 is a CSR_READ or CSR_WRITE too (R75, R122), and an offset of up to 32 bits, because
an access at or above 0x80 is one of the cases of R77 (DESIGN CHOICE, assumption log entry 9). -/
inductive Event where
  | rst
  | csrRead (off : Word) (width : Nat)
  | csrWrite (off : Word) (width : Nat) (w : Word)
  | imgRead (i : Word)
  | imgWrite (i : Word) (b : Byte)
  | paramRead (i : Half)
  | paramWrite (i : Half) (b : Byte)
  | rx (chunk : List Byte)
  | close
  | tick
  deriving DecidableEq, Repr

/-- What stands where the machine takes its next input. `event` is an input of spec R122. `record` (the
bytes of a record, R104) and `frame` (a session command whose frame is to be issued, R112) are not presented
by any agent of R8: they are steps the framer and the sequencer take inside ENC_START and inside a session, put
here so that the REC_ and W_ rows of the opcode table can be run on their own (DESIGN CHOICE, log entry 4). -/
inductive Input where
  | event (e : Event)
  | record (bytes : List Byte)
  | frame (c : Cmd)
  deriving DecidableEq, Repr

/-- One constructor per row of spec/opcode_table.json: the nine commands of R97, the ten events of R122, the six
record types of R103 and the seven wire frames of R113. A record carries what R108 to R110 leave variable
(its count and its checksum follow from R104 and R105); a wire frame carries the operands of its `Cmd` (R28). -/
inductive Instr where
  | nop
  | ckClr
  | ckAdd (b : Byte)
  | encStart
  | sesFlash
  | sesSig
  | sesReset
  | sesStop
  | softReset
  | csrRead (off : Word) (width : Nat)
  | csrWrite (off : Word) (width : Nat) (w : Word)
  | imgRead (i : Word)
  | imgWrite (i : Word) (b : Byte)
  | paramRead (i : Half)
  | paramWrite (i : Half) (b : Byte)
  | rx (chunk : List Byte)
  | close
  | tick
  | rst
  | recData (address : Half) (payload : List Byte)
  | recEof
  | recEsa (address : Half) (payload : List Byte)
  | recSsa (address : Half) (payload : List Byte)
  | recEla (block : Half)
  | recSla (address : Half) (payload : List Byte)
  | wSetDevice
  | wEnterProgmode
  | wLoadAddress (a16 : Half) (a32 : Word)
  | wProgramPage (mk : MemKind) (a32 : Word) (data : List Byte)
  | wReadPage (mk : MemKind) (a32 : Word) (n : Half)
  | wLeaveProgmode
  | wReadSignature
  deriving DecidableEq, Repr

/-- A host command as an instruction (spec R97). -/
def Command.toInstr : Command → Instr
  | .nop => .nop
  | .ckClr => .ckClr
  | .ckAdd b => .ckAdd b
  | .encStart => .encStart
  | .sesFlash => .sesFlash
  | .sesSig => .sesSig
  | .sesReset => .sesReset
  | .sesStop => .sesStop
  | .softReset => .softReset

/-- The wire-frame row that issues a session command (spec R112, R113). -/
def Cmd.toInstr : Cmd → Instr
  | .setDevice => .wSetDevice
  | .enterProgrammingMode => .wEnterProgmode
  | .loadAddress a16 a32 => .wLoadAddress a16 a32
  | .programPage mk a32 d => .wProgramPage mk a32 d
  | .readPage mk a32 n => .wReadPage mk a32 n
  | .leaveProgrammingMode => .wLeaveProgmode
  | .readSignature => .wReadSignature

/-- The format column of spec/opcode_table.json. -/
inductive Format where
  | cmd32
  | event
  | hexrec
  | wireframe
  deriving DecidableEq, Repr

/-- The format the opcode table gives each row. -/
def Instr.format : Instr → Format
  | .nop | .ckClr | .ckAdd _ | .encStart | .sesFlash | .sesSig | .sesReset | .sesStop | .softReset => .cmd32
  | .csrRead _ _ | .csrWrite _ _ _ | .imgRead _ | .imgWrite _ _ | .paramRead _ | .paramWrite _ _ => .event
  | .rx _ | .close | .tick | .rst => .event
  | .recData _ _ | .recEof | .recEsa _ _ | .recSsa _ _ | .recEla _ | .recSla _ _ => .hexrec
  | .wSetDevice | .wEnterProgmode | .wLoadAddress _ _ | .wProgramPage _ _ _ | .wReadPage _ _ _ => .wireframe
  | .wLeaveProgmode | .wReadSignature => .wireframe

end Sys2Proof
end

