-- ==== Sys2Proof/Config.lean ====
section
/-! DEFINITION. What an implementation of SHL-CFS fixes (spec 00_scope.md R10, 30_encoding.md R115) and the
values the spec leaves free (spec 93_implementation_defined.md). The configuration record is plain data; the machine's
state carries it, so that every statement holds for every configuration. -/

namespace Sys2Proof

/-- One value per command kind k = 1..7 (the index of `OPC`, `LEAD_EN`, `LEAD`, `TRAIL_EN`, `TRAIL` in spec R115). -/
structure PerKind (α : Type) where
  setDevice : α
  enterProgrammingMode : α
  loadAddress : α
  programPage : α
  readPage : α
  leaveProgrammingMode : α
  readSignature : α
  deriving DecidableEq, Repr, Inhabited

/-- The entry of a per-kind table. -/
def PerKind.get {α : Type} (t : PerKind α) : Kind → α
  | .setDevice => t.setDevice
  | .enterProgrammingMode => t.enterProgrammingMode
  | .loadAddress => t.loadAddress
  | .programPage => t.programPage
  | .readPage => t.readPage
  | .leaveProgrammingMode => t.leaveProgrammingMode
  | .readSignature => t.readSignature

/-- The same value for every kind. -/
def PerKind.const {α : Type} (a : α) : PerKind α := ⟨a, a, a, a, a, a, a⟩

/-- Two per-kind tables combined entry by entry. -/
def PerKind.zipWith {α β γ : Type} (f : α → β → γ) (t : PerKind α) (u : PerKind β) : PerKind γ where
  setDevice := f t.setDevice u.setDevice
  enterProgrammingMode := f t.enterProgrammingMode u.enterProgrammingMode
  loadAddress := f t.loadAddress u.loadAddress
  programPage := f t.programPage u.programPage
  readPage := f t.readPage u.readPage
  leaveProgrammingMode := f t.leaveProgrammingMode u.leaveProgrammingMode
  readSignature := f t.readSignature u.readSignature

/-- `WP.ADDR_ORDER` (spec R115). -/
inductive AddrOrder where
  | be
  | le
  deriving DecidableEq, Repr, Inhabited

/-- The wire profile WP (spec R115), OPEN for this hardware (93_implementation_defined.md I2). -/
structure WireProfile where
  OPC : PerKind Byte
  MEMCODE_FLASH : Byte
  MEMCODE_EEPROM : Byte
  EOP_EN : Bool
  EOP : Byte
  WIRE_CKSUM : Bool
  ADDR_ORDER : AddrOrder
  ADDR_SHIFT : Nat
  LEAD_EN : PerKind Bool
  LEAD : PerKind Byte
  TRAIL_EN : PerKind Bool
  TRAIL : PerKind Byte
  deriving DecidableEq, Repr, Inhabited

/-- The configuration record (spec R10): the OPEN capacities and the wire profile. `ZRUN` is fixed and stands
below; the ranges R10 gives for registers are the registers' own widths and checks. -/
structure Config where
  IMG_CAP : Nat
  PARAM_CAP : Nat
  RB_CAP : Nat
  WP : WireProfile
  deriving DecidableEq, Repr, Inhabited

/-- The zero-run threshold of null-run omission, fixed at 6 (spec R10, D50). -/
def Config.ZRUN : Nat := 6

/-- Every response has at least one marker (spec R115: `LEAD_EN[k] ∨ TRAIL_EN[k]` for every k). -/
abbrev WireProfile.markersPresent (wp : WireProfile) : Prop :=
  (wp.LEAD_EN.setDevice || wp.TRAIL_EN.setDevice) = true ∧
  (wp.LEAD_EN.enterProgrammingMode || wp.TRAIL_EN.enterProgrammingMode) = true ∧
  (wp.LEAD_EN.loadAddress || wp.TRAIL_EN.loadAddress) = true ∧
  (wp.LEAD_EN.programPage || wp.TRAIL_EN.programPage) = true ∧
  (wp.LEAD_EN.readPage || wp.TRAIL_EN.readPage) = true ∧
  (wp.LEAD_EN.leaveProgrammingMode || wp.TRAIL_EN.leaveProgrammingMode) = true ∧
  (wp.LEAD_EN.readSignature || wp.TRAIL_EN.readSignature) = true

/-- The constraints the spec puts on a configuration (R10, R115, 93_implementation_defined.md I9). -/
abbrev Config.Valid (c : Config) : Prop :=
  1 ≤ c.IMG_CAP ∧ c.IMG_CAP ≤ 2 ^ 32 ∧ c.PARAM_CAP ≤ 65535 ∧ 2 ≤ c.RB_CAP ∧ c.WP.ADDR_SHIFT ≤ 15 ∧
  c.WP.markersPresent

/-- A configuration brought into the legal ranges; a legal one is left as it is (`Laws/Config.lean`). -/
def Config.legalise (c : Config) : Config where
  IMG_CAP := max 1 (min c.IMG_CAP (2 ^ 32))
  PARAM_CAP := min c.PARAM_CAP 65535
  RB_CAP := max 2 c.RB_CAP
  WP := { c.WP with
    ADDR_SHIFT := min c.WP.ADDR_SHIFT 15
    LEAD_EN := PerKind.zipWith (fun l t => l || !t) c.WP.LEAD_EN c.WP.TRAIL_EN }

/-- The free choice of the OPEN parameters (log entry 1). Nothing constrains it. -/
opaque Config.draw : Config

/-- The configuration of the machine at reset: a legal configuration about which nothing more is known. -/
def Config.platform : Config := Config.draw.legalise

/-- The value of an IMG byte that nothing has written since the `epoch`-th power-on (spec R50, R307, I1): a free value
(log entry 2). -/
opaque Config.powerOnImg : (epoch : Nat) → (index : Nat) → Byte

/-- The value of a PARAM byte that nothing has written since the `epoch`-th power-on (spec R50, R307, I1): a free value
(log entry 2). -/
opaque Config.powerOnParam : (epoch : Nat) → (index : Nat) → Byte

/-- LINK's answer to the n-th frame write when no answer was supplied (spec R259, I13): a free value (log entry 3). -/
opaque Config.linkAnswer : (frame : Nat) → Bool

/-- What a 32-bit count register holds or reads for a count of 2^32 or more, which the spec does not state: a free
value (log entry 6). -/
opaque Config.wideCount : (count : Nat) → Word

end Sys2Proof
end

