-- ==== Sys2Proof/Machine/Record.lean ====
section
/-! DEFINITION. Intel-HEX records, their checksum and their text lines (spec 30_encoding.md R102 to R111,
41_checksum.md R163 and R164). -/

namespace Sys2Proof.Machine

/-- The checksum of an accumulated sum: its two's complement, `(0x100 - ACC) mod 0x100` (spec R163). -/
def cksumOf (acc : Byte) : Byte := 0 - acc

/-- One accumulation step: the carry out of bit 7 is discarded (spec R162). -/
def ckAccumulate (acc b : Byte) : Byte := acc + b

/-- The accumulator after a list of bytes, from a given start (spec R162, R164). -/
def ckFold (acc : Byte) (bs : List Byte) : Byte := bs.foldl ckAccumulate acc

/-- The record checksum function (spec R164). -/
def cksum8 (bs : List Byte) : Byte := cksumOf (ckFold 0 bs)

/-- The record types (spec R102, R103). -/
inductive RecType where
  | data
  | endOfFile
  | extendedSegmentAddress
  | startSegmentAddress
  | extendedLinearAddress
  | startLinearAddress
  deriving DecidableEq, Repr

/-- The type code TT (spec R103). -/
def RecType.code : RecType → Byte
  | .data => 0x00
  | .endOfFile => 0x01
  | .extendedSegmentAddress => 0x02
  | .startSegmentAddress => 0x03
  | .extendedLinearAddress => 0x04
  | .startLinearAddress => 0x05

/-- The type a code names; codes 06 to FF name none (spec R103). -/
def RecType.ofCode (tt : Byte) : Option RecType :=
  match tt.toNat with
  | 0 => some .data
  | 1 => some .endOfFile
  | 2 => some .extendedSegmentAddress
  | 3 => some .startSegmentAddress
  | 4 => some .extendedLinearAddress
  | 5 => some .startLinearAddress
  | _ => none

/-- A record (spec R102). -/
structure HexRecord where
  type : RecType
  address : Half
  payload : List Byte
  checksum : Byte
  deriving DecidableEq, Repr

/-- A 16-bit value as two bytes, high byte first (spec R79, R116). -/
def beBytes (h : Half) : List Byte := [h.extractLsb' 8 8, h.extractLsb' 0 8]

/-- A 16-bit value as two bytes, low byte first (spec R80, R113 with `ADDR_ORDER` LE). -/
def leBytes (h : Half) : List Byte := [h.extractLsb' 0 8, h.extractLsb' 8 8]

/-- The bytes of a record before its checksum: count, address high, address low, type, payload (spec R104). -/
def recFields (t : RecType) (address : Half) (payload : List Byte) : List Byte :=
  BitVec.ofNat 8 payload.length :: (beBytes address ++ t.code :: payload)

/-- A record with the checksum of rule R105. -/
def mkRecord (t : RecType) (address : Half) (payload : List Byte) : HexRecord where
  type := t
  address := address
  payload := payload
  checksum := cksum8 (recFields t address payload)

/-- The binary form of a record (spec R104). -/
def recBytes (r : HexRecord) : List Byte := recFields r.type r.address r.payload ++ [r.checksum]

/-- The Data record of the bytes `d` at the low 16 address bits `a` (spec R110). -/
def dataRecord (a : Half) (d : List Byte) : HexRecord := mkRecord .data a d

/-- The ExtendedLinearAddress record for block `k`: address 0000, payload the block index, high byte first (spec R108). -/
def elaRecord (k : Half) : HexRecord := mkRecord .extendedLinearAddress 0 (beBytes k)

/-- The EndOfFile record (spec R109). -/
def eofRecord : HexRecord := mkRecord .endOfFile 0 []

/-- The ASCII code of a hex digit, uppercase (spec R15, R107). -/
def hexDigit (d : BitVec 4) : Byte :=
  if d.toNat ≤ 9 then 0x30 + d.setWidth 8 else 0x41 + (d.setWidth 8 - 10)

/-- A byte as two hex digits, most significant nibble first (spec R107). -/
def hex2 (b : Byte) : List Byte := [hexDigit (b.extractLsb' 4 4), hexDigit (b.extractLsb' 0 4)]

/-- The text line of a record: ':' , its bytes in hex, LF (spec R106). -/
def textLine (r : HexRecord) : List Byte := 0x3A#8 :: ((recBytes r).flatMap hex2 ++ [0x0A#8])

end Sys2Proof.Machine
end

