-- ==== Sys2Proof/WellFormed.lean ====
section
/-! DEFINITION. The side conditions the spec puts on an instruction's operands. -/

namespace Sys2Proof

/-- The 32-bit words of the opcode map (spec R97): the eight fixed words, and CK_ADD's with any byte operand. -/
abbrev IsCommandWord (w : Word) : Prop :=
  w = 0x00000000#32 ∨ w = 0x10000000#32 ∨ w.extractLsb' 8 24 = 0x110000#24 ∨ w = 0x20000000#32 ∨
  w = 0x30000000#32 ∨ w = 0x31000000#32 ∨ w = 0x3E000000#32 ∨ w = 0x3F000000#32 ∨ w = 0xF0000000#32

/-- Operand conditions: a CSR_WRITE of a command word to CMD is that command's own row (R96); an RX chunk has at least
one byte (R122); a record's payload has at most 255 bytes (R102); a ProgramPage has 1 to 65535 data bytes (R28). -/
def Instr.wellFormed : Instr → Bool
  | .csrWrite off width w => !decide (off = 0 ∧ width = 32 ∧ IsCommandWord w)
  | .rx chunk => decide (1 ≤ chunk.length)
  | .recData _ payload => decide (payload.length ≤ 255)
  | .recEsa _ payload => decide (payload.length ≤ 255)
  | .recSsa _ payload => decide (payload.length ≤ 255)
  | .recSla _ payload => decide (payload.length ≤ 255)
  | .wProgramPage _ _ data => decide (1 ≤ data.length ∧ data.length ≤ 65535)
  | .nop | .ckClr | .ckAdd _ | .encStart | .sesFlash | .sesSig | .sesReset | .sesStop | .softReset => true
  | .csrRead _ _ | .imgRead _ | .imgWrite _ _ | .paramRead _ | .paramWrite _ _ => true
  | .close | .tick | .rst | .recEof | .recEla _ => true
  | .wSetDevice | .wEnterProgmode | .wLoadAddress _ _ | .wReadPage _ _ _ | .wLeaveProgmode | .wReadSignature => true

/-- The operand conditions as a proposition. -/
abbrev Instr.WellFormed (i : Instr) : Prop := i.wellFormed = true

end Sys2Proof
end

