-- ==== Sys2Proof/Decode.lean ====
section
/-! DEFINITION. The decoder, total on every image, rejecting by name, and after it the encoder (spec 30_encoding.md
R96 to R111, R122). -/

namespace Sys2Proof

/-- Why a word written to CMD is no command (spec R98). -/
inductive CommandError where
  /-- OP is not in the opcode map. -/
  | illegalOpcode
  /-- RSVD is not 0, or IMM8 is not 0 for an opcode other than CK_ADD. -/
  | reservedBits
  deriving DecidableEq, Repr

/-- The opcode map (spec R97): the command an OP byte names, given its IMM8 byte. -/
def commandOfOp (op imm : Byte) : Option Command :=
  match op.toNat with
  | 0x00 => some .nop
  | 0x10 => some .ckClr
  | 0x11 => some (.ckAdd imm)
  | 0x20 => some .encStart
  | 0x30 => some .sesFlash
  | 0x31 => some .sesSig
  | 0x3E => some .sesReset
  | 0x3F => some .sesStop
  | 0xF0 => some .softReset
  | _ => none

/-- The command decoder, total on all words: OP first, then RSVD, then IMM8 (spec R98). -/
def decodeCommand (w : Word) : Except CommandError Command :=
  let op : Byte := w.extractLsb' 24 8
  let rsvd : Half := w.extractLsb' 8 16
  let imm : Byte := w.extractLsb' 0 8
  match commandOfOp op imm with
  | none => .error .illegalOpcode
  | some c =>
    if rsvd ≠ 0 then .error .reservedBits
    else if op ≠ 0x11 ∧ imm ≠ 0 then .error .reservedBits
    else .ok c

/-- The word of a command (spec R97, the encoding column). -/
def commandWord : Command → Word
  | .nop => 0x00000000#32
  | .ckClr => 0x10000000#32
  | .ckAdd b => 0x110000#24 ++ b
  | .encStart => 0x20000000#32
  | .sesFlash => 0x30000000#32
  | .sesSig => 0x31000000#32
  | .sesReset => 0x3E000000#32
  | .sesStop => 0x3F000000#32
  | .softReset => 0xF0000000#32

/-- Why an image is no instruction. -/
inductive DecodeError where
  /-- An RX chunk holds at least one byte (spec R122). -/
  | emptyChunk
  /-- A record has at least five bytes (spec R104). -/
  | recordTooShort
  /-- The count byte is not the length of the payload (spec R104, R111). -/
  | recordCount
  /-- The bytes of the record do not sum to 0 mod 256 (spec R105). -/
  | recordChecksum
  /-- The type byte is none of 00 to 05 (spec R103). -/
  | recordType
  /-- An EndOfFile record with an address or a payload, or an ELA record with an address or with a payload
  that is not two bytes (spec R108, R109). -/
  | recordShape
  /-- A ProgramPage holds 1 to 65535 data bytes (spec R28). -/
  | frameData
  deriving DecidableEq, Repr

/-- The instruction of a record's type, address and payload (spec R103, R108 to R110). -/
def recordInstr (t : Machine.RecType) (address : Half) (payload : List Byte) : Except DecodeError Instr :=
  match t with
  | .data => .ok (.recData address payload)
  | .endOfFile => if address = 0 ∧ payload = [] then .ok .recEof else .error .recordShape
  | .extendedSegmentAddress => .ok (.recEsa address payload)
  | .startSegmentAddress => .ok (.recSsa address payload)
  | .extendedLinearAddress =>
    match payload with
    | [hi, lo] => if address = 0 then .ok (.recEla (hi ++ lo)) else .error .recordShape
    | _ => .error .recordShape
  | .startLinearAddress => .ok (.recSla address payload)

/-- The record decoder: the binary form of rule R104, its count and its checksum checked. -/
def decodeRecord (bytes : List Byte) : Except DecodeError Instr :=
  match bytes with
  | count :: hi :: lo :: tt :: rest =>
    if rest.length ≠ count.toNat + 1 then .error (if rest = [] then .recordTooShort else .recordCount)
    else if Machine.ckFold 0 bytes ≠ 0 then .error .recordChecksum
    else
      match Machine.RecType.ofCode tt with
      | none => .error .recordType
      | some t => recordInstr t (hi ++ lo) rest.dropLast
  | _ => .error .recordTooShort

/-- The event decoder: a 32-bit CSR_WRITE to CMD of a word that decodes is the command (spec R96, R145); any other
event is its own row (R122). -/
def decodeEvent : Event → Except DecodeError Instr
  | .rst => .ok .rst
  | .csrRead off width => .ok (.csrRead off width)
  | .csrWrite off width w =>
    if off = 0 ∧ width = 32 then
      match decodeCommand w with
      | .ok c => .ok c.toInstr
      | .error _ => .ok (.csrWrite off width w)
    else .ok (.csrWrite off width w)
  | .imgRead i => .ok (.imgRead i)
  | .imgWrite i b => .ok (.imgWrite i b)
  | .paramRead i => .ok (.paramRead i)
  | .paramWrite i b => .ok (.paramWrite i b)
  | .rx chunk => if chunk = [] then .error .emptyChunk else .ok (.rx chunk)
  | .close => .ok .close
  | .tick => .ok .tick

/-- The decoder of whatever stands where the machine takes its next input. -/
def decode : Input → Except DecodeError Instr
  | .event e => decodeEvent e
  | .record bytes => decodeRecord bytes
  | .frame c => if c.toInstr.wellFormed = true then .ok c.toInstr else .error .frameData

/-- A command as the event that gives it: a CSR_WRITE of its word to CMD, offset 0x00 (spec R96). -/
def commandEvent (c : Command) : Input := .event (.csrWrite 0 32 (commandWord c))

/-- A record of a type, an address and a payload as its binary form (spec R104, R105). -/
def recordImage (t : Machine.RecType) (address : Half) (payload : List Byte) : Input :=
  .record (Machine.recBytes (Machine.mkRecord t address payload))

/-- The encoder: the image of an instruction (spec R97, R104, R112, R122). -/
def encode : Instr → Input
  | .nop => commandEvent .nop
  | .ckClr => commandEvent .ckClr
  | .ckAdd b => commandEvent (.ckAdd b)
  | .encStart => commandEvent .encStart
  | .sesFlash => commandEvent .sesFlash
  | .sesSig => commandEvent .sesSig
  | .sesReset => commandEvent .sesReset
  | .sesStop => commandEvent .sesStop
  | .softReset => commandEvent .softReset
  | .csrRead off width => .event (.csrRead off width)
  | .csrWrite off width w => .event (.csrWrite off width w)
  | .imgRead i => .event (.imgRead i)
  | .imgWrite i b => .event (.imgWrite i b)
  | .paramRead i => .event (.paramRead i)
  | .paramWrite i b => .event (.paramWrite i b)
  | .rx chunk => .event (.rx chunk)
  | .close => .event .close
  | .tick => .event .tick
  | .rst => .event .rst
  | .recData a d => recordImage .data a d
  | .recEof => recordImage .endOfFile 0 []
  | .recEsa a d => recordImage .extendedSegmentAddress a d
  | .recSsa a d => recordImage .startSegmentAddress a d
  | .recEla k => recordImage .extendedLinearAddress 0 (Machine.beBytes k)
  | .recSla a d => recordImage .startLinearAddress a d
  | .wSetDevice => .frame .setDevice
  | .wEnterProgmode => .frame .enterProgrammingMode
  | .wLoadAddress a16 a32 => .frame (.loadAddress a16 a32)
  | .wProgramPage mk a32 d => .frame (.programPage mk a32 d)
  | .wReadPage mk a32 n => .frame (.readPage mk a32 n)
  | .wLeaveProgmode => .frame .leaveProgrammingMode
  | .wReadSignature => .frame .readSignature

/-- The record of a type code with every operand zero: address 0000 and a payload of zero bytes, two for an ELA record
(R108) and none for the others; its count and its checksum follow (R104, R105). -/
def zeroRecord (tt : Byte) : List Byte :=
  let payload : List Byte := if tt = 4 then [0, 0] else []
  let fields := BitVec.ofNat 8 payload.length :: 0 :: 0 :: tt :: payload
  fields ++ [Machine.cksum8 fields]

/-- The image of an opcode-table row's bits: an 8-bit row is a record's type field TT, a 32-bit row a command word
(log entry 5). -/
def tableImage (nbits w : Nat) : Input :=
  if nbits ≤ 8 then .record (zeroRecord (BitVec.ofNat 8 w)) else .event (.csrWrite 0 32 (BitVec.ofNat 32 w))

/-- What the decoder reads from an opcode-table row's bits; a CMD word that is no command is refused. -/
def decodeTableWord (nbits w : Nat) : Option Instr :=
  match decode (tableImage nbits w) with
  | .ok (.csrWrite _ _ _) => none
  | .ok i => some i
  | .error _ => none

end Sys2Proof
end

