-- ==== Sys2Proof/Machine/State.lean ====
section
/-! DEFINITION. The state of SHL-CFS as plain data: `Block` holds exactly the elements of spec 10_state.md R23, under the
spec's names; `State` adds what surrounds the block in a run (configuration, inputs, LINK's answers, outputs). -/

namespace Sys2Proof.Machine

/-- The encoder state ENC_ST (spec R25). -/
inductive EncState where
  | idle
  | busy
  | done
  | error
  deriving DecidableEq, Repr

/-- The session phase SES_ST (spec R26); the reserved codes 11 to 15 are never held. -/
inductive SesState where
  | idle
  | deviceConfigured
  | programmingModeEntered
  | loadingAddress
  | programmingPage
  | verifyingPage
  | programmingModeExited
  | signatureRead
  | done
  | failed
  | stopped
  deriving DecidableEq, Repr

/-- FAIL_REASON (spec R271). -/
inductive FailReason where
  | noFailure
  | protocolDesync
  | timeout
  | disconnected
  | verifyMismatch
  | signatureMismatch
  deriving DecidableEq, Repr

/-- ENC_ERRC (spec R272). -/
inductive EncErrCode where
  | noError
  | lineLenZero
  | omitWithoutPage
  | pageTooLarge
  | lenExceedsCap
  | addrOverflow
  deriving DecidableEq, Repr

/-- CMD_ERRC (spec R273). -/
inductive CmdErrCode where
  | noError
  | illegalOpcode
  | reservedBits
  | wrongState
  | writeLocked
  | sesCfgInvalid
  | accessFault
  deriving DecidableEq, Repr

/-- CMD_ERRS, the sub-code of SES_CFG_INVALID (spec R274). -/
inductive SesCfgErr where
  | noSub
  | devPageZero
  | imgRange
  | sigLenInvalid
  | paramLenInvalid
  | respTooLong
  | addrUnloadable
  deriving DecidableEq, Repr

/-- LAST_RES (spec R29). -/
inductive ReportResult where
  | noReport
  | ok
  | failed
  | discarded
  deriving DecidableEq, Repr

/-- A byte memory: the bytes written since power-on, by index, in strictly rising order. An index that is not listed
holds the unwritten byte of its power-on (spec R50, log entry 2). -/
abbrev Memory := List Host.Cell

/-- The block state: exactly the elements of spec R23, under their names there. A KIND field holds `none` for
code 0 (spec R27). -/
structure Block where
  ACC : Byte
  IMG : Memory
  PARAM : Memory
  IMG_BASE : Word
  IMG_LEN : Word
  LINE_LEN : Byte
  PAGE_LOG2 : BitVec 5
  PAGE_EN : Bool
  OMIT_NULL : Bool
  ENC_ST : EncState
  ENC_ERRC : EncErrCode
  ENC_NREC : Word
  OUTQ : List Byte
  MEMKIND : MemKind
  VERIFY : Bool
  SIGCHK : Bool
  SIG_LEN : BitVec 3
  DEV_PAGE : Half
  SES_TIMEOUT : Word
  SIG_EXPECT : Word
  PARAM_LEN : Half
  SES_ST : SesState
  INFLIGHT : Option Kind
  Q : List Cmd
  SEQ_IDX : Word
  SEQ_LEN : Word
  RB : List Byte
  TMR : Word
  WCUR : Half
  WCUR_V : Bool
  LINK_CLOSED : Bool
  FAIL_REASON : FailReason
  FAIL_KIND : Option Kind
  FAIL_IDX : Word
  FAIL_ADDR : Word
  FAIL_OFF : Word
  FAIL_EXP : Byte
  FAIL_ACT : Byte
  SIG_READ : Word
  REPORTS : Word
  LAST_KIND : Option Kind
  LAST_RES : ReportResult
  LAST_IDX : BitVec 24
  IRQ_STAT : Byte
  IRQ_EN : Byte
  CMD_ERRC : CmdErrCode
  CMD_ERRS : SesCfgErr
  deriving DecidableEq, Repr

/-- A frame offered to LINK, with LINK's answer (spec R259, R260). -/
structure TxFrame where
  bytes : List Byte
  ok : Bool
  deriving DecidableEq, Repr

/-- The data a host read returns: a CSR word or a memory byte (spec R9, R141, R143, R144). -/
inductive HostRead where
  | word (w : Word)
  | byte (b : Byte)
  deriving DecidableEq, Repr

/-- No event stops SHL-CFS: every abnormal outcome is recorded in state (spec R275), so no constructor is needed. Safe:
the machine cannot stop with a fault. -/
inductive Fault where
  deriving DecidableEq, Repr

/-- Why the machine gives an input no next state. -/
inductive Refusal where
  /-- Raised by an arm of `exec` whose instruction has no meaning yet; no arm does. Safe: nothing is claimed of it. -/
  | notModelled (mnemonic : String)
  /-- Raised by REC_ESA, REC_SSA and REC_SLA: the framer never emits the type (spec R195, I4). Safe: the block has no such
  step. -/
  | recordNeverEmitted (type : RecType)
  /-- Raised by `step` on an image that is no instruction: an empty RX chunk, the bytes of no record, or a page
  without data (spec R28, R104, R122). Safe: no agent presents one. -/
  | undecodable (e : DecodeError)
  deriving DecidableEq, Repr

/-- The machine: the block, and what surrounds it in a run. `cfg` is the configuration (R10). `powerOns` counts RST events, to
tell one power-on's memory contents from another's (R301). `linkAnswers` are LINK's answers to the frame writes to
come (R259); past their end the answer is free. `tx` are the frames offered to LINK and `reads` the data returned
to HOST, each oldest first (R9, R260). `cycles` are the inputs presented and not yet taken, cycle by cycle
(R88, R290). -/
structure State where
  cfg : Config
  blk : Block
  powerOns : Nat
  linkAnswers : List Bool
  tx : List TxFrame
  reads : List HostRead
  cycles : List (List Input)
  deriving DecidableEq, Repr

/-- The reset value of every element of the block (spec R50); IMG and PARAM list nothing written. -/
def Block.reset : Block where
  ACC := 0
  IMG := []
  PARAM := []
  IMG_BASE := 0
  IMG_LEN := 0
  LINE_LEN := 0
  PAGE_LOG2 := 0
  PAGE_EN := false
  OMIT_NULL := false
  ENC_ST := .idle
  ENC_ERRC := .noError
  ENC_NREC := 0
  OUTQ := []
  MEMKIND := .flash
  VERIFY := false
  SIGCHK := false
  SIG_LEN := 0
  DEV_PAGE := 0
  SES_TIMEOUT := 0
  SIG_EXPECT := 0
  PARAM_LEN := 0
  SES_ST := .idle
  INFLIGHT := none
  Q := []
  SEQ_IDX := 0
  SEQ_LEN := 0
  RB := []
  TMR := 0
  WCUR := 0
  WCUR_V := false
  LINK_CLOSED := false
  FAIL_REASON := .noFailure
  FAIL_KIND := none
  FAIL_IDX := 0
  FAIL_ADDR := 0
  FAIL_OFF := 0
  FAIL_EXP := 0
  FAIL_ACT := 0
  SIG_READ := 0
  REPORTS := 0
  LAST_KIND := none
  LAST_RES := .noReport
  LAST_IDX := 0
  IRQ_STAT := 0
  IRQ_EN := 0
  CMD_ERRC := .noError
  CMD_ERRS := .noSub

/-- The machine after power-on: the block at its reset values (spec R50, R301), no input presented, no output produced. -/
def State.reset : State where
  cfg := Config.platform
  blk := Block.reset
  powerOns := 0
  linkAnswers := []
  tx := []
  reads := []
  cycles := []

end Sys2Proof.Machine
end

