-- ==== Sys2Proof/Machine/Codes.lean ====
section
/-! DEFINITION. The numeric codes of the enumerated fields (spec 10_state.md R25 to R29, 60_exceptions.md R271 to R274). -/

namespace Sys2Proof.Machine

/-- ENC_ST (spec R25). -/
def EncState.code : EncState → BitVec 2
  | .idle => 0
  | .busy => 1
  | .done => 2
  | .error => 3

/-- SES_ST (spec R26). -/
def SesState.code : SesState → BitVec 4
  | .idle => 0
  | .deviceConfigured => 1
  | .programmingModeEntered => 2
  | .loadingAddress => 3
  | .programmingPage => 4
  | .verifyingPage => 5
  | .programmingModeExited => 6
  | .signatureRead => 7
  | .done => 8
  | .failed => 9
  | .stopped => 10

/-- KIND (spec R27); 0 is NONE. -/
def kindCode : Option Kind → BitVec 4
  | none => 0
  | some .setDevice => 1
  | some .enterProgrammingMode => 2
  | some .loadAddress => 3
  | some .programPage => 4
  | some .readPage => 5
  | some .leaveProgrammingMode => 6
  | some .readSignature => 7

/-- LAST_RES (spec R29). -/
def ReportResult.code : ReportResult → BitVec 2
  | .noReport => 0
  | .ok => 1
  | .failed => 2
  | .discarded => 3

/-- FAIL_REASON (spec R271). -/
def FailReason.code : FailReason → BitVec 4
  | .noFailure => 0
  | .protocolDesync => 1
  | .timeout => 2
  | .disconnected => 3
  | .verifyMismatch => 4
  | .signatureMismatch => 5

/-- ENC_ERRC (spec R272). -/
def EncErrCode.code : EncErrCode → BitVec 4
  | .noError => 0
  | .lineLenZero => 1
  | .omitWithoutPage => 2
  | .pageTooLarge => 3
  | .lenExceedsCap => 4
  | .addrOverflow => 5

/-- CMD_ERRC (spec R273). -/
def CmdErrCode.code : CmdErrCode → BitVec 4
  | .noError => 0
  | .illegalOpcode => 1
  | .reservedBits => 2
  | .wrongState => 3
  | .writeLocked => 4
  | .sesCfgInvalid => 5
  | .accessFault => 6

/-- CMD_ERRS (spec R274). -/
def SesCfgErr.code : SesCfgErr → BitVec 4
  | .noSub => 0
  | .devPageZero => 1
  | .imgRange => 2
  | .sigLenInvalid => 3
  | .paramLenInvalid => 4
  | .respTooLong => 5
  | .addrUnloadable => 6

/-- The states that end a session (spec R26). -/
def SesState.terminal : SesState → Bool
  | .done => true
  | .failed => true
  | .stopped => true
  | .idle => false
  | .deviceConfigured => false
  | .programmingModeEntered => false
  | .loadingAddress => false
  | .programmingPage => false
  | .verifyingPage => false
  | .programmingModeExited => false
  | .signatureRead => false

/-- The phase held after a completed command when more commands follow (spec R223). -/
def phaseOf : Kind → SesState
  | .setDevice => .deviceConfigured
  | .enterProgrammingMode => .programmingModeEntered
  | .loadAddress => .loadingAddress
  | .programPage => .programmingPage
  | .readPage => .verifyingPage
  | .leaveProgrammingMode => .programmingModeExited
  | .readSignature => .signatureRead

/-- The command error a rejected CMD word raises (spec R98, R273). -/
def cmdErrOf : CommandError → CmdErrCode
  | .illegalOpcode => .illegalOpcode
  | .reservedBits => .reservedBits

end Sys2Proof.Machine
end

