-- ==== Sys2Proof/Machine/Flags.lean ====
section
/-! DEFINITION. Every flag of SHL-CFS: the interrupt bits and the live views (spec 10_state.md R32, R36, R44,
60_exceptions.md R286 to R288). -/

namespace Sys2Proof.Machine

/-- The bits of IRQ_STAT and IRQ_EN (spec R36, R286). -/
inductive IrqBit where
  | encDone
  | encErr
  | sesDone
  | sesFail
  | sesStop
  | cmdRpt
  | cmdErr
  | rbOvf
  deriving DecidableEq, Repr

/-- The position of an interrupt bit (spec R36). -/
def IrqBit.index : IrqBit → Nat
  | .encDone => 0
  | .encErr => 1
  | .sesDone => 2
  | .sesFail => 3
  | .sesStop => 4
  | .cmdRpt => 5
  | .cmdErr => 6
  | .rbOvf => 7

/-- The byte with one interrupt bit set. -/
def IrqBit.mask (k : IrqBit) : Byte := 1#8 <<< k.index

/-- `irq_set(bit)` (spec R14): sets a bit of IRQ_STAT, whatever IRQ_EN holds (R288). -/
def Block.irqSet (k : IrqBit) (b : Block) : Block := { b with IRQ_STAT := b.IRQ_STAT ||| k.mask }

/-- Whether an interrupt source is pending (spec R288). -/
def Block.pending (b : Block) (k : IrqBit) : Bool := b.IRQ_STAT.getLsbD k.index

/-- The interrupt line: `irq = (IRQ_STAT & IRQ_EN) != 0` (spec R287). -/
def Block.irq (b : Block) : Bool := b.IRQ_STAT &&& b.IRQ_EN != 0

/-- HCK_ZERO: 1 iff ACC is 0 (spec R32, R44). -/
def Block.hckZero (b : Block) : Bool := b.ACC == 0

/-- ENC_OUT_VALID: 1 iff OUTQ is not empty (spec R32, R44). -/
def Block.encOutValid (b : Block) : Bool := !b.OUTQ.isEmpty

/-- SES_ACTIVE: 1 iff a command is in flight (spec R32, R44). -/
def Block.sesActive (b : Block) : Bool := b.INFLIGHT.isSome

/-- Whether the framer holds undrained text, the lock condition of IMG_BASE, IMG_LEN, ENC_CFG and IMG (spec R311). -/
def Block.encBusy (b : Block) : Bool := b.ENC_ST == .busy

end Sys2Proof.Machine
end

