-- ==== Sys2Proof/Machine/Memory.lean ====
section
/-! DEFINITION. The byte memories IMG and PARAM (spec 20_memory.md R71, R76; reset contents R50, R307). -/

namespace Sys2Proof.Machine

/-- The canonical form: indices strictly rising, so that memories that hold the same written bytes are equal data. -/
abbrev Memory.wf (m : Memory) : Prop := m.Pairwise (fun c e => c.1 < e.1)

/-- The byte written at an index since power-on, if any. -/
def Memory.written : Memory → Nat → Option Byte
  | [], _ => none
  | c :: m, a => if c.1 = a then some c.2 else Memory.written m a

/-- Writes one byte, keeping the canonical form. -/
def Memory.write : Memory → Nat → Byte → Memory
  | [], a, b => [(a, b)]
  | c :: m, a, b =>
    if a < c.1 then (a, b) :: c :: m
    else if a = c.1 then (a, b) :: m
    else c :: Memory.write m a b

/-- IMG[i] := x (spec R143). -/
def Block.writeImg (i : Nat) (x : Byte) (b : Block) : Block := { b with IMG := Memory.write b.IMG i x }

/-- PARAM[i] := x (spec R144). -/
def Block.writeParam (i : Nat) (x : Byte) (b : Block) : Block := { b with PARAM := Memory.write b.PARAM i x }

/-- IMG[i]: the byte last written, else the unspecified byte of this power-on (spec R50, R143). -/
def State.imgByte (s : State) (i : Nat) : Byte :=
  match Memory.written s.blk.IMG i with
  | some b => b
  | none => Config.powerOnImg s.powerOns i

/-- PARAM[i]: the byte last written, else the unspecified byte of this power-on (spec R50, R144). -/
def State.paramByte (s : State) (i : Nat) : Byte :=
  match Memory.written s.blk.PARAM i with
  | some b => b
  | none => Config.powerOnParam s.powerOns i

end Sys2Proof.Machine
end

