-- ==== Sys2Proof/Machine/Operands.lean ====
section
/-! DEFINITION. The operands commands take from registers and memories (spec 30_encoding.md R101, 42_framer.md R176,
43_sequencer.md R208 to R210), and the width of count registers. -/

namespace Sys2Proof.Machine

/-- The byte operand of a command word: IMM8 taken as an unsigned byte (spec R101). -/
def immediateByte (w : Word) : Byte := w.extractLsb' 0 8

/-- The image D: IMG[0..IMG_LEN) in rising index order (spec R76, R176). -/
def State.imageBytes (s : State) : List Byte := (List.range s.blk.IMG_LEN.toNat).map s.imgByte

/-- The device parameter block PARAM[0..PARAM_LEN) (spec R113). -/
def State.paramBlock (s : State) : List Byte := (List.range s.blk.PARAM_LEN.toNat).map s.paramByte

/-- The encoder page size P = 2^PAGE_LOG2 (spec R35, R176). -/
def Block.encPage (b : Block) : Nat := 2 ^ b.PAGE_LOG2.toNat

/-- The encoder mode: null-omitting with page size P when OMIT_NULL is set, else plain (spec R179). -/
def Block.omitMode (b : Block) : Option Nat := if b.OMIT_NULL then some b.encPage else none

/-- The linear address just past the image, exact (spec R72, R178). -/
def Block.imgEnd (b : Block) : Nat := b.IMG_BASE.toNat + b.IMG_LEN.toNat

/-- The LoadAddress operand of a page address: `(A >> WP.ADDR_SHIFT)[15:0]` (spec R74, R210). -/
def loadOperand (cfg : Config) (A : Nat) : Half := BitVec.ofNat 16 (A >>> cfg.WP.ADDR_SHIFT)

/-- Whether a page address is loaded exactly by its LoadAddress operand (spec R207 check 6). -/
def loadable (cfg : Config) (A : Nat) : Bool :=
  A % 2 ^ cfg.WP.ADDR_SHIFT == 0 && decide (A >>> cfg.WP.ADDR_SHIFT < 2 ^ 16)

/-- A count in a 32-bit register or view; the spec states no value for a count of 2^32 or more, which is free
(log entry 6). -/
def countWord (n : Nat) : Word := if n < 2 ^ 32 then BitVec.ofNat 32 n else Config.wideCount n

end Sys2Proof.Machine
end

