-- ==== Sys2Proof/Machine/Ops.lean ====
section
/-! DEFINITION. The operations the meanings share: fetching the next input, the abnormal outcomes and the report of spec
60_exceptions.md (R277, R282, R284, and R186), the resets that leave them, and the block's outputs. -/

namespace Sys2Proof.Machine

/-! ### Inputs -/

/-- The priority of an input among those presented in the same cycle, highest first: RST, a HOST access, CLOSE, RX,
TICK (spec R290). A unit's own step, which no agent presents, comes last (log entry 4). -/
def Input.rank : Input → Nat
  | .event .rst => 0
  | .event (.csrRead _ _) => 1
  | .event (.csrWrite _ _ _) => 1
  | .event (.imgRead _) => 1
  | .event (.imgWrite _ _) => 1
  | .event (.paramRead _) => 1
  | .event (.paramWrite _ _) => 1
  | .event .close => 2
  | .event (.rx _) => 3
  | .event .tick => 4
  | .record _ => 5
  | .frame _ => 5

/-- The input of highest priority in a cycle `x :: xs`, and the rest of the cycle; of equals, the one presented first. -/
def firstOf (x : Input) : List Input → Input × List Input
  | [] => (x, [])
  | y :: ys =>
    if Input.rank (firstOf y ys).1 < Input.rank x then ((firstOf y ys).1, x :: (firstOf y ys).2) else (x, y :: ys)

/-- The next input: the first cycle that presents one, the highest priority within it (spec R88, R290). -/
def fetch : List (List Input) → Option (Input × List (List Input))
  | [] => none
  | [] :: rest => fetch rest
  | (x :: xs) :: rest => some ((firstOf x xs).1, (firstOf x xs).2 :: rest)

/-! ### Abnormal outcomes and reports -/

/-- `CmdErr(code, sub)`, the command error entry (spec R284). -/
def Block.cmdErr (code : CmdErrCode) (sub : SesCfgErr) (b : Block) : Block :=
  { b with CMD_ERRC := code, CMD_ERRS := sub, IRQ_STAT := b.IRQ_STAT ||| IrqBit.cmdErr.mask }

/-- `EncErr(code)`, the encoder error entry (spec R186). -/
def Block.encErr (code : EncErrCode) (b : Block) : Block :=
  { b with ENC_ST := .error, ENC_ERRC := code, OUTQ := [], IRQ_STAT := b.IRQ_STAT ||| IrqBit.encErr.mask }

/-- `report(kind, idx, result)`, the per-command report (spec R282). -/
def Block.report (kind : Option Kind) (idx : Word) (result : ReportResult) (b : Block) : Block :=
  { b with
    REPORTS := b.REPORTS + 1
    LAST_KIND := kind
    LAST_IDX := idx.extractLsb' 0 24
    LAST_RES := result
    IRQ_STAT := b.IRQ_STAT ||| IrqBit.cmdRpt.mask }

/-- `Q[SEQ_IDX]`: the command in flight, or the next one (spec R22, R46). -/
def Block.current (b : Block) : Option Cmd := b.Q[b.SEQ_IDX.toNat]?

/-- `addr_of(c)`: the address context of a command (spec R256). -/
def addrOf : Cmd → Word
  | .setDevice => 0
  | .enterProgrammingMode => 0
  | .loadAddress _ a32 => a32
  | .programPage _ a32 _ => a32
  | .readPage _ a32 _ => a32
  | .leaveProgrammingMode => 0
  | .readSignature => 0

/-- The context a failure carries (spec R277). -/
structure FailCtx where
  off : Word
  exp : Byte
  act : Byte
  deriving DecidableEq, Repr

/-- `ctx_none`: the bytes received toward the response, and no byte pair (spec R278). -/
def Block.ctxNone (b : Block) : FailCtx := ⟨countWord b.RB.length, 0, 0⟩

/-- `Fail(reason, ctx)`, the session failure entry (spec R277): the report, the failure record, INFLIGHT and SES_ST, and the
SES_FAIL interrupt bit. -/
def Block.fail (reason : FailReason) (ctx : FailCtx) (b : Block) : Block :=
  Block.irqSet .sesFail
    { b.report (b.current.map Cmd.kind) b.SEQ_IDX .failed with
      FAIL_REASON := reason
      FAIL_KIND := b.current.map Cmd.kind
      FAIL_IDX := b.SEQ_IDX
      FAIL_ADDR := (b.current.map addrOf).getD 0
      FAIL_OFF := ctx.off
      FAIL_EXP := ctx.exp
      FAIL_ACT := ctx.act
      INFLIGHT := none
      SES_ST := .failed }

/-! ### Ways out of an abnormal state (spec R281) -/

/-- The session state cleared by SES_RESET (spec R229); everything else is kept. -/
def Block.clearSession (b : Block) : Block :=
  { b with
    SES_ST := .idle
    Q := []
    SEQ_IDX := 0
    SEQ_LEN := 0
    RB := []
    TMR := 0
    WCUR := 0
    WCUR_V := false
    LINK_CLOSED := false
    FAIL_REASON := .noFailure
    FAIL_KIND := none
    FAIL_IDX := 0
    FAIL_ADDR := 0
    FAIL_OFF := 0
    FAIL_EXP := 0
    FAIL_ACT := 0
    SIG_READ := 0
    REPORTS := 0
    LAST_KIND := none
    LAST_RES := .noReport
    LAST_IDX := 0 }

/-- Every element at its reset value but the contents of IMG and PARAM (spec R303). -/
def Block.softReset (b : Block) : Block := { Block.reset with IMG := b.IMG, PARAM := b.PARAM }

/-! ### State -/

/-- A change of the block, everything around it kept. -/
def State.mapBlk (f : Block → Block) (s : State) : State := { s with blk := f s.blk }

/-- A host access or command rejected with a command error (spec R284). -/
def State.cmdErr (code : CmdErrCode) (s : State) : State := s.mapBlk (Block.cmdErr code .noSub)

/-- A session start rejected with SES_CFG_INVALID and its sub-code (spec R206, R274). -/
def State.cfgErr (sub : SesCfgErr) (s : State) : State := s.mapBlk (Block.cmdErr .sesCfgInvalid sub)

/-- Read data returned to HOST (spec R9). -/
def State.reply (r : HostRead) (s : State) : State := { s with reads := s.reads ++ [r] }

/-- LINK's answer to the next frame write: the next answer supplied, else a free one (spec R259). -/
def State.nextAnswer (s : State) : Bool :=
  match s.linkAnswers with
  | a :: _ => a
  | [] => Config.linkAnswer s.tx.length

/-- `emit_tx(bytes)`: the frame is offered to LINK and recorded with LINK's answer (spec R259, R260). -/
def State.emitTx (bytes : List Byte) (s : State) : State :=
  { s with linkAnswers := s.linkAnswers.drop 1, tx := s.tx ++ [⟨bytes, s.nextAnswer⟩] }

/-- The power-on reset: every element at its reset value, and new unspecified bytes in IMG and PARAM (spec R301). LINK,
its frames and the inputs to come are not touched (R302). -/
def State.powerOn (s : State) : State := { s with blk := Block.reset, powerOns := s.powerOns + 1 }

end Sys2Proof.Machine
end

