-- ==== Sys2Proof/Machine/Cka.lean ====
section
/-! DEFINITION. The checksum accumulator family: CK_CLR and CK_ADD (spec 41_checksum.md R161, R162). -/

namespace Sys2Proof.Machine

/-- The accumulator cleared (spec R161). -/
def Block.clearAcc (b : Block) : Block := { b with ACC := 0 }

/-- A byte accumulated (spec R162). -/
def Block.addAcc (x : Byte) (b : Block) : Block := { b with ACC := ckAccumulate b.ACC x }

/-- CK_CLR (spec R161): ACC becomes 0. -/
def execCkClr (s : State) : Host.Outcome State Fault Refusal := .next (s.mapBlk Block.clearAcc)

/-- CK_ADD b (spec R162): ACC becomes (ACC + b) mod 256. -/
def execCkAdd (x : Byte) (s : State) : Host.Outcome State Fault Refusal :=
  .next (s.mapBlk (Block.addAcc x))

end Sys2Proof.Machine
end

