-- ==== Sys2Proof/Machine/Csr.lean ====
section
/-! DEFINITION. The control and status registers: their offsets, layouts, locks and writes (spec 10_state.md R30 to R43,
20_memory.md R75 to R78, 70_reset_and_hazards.md R311). -/

namespace Sys2Proof.Machine

/-- The registers of the CSR map (spec R30). -/
inductive Csr where
  | CMD
  | STATUS
  | IRQ_STAT
  | IRQ_EN
  | HCK
  | IMG_BASE
  | IMG_LEN
  | ENC_CFG
  | ENC_ERRC
  | ENC_NREC
  | ENC_OUT
  | ENC_REM
  | SES_CFG
  | SES_TIMEOUT
  | SIG_EXPECT
  | PARAM_LEN
  | SEQ_IDX
  | SEQ_LEN
  | RB_COUNT
  | TMR
  | FAIL_INFO
  | FAIL_IDX
  | FAIL_ADDR
  | FAIL_OFF
  | SIG_READ
  | REPORTS
  | LAST_CMD
  | CMD_ERR
  | WCUR
  deriving DecidableEq, Repr

/-- The register at a byte offset (spec R30); the offsets of no register are `none`. -/
def Csr.ofOffset (off : Nat) : Option Csr :=
  match off with
  | 0x00 => some .CMD
  | 0x04 => some .STATUS
  | 0x08 => some .IRQ_STAT
  | 0x0C => some .IRQ_EN
  | 0x10 => some .HCK
  | 0x14 => some .IMG_BASE
  | 0x18 => some .IMG_LEN
  | 0x1C => some .ENC_CFG
  | 0x20 => some .ENC_ERRC
  | 0x24 => some .ENC_NREC
  | 0x28 => some .ENC_OUT
  | 0x2C => some .ENC_REM
  | 0x30 => some .SES_CFG
  | 0x34 => some .SES_TIMEOUT
  | 0x38 => some .SIG_EXPECT
  | 0x3C => some .PARAM_LEN
  | 0x40 => some .SEQ_IDX
  | 0x44 => some .SEQ_LEN
  | 0x48 => some .RB_COUNT
  | 0x4C => some .TMR
  | 0x50 => some .FAIL_INFO
  | 0x54 => some .FAIL_IDX
  | 0x58 => some .FAIL_ADDR
  | 0x5C => some .FAIL_OFF
  | 0x60 => some .SIG_READ
  | 0x64 => some .REPORTS
  | 0x68 => some .LAST_CMD
  | 0x6C => some .CMD_ERR
  | 0x70 => some .WCUR
  | _ => none

/-- The register an access of a width reaches; `none` is an ACCESS_FAULT: misaligned, not 32-bit, or at 0x74 or above
(spec R77, R141, R142). -/
def csrAt (off : Word) (width : Nat) : Option Csr :=
  if off.toNat % 4 ≠ 0 ∨ width ≠ 32 ∨ 0x74 ≤ off.toNat then none else Csr.ofOffset off.toNat

/-- A one-bit field. -/
def bit (b : Bool) : BitVec 1 := BitVec.ofBool b

/-- STATUS (spec R32). -/
def Block.statusWord (b : Block) : Word :=
  0#17 ++ bit b.sesActive ++ bit b.irq ++ bit b.LINK_CLOSED ++ kindCode b.INFLIGHT ++ b.SES_ST.code ++
    bit b.encOutValid ++ b.ENC_ST.code ++ bit b.hckZero

/-- HCK (spec R33). -/
def Block.hckWord (b : Block) : Word := 0#15 ++ bit b.hckZero ++ cksumOf b.ACC ++ b.ACC

/-- ENC_CFG (spec R35). -/
def Block.encCfgWord (b : Block) : Word := 0#17 ++ bit b.OMIT_NULL ++ bit b.PAGE_EN ++ b.PAGE_LOG2 ++ b.LINE_LEN

/-- The MEMKIND bit (spec R39). -/
def memKindBit : MemKind → BitVec 1
  | .flash => 0
  | .eeprom => 1

/-- SES_CFG (spec R39). -/
def Block.sesCfgWord (b : Block) : Word :=
  b.DEV_PAGE ++ 0#10 ++ b.SIG_LEN ++ bit b.SIGCHK ++ bit b.VERIFY ++ memKindBit b.MEMKIND

/-- FAIL_INFO (spec R42). -/
def Block.failInfoWord (b : Block) : Word :=
  0#8 ++ b.FAIL_ACT ++ b.FAIL_EXP ++ kindCode b.FAIL_KIND ++ b.FAIL_REASON.code

/-- LAST_CMD (spec R43). -/
def Block.lastCmdWord (b : Block) : Word := b.LAST_IDX ++ 0#2 ++ b.LAST_RES.code ++ kindCode b.LAST_KIND

/-- CMD_ERR (spec R43). -/
def Block.cmdErrWord (b : Block) : Word := 0#20 ++ b.CMD_ERRS.code ++ 0#4 ++ b.CMD_ERRC.code

/-- WCUR (spec R43). -/
def Block.wcurWord (b : Block) : Word := 0#15 ++ bit b.WCUR_V ++ b.WCUR

/-- ENC_OUT: VALID and the next text byte, or 0 when OUTQ is empty (spec R38). -/
def Block.encOutWord (b : Block) : Word :=
  match b.OUTQ with
  | [] => 0
  | c :: _ => 0#23 ++ 1#1 ++ c

/-- The value a register reads (spec R31 to R43); the pop of an ENC_OUT read is `Block.popText`. -/
def Block.csrValue (b : Block) : Csr → Word
  | .CMD => 0
  | .STATUS => b.statusWord
  | .IRQ_STAT => 0#24 ++ b.IRQ_STAT
  | .IRQ_EN => 0#24 ++ b.IRQ_EN
  | .HCK => b.hckWord
  | .IMG_BASE => b.IMG_BASE
  | .IMG_LEN => b.IMG_LEN
  | .ENC_CFG => b.encCfgWord
  | .ENC_ERRC => 0#28 ++ b.ENC_ERRC.code
  | .ENC_NREC => b.ENC_NREC
  | .ENC_OUT => b.encOutWord
  | .ENC_REM => countWord b.OUTQ.length
  | .SES_CFG => b.sesCfgWord
  | .SES_TIMEOUT => b.SES_TIMEOUT
  | .SIG_EXPECT => b.SIG_EXPECT
  | .PARAM_LEN => 0#16 ++ b.PARAM_LEN
  | .SEQ_IDX => b.SEQ_IDX
  | .SEQ_LEN => b.SEQ_LEN
  | .RB_COUNT => countWord b.RB.length
  | .TMR => b.TMR
  | .FAIL_INFO => b.failInfoWord
  | .FAIL_IDX => b.FAIL_IDX
  | .FAIL_ADDR => b.FAIL_ADDR
  | .FAIL_OFF => b.FAIL_OFF
  | .SIG_READ => b.SIG_READ
  | .REPORTS => b.REPORTS
  | .LAST_CMD => b.lastCmdWord
  | .CMD_ERR => b.cmdErrWord
  | .WCUR => b.wcurWord

/-- A read of ENC_OUT pops a byte when one is there; the read that empties OUTQ ends the drain (spec R38, R141, R192). -/
def Block.popText (b : Block) : Block :=
  match b.OUTQ with
  | [] => b
  | [_] => Block.irqSet .encDone { b with OUTQ := [], ENC_ST := .done }
  | _ :: rest => { b with OUTQ := rest }

/-- The effect of reading a register: none, but for ENC_OUT (spec R82, R141). -/
def Block.readEffect (b : Block) : Csr → Block
  | .ENC_OUT => b.popText
  | _ => b

/-- How a register takes a write (spec R30, R142). -/
inductive WriteClass where
  /-- CMD: the word is executed as a command (R31). -/
  | command
  /-- IRQ_STAT: a written 1 clears the bit (R36). -/
  | clearOnes
  /-- IRQ_EN: never locked (R311). -/
  | enables
  /-- A configuration register, subject to its lock (R311). -/
  | config
  /-- RO and RS registers: a write is an ACCESS_FAULT (R77). -/
  | readOnly
  deriving DecidableEq, Repr

/-- The write class of each register (spec R30). -/
def Csr.writeClass : Csr → WriteClass
  | .CMD => .command
  | .IRQ_STAT => .clearOnes
  | .IRQ_EN => .enables
  | .IMG_BASE | .IMG_LEN | .ENC_CFG | .SES_CFG | .SES_TIMEOUT | .SIG_EXPECT | .PARAM_LEN => .config
  | .STATUS | .HCK | .ENC_ERRC | .ENC_NREC | .ENC_OUT | .ENC_REM | .SEQ_IDX | .SEQ_LEN | .RB_COUNT | .TMR => .readOnly
  | .FAIL_INFO | .FAIL_IDX | .FAIL_ADDR | .FAIL_OFF | .SIG_READ | .REPORTS | .LAST_CMD | .CMD_ERR | .WCUR => .readOnly

/-- `locked(x)` for a register (spec R311). -/
def Block.csrLocked (b : Block) : Csr → Bool
  | .IMG_BASE | .IMG_LEN => b.encBusy || b.sesActive
  | .ENC_CFG => b.encBusy
  | .SES_CFG | .SES_TIMEOUT | .SIG_EXPECT | .PARAM_LEN => b.sesActive
  | .CMD | .STATUS | .IRQ_STAT | .IRQ_EN | .HCK | .ENC_ERRC | .ENC_NREC | .ENC_OUT | .ENC_REM | .SEQ_IDX => false
  | .SEQ_LEN | .RB_COUNT | .TMR | .FAIL_INFO | .FAIL_IDX | .FAIL_ADDR | .FAIL_OFF | .SIG_READ | .REPORTS => false
  | .LAST_CMD | .CMD_ERR | .WCUR => false

/-- `locked(x)` for the bytes of IMG (spec R143, R311). -/
def Block.imgLocked (b : Block) : Bool := b.encBusy || b.sesActive

/-- `locked(x)` for the bytes of PARAM (spec R144, R311). -/
def Block.paramLocked (b : Block) : Bool := b.sesActive

/-- The write of ENC_CFG: its defined fields, any value held as written (spec R35). -/
def Block.writeEncCfg (w : Word) (b : Block) : Block :=
  { b with
    LINE_LEN := w.extractLsb' 0 8
    PAGE_LOG2 := w.extractLsb' 8 5
    PAGE_EN := w.getLsbD 13
    OMIT_NULL := w.getLsbD 14 }

/-- The write of SES_CFG: its defined fields, any value held as written (spec R39). -/
def Block.writeSesCfg (w : Word) (b : Block) : Block :=
  { b with
    MEMKIND := if w.getLsbD 0 then .eeprom else .flash
    VERIFY := w.getLsbD 1
    SIGCHK := w.getLsbD 2
    SIG_LEN := w.extractLsb' 3 3
    DEV_PAGE := w.extractLsb' 16 16 }

/-- The write of a configuration register; reserved bits are ignored (spec R34, R35, R39, R40, R78). A register of
another class is not written here. -/
def Block.writeConfig (r : Csr) (w : Word) (b : Block) : Block :=
  match r with
  | .IMG_BASE => { b with IMG_BASE := w }
  | .IMG_LEN => { b with IMG_LEN := w }
  | .ENC_CFG => b.writeEncCfg w
  | .SES_CFG => b.writeSesCfg w
  | .SES_TIMEOUT => { b with SES_TIMEOUT := w }
  | .SIG_EXPECT => { b with SIG_EXPECT := w }
  | .PARAM_LEN => { b with PARAM_LEN := w.extractLsb' 0 16 }
  | _ => b

/-- The write of IRQ_STAT: `IRQ_STAT & ~w[7:0]` (spec R36, R142). -/
def Block.clearIrq (w : Word) (b : Block) : Block := { b with IRQ_STAT := b.IRQ_STAT &&& ~~~(w.extractLsb' 0 8) }

/-- The write of IRQ_EN: `w[7:0]` (spec R36, R142). -/
def Block.writeIrqEn (w : Word) (b : Block) : Block := { b with IRQ_EN := w.extractLsb' 0 8 }

end Sys2Proof.Machine
end

