-- ==== Sys2Proof/Machine/Resets.lean ====
section
/-! DEFINITION. The reset family: RST and SOFT_RESET (spec 70_reset_and_hazards.md R301 to R304). -/

namespace Sys2Proof.Machine

/-- RST (spec R301). -/
def execRst (s : State) : Host.Outcome State Fault Refusal := .next s.powerOn

/-- SOFT_RESET (spec R303): legal in every state, IMG and PARAM contents kept. -/
def execSoftReset (s : State) : Host.Outcome State Fault Refusal := .next (s.mapBlk Block.softReset)

end Sys2Proof.Machine
end

