-- ==== Sys2Proof/Machine/Encoder.lean ====
section
/-! DEFINITION. `Encode`, the pure function from an image to its records (spec 42_framer.md R179 to R185), and the
cutting of an image into pieces, which the framer and the sequencer share (R181, R182, 43_sequencer.md R209). -/

namespace Sys2Proof.Machine

/-- A run of image bytes and the linear address of its first byte (spec R72). -/
abbrev Piece := Nat × List Byte

/-- Cuts the bytes `d` that begin at linear address `A` into consecutive pieces, the piece at an address `a` being
at most `size a` bytes long. The first argument bounds the number of pieces; the length of `d` is enough
whenever every size is positive. -/
def cut (size : Nat → Nat) : Nat → Nat → List Byte → List Piece
  | 0, _, _ => []
  | fuel + 1, A, d =>
    if d = [] then [] else (A, d.take (size A)) :: cut size fuel (A + size A) (d.drop (size A))

/-- The bytes from `a` to the next multiple of `m` above `a`. -/
def roomBelowMultiple (m a : Nat) : Nat := m - a % m

/-- The block index `A[31:16]` of a linear address (spec R73, R176). -/
def blockOf (A : Nat) : Nat := A / 0x10000

/-- Chunks of plain mode: bounded by L, by the end of the data and by the block boundary (spec R181). -/
def plainChunks (L A : Nat) (d : List Byte) : List Piece :=
  cut (fun a => min L (roomBelowMultiple 0x10000 a)) d.length A d

/-- The image cut at every multiple of `m` in the linear space: the page segments of rule R182 and the session
pages of rule R209. -/
def pageSegments (m A : Nat) (d : List Byte) : List Piece := cut (roomBelowMultiple m) d.length A d

/-- Whether every byte of a list is 0x00. -/
def allZero (d : List Byte) : Bool := d.all (fun b => b == 0)

/-- The least index at which ZRUN zero bytes lie wholly inside the window, or the window's length (spec R185, `c`). -/
def zeroRunStart : List Byte → Nat
  | [] => 0
  | b :: w =>
    if Config.ZRUN ≤ (b :: w).length ∧ allZero ((b :: w).take Config.ZRUN) = true then 0 else 1 + zeroRunStart w

/-- A list without its trailing zero bytes (spec R185, `e`). -/
def dropTrailingZeros (d : List Byte) : List Byte := (d.reverse.dropWhile (fun b => b == 0)).reverse

/-- The payload of the record that starts at the head of `d`, a nonzero byte: at most L bytes, ended before a run of
ZRUN zeros, its trailing zeros dropped (spec R185). -/
def recordPayload (L : Nat) (d : List Byte) : List Byte :=
  dropTrailingZeros ((d.take L).take (zeroRunStart (d.take L)))

/-- The records inside a segment: zeros are skipped, each nonzero byte met starts a record (spec R185). The first
argument bounds the number of steps; the segment's length is enough whenever L is positive. -/
def segmentChunks (L : Nat) : Nat → Nat → List Byte → List Piece
  | 0, _, _ => []
  | _ + 1, _, [] => []
  | fuel + 1, A, b :: d =>
    if b = 0 then segmentChunks L fuel (A + 1) d
    else
      (A, recordPayload L (b :: d)) ::
        segmentChunks L fuel (A + (recordPayload L (b :: d)).length)
          ((b :: d).drop (recordPayload L (b :: d)).length)

/-- The chunks of one page segment: the single byte 0x00 for an all-zero one (spec R184), else those of R185. -/
def omitSegment (L : Nat) (p : Piece) : List Piece :=
  if allZero p.2 then [(p.1, [0x00#8])] else segmentChunks L p.2.length p.1 p.2

/-- The chunks of null-omitting mode (spec R182). -/
def omitChunks (L P A : Nat) (d : List Byte) : List Piece := (pageSegments P A d).flatMap (omitSegment L)

/-- `emit_data` over a list of chunks: an ELA record before a Data record whose block differs from the block
last established (spec R180, R183). -/
def injectEla : Nat → List Piece → List HexRecord
  | _, [] => []
  | ulba, (A, d) :: rest =>
    if blockOf A = ulba then dataRecord (BitVec.ofNat 16 A) d :: injectEla ulba rest
    else
      elaRecord (BitVec.ofNat 16 (blockOf A)) :: dataRecord (BitVec.ofNat 16 A) d :: injectEla (blockOf A) rest

/-- The chunks of an image in the mode selected: plain, or null-omitting with page size P (spec R179). -/
def imageChunks (L : Nat) (mode : Option Nat) (B : Nat) (d : List Byte) : List Piece :=
  match mode with
  | none => plainChunks L B d
  | some P => omitChunks L P B d

/-- `Encode` (spec R179): the data records with their ELA records, from ulba = 0, and then one EndOfFile record. -/
def encodeImage (L : Nat) (mode : Option Nat) (B : Nat) (d : List Byte) : List HexRecord :=
  injectEla 0 (imageChunks L mode B d) ++ [eofRecord]

/-- The text of a list of records (spec R188). -/
def textOf (rs : List HexRecord) : List Byte := rs.flatMap textLine

end Sys2Proof.Machine
end

