-- ==== Sys2Proof/Machine/Rfr.lean ====
section
/-! DEFINITION. The record framer family: ENC_START, and the record rows of the opcode table, which are the steps it takes
(spec 42_framer.md). -/

namespace Sys2Proof.Machine

/-- `validate_enc()`: the first failing check (spec R178). -/
def encCheck (cfg : Config) (b : Block) : Option EncErrCode :=
  if b.LINE_LEN = 0 then some .lineLenZero
  else if b.OMIT_NULL = true ∧ b.PAGE_EN = false then some .omitWithoutPage
  else if b.PAGE_EN = true ∧ 16 < b.PAGE_LOG2.toNat then some .pageTooLarge
  else if cfg.IMG_CAP < b.IMG_LEN.toNat then some .lenExceedsCap
  else if 2 ^ 32 < b.imgEnd then some .addrOverflow
  else none

/-- The records ENC_START produces from the image and the registers (spec R177, R179). -/
def State.encRecords (s : State) : List HexRecord :=
  encodeImage s.blk.LINE_LEN.toNat s.blk.omitMode s.blk.IMG_BASE.toNat s.imageBytes

/-- A list of records becomes the framer's output (spec R177, R188). -/
def Block.loadText (rs : List HexRecord) (b : Block) : Block :=
  { b with OUTQ := textOf rs, ENC_NREC := countWord rs.length, ENC_ERRC := .noError, ENC_ST := .busy }

/-- ENC_START (spec R177, R186). -/
def State.encStart (s : State) : State :=
  if s.blk.encBusy = true then s.cmdErr .wrongState
  else
    match encCheck s.cfg s.blk with
    | some e => s.mapBlk (Block.encErr e)
    | none => s.mapBlk (Block.loadText s.encRecords)

/-- ENC_START (spec R177). -/
def execEncStart (s : State) : Host.Outcome State Fault Refusal := .next s.encStart

/-- One record emitted: its text line joins OUTQ, and ENC_NREC counts it (spec R177, R180, R188). -/
def Block.emitRecord (r : HexRecord) (b : Block) : Block :=
  { b with OUTQ := b.OUTQ ++ textLine r, ENC_NREC := countWord (b.ENC_NREC.toNat + 1), ENC_ST := .busy }

/-- REC_DATA: the framer emits a Data record (spec R110, R180). -/
def execRecData (address : Half) (payload : List Byte) (s : State) : Host.Outcome State Fault Refusal :=
  .next (s.mapBlk (Block.emitRecord (dataRecord address payload)))

/-- REC_EOF: the framer emits the EndOfFile record (spec R109, R179). -/
def execRecEof (s : State) : Host.Outcome State Fault Refusal := .next (s.mapBlk (Block.emitRecord eofRecord))

/-- REC_ELA: the framer emits an ExtendedLinearAddress record (spec R108, R180). -/
def execRecEla (block : Half) (s : State) : Host.Outcome State Fault Refusal :=
  .next (s.mapBlk (Block.emitRecord (elaRecord block)))

/-- REC_ESA: the framer never emits an ExtendedSegmentAddress record (spec R195; I4: refuse). -/
def execRecEsa (_ : State) : Host.Outcome State Fault Refusal := .refused (.recordNeverEmitted .extendedSegmentAddress)

/-- REC_SSA: the framer never emits a StartSegmentAddress record (spec R195; I4: refuse). -/
def execRecSsa (_ : State) : Host.Outcome State Fault Refusal := .refused (.recordNeverEmitted .startSegmentAddress)

/-- REC_SLA: the framer never emits a StartLinearAddress record (spec R195; I4: refuse). -/
def execRecSla (_ : State) : Host.Outcome State Fault Refusal := .refused (.recordNeverEmitted .startLinearAddress)

end Sys2Proof.Machine
end

