-- ==== Sys2Proof/Machine/Wire.lean ====
section
/-! DEFINITION. Wire frames and response descriptors (spec 30_encoding.md R112 to R118, 44_validator.md R246 to R252). -/

namespace Sys2Proof.Machine

/-- The memory kind code (spec R114). -/
def memCode (wp : WireProfile) : MemKind → Byte
  | .flash => wp.MEMCODE_FLASH
  | .eeprom => wp.MEMCODE_EEPROM

/-- The LoadAddress operand in the order `WP.ADDR_ORDER` (spec R80, R113). -/
def addrBytes (wp : WireProfile) (a16 : Half) : List Byte :=
  match wp.ADDR_ORDER with
  | .be => beBytes a16
  | .le => leBytes a16

/-- The operand bytes of a command, given the parameter block (spec R113, R116). -/
def operands (wp : WireProfile) (param : List Byte) : Cmd → List Byte
  | .setDevice => param
  | .enterProgrammingMode => []
  | .loadAddress a16 _ => addrBytes wp a16
  | .programPage mk _ d => beBytes (BitVec.ofNat 16 d.length) ++ memCode wp mk :: d
  | .readPage mk _ n => beBytes n ++ [memCode wp mk]
  | .leaveProgrammingMode => []
  | .readSignature => []

/-- The frame's optional checksum, over the opcode and the operands (spec R112, D22). -/
def frameCksum (wp : WireProfile) (fields : List Byte) : List Byte := if wp.WIRE_CKSUM then [cksum8 fields] else []

/-- The frame's optional end byte (spec R112). -/
def frameEnd (wp : WireProfile) : List Byte := if wp.EOP_EN then [wp.EOP] else []

/-- The frame of a command: opcode, operands, optional checksum, optional end byte (spec R112). -/
def frame (wp : WireProfile) (param : List Byte) (c : Cmd) : List Byte :=
  (wp.OPC.get c.kind :: operands wp param c) ++ frameCksum wp (wp.OPC.get c.kind :: operands wp param c) ++ frameEnd wp

/-- The frame of a command with the parameter block the state holds. -/
def State.frameOf (s : State) (c : Cmd) : List Byte := frame s.cfg.WP s.paramBlock c

/-- `body_len(c)` (spec R117). -/
def bodyLen (sigLen : Nat) : Cmd → Nat
  | .readPage _ _ n => n.toNat
  | .readSignature => sigLen
  | .setDevice => 0
  | .enterProgrammingMode => 0
  | .loadAddress _ _ => 0
  | .programPage _ _ _ => 0
  | .leaveProgrammingMode => 0

/-- The number of leading markers of a kind, 0 or 1 (spec R117). -/
def leadLen (wp : WireProfile) (k : Kind) : Nat := (wp.LEAD_EN.get k).toNat

/-- The number of trailing markers of a kind, 0 or 1 (spec R117). -/
def trailLen (wp : WireProfile) (k : Kind) : Nat := (wp.TRAIL_EN.get k).toNat

/-- `resp_len(c)` (spec R117). -/
def respLen (wp : WireProfile) (sigLen : Nat) (c : Cmd) : Nat :=
  leadLen wp c.kind + bodyLen sigLen c + trailLen wp c.kind

/-- The response length of a command with the signature length the state holds. -/
def State.respLenOf (s : State) (c : Cmd) : Nat := respLen s.cfg.WP s.blk.SIG_LEN.toNat c

/-- The first wrong marker of a complete response, the leading one before the trailing one (spec R246, D25). -/
def markerFault (wp : WireProfile) (k : Kind) (r : List Byte) : Option FailCtx :=
  if wp.LEAD_EN.get k = true ∧ r.getD 0 0 ≠ wp.LEAD.get k then some ⟨0, wp.LEAD.get k, r.getD 0 0⟩
  else if wp.TRAIL_EN.get k = true ∧ r.getD (r.length - 1) 0 ≠ wp.TRAIL.get k then
    some ⟨BitVec.ofNat 32 (r.length - 1), wp.TRAIL.get k, r.getD (r.length - 1) 0⟩
  else none

/-- The body of a response: `r[ld .. ld + body_len)` (spec R246). -/
def bodyOf (wp : WireProfile) (sigLen : Nat) (c : Cmd) (r : List Byte) : List Byte :=
  (r.drop (leadLen wp c.kind)).take (bodyLen sigLen c)

/-- The first difference of the expected bytes and the body, with its offset counted from `i` (spec R251, R252). -/
def firstDiff : Nat → List Byte → List Byte → Option FailCtx
  | i, e :: es, b :: bs => if b = e then firstDiff (i + 1) es bs else some ⟨BitVec.ofNat 32 i, e, b⟩
  | _, _, _ => none

/-- The data of a ProgramPage; no other command holds data. -/
def pageData : Option Cmd → List Byte
  | some (.programPage _ _ d) => d
  | _ => []

/-- The data the ReadPage at SEQ_IDX verifies: that of the ProgramPage before it, `Q[SEQ_IDX − 1]` (spec R251). -/
def Block.verifiedData (b : Block) : List Byte := pageData b.Q[b.SEQ_IDX.toNat - 1]?

/-- The expected signature bytes `SIG_EXPECT[8i+7:8i]`, 0 ≤ i < SIG_LEN (spec R252). -/
def Block.expectedSig (b : Block) : List Byte :=
  (List.range b.SIG_LEN.toNat).map (fun i => b.SIG_EXPECT.extractLsb' (8 * i) 8)

/-- `sum(body[i] << 8i)`: the first byte least significant (spec R252). -/
def sigWord : List Byte → Word
  | [] => 0
  | b :: bs => b.setWidth 32 + (sigWord bs <<< 8)

end Sys2Proof.Machine
end

