-- ==== Sys2Proof/Machine/Session.lean ====
section
/-! DEFINITION. The session engine the sequencer and the validator share: issue, completion check, validation,
completion (spec 43_sequencer.md R217 to R225, 44_validator.md R245 to R252). -/

namespace Sys2Proof.Machine

/-- `raise Fail(reason, ctx)` (spec R277). -/
def State.failWith (reason : FailReason) (ctx : FailCtx) (s : State) : State := s.mapBlk (Block.fail reason ctx)

/-- The command is in flight with its own time budget (spec R217, R254). -/
def Block.begin (c : Cmd) (b : Block) : Block := { b with INFLIGHT := some c.kind, TMR := b.SES_TIMEOUT }

/-- The signature bytes are recorded when a ReadSignature response's markers match, whatever the compare finds
(spec R252); no other response is recorded. -/
def Block.noteSignature (c : Cmd) (body : List Byte) (b : Block) : Block :=
  match c with
  | .readSignature => { b with SIG_READ := sigWord body }
  | _ => b

/-- The compare a response's body is put to: ReadPage against the bytes written (spec R251), ReadSignature against
SIG_EXPECT (R252), no other kind (R248). -/
def Block.compareFault (c : Cmd) (body : List Byte) (b : Block) : Option (FailReason × FailCtx) :=
  match c with
  | .readPage _ _ _ => (firstDiff 0 b.verifiedData body).map (fun x => (.verifyMismatch, x))
  | .readSignature => (firstDiff 0 b.expectedSig body).map (fun x => (.signatureMismatch, x))
  | _ => none

/-- RB loses the bytes of a validated response (spec R250). -/
def Block.consume (n : Nat) (b : Block) : Block := { b with RB := b.RB.drop n }

/-- A completed LoadAddress sets the write cursor shadow (spec R221, R225). -/
def Block.noteCursor (c : Cmd) (b : Block) : Block :=
  match c with
  | .loadAddress a16 _ => { b with WCUR := a16, WCUR_V := true }
  | _ => b

/-- A completed command: cursor, report, INFLIGHT and SEQ_IDX (spec R221, its first four lines). -/
def Block.advance (c : Cmd) (b : Block) : Block :=
  { (b.noteCursor c).report (some c.kind) b.SEQ_IDX .ok with INFLIGHT := none, SEQ_IDX := b.SEQ_IDX + 1 }

/-- The session is Done (spec R222). -/
def Block.enterDone (b : Block) : Block := Block.irqSet .sesDone { b with SES_ST := .done }

/-- The last command completed: the session is Done (spec R221, R222). -/
def Block.finish (c : Cmd) (b : Block) : Block := (b.advance c).enterDone

/-- A command completed that is not the last: the session holds its phase (spec R221, R223). -/
def Block.moveOn (c : Cmd) (b : Block) : Block := { b.advance c with SES_ST := phaseOf c.kind }

/-- `complete_ok()` (spec R221): the last command ends the session, any other moves it to that command's phase and the
next command is issued by `go`. -/
def State.completeOk (c : Cmd) (go : State → State) (s : State) : State :=
  if s.blk.SEQ_IDX + 1 = s.blk.SEQ_LEN then s.mapBlk (Block.finish c)
  else go (s.mapBlk (Block.moveOn c))

/-- `validate(c, r)` on the complete response `r` (spec R246): markers, then the compare, then consumption and
completion. -/
def State.validate (c : Cmd) (r : List Byte) (go : State → State) (s : State) : State :=
  match markerFault s.cfg.WP c.kind r with
  | some ctx => s.failWith .protocolDesync ctx
  | none =>
    let body := bodyOf s.cfg.WP s.blk.SIG_LEN.toNat c r
    let noted := s.mapBlk (Block.noteSignature c body)
    match noted.blk.compareFault c body with
    | some f => noted.failWith f.1 f.2
    | none => (noted.mapBlk (Block.consume r.length)).completeOk c go

/-- The check of a response in RB for the command in flight (spec R245): nothing until its bytes are all there. -/
def State.respond (c : Cmd) (go : State → State) (s : State) : State :=
  if s.blk.RB.length < s.respLenOf c then s else s.validate c (s.blk.RB.take (s.respLenOf c)) go

/-- `issue()` (spec R217) for the commands still to come, the first of them `Q[SEQ_IDX]`: the frame is written and bytes
already in RB are checked, which may complete it and issue the next. -/
def State.issueFrom : List Cmd → State → State
  | [], s => s
  | c :: rest, s =>
    let begun := s.mapBlk (Block.begin c)
    if begun.blk.LINK_CLOSED = true then begun.failWith .disconnected begun.blk.ctxNone
    else
      let sent := begun.emitTx (begun.frameOf c)
      if begun.nextAnswer = true then sent.respond c (State.issueFrom rest)
      else sent.failWith .disconnected sent.blk.ctxNone

/-- The commands from Q[SEQ_IDX] on (spec R46). -/
def Block.remaining (b : Block) : List Cmd := b.Q.drop b.SEQ_IDX.toNat

/-- `issue()` (spec R217). -/
def State.issue (s : State) : State := State.issueFrom s.blk.remaining s

/-- `check_completion()` (spec R245). -/
def State.checkCompletion (s : State) : State :=
  match s.blk.remaining with
  | [] => s
  | c :: rest => s.respond c (State.issueFrom rest)

/-- A received byte kept in RB (spec R242). -/
def Block.store (x : Byte) (b : Block) : Block := { b with RB := b.RB ++ [x] }

/-- `rx_byte(b)` (spec R242, R244). -/
def State.rxByte (s : State) (x : Byte) : State :=
  if s.blk.SES_ST.terminal = true then s
  else if s.blk.RB.length = s.cfg.RB_CAP then s.mapBlk (Block.irqSet .rbOvf)
  else
    let stored := s.mapBlk (Block.store x)
    if s.blk.INFLIGHT = none then stored else stored.checkCompletion

/-- Whether the sequencer's next step is to issue this command: no command in flight, the session not ended, and
`Q[SEQ_IDX]` this command (spec R217, R218). -/
def Block.due (c : Cmd) (b : Block) : Bool :=
  b.INFLIGHT.isNone && !b.SES_ST.terminal && decide (b.current = some c)

/-- The sequencer's step for one command: issue, when the command is due; a frame that is not due is not written
(spec R218, log entry 4). -/
def State.issueDue (c : Cmd) (s : State) : State := if s.blk.due c then s.issue else s

end Sys2Proof.Machine
end

