-- ==== Sys2Proof/Machine/Sequencer.lean ====
section
/-! DEFINITION. The protocol sequencer family: SES_FLASH, SES_SIG, SES_STOP, SES_RESET, and the wire-frame rows of the opcode
table, which are the steps it takes (spec 43_sequencer.md). -/

namespace Sys2Proof.Machine

/-- The session pages of the image (spec R208, R209). -/
def State.pages (s : State) : List Piece := pageSegments s.blk.DEV_PAGE.toNat s.blk.IMG_BASE.toNat s.imageBytes

/-- The commands of the pages (spec R212), given the build-time copy of the write cursor (R214). -/
def pageCmds (cfg : Config) (mk : MemKind) (verify : Bool) : Option Half → List Piece → List Cmd
  | _, [] => []
  | cur, (A, d) :: rest =>
    (if cur = some (loadOperand cfg A) then [] else [.loadAddress (loadOperand cfg A) (BitVec.ofNat 32 A)]) ++
      .programPage mk (BitVec.ofNat 32 A) d ::
        ((if verify then [.readPage mk (BitVec.ofNat 32 A) (BitVec.ofNat 16 d.length)] else []) ++
          pageCmds cfg mk verify (some (loadOperand cfg A)) rest)

/-- `build_flash_Q()` (spec R212). -/
def State.flashQ (s : State) : List Cmd :=
  .setDevice :: .enterProgrammingMode ::
    (pageCmds s.cfg s.blk.MEMKIND s.blk.VERIFY none s.pages ++
      .leaveProgrammingMode :: (if s.blk.SIGCHK then [.readSignature] else []))

/-- Whether SIG_LEN is a signature length, 1 to 4 (spec R39, R207 check 3). -/
def Block.sigLenValid (b : Block) : Bool := decide (1 ≤ b.SIG_LEN.toNat ∧ b.SIG_LEN.toNat ≤ 4)

/-- Whether some response of a sequence could never fit in RB (spec R207 check 5). -/
def State.respTooLong (s : State) (q : List Cmd) : Bool := q.any (fun c => decide (s.cfg.RB_CAP < s.respLenOf c))

/-- `check_flash_cfg()`: the first failing check (spec R207). -/
def State.flashCheck (s : State) : Option SesCfgErr :=
  if s.blk.DEV_PAGE = 0 then some .devPageZero
  else if s.cfg.IMG_CAP < s.blk.IMG_LEN.toNat ∨ 2 ^ 32 < s.blk.imgEnd then some .imgRange
  else if s.blk.SIGCHK = true ∧ s.blk.sigLenValid = false then some .sigLenInvalid
  else if s.cfg.PARAM_CAP < s.blk.PARAM_LEN.toNat then some .paramLenInvalid
  else if s.respTooLong s.flashQ = true then some .respTooLong
  else if s.pages.any (fun p => !loadable s.cfg p.1) = true then some .addrUnloadable
  else none

/-- A session's sequence is set up: Q, SEQ_LEN, SEQ_IDX and the invalid cursor (spec R206, R215, R225). -/
def Block.openSession (q : List Cmd) (b : Block) : Block :=
  { b with Q := q, SEQ_LEN := BitVec.ofNat 32 q.length, SEQ_IDX := 0, WCUR := 0, WCUR_V := false }

/-- Whether a session may be started: Idle with no command in flight (spec R206, R313). -/
def Block.ready (b : Block) : Bool := b.SES_ST == .idle && b.INFLIGHT.isNone

/-- SES_FLASH (spec R206). -/
def State.sesFlash (s : State) : State :=
  if s.blk.ready = false then s.cmdErr .wrongState
  else
    match s.flashCheck with
    | some e => s.cfgErr e
    | none => (s.mapBlk (Block.openSession s.flashQ)).issue

/-- SES_FLASH (spec R206). -/
def execSesFlash (s : State) : Host.Outcome State Fault Refusal := .next s.sesFlash

/-- The checks of SES_SIG (spec R215). -/
def State.sigCheck (s : State) : Option SesCfgErr :=
  if s.blk.sigLenValid = false then some .sigLenInvalid
  else if s.respTooLong [.readSignature] = true then some .respTooLong
  else none

/-- SES_SIG (spec R215, R216). -/
def State.sesSig (s : State) : State :=
  if s.blk.ready = false then s.cmdErr .wrongState
  else
    match s.sigCheck with
    | some e => s.cfgErr e
    | none => (s.mapBlk (Block.openSession [.readSignature])).issue

/-- SES_SIG (spec R215). -/
def execSesSig (s : State) : Host.Outcome State Fault Refusal := .next s.sesSig

/-- The report of a discarded command, when one is in flight (spec R227). -/
def Block.discard (b : Block) : Block :=
  match b.INFLIGHT with
  | none => b
  | some k => { b.report (some k) b.SEQ_IDX .discarded with INFLIGHT := none }

/-- SES_STOP (spec R227): no effect in a terminal state. -/
def Block.stop (b : Block) : Block :=
  if b.SES_ST.terminal = true then b else Block.irqSet .sesStop { b.discard with RB := [], SES_ST := .stopped }

/-- SES_STOP (spec R227). -/
def execSesStop (s : State) : Host.Outcome State Fault Refusal := .next (s.mapBlk Block.stop)

/-- SES_RESET (spec R229): refused while a command is in flight. -/
def State.sesReset (s : State) : State :=
  if s.blk.sesActive = true then s.cmdErr .wrongState else s.mapBlk Block.clearSession

/-- SES_RESET (spec R229). -/
def execSesReset (s : State) : Host.Outcome State Fault Refusal := .next s.sesReset

/-- W_SET_DEVICE: the sequencer issues SetDevice (spec R113, R217). -/
def execWSetDevice (s : State) : Host.Outcome State Fault Refusal := .next (s.issueDue .setDevice)

/-- W_ENTER_PROGMODE: the sequencer issues EnterProgrammingMode (spec R113, R217). -/
def execWEnterProgmode (s : State) : Host.Outcome State Fault Refusal := .next (s.issueDue .enterProgrammingMode)

/-- W_LOAD_ADDRESS: the sequencer issues LoadAddress (spec R113, R217). -/
def execWLoadAddress (a16 : Half) (a32 : Word) (s : State) : Host.Outcome State Fault Refusal :=
  .next (s.issueDue (.loadAddress a16 a32))

/-- W_PROGRAM_PAGE: the sequencer issues ProgramPage (spec R113, R217). -/
def execWProgramPage (mk : MemKind) (a32 : Word) (data : List Byte) (s : State) : Host.Outcome State Fault Refusal :=
  .next (s.issueDue (.programPage mk a32 data))

/-- W_READ_PAGE: the sequencer issues ReadPage (spec R113, R217). -/
def execWReadPage (mk : MemKind) (a32 : Word) (n : Half) (s : State) : Host.Outcome State Fault Refusal :=
  .next (s.issueDue (.readPage mk a32 n))

/-- W_LEAVE_PROGMODE: the sequencer issues LeaveProgrammingMode (spec R113, R217). -/
def execWLeaveProgmode (s : State) : Host.Outcome State Fault Refusal := .next (s.issueDue .leaveProgrammingMode)

/-- W_READ_SIGNATURE: the sequencer issues ReadSignature (spec R113, R217). -/
def execWReadSignature (s : State) : Host.Outcome State Fault Refusal := .next (s.issueDue .readSignature)

end Sys2Proof.Machine
end

