-- ==== Sys2Proof/Machine/HostAccess.lean ====
section
/-! DEFINITION. The host access family: CSR, IMG and PARAM accesses, command dispatch, NOP (spec 40_host_access.md). -/

namespace Sys2Proof.Machine

/-- NOP (spec R146). -/
def execNop (s : State) : Host.Outcome State Fault Refusal := .next s

/-- CSR_READ (spec R141): the register's value is returned; a read of ENC_OUT pops a text byte. -/
def State.csrRead (off : Word) (width : Nat) (s : State) : State :=
  match csrAt off width with
  | none => (s.cmdErr .accessFault).reply (.word 0)
  | some r => (s.mapBlk (fun b => b.readEffect r)).reply (.word (s.blk.csrValue r))

/-- CSR_READ (spec R141). -/
def execCsrRead (off : Word) (width : Nat) (s : State) : Host.Outcome State Fault Refusal := .next (s.csrRead off width)

/-- `execute_command(w)` (spec R145). -/
def executeCommand (w : Word) (s : State) : Host.Outcome State Fault Refusal :=
  match decodeCommand w with
  | .error e => .next (s.cmdErr (cmdErrOf e))
  | .ok .nop => execNop s
  | .ok .ckClr => execCkClr s
  | .ok (.ckAdd b) => execCkAdd b s
  | .ok .encStart => execEncStart s
  | .ok .sesFlash => execSesFlash s
  | .ok .sesSig => execSesSig s
  | .ok .sesReset => execSesReset s
  | .ok .sesStop => execSesStop s
  | .ok .softReset => execSoftReset s

/-- The write of a configuration register, refused while it is locked (spec R142, R311). -/
def State.writeConfig (r : Csr) (w : Word) (s : State) : State :=
  if s.blk.csrLocked r = true then s.cmdErr .writeLocked else s.mapBlk (Block.writeConfig r w)

/-- CSR_WRITE (spec R142): a write to CMD is a command. -/
def execCsrWrite (off : Word) (width : Nat) (w : Word) (s : State) : Host.Outcome State Fault Refusal :=
  match csrAt off width with
  | none => .next (s.cmdErr .accessFault)
  | some r =>
    match r.writeClass with
    | .command => executeCommand w s
    | .clearOnes => .next (s.mapBlk (Block.clearIrq w))
    | .enables => .next (s.mapBlk (Block.writeIrqEn w))
    | .config => .next (s.writeConfig r w)
    | .readOnly => .next (s.cmdErr .accessFault)

/-- IMG_READ (spec R143): never locked. -/
def execImgRead (i : Word) (s : State) : Host.Outcome State Fault Refusal :=
  if s.cfg.IMG_CAP ≤ i.toNat then .next ((s.cmdErr .accessFault).reply (.byte 0))
  else .next (s.reply (.byte (s.imgByte i.toNat)))

/-- IMG_WRITE (spec R143). -/
def execImgWrite (i : Word) (x : Byte) (s : State) : Host.Outcome State Fault Refusal :=
  if s.cfg.IMG_CAP ≤ i.toNat then .next (s.cmdErr .accessFault)
  else if s.blk.imgLocked = true then .next (s.cmdErr .writeLocked)
  else .next (s.mapBlk (Block.writeImg i.toNat x))

/-- PARAM_READ (spec R144): never locked. -/
def execParamRead (i : Half) (s : State) : Host.Outcome State Fault Refusal :=
  if s.cfg.PARAM_CAP ≤ i.toNat then .next ((s.cmdErr .accessFault).reply (.byte 0))
  else .next (s.reply (.byte (s.paramByte i.toNat)))

/-- PARAM_WRITE (spec R144). -/
def execParamWrite (i : Half) (x : Byte) (s : State) : Host.Outcome State Fault Refusal :=
  if s.cfg.PARAM_CAP ≤ i.toNat then .next (s.cmdErr .accessFault)
  else if s.blk.paramLocked = true then .next (s.cmdErr .writeLocked)
  else .next (s.mapBlk (Block.writeParam i.toNat x))

end Sys2Proof.Machine
end

