-- ==== Sys2Proof/Machine/Validator.lean ====
section
/-! DEFINITION. The frame validator and timeout family: RX, TICK, CLOSE (spec 44_validator.md R241, R256, R258). -/

namespace Sys2Proof.Machine

/-- RX: the bytes of a chunk in order (spec R241). -/
def State.rxBytes (chunk : List Byte) (s : State) : State := chunk.foldl State.rxByte s

/-- RX (spec R241). -/
def execRx (chunk : List Byte) (s : State) : Host.Outcome State Fault Refusal := .next (s.rxBytes chunk)

/-- One tick of the budget (spec R256). -/
def Block.countDown (b : Block) : Block := { b with TMR := b.TMR - 1 }

/-- The link is closed (spec R258). -/
def Block.closeLink (b : Block) : Block := { b with LINK_CLOSED := true }

/-- TICK (spec R256): the budget of the command in flight counts down, and its end fails the command. -/
def State.tick (s : State) : State :=
  if s.blk.INFLIGHT = none then s
  else if s.blk.TMR = 0 then s.failWith .timeout s.blk.ctxNone
  else s.mapBlk Block.countDown

/-- TICK (spec R256). -/
def execTick (s : State) : Host.Outcome State Fault Refusal := .next s.tick

/-- CLOSE (spec R258): the link is closed, and a command in flight fails. -/
def State.close (s : State) : State :=
  let closed := s.mapBlk Block.closeLink
  if s.blk.INFLIGHT = none then closed else closed.failWith .disconnected closed.blk.ctxNone

/-- CLOSE (spec R258). -/
def execClose (s : State) : Host.Outcome State Fault Refusal := .next s.close

end Sys2Proof.Machine
end

