-- ==== Sys2Proof/Machine/Dispatch.lean ====
section
/-! DEFINITION. The meaning of every instruction, one arm per constructor of `Instr`. -/

namespace Sys2Proof.Machine

def exec (i : Instr) (s : State) : Host.Outcome State Fault Refusal :=
  match i with
  -- host commands (spec R97)
  | .nop => Sys2Proof.Machine.execNop s
  | .ckClr => Sys2Proof.Machine.execCkClr s
  | .ckAdd b => Sys2Proof.Machine.execCkAdd b s
  | .encStart => Sys2Proof.Machine.execEncStart s
  | .sesFlash => Sys2Proof.Machine.execSesFlash s
  | .sesSig => Sys2Proof.Machine.execSesSig s
  | .sesReset => Sys2Proof.Machine.execSesReset s
  | .sesStop => Sys2Proof.Machine.execSesStop s
  | .softReset => Sys2Proof.Machine.execSoftReset s
  -- input events (spec R122)
  | .csrRead off width => Sys2Proof.Machine.execCsrRead off width s
  | .csrWrite off width w => Sys2Proof.Machine.execCsrWrite off width w s
  | .imgRead a => Sys2Proof.Machine.execImgRead a s
  | .imgWrite a b => Sys2Proof.Machine.execImgWrite a b s
  | .paramRead a => Sys2Proof.Machine.execParamRead a s
  | .paramWrite a b => Sys2Proof.Machine.execParamWrite a b s
  | .rx chunk => Sys2Proof.Machine.execRx chunk s
  | .close => Sys2Proof.Machine.execClose s
  | .tick => Sys2Proof.Machine.execTick s
  | .rst => Sys2Proof.Machine.execRst s
  -- records (spec R103)
  | .recData address payload => Sys2Proof.Machine.execRecData address payload s
  | .recEof => Sys2Proof.Machine.execRecEof s
  | .recEsa _ _ => Sys2Proof.Machine.execRecEsa s
  | .recSsa _ _ => Sys2Proof.Machine.execRecSsa s
  | .recEla block => Sys2Proof.Machine.execRecEla block s
  | .recSla _ _ => Sys2Proof.Machine.execRecSla s
  -- wire frames (spec R112, R113)
  | .wSetDevice => Sys2Proof.Machine.execWSetDevice s
  | .wEnterProgmode => Sys2Proof.Machine.execWEnterProgmode s
  | .wLoadAddress a16 a32 => Sys2Proof.Machine.execWLoadAddress a16 a32 s
  | .wProgramPage mk a32 data => Sys2Proof.Machine.execWProgramPage mk a32 data s
  | .wReadPage mk a32 n => Sys2Proof.Machine.execWReadPage mk a32 n s
  | .wLeaveProgmode => Sys2Proof.Machine.execWLeaveProgmode s
  | .wReadSignature => Sys2Proof.Machine.execWReadSignature s

end Sys2Proof.Machine
end

