-- ==== Sys2Proof/Machine/Step.lean ====
section
/-! DEFINITION. One step: the next input is taken, decoded and executed whole (spec R9, R88). -/

namespace Sys2Proof.Machine

/-- One step of the machine. With no input presented the block holds its state (spec R296). -/
def step (s : State) : Host.Outcome State Fault Refusal :=
  match fetch s.cycles with
  | none => .next s
  | some (x, rest) =>
    match decode x with
    | .ok i => exec i { s with cycles := rest }
    | .error e => .refused (.undecodable e)

/-- The state whose next input is the image of an opcode-table row's bits, presented alone in the next cycle. -/
def State.withFetchWord (s : State) (nbits w : Nat) : State := { s with cycles := [tableImage nbits w] :: s.cycles }

end Sys2Proof.Machine
end

