-- ==== Sys2Proof/Safety.lean ====
section
/-! DEFINITION. What claims about SHL-CFS speak of: the invariant of spec 10_state.md R49, runs of instructions, and the
receiver of the framer's text (spec 20_memory.md R73). -/

namespace Sys2Proof.Machine

/-- The invariant of every reachable state: the five clauses of spec R49, with what they rest on (a legal
configuration, memories in canonical form inside their capacities, SEQ_LEN the length of Q). -/
structure State.Inv (s : State) : Prop where
  cfgValid : s.cfg.Valid
  imgWf : Memory.wf s.blk.IMG
  imgWithin : ∀ c ∈ s.blk.IMG, c.1 < s.cfg.IMG_CAP
  paramWf : Memory.wf s.blk.PARAM
  paramWithin : ∀ c ∈ s.blk.PARAM, c.1 < s.cfg.PARAM_CAP
  seqLen : s.blk.SEQ_LEN.toNat = s.blk.Q.length
  /-- R49 (i) -/
  phaseInFlight : s.blk.SES_ST ≠ .idle → s.blk.SES_ST.terminal = false → s.blk.INFLIGHT ≠ none
  /-- R49 (ii) -/
  inFlight : s.blk.INFLIGHT ≠ none →
    s.blk.SEQ_IDX.toNat < s.blk.SEQ_LEN.toNat ∧
      ∃ c, s.blk.current = some c ∧ s.blk.INFLIGHT = some c.kind ∧ s.blk.RB.length < s.respLenOf c
  /-- R49 (iii) -/
  terminalQuiet : s.blk.SES_ST.terminal = true → s.blk.INFLIGHT = none
  /-- R49 (iv) -/
  busyIff : s.blk.ENC_ST = .busy ↔ s.blk.OUTQ ≠ []
  /-- R49 (v) -/
  rbCap : s.blk.RB.length ≤ s.cfg.RB_CAP

/-- `s` after a command error: the error record of spec R284 and nothing else. -/
def State.afterCmdErr (code : CmdErrCode) (sub : SesCfgErr) (s : State) : State :=
  { s with blk := { s.blk with CMD_ERRC := code, CMD_ERRS := sub, IRQ_STAT := s.blk.IRQ_STAT ||| 0x40#8 } }

/-- `s` after the failure of its command `c`: the report of spec R282, the record of R277, and nothing else. -/
def State.afterFail (reason : FailReason) (c : Cmd) (off : Word) (exp act : Byte) (s : State) : State :=
  { s with
    blk := { s.blk with
      REPORTS := s.blk.REPORTS + 1
      LAST_KIND := some c.kind
      LAST_RES := .failed
      LAST_IDX := s.blk.SEQ_IDX.extractLsb' 0 24
      FAIL_REASON := reason
      FAIL_KIND := some c.kind
      FAIL_IDX := s.blk.SEQ_IDX
      FAIL_ADDR := addrOf c
      FAIL_OFF := off
      FAIL_EXP := exp
      FAIL_ACT := act
      INFLIGHT := none
      SES_ST := .failed
      IRQ_STAT := s.blk.IRQ_STAT ||| 0x28#8 } }

/-- `s` after its command `c`, in flight, completed: the cursor of a LoadAddress, the report, INFLIGHT and SEQ_IDX of spec
R221, and nothing else. -/
def State.afterOk (c : Cmd) (s : State) : State :=
  { s with
    blk := { s.blk with
      WCUR := match c with | .loadAddress a16 _ => a16 | _ => s.blk.WCUR
      WCUR_V := match c with | .loadAddress _ _ => true | _ => s.blk.WCUR_V
      REPORTS := s.blk.REPORTS + 1
      LAST_KIND := some c.kind
      LAST_RES := .ok
      LAST_IDX := s.blk.SEQ_IDX.extractLsb' 0 24
      INFLIGHT := none
      SEQ_IDX := s.blk.SEQ_IDX + 1
      IRQ_STAT := s.blk.IRQ_STAT ||| 0x20#8 } }

/-- `s` after the frame of `c` was written and answered `ok`: the command in flight with its time budget (spec R217), and
nothing else. -/
def State.afterIssue (c : Cmd) (s : State) : State :=
  { s with
    linkAnswers := s.linkAnswers.drop 1
    tx := s.tx ++ [⟨s.frameOf c, true⟩]
    blk := { s.blk with INFLIGHT := some c.kind, TMR := s.blk.SES_TIMEOUT } }

/-- `s` with the command sequence `q` set up and its first command next (spec R206, R215). -/
def State.opened (q : List Cmd) (s : State) : State :=
  { s with
    blk := { s.blk with Q := q, SEQ_LEN := BitVec.ofNat 32 q.length, SEQ_IDX := 0, WCUR := 0, WCUR_V := false } }

/-- `s` after LINK refused the frame of `c` (answered `fail`): the frame recorded as failed, the command's failure with
Disconnected (spec R217, R260, R277, R278), and nothing else. -/
def State.afterLinkFail (c : Cmd) (s : State) : State :=
  State.afterFail .disconnected c (BitVec.ofNat 32 s.blk.RB.length) 0 0
    { s with
      linkAnswers := s.linkAnswers.drop 1
      tx := s.tx ++ [⟨s.frameOf c, false⟩]
      blk := { s.blk with TMR := s.blk.SES_TIMEOUT } }

/-- `s` after a good response to its last command `c`, the bytes `surplus` left in RB: the command completed, the session Done
(spec R221, R222, R250), and nothing else. -/
def State.afterLast (c : Cmd) (surplus : List Byte) (s : State) : State :=
  let t := { s with blk := { s.blk with RB := surplus } }.afterOk c
  { t with blk := { t.blk with SES_ST := .done, IRQ_STAT := t.blk.IRQ_STAT ||| 0x04#8 } }

/-- `s` after a good response to its command `c`, not the last, the bytes `surplus` left in RB: the command completed and its
phase held, the next command due (spec R221, R223, R250), and nothing else. -/
def State.movedOn (c : Cmd) (surplus : List Byte) (s : State) : State :=
  let t := { s with blk := { s.blk with RB := surplus } }.afterOk c
  { t with blk := { t.blk with SES_ST := phaseOf c.kind } }

/-- `s` after a good response to its command `c` when `d` is next: the response consumed, the command completed, its phase
held, and `d` issued (spec R217, R221, R223), and nothing else. -/
def State.afterNext (c d : Cmd) (s : State) : State := (s.movedOn c []).afterIssue d

/-- The body a good response to `c` carries: for ReadPage the data of the ProgramPage before it (spec R251), for ReadSignature the
bytes of SIG_EXPECT (R252), for any other kind none (R248). -/
def State.expects (s : State) (c : Cmd) (e : List Byte) : Prop :=
  match c with
  | .readPage _ _ n => e.length = n.toNat ∧ ∃ mk a, s.blk.Q[s.blk.SEQ_IDX.toNat - 1]? = some (.programPage mk a e)
  | .readSignature => e = (List.range s.blk.SIG_LEN.toNat).map (fun i => s.blk.SIG_EXPECT.extractLsb' (8 * i) 8)
  | _ => e = []

/-- The failure a wrong body of `c` raises (spec R251, R252). -/
def mismatchOf (c : Cmd) : FailReason := if c.kind = .readPage then .verifyMismatch else .signatureMismatch

/-- `s` with the body of a well-marked response to `c` recorded: in SIG_READ for ReadSignature, first byte least significant (spec
R252), nowhere for any other kind. -/
def State.noted (c : Cmd) (body : List Byte) (s : State) : State :=
  match c with
  | .readSignature =>
    { s with
      blk := { s.blk with
        SIG_READ := BitVec.ofNat 32 (body.mapIdx (fun (i : Nat) (b : Byte) => b.toNat * 256 ^ i)).sum } }
  | _ => s

/-- A well-marked response of a kind: `[LEAD]? ++ body ++ [TRAIL]?` (spec R117). -/
def responseOf (wp : WireProfile) (k : Kind) (body : List Byte) : List Byte :=
  (if wp.LEAD_EN.get k then [wp.LEAD.get k] else []) ++ body ++ (if wp.TRAIL_EN.get k then [wp.TRAIL.get k] else [])

/-- A command `c` is in flight in a session that has not ended (spec R224). -/
def State.awaits (s : State) (c : Cmd) : Prop :=
  s.blk.current = some c ∧ s.blk.INFLIGHT = some c.kind ∧ s.blk.SES_ST.terminal = false

/-- The next command `d` after the one at SEQ_IDX, in a sequence that a 32-bit SEQ_LEN can count. -/
def State.follows (s : State) (d : Cmd) : Prop :=
  s.blk.SEQ_IDX + 1 ≠ s.blk.SEQ_LEN ∧ s.blk.Q[s.blk.SEQ_IDX.toNat + 1]? = some d ∧ s.blk.Q.length < 2 ^ 32

/-- A run of instructions, stopping at the first that has no next state. -/
def runInstrs : List Instr → State → Host.Outcome State Fault Refusal
  | [], s => .next s
  | i :: is, s =>
    match exec i s with
    | .next t => runInstrs is t
    | .fault r => .fault r
    | .refused r => .refused r

/-- The block index an ELA payload carries, high byte first (spec R108). -/
def blockOfPayload : List Byte → Half
  | [hi, lo] => hi ++ lo
  | _ => 0

/-- The opcode-table row of a record (spec R103, R108 to R110). -/
def HexRecord.toInstr (r : HexRecord) : Instr :=
  match r.type with
  | .data => .recData r.address r.payload
  | .endOfFile => .recEof
  | .extendedSegmentAddress => .recEsa r.address r.payload
  | .startSegmentAddress => .recSsa r.address r.payload
  | .extendedLinearAddress => .recEla (blockOfPayload r.payload)
  | .startLinearAddress => .recSla r.address r.payload

/-- What a receiver of the records places, and where: an ELA record sets the upper 16 bits, a Data record's bytes stand at
`{ULBA, address}` (spec R73). -/
def received : Half → List HexRecord → List Piece
  | _, [] => []
  | ulba, r :: rs =>
    match r.type with
    | .data => ((ulba ++ r.address).toNat, r.payload) :: received ulba rs
    | .extendedLinearAddress => received (blockOfPayload r.payload) rs
    | _ => received ulba rs

/-- The inputs that are events of spec R122, as step takes them: one event a cycle. -/
def cyclesOf (es : List Event) : List (List Input) := es.map (fun e => [.event e])

end Sys2Proof.Machine
end

