-- ==== Sys2Proof/Certificates/Slice0/Obligations.lean ====
section
/-! DEFINITION. The statements about SHL-CFS that the provers are asked to settle. -/

open Sys2Proof Sys2Proof.Machine

/-! ### Decoding and encoding -/

/-- R98, R99: the command decoder checks OP, then RSVD, then IMM8; a rejected word only records the command error. -/
def Obligations.CommandDecoderFollowsTheOpcodeMap : Prop :=
  ∀ w : Word,
    let op : Byte := w.extractLsb' 24 8
    let rsvd : Half := w.extractLsb' 8 16
    let imm : Byte := w.extractLsb' 0 8
    let ops : List Byte := [0x00, 0x10, 0x11, 0x20, 0x30, 0x31, 0x3E, 0x3F, 0xF0]
    (op ∉ ops → decodeCommand w = .error .illegalOpcode) ∧
    (op ∈ ops → (rsvd ≠ 0 ∨ (op ≠ 0x11 ∧ imm ≠ 0)) → decodeCommand w = .error .reservedBits) ∧
    (rsvd = 0 → op = 0x11 → decodeCommand w = .ok (.ckAdd imm)) ∧
    (rsvd = 0 → imm = 0 →
      (op = 0x00 → decodeCommand w = .ok .nop) ∧ (op = 0x10 → decodeCommand w = .ok .ckClr) ∧
      (op = 0x20 → decodeCommand w = .ok .encStart) ∧ (op = 0x30 → decodeCommand w = .ok .sesFlash) ∧
      (op = 0x31 → decodeCommand w = .ok .sesSig) ∧ (op = 0x3E → decodeCommand w = .ok .sesReset) ∧
      (op = 0x3F → decodeCommand w = .ok .sesStop) ∧ (op = 0xF0 → decodeCommand w = .ok .softReset)) ∧
    (∀ s : State,
      (decodeCommand w = .error .illegalOpcode →
        exec (.csrWrite 0 32 w) s = .next (s.afterCmdErr .illegalOpcode .noSub)) ∧
      (decodeCommand w = .error .reservedBits →
        exec (.csrWrite 0 32 w) s = .next (s.afterCmdErr .reservedBits .noSub)))

/-- R97, R98: every command has exactly one word. -/
def Obligations.CommandWordsAndDecoderAreInverse : Prop :=
  (∀ c : Command, decodeCommand (commandWord c) = .ok c) ∧
  (∀ (w : Word) (c : Command), decodeCommand w = .ok c → w = commandWord c)

/-- Decoding the image of a well-formed instruction gives the instruction back, for every row of the opcode table. That a record or
a session command can stand where an input is taken is the model's choice (log entry 4). -/
def Obligations.DecodeInvertsEncode : Prop := ∀ i : Instr, i.WellFormed → decode (encode i) = .ok i

/-- The decoder answers only well-formed instructions, and a record image it accepts is the one the encoder writes. The spec has no
decoder of records and parses no record text: that a record or a session command is decoded at all, that a malformed record, an
empty chunk or an empty page is refused, and that a command written to CMD is the command's own row, are the model's choices (log
entries 4, 12 and 14). -/
def Obligations.DecodedInstructionsAreWellFormed : Prop :=
  (∀ (x : Input) (i : Instr), decode x = .ok i → i.WellFormed) ∧
  (∀ (bytes : List Byte) (i : Instr), decodeRecord bytes = .ok i → encode i = .record bytes)

/-- R97: two command words written out decode to their commands. That a word that is no command is a CSR_WRITE, that the bytes the
spec writes for a record are decoded to that record, and that a wrong checksum is refused, are the model's choices (log
entries 4, 12 and 14). -/
def Obligations.SpecWordsDecode : Prop :=
  decode (.event (.csrWrite 0x00#32 32 0x110000AB#32)) = .ok (.ckAdd 0xAB#8) ∧
  decode (.event (.csrWrite 0x00#32 32 0x3E000000#32)) = .ok .sesReset ∧
  decode (.event (.csrWrite 0x00#32 32 0x12000000#32)) = .ok (.csrWrite 0x00#32 32 0x12000000#32) ∧
  decode (.record [0x02#8, 0x00#8, 0x00#8, 0x04#8, 0x00#8, 0x01#8, 0xF9#8]) = .ok (.recEla 0x0001#16) ∧
  decode (.record [0x01#8, 0x00#8, 0x05#8, 0x00#8, 0xFF#8, 0xFB#8]) = .ok (.recData 0x0005#16 [0xFF#8]) ∧
  decode (.record [0x00#8, 0x00#8, 0x00#8, 0x01#8, 0xFF#8]) = .ok .recEof ∧
  decode (.record [0x00#8, 0x00#8, 0x00#8, 0x01#8, 0xFE#8]) = .error .recordChecksum

/-! ### The step -/

/-- R9, R88: a step takes the next input, decodes it and executes the instruction; with no input the state is held. -/
def Obligations.StepRunsTheDecodedInstruction : Prop :=
  (∀ (s : State) (x : Input) (rest : List (List Input)) (i : Instr),
    fetch s.cycles = some (x, rest) → decode x = .ok i → step s = exec i { s with cycles := rest }) ∧
  (∀ s : State, fetch s.cycles = none → step s = .next s)

/-- R88, R290: an input is taken whenever one is presented, and it is the first cycle's input of highest priority (RST, HOST, CLOSE,
RX, TICK). Of equals the one
presented first is taken and the others keep their order: the model's choice (log entry 7). -/
def Obligations.InputsAreTakenInPriorityOrder : Prop :=
  (∀ (cs rest : List (List Input)) (x : Input), fetch cs = some (x, rest) →
    ∃ (empty : List (List Input)) (a b : List Input) (post : List (List Input)),
      cs = empty ++ (a ++ x :: b) :: post ∧ (∀ c ∈ empty, c = []) ∧ rest = (a ++ b) :: post ∧
      (∀ y ∈ a, Input.rank x < Input.rank y) ∧ (∀ y ∈ b, Input.rank x ≤ Input.rank y)) ∧
  (∀ cs : List (List Input), fetch cs = none ↔ ∀ c ∈ cs, c = []) ∧
  (∀ (off w i : Word) (width : Nat) (h : Half) (x : Byte) (chunk : List Byte),
    Input.rank (.event .rst) = 0 ∧ Input.rank (.event (.csrRead off width)) = 1 ∧
    Input.rank (.event (.csrWrite off width w)) = 1 ∧ Input.rank (.event (.imgRead i)) = 1 ∧
    Input.rank (.event (.imgWrite i x)) = 1 ∧ Input.rank (.event (.paramRead h)) = 1 ∧
    Input.rank (.event (.paramWrite h x)) = 1 ∧ Input.rank (.event .close) = 2 ∧
    Input.rank (.event (.rx chunk)) = 3 ∧ Input.rank (.event .tick) = 4)

/-- R122, R145, R275: every event of the closed set has a next state in every state; the step never faults, and refuses only
record rows that are never emitted and images that are no instruction, neither of which an agent of the spec presents (log
entries 4 and 14). -/
def Obligations.NoEventIsRefused : Prop :=
  (∀ (s : State) (e : Event) (rest : List (List Input)), s.cycles = [.event e] :: rest → e ≠ .rx [] →
    ∃ t, step s = .next t ∧ t.cycles = [] :: rest ∧ t.cfg = s.cfg) ∧
  (∀ (s : State) (r : Refusal), step s = .refused r →
    (∃ k, r = .recordNeverEmitted k) ∨ (∃ e, r = .undecodable e)) ∧
  (∀ (s : State) (r : Fault), step s ≠ .fault r)

/-! ### Host access -/

/-- R29 to R31, R34 to R37, R39 to R43, R271 to R274: what each register but STATUS, HCK, ENC_OUT and ENC_REM reads, with
the numbers of its codes; a read changes nothing. The
value of a count register above 2^32 - 1 is free (log entry 6) and left open here. -/
def Obligations.CsrReadsReturnTheirRegister : Prop :=
  (∀ s : State,
    let returns (off v : Word) : Prop :=
      exec (.csrRead off 32) s = .next { s with reads := s.reads ++ [.word v] }
    returns 0x00#32 0 ∧
    returns 0x08#32 (s.blk.IRQ_STAT.setWidth 32) ∧ returns 0x0C#32 (s.blk.IRQ_EN.setWidth 32) ∧
    returns 0x14#32 s.blk.IMG_BASE ∧ returns 0x18#32 s.blk.IMG_LEN ∧
    (∃ v : Word, returns 0x1C#32 v ∧ v.extractLsb' 0 8 = s.blk.LINE_LEN ∧ v.extractLsb' 8 5 = s.blk.PAGE_LOG2 ∧
      v.getLsbD 13 = s.blk.PAGE_EN ∧ v.getLsbD 14 = s.blk.OMIT_NULL ∧ v.extractLsb' 15 17 = 0) ∧
    (∃ v : Word, returns 0x20#32 v ∧ v.extractLsb' 0 4 = s.blk.ENC_ERRC.code ∧ v.extractLsb' 4 28 = 0) ∧
    returns 0x24#32 s.blk.ENC_NREC ∧
    (∃ v : Word, returns 0x30#32 v ∧ v.getLsbD 0 = decide (s.blk.MEMKIND = .eeprom) ∧ v.getLsbD 1 = s.blk.VERIFY ∧
      v.getLsbD 2 = s.blk.SIGCHK ∧ v.extractLsb' 3 3 = s.blk.SIG_LEN ∧ v.extractLsb' 6 10 = 0 ∧
      v.extractLsb' 16 16 = s.blk.DEV_PAGE) ∧
    returns 0x34#32 s.blk.SES_TIMEOUT ∧ returns 0x38#32 s.blk.SIG_EXPECT ∧
    returns 0x3C#32 (s.blk.PARAM_LEN.setWidth 32) ∧
    returns 0x40#32 s.blk.SEQ_IDX ∧ returns 0x44#32 s.blk.SEQ_LEN ∧
    (s.blk.RB.length < 2 ^ 32 → returns 0x48#32 (BitVec.ofNat 32 s.blk.RB.length)) ∧
    returns 0x4C#32 s.blk.TMR ∧
    (∃ v : Word, returns 0x50#32 v ∧ v.extractLsb' 0 4 = s.blk.FAIL_REASON.code ∧
      v.extractLsb' 4 4 = kindCode s.blk.FAIL_KIND ∧ v.extractLsb' 8 8 = s.blk.FAIL_EXP ∧
      v.extractLsb' 16 8 = s.blk.FAIL_ACT ∧ v.extractLsb' 24 8 = 0) ∧
    returns 0x54#32 s.blk.FAIL_IDX ∧ returns 0x58#32 s.blk.FAIL_ADDR ∧ returns 0x5C#32 s.blk.FAIL_OFF ∧
    returns 0x60#32 s.blk.SIG_READ ∧ returns 0x64#32 s.blk.REPORTS ∧
    (∃ v : Word, returns 0x68#32 v ∧ v.extractLsb' 0 4 = kindCode s.blk.LAST_KIND ∧
      v.extractLsb' 4 2 = s.blk.LAST_RES.code ∧ v.extractLsb' 6 2 = 0 ∧ v.extractLsb' 8 24 = s.blk.LAST_IDX) ∧
    (∃ v : Word, returns 0x6C#32 v ∧ v.extractLsb' 0 4 = s.blk.CMD_ERRC.code ∧ v.extractLsb' 4 4 = 0 ∧
      v.extractLsb' 8 4 = s.blk.CMD_ERRS.code ∧ v.extractLsb' 12 20 = 0) ∧
    (∃ v : Word, returns 0x70#32 v ∧ v.extractLsb' 0 16 = s.blk.WCUR ∧ v.getLsbD 16 = s.blk.WCUR_V ∧
      v.extractLsb' 17 15 = 0)) ∧
  (EncErrCode.noError.code = 0 ∧ EncErrCode.lineLenZero.code = 1 ∧ EncErrCode.omitWithoutPage.code = 2 ∧
    EncErrCode.pageTooLarge.code = 3 ∧ EncErrCode.lenExceedsCap.code = 4 ∧ EncErrCode.addrOverflow.code = 5) ∧
  (FailReason.noFailure.code = 0 ∧ FailReason.protocolDesync.code = 1 ∧ FailReason.timeout.code = 2 ∧
    FailReason.disconnected.code = 3 ∧ FailReason.verifyMismatch.code = 4 ∧ FailReason.signatureMismatch.code = 5) ∧
  (CmdErrCode.noError.code = 0 ∧ CmdErrCode.illegalOpcode.code = 1 ∧ CmdErrCode.reservedBits.code = 2 ∧
    CmdErrCode.wrongState.code = 3 ∧ CmdErrCode.writeLocked.code = 4 ∧ CmdErrCode.sesCfgInvalid.code = 5 ∧
    CmdErrCode.accessFault.code = 6) ∧
  (SesCfgErr.noSub.code = 0 ∧ SesCfgErr.devPageZero.code = 1 ∧ SesCfgErr.imgRange.code = 2 ∧
    SesCfgErr.sigLenInvalid.code = 3 ∧ SesCfgErr.paramLenInvalid.code = 4 ∧ SesCfgErr.respTooLong.code = 5 ∧
    SesCfgErr.addrUnloadable.code = 6) ∧
  (ReportResult.noReport.code = 0 ∧ ReportResult.ok.code = 1 ∧ ReportResult.failed.code = 2 ∧
    ReportResult.discarded.code = 3)

/-- R32: the fields of STATUS are live views, with the codes of R25, R26 and R27, and it reads 0x00000001 at reset. -/
def Obligations.StatusShowsTheLiveState : Prop :=
  (∀ s : State, ∃ v : Word,
    exec (.csrRead 0x04#32 32) s = .next { s with reads := s.reads ++ [.word v] } ∧
    v.getLsbD 0 = decide (s.blk.ACC = 0) ∧
    v.extractLsb' 1 2 = s.blk.ENC_ST.code ∧
    v.getLsbD 3 = decide (0 < s.blk.OUTQ.length) ∧
    v.extractLsb' 4 4 = s.blk.SES_ST.code ∧
    v.extractLsb' 8 4 = kindCode s.blk.INFLIGHT ∧
    v.getLsbD 12 = s.blk.LINK_CLOSED ∧
    v.getLsbD 13 = decide (s.blk.IRQ_STAT &&& s.blk.IRQ_EN ≠ 0) ∧
    v.getLsbD 14 = decide (s.blk.INFLIGHT ≠ none) ∧
    v.extractLsb' 15 17 = 0) ∧
  exec (.csrRead 0x04#32 32) State.reset = .next { State.reset with reads := [.word 0x00000001#32] } ∧
  (EncState.idle.code = 0 ∧ EncState.busy.code = 1 ∧ EncState.done.code = 2 ∧ EncState.error.code = 3) ∧
  (SesState.idle.code = 0 ∧ SesState.deviceConfigured.code = 1 ∧ SesState.programmingModeEntered.code = 2 ∧
    SesState.loadingAddress.code = 3 ∧ SesState.programmingPage.code = 4 ∧ SesState.verifyingPage.code = 5 ∧
    SesState.programmingModeExited.code = 6 ∧ SesState.signatureRead.code = 7 ∧ SesState.done.code = 8 ∧
    SesState.failed.code = 9 ∧ SesState.stopped.code = 10) ∧
  (kindCode none = 0 ∧ kindCode (some .setDevice) = 1 ∧ kindCode (some .enterProgrammingMode) = 2 ∧
    kindCode (some .loadAddress) = 3 ∧ kindCode (some .programPage) = 4 ∧ kindCode (some .readPage) = 5 ∧
    kindCode (some .leaveProgrammingMode) = 6 ∧ kindCode (some .readSignature) = 7)

/-- R33, R163: HCK shows ACC, its checksum and its zero flag; reading it changes nothing; it reads 0x00010000 at reset. -/
def Obligations.HckShowsAccumulatorAndChecksum : Prop :=
  (∀ s : State, ∃ v : Word,
    exec (.csrRead 0x10#32 32) s = .next { s with reads := s.reads ++ [.word v] } ∧
    v.extractLsb' 0 8 = s.blk.ACC ∧
    (v.extractLsb' 8 8).toNat = (0x100 - s.blk.ACC.toNat) % 0x100 ∧
    v.extractLsb' 8 8 = ~~~s.blk.ACC + 1 ∧
    v.getLsbD 16 = decide (s.blk.ACC = 0) ∧
    v.extractLsb' 17 15 = 0) ∧
  exec (.csrRead 0x10#32 32) State.reset = .next { State.reset with reads := [.word 0x00010000#32] }

/-- R38, R141, R192: a read of ENC_OUT pops a text byte, and ends the drain when it was the last; with OUTQ empty it changes
nothing; a write is an ACCESS_FAULT; ENC_REM reads the number of bytes left. -/
def Obligations.EncOutReadPopsTheText : Prop :=
  ∀ s : State,
    (s.blk.OUTQ = [] → exec (.csrRead 0x28#32 32) s = .next { s with reads := s.reads ++ [.word 0] }) ∧
    (∀ c : Byte, s.blk.OUTQ = [c] →
      exec (.csrRead 0x28#32 32) s =
        .next { s with
          reads := s.reads ++ [.word (0x100#32 ||| c.setWidth 32)]
          blk := { s.blk with OUTQ := [], ENC_ST := .done, IRQ_STAT := s.blk.IRQ_STAT ||| 0x01#8 } }) ∧
    (∀ (c d : Byte) (rest : List Byte), s.blk.OUTQ = c :: d :: rest →
      exec (.csrRead 0x28#32 32) s =
        .next { s with
          reads := s.reads ++ [.word (0x100#32 ||| c.setWidth 32)]
          blk := { s.blk with OUTQ := d :: rest } }) ∧
    (∀ w : Word, exec (.csrWrite 0x28#32 32 w) s = .next (s.afterCmdErr .accessFault .noSub)) ∧
    (s.blk.OUTQ.length < 2 ^ 32 →
      exec (.csrRead 0x2C#32 32) s = .next { s with reads := s.reads ++ [.word (BitVec.ofNat 32 s.blk.OUTQ.length)] })

/-- R34, R35, R39, R40, R78: a configuration register that is not locked takes the defined fields of the word, nothing else
changes, and it reads back the word without its reserved bits. -/
def Obligations.ConfigurationRegistersReadBackAsWritten : Prop :=
  ∀ (s : State) (w : Word),
    let writes (off mask : Word) (b : Block) : Prop :=
      exec (.csrWrite off 32 w) s = .next { s with blk := b } ∧
      exec (.csrRead off 32) { s with blk := b } =
        .next { s with blk := b, reads := s.reads ++ [.word (w &&& mask)] }
    (s.blk.ENC_ST ≠ .busy → s.blk.INFLIGHT = none →
      writes 0x14#32 0xFFFFFFFF#32 { s.blk with IMG_BASE := w } ∧
      writes 0x18#32 0xFFFFFFFF#32 { s.blk with IMG_LEN := w }) ∧
    (s.blk.ENC_ST ≠ .busy →
      writes 0x1C#32 0x00007FFF#32
        { s.blk with
          LINE_LEN := w.extractLsb' 0 8, PAGE_LOG2 := w.extractLsb' 8 5, PAGE_EN := w.getLsbD 13
          OMIT_NULL := w.getLsbD 14 }) ∧
    (s.blk.INFLIGHT = none →
      writes 0x30#32 0xFFFF003F#32
        { s.blk with
          MEMKIND := if w.getLsbD 0 then .eeprom else .flash
          VERIFY := w.getLsbD 1, SIGCHK := w.getLsbD 2, SIG_LEN := w.extractLsb' 3 3
          DEV_PAGE := w.extractLsb' 16 16 } ∧
      writes 0x34#32 0xFFFFFFFF#32 { s.blk with SES_TIMEOUT := w } ∧
      writes 0x38#32 0xFFFFFFFF#32 { s.blk with SIG_EXPECT := w } ∧
      writes 0x3C#32 0x0000FFFF#32 { s.blk with PARAM_LEN := w.extractLsb' 0 16 })

/-- R36, R142, R287, R288: IRQ_STAT is cleared by written ones, IRQ_EN is written whole, a pending bit stays until a written
one, SOFT_RESET or RST, and the line is high when an enabled source is pending. -/
def Obligations.InterruptBitsAreStickyUntilCleared : Prop :=
  (∀ (s : State) (w : Word),
    exec (.csrWrite 0x08#32 32 w) s =
      .next { s with blk := { s.blk with IRQ_STAT := s.blk.IRQ_STAT &&& ~~~(w.extractLsb' 0 8) } } ∧
    exec (.csrWrite 0x0C#32 32 w) s = .next { s with blk := { s.blk with IRQ_EN := w.extractLsb' 0 8 } }) ∧
  (∀ (i : Instr) (s t : State) (k : Nat), i.WellFormed → exec i s = .next t → i ≠ .rst → i ≠ .softReset →
    (∀ w : Word, i ≠ .csrWrite 0x08#32 32 w) → s.blk.IRQ_STAT.getLsbD k = true → t.blk.IRQ_STAT.getLsbD k = true) ∧
  (∀ b : Block, b.irq = true ↔ ∃ k < 8, b.IRQ_STAT.getLsbD k = true ∧ b.IRQ_EN.getLsbD k = true)

/-- R311: a write to a locked target raises WRITE_LOCKED and changes nothing else. -/
def Obligations.LockedTargetsRefuseWrites : Prop :=
  ∀ (s : State) (w a : Word) (h : Half) (x : Byte),
    let refused (i : Instr) : Prop := exec i s = .next (s.afterCmdErr .writeLocked .noSub)
    ((s.blk.ENC_ST = .busy ∨ s.blk.INFLIGHT ≠ none) →
      refused (.csrWrite 0x14#32 32 w) ∧ refused (.csrWrite 0x18#32 32 w) ∧
      (a.toNat < s.cfg.IMG_CAP → refused (.imgWrite a x))) ∧
    (s.blk.ENC_ST = .busy → refused (.csrWrite 0x1C#32 32 w)) ∧
    (s.blk.INFLIGHT ≠ none →
      refused (.csrWrite 0x30#32 32 w) ∧ refused (.csrWrite 0x34#32 32 w) ∧ refused (.csrWrite 0x38#32 32 w) ∧
      refused (.csrWrite 0x3C#32 32 w) ∧ (h.toNat < s.cfg.PARAM_CAP → refused (.paramWrite h x)))

/-- R77: the five cases of ACCESS_FAULT record the error and change nothing else; a read returns 0; a read of CMD is no
fault. -/
def Obligations.AccessFaultsRecordOnlyTheError : Prop :=
  ∀ s : State,
    let fault := s.afterCmdErr .accessFault .noSub
    (∀ (off w : Word) (width : Nat), (off.toNat % 4 ≠ 0 ∨ width ≠ 32 ∨ 0x74 ≤ off.toNat) →
      exec (.csrRead off width) s = .next { fault with reads := s.reads ++ [.word 0] } ∧
      exec (.csrWrite off width w) s = .next fault) ∧
    (∀ (off w : Word),
      off ∈ ([0x04, 0x10, 0x20, 0x24, 0x28, 0x2C, 0x40, 0x44, 0x48, 0x4C, 0x50, 0x54, 0x58, 0x5C, 0x60, 0x64, 0x68, 0x6C,
        0x70] : List Word) →
      exec (.csrWrite off 32 w) s = .next fault) ∧
    (∀ (i : Word) (x : Byte), s.cfg.IMG_CAP ≤ i.toNat →
      exec (.imgRead i) s = .next { fault with reads := s.reads ++ [.byte 0] } ∧
      exec (.imgWrite i x) s = .next fault) ∧
    (∀ (i : Half) (x : Byte), s.cfg.PARAM_CAP ≤ i.toNat →
      exec (.paramRead i) s = .next { fault with reads := s.reads ++ [.byte 0] } ∧
      exec (.paramWrite i x) s = .next fault) ∧
    exec (.csrRead 0x00#32 32) s = .next { s with reads := s.reads ++ [.word 0] }

/-- R143: reads of IMG return the byte and change nothing, in every lock state; a write that is not locked changes that
byte of IMG, no other byte and nothing else. That the write keeps the memory's canonical form is a clause on the model's own
representation (log entry 2). -/
def Obligations.ImgAccessesReadAndWriteOneByte : Prop :=
  ∀ (s : State) (i : Word) (x : Byte), i.toNat < s.cfg.IMG_CAP →
    exec (.imgRead i) s = .next { s with reads := s.reads ++ [.byte (s.imgByte i.toNat)] } ∧
    (s.blk.ENC_ST ≠ .busy → s.blk.INFLIGHT = none →
      ∃ t, exec (.imgWrite i x) s = .next t ∧ t = { s with blk := { s.blk with IMG := t.blk.IMG } } ∧
        (∀ j, t.imgByte j = if j = i.toNat then x else s.imgByte j) ∧
        (∀ j, t.paramByte j = s.paramByte j) ∧
        (Memory.wf s.blk.IMG → Memory.wf t.blk.IMG))

/-- R144: the same for PARAM, whose lock is a command in flight alone; the canonical form is again the model's own (log entry 2). -/
def Obligations.ParamAccessesReadAndWriteOneByte : Prop :=
  ∀ (s : State) (i : Half) (x : Byte), i.toNat < s.cfg.PARAM_CAP →
    exec (.paramRead i) s = .next { s with reads := s.reads ++ [.byte (s.paramByte i.toNat)] } ∧
    (s.blk.INFLIGHT = none →
      ∃ t, exec (.paramWrite i x) s = .next t ∧ t = { s with blk := { s.blk with PARAM := t.blk.PARAM } } ∧
        (∀ j, t.paramByte j = if j = i.toNat then x else s.paramByte j) ∧
        (∀ j, t.imgByte j = s.imgByte j) ∧
        (Memory.wf s.blk.PARAM → Memory.wf t.blk.PARAM))

/-- R142, R145: a 32-bit write to CMD runs the command the word decodes to, else records the decode error. -/
def Obligations.CommandWriteRunsTheCommand : Prop :=
  ∀ (w : Word) (s : State),
    exec (.csrWrite 0x00#32 32 w) s =
      match decodeCommand w with
      | .ok c => exec c.toInstr s
      | .error .illegalOpcode => .next (s.afterCmdErr .illegalOpcode .noSub)
      | .error .reservedBits => .next (s.afterCmdErr .reservedBits .noSub)

/-- R146: NOP. -/
def Obligations.NopChangesNothing : Prop :=
  (∀ s : State, exec .nop s = .next s) ∧ decodeCommand 0x00000000#32 = .ok .nop ∧
  (∀ w : Word, w.extractLsb' 24 8 = 0x00#8 → (w.extractLsb' 8 16 ≠ 0#16 ∨ w.extractLsb' 0 8 ≠ 0#8) →
    decodeCommand w = .error .reservedBits)

/-! ### The checksum accumulator -/

/-- R161: CK_CLR. -/
def Obligations.CkClrClearsTheAccumulator : Prop :=
  (∀ s : State, exec .ckClr s = .next { s with blk := { s.blk with ACC := 0 } }) ∧
  (∀ s : State, Block.hckZero { s.blk with ACC := 0 } = true) ∧
  decodeCommand 0x10000000#32 = .ok .ckClr ∧
  (∀ w : Word, w.extractLsb' 24 8 = 0x10#8 → (w.extractLsb' 8 16 ≠ 0#16 ∨ w.extractLsb' 0 8 ≠ 0#8) →
    decodeCommand w = .error .reservedBits)

/-- R162: CK_ADD. -/
def Obligations.CkAddAddsModulo256 : Prop :=
  (∀ (b : Byte) (s : State), ∃ t, exec (.ckAdd b) s = .next t ∧
    t = { s with blk := { s.blk with ACC := BitVec.ofNat 8 ((s.blk.ACC.toNat + b.toNat) % 256) } } ∧
    t.blk.hckZero = decide ((s.blk.ACC.toNat + b.toNat) % 256 = 0)) ∧
  (∀ b : Byte, decodeCommand (0x110000#24 ++ b) = .ok (.ckAdd b)) ∧
  (∀ w : Word, w.extractLsb' 24 8 = 0x11#8 → w.extractLsb' 8 16 ≠ 0#16 → decodeCommand w = .error .reservedBits)

/-- R164, R166 (a): CK_CLR and one CK_ADD per byte leave the accumulator whose checksum is `cksum8` of the bytes, and the order
of the bytes does not matter. -/
def Obligations.HostCommandsFoldToCksum8 : Prop :=
  ∀ (bs : List Byte) (s : State),
    (∃ t, runInstrs (.ckClr :: bs.map .ckAdd) s = .next t ∧ t = { s with blk := { s.blk with ACC := t.blk.ACC } } ∧
      t.blk.ACC.toNat = (bs.map BitVec.toNat).sum % 256 ∧
      (cksum8 bs).toNat = (0x100 - t.blk.ACC.toNat) % 0x100) ∧
    (∀ cs : List Byte, bs.Perm cs → cksum8 cs = cksum8 bs)

/-- R165: bytes and their checksum sum to 0 mod 256; so do the bytes of every record the framer emits, through the host
accumulator too. -/
def Obligations.ChecksumVerificationLaw : Prop :=
  (∀ bs : List Byte, ((bs.map BitVec.toNat).sum + (cksum8 bs).toNat) % 256 = 0) ∧
  (∀ (L : Nat) (mode : Option Nat) (B : Nat) (d : List Byte), ∀ r ∈ encodeImage L mode B d,
    ((recBytes r).map BitVec.toNat).sum % 256 = 0 ∧
    ∀ s : State, ∃ t, runInstrs (.ckClr :: (recBytes r).map .ckAdd) s = .next t ∧ t.blk.ACC = 0 ∧ t.blk.hckZero = true)

/-! ### The record framer -/

/-- R177, R178, R186: ENC_START refused while BUSY, rejected at the first failing check, or accepted with the text and the count
of the records of the image; nothing else changes. A count of 2^32 or more is free (log entry 6). -/
def Obligations.EncStartChecksThenEncodes : Prop :=
  ∀ s : State,
    let b := s.blk
    let rejected (e : EncErrCode) : Prop :=
      exec .encStart s =
        .next { s with blk := { b with ENC_ST := .error, ENC_ERRC := e, OUTQ := [], IRQ_STAT := b.IRQ_STAT ||| 0x02#8 } }
    let records :=
      encodeImage b.LINE_LEN.toNat (if b.OMIT_NULL then some (2 ^ b.PAGE_LOG2.toNat) else none) b.IMG_BASE.toNat
        ((List.range b.IMG_LEN.toNat).map s.imgByte)
    (b.ENC_ST = .busy → exec .encStart s = .next (s.afterCmdErr .wrongState .noSub)) ∧
    (b.ENC_ST ≠ .busy →
      (b.LINE_LEN = 0 → rejected .lineLenZero) ∧
      (b.LINE_LEN ≠ 0 →
        (b.OMIT_NULL = true ∧ b.PAGE_EN = false → rejected .omitWithoutPage) ∧
        (¬ (b.OMIT_NULL = true ∧ b.PAGE_EN = false) →
          (b.PAGE_EN = true ∧ 16 < b.PAGE_LOG2.toNat → rejected .pageTooLarge) ∧
          (¬ (b.PAGE_EN = true ∧ 16 < b.PAGE_LOG2.toNat) →
            (s.cfg.IMG_CAP < b.IMG_LEN.toNat → rejected .lenExceedsCap) ∧
            (b.IMG_LEN.toNat ≤ s.cfg.IMG_CAP →
              (2 ^ 32 < b.IMG_BASE.toNat + b.IMG_LEN.toNat → rejected .addrOverflow) ∧
              (b.IMG_BASE.toNat + b.IMG_LEN.toNat ≤ 2 ^ 32 →
                ∃ n : Word, (records.length < 2 ^ 32 → n = BitVec.ofNat 32 records.length) ∧
                  exec .encStart s =
                    .next { s with
                      blk := { b with
                        OUTQ := records.flatMap textLine, ENC_NREC := n, ENC_ERRC := .noError
                        ENC_ST := .busy } }))))))

/-- R190 (a), (c), (d), (e): the chunks rise without overlap, hold image bytes at their own addresses, are 1 to L long, hold
every nonzero byte; R181: in plain mode they make up the image, and each is as long as L, the end of the data and the end of its
block allow. -/
def Obligations.EncoderReconstructsTheImage : Prop :=
  ∀ (L B : Nat) (mode : Option Nat) (d : List Byte), 1 ≤ L → (∀ P, mode = some P → 0 < P) →
    let ps := imageChunks L mode B d
    ps.Pairwise (fun p q => p.1 + p.2.length ≤ q.1) ∧
    (∀ p ∈ ps, 1 ≤ p.2.length ∧ p.2.length ≤ L ∧
      ∃ k, p.1 = B + k ∧ k + p.2.length ≤ d.length ∧ p.2 = (d.drop k).take p.2.length) ∧
    (∀ (k : Nat) (h : k < d.length), d[k] ≠ 0 → ∃ p ∈ ps, p.1 ≤ B + k ∧ B + k < p.1 + p.2.length) ∧
    (mode = none → (ps.map (·.2)).flatten = d ∧
      ∀ p ∈ ps, p.2.length = min L (min (B + d.length - p.1) (0x10000 - p.1 % 0x10000)))

/-- R180, R183: the ELA records are the block changes of the Data records, from block 0, once each, and each stands directly
before a Data record of its block. -/
def Obligations.ElaRecordsAreTheBlockChanges : Prop :=
  ∀ (L B : Nat) (mode : Option Nat) (d : List Byte), 1 ≤ L → (∀ P, mode = some P → 0 < P) → B + d.length ≤ 2 ^ 32 →
    let ps := imageChunks L mode B d
    let rs := encodeImage L mode B d
    (rs.filter (fun r => decide (r.type = .extendedLinearAddress))).map (fun r => (blockOfPayload r.payload).toNat) =
      (List.destutter' (· ≠ ·) 0 (ps.map (fun p => p.1 / 0x10000))).tail ∧
    (∀ (n : Nat) (r : HexRecord), rs[n]? = some r → r.type = .extendedLinearAddress →
      ∃ p ∈ ps, r = elaRecord (BitVec.ofNat 16 (p.1 / 0x10000)) ∧
        rs[n + 1]? = some (dataRecord (BitVec.ofNat 16 p.1) p.2))

/-- R73: a receiver that sets its upper address from ELA records and places Data records at `{ULBA, address}` gets every chunk
back at its 32-bit address. It rests on the ELA record before each block change (R180) and on the upper address 0 the framer and
the receiver start from, which R183 marks as the spec's own choice (its D12 and general knowledge, I8). -/
def Obligations.ReceiverRebuildsTheChunks : Prop :=
  ∀ (L B : Nat) (mode : Option Nat) (d : List Byte), 1 ≤ L → (∀ P, mode = some P → 0 < P) → B + d.length ≤ 2 ^ 32 →
    received 0 (encodeImage L mode B d) = imageChunks L mode B d

/-- R180, R181, R182: no chunk crosses a 64 KiB block, in plain mode and for every page size 2^0 to 2^16; in omitting mode no
chunk crosses a page. -/
def Obligations.ChunksStayInOneBlock : Prop :=
  ∀ (L B : Nat) (d : List Byte), 1 ≤ L →
    (∀ p ∈ imageChunks L none B d, (p.1 + p.2.length - 1) / 0x10000 = p.1 / 0x10000) ∧
    (∀ k ≤ 16, ∀ p ∈ imageChunks L (some (2 ^ k)) B d,
      (p.1 + p.2.length - 1) / 2 ^ k = p.1 / 2 ^ k ∧ (p.1 + p.2.length - 1) / 0x10000 = p.1 / 0x10000)

/-- R182: in omitting mode the image is cut at every multiple of P, each segment framed on its own. R184, R185, R191: an all-zero
segment gives the single byte 0x00 at its first address. In any other, each record starts at a nonzero byte and holds no run of
six zeros; what is left of its window (L bytes, ended by the segment) is all zero or begins with six zeros; so fewer than six zeros
between two nonzero bytes of a window never end a record. -/
def Obligations.OmittedRecordsAreTrimmed : Prop :=
  (∀ (L P B : Nat) (d : List Byte), 0 < P →
    let qs := pageSegments P B d
    imageChunks L (some P) B d = qs.flatMap (omitSegment L) ∧ (qs.map (·.2)).flatten = d ∧
    qs.Pairwise (fun p q => p.1 + p.2.length ≤ q.1) ∧
    ∀ q ∈ qs, q.2 ≠ [] ∧ ∃ k, q.1 = B + k ∧ q.2 = (d.drop k).take (P - q.1 % P)) ∧
  (∀ (L A : Nat) (d : List Byte), 1 ≤ L → d ≠ [] →
    ((∀ b ∈ d, b = 0) → omitSegment L (A, d) = [(A, [0x00#8])]) ∧
    ((∃ b ∈ d, b ≠ 0) → omitSegment L (A, d) ≠ [] ∧ ∀ p ∈ omitSegment L (A, d),
      p.2.head? ≠ some 0 ∧ p.2.getLast? ≠ some 0 ∧ 1 ≤ p.2.length ∧ p.2.length ≤ L ∧
      (∀ x y : List Byte, p.2 ≠ x ++ List.replicate 6 0 ++ y) ∧
      ∃ k, p.1 = A + k ∧
        let window := (d.drop k).take L
        p.2 <+: window ∧
        ((∀ b ∈ window.drop p.2.length, b = 0) ∨ List.replicate 6 0 <+: window.drop p.2.length) ∧
        ∀ (u v : List Byte) (x y : Byte) (m : Nat), window = u ++ x :: (List.replicate m 0 ++ y :: v) → x ≠ 0 → y ≠ 0 →
          m < 6 → u.length < p.2.length → u.length + m + 1 < p.2.length))

/-- R188, R190 (f): there is exactly one EOF record and it is last; the text ends with its line. -/
def Obligations.EofRecordIsOnceAndLast : Prop :=
  ∀ (L B : Nat) (mode : Option Nat) (d : List Byte), ∃ init : List HexRecord,
    encodeImage L mode B d = init ++ [eofRecord] ∧ (∀ r ∈ init, r.type ≠ .endOfFile) ∧
    textOf (encodeImage L mode B d) = init.flatMap textLine ++
      [0x3A#8, 0x30#8, 0x30#8, 0x30#8, 0x30#8, 0x30#8, 0x30#8, 0x30#8, 0x31#8, 0x46#8, 0x46#8, 0x0A#8]

/-- R195: record types 02, 03 and 05 are never in an encoding; their rows stop by name (I4; that a row can be run on its own is
the model's choice, log entry 4). -/
def Obligations.NeverEmittedRecordTypesAreRefused : Prop :=
  (∀ (L B : Nat) (mode : Option Nat) (d : List Byte), ∀ r ∈ encodeImage L mode B d,
    r.type ≠ .extendedSegmentAddress ∧ r.type ≠ .startSegmentAddress ∧ r.type ≠ .startLinearAddress) ∧
  (∀ (a : Half) (d : List Byte) (s : State),
    exec (.recEsa a d) s = .refused (.recordNeverEmitted .extendedSegmentAddress) ∧
    exec (.recSsa a d) s = .refused (.recordNeverEmitted .startSegmentAddress) ∧
    exec (.recSla a d) s = .refused (.recordNeverEmitted .startLinearAddress))

/-- R103, R104, R106, R107, R111: the bytes of a record are count, address high, address low, type, payload, checksum; its text
line is ':' , for each byte in order the uppercase digit of its high nibble and then of its low nibble, and one LF; the count byte
fixes both lengths. -/
def Obligations.RecordLengthsFollowTheCountByte : Prop :=
  (∀ r : HexRecord,
    let digits : List Byte := [0x30, 0x31, 0x32, 0x33, 0x34, 0x35, 0x36, 0x37, 0x38, 0x39, 0x41, 0x42, 0x43, 0x44, 0x45, 0x46]
    recBytes r =
      [BitVec.ofNat 8 r.payload.length, r.address.extractLsb' 8 8, r.address.extractLsb' 0 8, r.type.code] ++ r.payload ++
        [r.checksum] ∧
    textLine r =
      [0x3A#8] ++ (recBytes r).flatMap (fun b => [digits.getD (b.toNat / 16) 0, digits.getD (b.toNat % 16) 0]) ++ [0x0A#8] ∧
    (r.payload.length ≤ 255 → ∃ (count : Byte) (rest : List Byte), recBytes r = count :: rest ∧
      (recBytes r).length = 5 + count.toNat ∧ (textLine r).length = 12 + 2 * count.toNat)) ∧
  (RecType.data.code = 0x00 ∧ RecType.endOfFile.code = 0x01 ∧ RecType.extendedSegmentAddress.code = 0x02 ∧
    RecType.startSegmentAddress.code = 0x03 ∧ RecType.extendedLinearAddress.code = 0x04 ∧
    RecType.startLinearAddress.code = 0x05)

/-- R189: the empty image gives the EOF line alone, and counts one record. -/
def Obligations.EmptyImageGivesOnlyEof : Prop :=
  ∀ s : State, s.blk.IMG_LEN = 0 → s.blk.ENC_ST ≠ .busy → s.blk.LINE_LEN ≠ 0 →
    ¬ (s.blk.OMIT_NULL = true ∧ s.blk.PAGE_EN = false) → ¬ (s.blk.PAGE_EN = true ∧ 16 < s.blk.PAGE_LOG2.toNat) →
    encodeImage s.blk.LINE_LEN.toNat s.blk.omitMode s.blk.IMG_BASE.toNat [] = [eofRecord] ∧
    exec .encStart s =
      .next { s with
        blk := { s.blk with
          OUTQ := [0x3A#8, 0x30#8, 0x30#8, 0x30#8, 0x30#8, 0x30#8, 0x30#8, 0x30#8, 0x31#8, 0x46#8, 0x46#8, 0x0A#8]
          ENC_NREC := 1
          ENC_ERRC := .noError
          ENC_ST := .busy } }

/-- The rows REC_DATA, REC_EOF and REC_ELA append the text line of the record of R108 to R110 and count it; nothing else
changes. That a record can be run on its own is the model's choice (log entry 4). -/
def Obligations.RecordRowsEmitTheirLine : Prop :=
  ∀ (s : State) (a k : Half) (d : List Byte),
    let emits (i : Instr) (r : HexRecord) : Prop :=
      ∃ n : Word, (s.blk.ENC_NREC.toNat + 1 < 2 ^ 32 → n = s.blk.ENC_NREC + 1) ∧
        exec i s =
          .next { s with blk := { s.blk with OUTQ := s.blk.OUTQ ++ textLine r, ENC_NREC := n, ENC_ST := .busy } }
    emits (.recData a d)
      ⟨.data, a, d, cksum8 ([BitVec.ofNat 8 d.length, a.extractLsb' 8 8, a.extractLsb' 0 8, 0x00#8] ++ d)⟩ ∧
    emits .recEof ⟨.endOfFile, 0, [], 0xFF#8⟩ ∧
    emits (.recEla k)
      ⟨.extendedLinearAddress, 0, [k.extractLsb' 8 8, k.extractLsb' 0 8],
        cksum8 [0x02#8, 0x00#8, 0x00#8, 0x04#8, k.extractLsb' 8 8, k.extractLsb' 0 8]⟩

/-- R177, R188: an accepted ENC_START does what the rows of its records do one after another, from an empty output (the rows as
steps of their own are the model's choice, log entry 4). -/
def Obligations.EncStartIsItsRecordsInTurn : Prop :=
  ∀ s : State, s.blk.ENC_ST ≠ .busy → encCheck s.cfg s.blk = none → s.encRecords.length < 2 ^ 32 →
    exec .encStart s =
      runInstrs (s.encRecords.map HexRecord.toInstr)
        { s with blk := { s.blk with OUTQ := [], ENC_NREC := 0, ENC_ERRC := .noError } }

/-! ### The protocol sequencer -/

/-- R206, R217: SES_FLASH in Idle with a legal configuration, an open link and LINK answering `ok`: the whole sequence is built and
SetDevice's frame is written. With no complete response waiting SetDevice is in flight with its time budget, and nothing else
changes; with its good response waiting in RB it completes at once, the surplus stays, and EnterProgrammingMode is next, whatever
LINK answers to it (its row, log entry 4). -/
def Obligations.SesFlashIssuesSetDevice : Prop :=
  ∀ s : State, s.blk.SES_ST = .idle → s.blk.INFLIGHT = none → s.flashCheck = none → s.blk.LINK_CLOSED = false →
    s.nextAnswer = true →
    (s.blk.RB.length < s.respLenOf .setDevice →
      exec .sesFlash s = .next ((s.opened s.flashQ).afterIssue .setDevice)) ∧
    (∀ surplus : List Byte, s.blk.RB = responseOf s.cfg.WP .setDevice [] ++ surplus →
      exec .sesFlash s =
        exec .wEnterProgmode (((s.opened s.flashQ).afterIssue .setDevice).movedOn .setDevice surplus))

/-- R206, R207: SES_FLASH is WRONG_STATE when a session exists, and SES_CFG_INVALID with the sub-code of the first failing check;
nothing starts. -/
def Obligations.SesFlashRejectsInOrder : Prop :=
  ∀ s : State,
    let b := s.blk
    let rejected (e : SesCfgErr) : Prop := exec .sesFlash s = .next (s.afterCmdErr .sesCfgInvalid e)
    let range := s.cfg.IMG_CAP < b.IMG_LEN.toNat ∨ 2 ^ 32 < b.IMG_BASE.toNat + b.IMG_LEN.toNat
    let sig := b.SIGCHK = true ∧ ¬ (1 ≤ b.SIG_LEN.toNat ∧ b.SIG_LEN.toNat ≤ 4)
    let long := ∃ c ∈ s.flashQ, s.cfg.RB_CAP < s.respLenOf c
    let unloadable := ∃ p ∈ s.pages, p.1 % 2 ^ s.cfg.WP.ADDR_SHIFT ≠ 0 ∨ 2 ^ 16 ≤ p.1 >>> s.cfg.WP.ADDR_SHIFT
    (b.SES_ST ≠ .idle ∨ b.INFLIGHT ≠ none → exec .sesFlash s = .next (s.afterCmdErr .wrongState .noSub)) ∧
    (b.SES_ST = .idle → b.INFLIGHT = none →
      (b.DEV_PAGE = 0 → rejected .devPageZero) ∧
      (b.DEV_PAGE ≠ 0 →
        (range → rejected .imgRange) ∧
        (¬ range →
          (sig → rejected .sigLenInvalid) ∧
          (¬ sig →
            (s.cfg.PARAM_CAP < b.PARAM_LEN.toNat → rejected .paramLenInvalid) ∧
            (b.PARAM_LEN.toNat ≤ s.cfg.PARAM_CAP →
              (long → rejected .respTooLong) ∧
              (¬ long →
                (unloadable → rejected .addrUnloadable) ∧
                (¬ unloadable → s.flashCheck = none)))))))

/-- R211, R212, R213: the flash sequence: SetDevice, EnterProgrammingMode, for each page LoadAddress, ProgramPage and with VERIFY a
ReadPage of the same length, LeaveProgrammingMode, and with SIGCHK ReadSignature; and its length. -/
def Obligations.FlashSequenceFollowsThePages : Prop :=
  ∀ s : State, s.flashCheck = none →
    let b := s.blk
    let N := b.IMG_LEN.toNat
    let npages := if N = 0 then 0 else (b.IMG_BASE.toNat + N - 1) / b.DEV_PAGE.toNat - b.IMG_BASE.toNat / b.DEV_PAGE.toNat + 1
    s.flashQ =
      [.setDevice, .enterProgrammingMode] ++
      s.pages.flatMap (fun p =>
        [.loadAddress (BitVec.ofNat 16 (p.1 >>> s.cfg.WP.ADDR_SHIFT)) (BitVec.ofNat 32 p.1),
          .programPage b.MEMKIND (BitVec.ofNat 32 p.1) p.2] ++
        (if b.VERIFY then [.readPage b.MEMKIND (BitVec.ofNat 32 p.1) (BitVec.ofNat 16 p.2.length)] else [])) ++
      [.leaveProgrammingMode] ++ (if b.SIGCHK then [.readSignature] else []) ∧
    s.pages.length = npages ∧
    s.flashQ.length = 2 + npages * (2 + b.VERIFY.toNat) + 1 + b.SIGCHK.toNat ∧
    (s.pages.map (fun p => loadOperand s.cfg p.1)).Nodup

/-- R209: the pages cover the image exactly, in rising address order without a gap, 1 to DEV_PAGE bytes each, none across a
multiple of DEV_PAGE, and only the first and the last shorter than DEV_PAGE. -/
def Obligations.SessionPagesTileTheImage : Prop :=
  ∀ s : State, s.blk.DEV_PAGE ≠ 0 →
    let S := s.blk.DEV_PAGE.toNat
    let ps := s.pages
    (ps.map (·.2)).flatten = s.imageBytes ∧
    (∀ p ps', ps = p :: ps' → p.1 = s.blk.IMG_BASE.toNat) ∧
    (∀ (n : Nat) (p q : Piece), ps[n]? = some p → ps[n + 1]? = some q → q.1 = p.1 + p.2.length ∧ q.1 % S = 0) ∧
    (∀ p ∈ ps, 1 ≤ p.2.length ∧ p.2.length ≤ S ∧ (p.1 + p.2.length - 1) / S = p.1 / S) ∧
    (∀ (n : Nat) (p : Piece), ps[n]? = some p → 0 < n → n + 1 < ps.length → p.2.length = S)

/-- R215, R216: SES_SIG: WRONG_STATE, the two checks in order, or ReadSignature alone issued; nothing else changes. R217, R245, R250,
R252: with a well-marked response waiting in RB it is compared at once: the session is Done and the surplus stays, or SignatureMismatch
and RB is left as it was. -/
def Obligations.SesSigIssuesReadSignature : Prop :=
  ∀ s : State,
    let tooLong := s.cfg.RB_CAP <
      (s.cfg.WP.LEAD_EN.readSignature).toNat + s.blk.SIG_LEN.toNat + (s.cfg.WP.TRAIL_EN.readSignature).toNat
    (s.blk.SES_ST ≠ .idle ∨ s.blk.INFLIGHT ≠ none → exec .sesSig s = .next (s.afterCmdErr .wrongState .noSub)) ∧
    (s.blk.SES_ST = .idle → s.blk.INFLIGHT = none →
      (¬ (1 ≤ s.blk.SIG_LEN.toNat ∧ s.blk.SIG_LEN.toNat ≤ 4) →
        exec .sesSig s = .next (s.afterCmdErr .sesCfgInvalid .sigLenInvalid)) ∧
      (1 ≤ s.blk.SIG_LEN.toNat → s.blk.SIG_LEN.toNat ≤ 4 →
        (tooLong → exec .sesSig s = .next (s.afterCmdErr .sesCfgInvalid .respTooLong)) ∧
        (¬ tooLong → s.blk.LINK_CLOSED = false → s.nextAnswer = true →
          s.blk.RB.length < s.respLenOf .readSignature →
          exec .sesSig s = .next ((s.opened [.readSignature]).afterIssue .readSignature)) ∧
        (∀ e body surplus : List Byte, ¬ tooLong → s.blk.LINK_CLOSED = false → s.nextAnswer = true →
          s.expects .readSignature e → body.length = e.length →
          s.blk.RB = responseOf s.cfg.WP .readSignature body ++ surplus →
          let t := ((s.opened [.readSignature]).afterIssue .readSignature).noted .readSignature body
          (body = e → exec .sesSig s = .next (t.afterLast .readSignature surplus)) ∧
          (∀ (i : Nat) (u v : Byte), e[i]? = some u → body[i]? = some v → v ≠ u → body.take i = e.take i →
            exec .sesSig s = .next (State.afterFail .signatureMismatch .readSignature (BitVec.ofNat 32 i) u v t)))))

/-- R227: SES_STOP: no effect in a terminal state; else Stopped with RB cleared, and a discarded report when a command was in
flight; nothing else changes. -/
def Obligations.SesStopStopsTheSession : Prop :=
  decodeCommand 0x3F000000#32 = .ok .sesStop ∧
  ∀ s : State,
    (s.blk.SES_ST = .done ∨ s.blk.SES_ST = .failed ∨ s.blk.SES_ST = .stopped → exec .sesStop s = .next s) ∧
    (s.blk.SES_ST ≠ .done → s.blk.SES_ST ≠ .failed → s.blk.SES_ST ≠ .stopped →
      (s.blk.INFLIGHT = none →
        exec .sesStop s =
          .next { s with blk := { s.blk with RB := [], SES_ST := .stopped, IRQ_STAT := s.blk.IRQ_STAT ||| 0x10#8 } }) ∧
      (∀ k : Kind, s.blk.INFLIGHT = some k →
        exec .sesStop s =
          .next { s with
            blk := { s.blk with
              REPORTS := s.blk.REPORTS + 1
              LAST_KIND := some k
              LAST_RES := .discarded
              LAST_IDX := s.blk.SEQ_IDX.extractLsb' 0 24
              INFLIGHT := none
              RB := []
              SES_ST := .stopped
              IRQ_STAT := s.blk.IRQ_STAT ||| 0x30#8 } }))

/-- R229: SES_RESET: WRONG_STATE while a command is in flight; else the session state is cleared and nothing else changes. -/
def Obligations.SesResetClearsTheSession : Prop :=
  decodeCommand 0x3E000000#32 = .ok .sesReset ∧
  ∀ s : State,
    (s.blk.INFLIGHT ≠ none → exec .sesReset s = .next (s.afterCmdErr .wrongState .noSub)) ∧
    (s.blk.INFLIGHT = none →
      exec .sesReset s =
        .next { s with
          blk := { s.blk with
            SES_ST := .idle, Q := [], SEQ_IDX := 0, SEQ_LEN := 0, RB := [], TMR := 0, WCUR := 0, WCUR_V := false
            LINK_CLOSED := false, FAIL_REASON := .noFailure, FAIL_KIND := none, FAIL_IDX := 0, FAIL_ADDR := 0
            FAIL_OFF := 0, FAIL_EXP := 0, FAIL_ACT := 0, SIG_READ := 0, REPORTS := 0, LAST_KIND := none
            LAST_RES := .noReport, LAST_IDX := 0 } })

/-- R50, R301, R303: the machine starts, and RST leaves it, with every element at its reset value and nothing written in IMG and
PARAM; SOFT_RESET does the same but keeps every byte of IMG and PARAM; neither touches LINK. That the unspecified bytes after RST
are told apart by a power-on count is the model's choice (log entry 2). -/
def Obligations.ResetsRestoreTheResetValues : Prop :=
  let r : Block :=
    { ACC := 0, IMG := [], PARAM := [], IMG_BASE := 0, IMG_LEN := 0, LINE_LEN := 0, PAGE_LOG2 := 0, PAGE_EN := false
      OMIT_NULL := false, ENC_ST := .idle, ENC_ERRC := .noError, ENC_NREC := 0, OUTQ := [], MEMKIND := .flash
      VERIFY := false, SIGCHK := false, SIG_LEN := 0, DEV_PAGE := 0, SES_TIMEOUT := 0, SIG_EXPECT := 0, PARAM_LEN := 0
      SES_ST := .idle, INFLIGHT := none, Q := [], SEQ_IDX := 0, SEQ_LEN := 0, RB := [], TMR := 0, WCUR := 0
      WCUR_V := false, LINK_CLOSED := false, FAIL_REASON := .noFailure, FAIL_KIND := none, FAIL_IDX := 0
      FAIL_ADDR := 0, FAIL_OFF := 0, FAIL_EXP := 0, FAIL_ACT := 0, SIG_READ := 0, REPORTS := 0, LAST_KIND := none
      LAST_RES := .noReport, LAST_IDX := 0, IRQ_STAT := 0, IRQ_EN := 0, CMD_ERRC := .noError, CMD_ERRS := .noSub }
  State.reset.blk = r ∧ r.statusWord = 0x00000001#32 ∧ r.hckWord = 0x00010000#32 ∧ r.irq = false ∧
  (∀ s : State, exec .rst s = .next { s with blk := r, powerOns := s.powerOns + 1 }) ∧
  (∀ s : State, ∃ t, exec .softReset s = .next t ∧
    t = { s with blk := { r with IMG := s.blk.IMG, PARAM := s.blk.PARAM } } ∧
    ∀ j, t.imgByte j = s.imgByte j ∧ t.paramByte j = s.paramByte j)

/-- R112, R113, R217, R218, R245, R246, R250 to R252: the wire-frame row of a command that is due writes its frame: in flight with its
time budget when LINK answers `ok`, Failed(Disconnected) with the frame recorded when it answers `fail`, and without a frame when the
link is closed. With LINK's `ok` a complete response already in RB is checked at once: a wrong marker or a wrong body fails the
command and RB is left as it was; a good one is consumed, the surplus stays in RB, and the session is Done or the next command's
row follows. The row of a command that is not due changes nothing, and a row run on its own is the model's choice (log entry 4). -/
def Obligations.WireFrameRowsIssueTheDueCommand : Prop :=
  ∀ (s : State) (c : Cmd),
    let wp := s.cfg.WP
    (s.blk.current = some c → s.blk.INFLIGHT = none → s.blk.SES_ST.terminal = false →
      (s.blk.LINK_CLOSED = false → s.nextAnswer = true →
        (s.blk.RB.length < s.respLenOf c → exec c.toInstr s = .next (s.afterIssue c)) ∧
        (∀ (h : Byte) (r rest : List Byte), s.blk.RB = h :: r ++ rest → (h :: r).length = s.respLenOf c →
          wp.LEAD_EN.get c.kind = true → h ≠ wp.LEAD.get c.kind →
          exec c.toInstr s = .next (State.afterFail .protocolDesync c 0 (wp.LEAD.get c.kind) h (s.afterIssue c))) ∧
        (∀ (r rest : List Byte) (x : Byte), s.blk.RB = r ++ x :: rest → r.length + 1 = s.respLenOf c →
          (wp.LEAD_EN.get c.kind = true → s.blk.RB.head? = some (wp.LEAD.get c.kind)) →
          wp.TRAIL_EN.get c.kind = true → x ≠ wp.TRAIL.get c.kind →
          exec c.toInstr s =
            .next (State.afterFail .protocolDesync c (BitVec.ofNat 32 (s.respLenOf c - 1)) (wp.TRAIL.get c.kind) x
              (s.afterIssue c))) ∧
        (∀ e body surplus : List Byte, s.expects c e → body.length = e.length →
          s.blk.RB = responseOf wp c.kind body ++ surplus →
          (∀ (i : Nat) (u v : Byte), e[i]? = some u → body[i]? = some v → v ≠ u → body.take i = e.take i →
            exec c.toInstr s =
              .next (State.afterFail (mismatchOf c) c (BitVec.ofNat 32 i) u v ((s.afterIssue c).noted c body))) ∧
          (body = e → s.blk.SEQ_IDX + 1 = s.blk.SEQ_LEN →
            exec c.toInstr s = .next (((s.afterIssue c).noted c body).afterLast c surplus)) ∧
          (∀ d : Cmd, body = e → s.follows d →
            exec c.toInstr s = exec d.toInstr (((s.afterIssue c).noted c body).movedOn c surplus)))) ∧
      (s.blk.LINK_CLOSED = false → s.nextAnswer = false → s.blk.RB.length < 2 ^ 32 →
        exec c.toInstr s = .next (s.afterLinkFail c)) ∧
      (s.blk.LINK_CLOSED = true → s.blk.RB.length < 2 ^ 32 →
        exec c.toInstr s =
          .next (State.afterFail .disconnected c (BitVec.ofNat 32 s.blk.RB.length) 0 0
            { s with blk := { s.blk with TMR := s.blk.SES_TIMEOUT } }))) ∧
    (s.blk.current ≠ some c ∨ s.blk.INFLIGHT ≠ none ∨ s.blk.SES_ST.terminal = true → exec c.toInstr s = .next s)

/-- R206, R215, R217: an accepted SES_FLASH or SES_SIG is its sequence set up and then the wire-frame row of its first command,
whatever LINK answers and whatever waits in RB (the rows as steps of their own are the model's choice, log entry 4). -/
def Obligations.SessionStartIsItsFirstFrameRow : Prop :=
  ∀ s : State, s.blk.SES_ST = .idle → s.blk.INFLIGHT = none →
    (s.flashCheck = none → exec .sesFlash s = exec .wSetDevice (s.opened s.flashQ)) ∧
    (s.sigCheck = none → exec .sesSig s = exec .wReadSignature (s.opened [.readSignature]))

/-- R112, R113, R116, R118: the bytes of a frame, and its length. -/
def Obligations.FramesHaveTheirBytesAndLength : Prop :=
  ∀ (s : State) (c : Cmd),
    let wp := s.cfg.WP
    let ops : List Byte := match c with
      | .setDevice => (List.range s.blk.PARAM_LEN.toNat).map s.paramByte
      | .loadAddress a _ =>
        if wp.ADDR_ORDER = .be then [a.extractLsb' 8 8, a.extractLsb' 0 8] else [a.extractLsb' 0 8, a.extractLsb' 8 8]
      | .programPage mk _ d =>
        [(BitVec.ofNat 16 d.length).extractLsb' 8 8, (BitVec.ofNat 16 d.length).extractLsb' 0 8,
          if mk = .flash then wp.MEMCODE_FLASH else wp.MEMCODE_EEPROM] ++ d
      | .readPage mk _ n =>
        [n.extractLsb' 8 8, n.extractLsb' 0 8, if mk = .flash then wp.MEMCODE_FLASH else wp.MEMCODE_EEPROM]
      | _ => []
    s.frameOf c =
      [wp.OPC.get c.kind] ++ ops ++ (if wp.WIRE_CKSUM then [cksum8 ([wp.OPC.get c.kind] ++ ops)] else []) ++
        (if wp.EOP_EN then [wp.EOP] else []) ∧
    (s.frameOf c).length =
      1 + (match c with
        | .setDevice => s.blk.PARAM_LEN.toNat
        | .enterProgrammingMode => 0
        | .loadAddress _ _ => 2
        | .programPage _ _ d => 3 + d.length
        | .readPage _ _ _ => 3
        | .leaveProgrammingMode => 0
        | .readSignature => 0) + wp.WIRE_CKSUM.toNat + wp.EOP_EN.toNat

/-! ### The validator -/

/-- R242, R244: bytes received with no command in flight are kept up to RB_CAP, the first one dropped sets RB_OVF; in a terminal
state they are dropped; nothing else changes. -/
def Obligations.BytesOutsideACommandAreKeptUpToCapacity : Prop :=
  ∀ (s : State) (chunk : List Byte),
    (s.blk.SES_ST.terminal = true → exec (.rx chunk) s = .next s) ∧
    (s.blk.SES_ST.terminal = false → s.blk.INFLIGHT = none → s.blk.RB.length ≤ s.cfg.RB_CAP →
      exec (.rx chunk) s =
        .next { s with
          blk := { s.blk with
            RB := (s.blk.RB ++ chunk).take s.cfg.RB_CAP
            IRQ_STAT := if s.cfg.RB_CAP < s.blk.RB.length + chunk.length then s.blk.IRQ_STAT ||| 0x80#8 else s.blk.IRQ_STAT } })

/-- R217, R221, R222, R223, R245: a byte short of the response is only stored; the byte that completes a well-marked response without a
body completes the command: the session is Done, or the next command's frame is written, and is in flight when LINK answers `ok`
and fails with Disconnected, after the ok report of the one completed, when it answers `fail`; in every case it is what the next
command's row does (log entry 4). -/
def Obligations.GoodResponseCompletesTheCommand : Prop :=
  (∀ (s : State) (c : Cmd) (x : Byte), s.awaits c → s.blk.RB.length < s.cfg.RB_CAP →
    (s.blk.RB.length + 1 < s.respLenOf c →
      exec (.rx [x]) s = .next { s with blk := { s.blk with RB := s.blk.RB ++ [x] } }) ∧
    (c.kind ≠ .readPage → c.kind ≠ .readSignature → s.blk.RB ++ [x] = responseOf s.cfg.WP c.kind [] →
      (s.blk.SEQ_IDX + 1 = s.blk.SEQ_LEN → exec (.rx [x]) s = .next (s.afterLast c [])) ∧
      (∀ d : Cmd, s.blk.SEQ_IDX + 1 ≠ s.blk.SEQ_LEN → s.blk.Q[s.blk.SEQ_IDX.toNat + 1]? = some d →
        s.blk.LINK_CLOSED = false → s.nextAnswer = true → 0 < s.respLenOf d →
        exec (.rx [x]) s = .next (s.afterNext c d)) ∧
      (∀ d : Cmd, s.follows d →
        exec (.rx [x]) s = exec d.toInstr (s.movedOn c []) ∧
        (s.blk.LINK_CLOSED = false → s.nextAnswer = false →
          exec (.rx [x]) s = .next ((s.movedOn c []).afterLinkFail d))))) ∧
  (phaseOf .setDevice).code = 1 ∧ (phaseOf .enterProgrammingMode).code = 2 ∧ (phaseOf .loadAddress).code = 3 ∧
  (phaseOf .programPage).code = 4 ∧ (phaseOf .readPage).code = 5 ∧ (phaseOf .leaveProgrammingMode).code = 6 ∧
  (phaseOf .readSignature).code = 7

/-- R246, R277, R278: a complete response with a wrong leading marker, or a right one and a wrong trailing marker, fails the
command with ProtocolDesync, the position, the marker expected and the byte received; RB keeps the response. -/
def Obligations.WrongMarkerFailsWithProtocolDesync : Prop :=
  ∀ (s : State) (c : Cmd) (x h : Byte) (r : List Byte), s.awaits c → s.blk.RB.length < s.cfg.RB_CAP →
    s.blk.RB.length + 1 = s.respLenOf c → s.blk.RB ++ [x] = h :: r →
    let wp := s.cfg.WP
    (wp.LEAD_EN.get c.kind = true → h ≠ wp.LEAD.get c.kind →
      exec (.rx [x]) s =
        .next (State.afterFail .protocolDesync c 0 (wp.LEAD.get c.kind) h { s with blk := { s.blk with RB := h :: r } })) ∧
    ((wp.LEAD_EN.get c.kind = true → h = wp.LEAD.get c.kind) → wp.TRAIL_EN.get c.kind = true →
      x ≠ wp.TRAIL.get c.kind →
      exec (.rx [x]) s =
        .next (State.afterFail .protocolDesync c (BitVec.ofNat 32 (s.respLenOf c - 1)) (wp.TRAIL.get c.kind) x
          { s with blk := { s.blk with RB := h :: r } }))

/-- R251: a well-marked ReadPage response is compared with the data of the ProgramPage before it: equal completes the command
(R221, R222; the next command's frame, and what LINK answers to it, as its row has it, log entry 4), else VerifyMismatch with the first differing offset, the byte written and the byte read back. -/
def Obligations.ReadPageComparesWithTheBytesWritten : Prop :=
  ∀ (s : State) (mk mk' : MemKind) (a a' : Word) (n : Half) (x : Byte) (d body : List Byte),
    s.awaits (.readPage mk a n) → s.blk.RB.length < s.cfg.RB_CAP →
    s.blk.Q[s.blk.SEQ_IDX.toNat - 1]? = some (.programPage mk' a' d) → d.length = n.toNat → body.length = n.toNat →
    s.blk.RB ++ [x] = responseOf s.cfg.WP .readPage body →
    (body = d → s.blk.SEQ_IDX + 1 = s.blk.SEQ_LEN → exec (.rx [x]) s = .next (s.afterLast (.readPage mk a n) [])) ∧
    (∀ e : Cmd, body = d → s.blk.SEQ_IDX + 1 ≠ s.blk.SEQ_LEN → s.blk.Q[s.blk.SEQ_IDX.toNat + 1]? = some e →
      s.blk.LINK_CLOSED = false → s.nextAnswer = true → 0 < s.respLenOf e →
      exec (.rx [x]) s = .next (s.afterNext (.readPage mk a n) e)) ∧
    (∀ e : Cmd, body = d → s.follows e →
      exec (.rx [x]) s = exec e.toInstr (s.movedOn (.readPage mk a n) []) ∧
      (s.blk.LINK_CLOSED = false → s.nextAnswer = false →
        exec (.rx [x]) s = .next ((s.movedOn (.readPage mk a n) []).afterLinkFail e))) ∧
    (∀ (i : Nat) (e v : Byte), d[i]? = some e → body[i]? = some v → v ≠ e → body.take i = d.take i →
      exec (.rx [x]) s =
        .next (State.afterFail .verifyMismatch (.readPage mk a n) (BitVec.ofNat 32 i) e v
          { s with blk := { s.blk with RB := s.blk.RB ++ [x] } }))

/-- R252: a well-marked ReadSignature response is recorded in SIG_READ, first byte least significant, and compared byte by byte with
SIG_EXPECT: equal completes the command (R221, R222; a next command is what its row does, log entry 4), else SignatureMismatch with
the first differing index. -/
def Obligations.ReadSignatureComparesWithSigExpect : Prop :=
  ∀ (s : State) (x : Byte) (body : List Byte), s.awaits .readSignature → s.blk.RB.length < s.cfg.RB_CAP →
    body.length = s.blk.SIG_LEN.toNat → s.blk.RB ++ [x] = responseOf s.cfg.WP .readSignature body →
    let noted := { s with
      blk := { s.blk with SIG_READ := BitVec.ofNat 32 (body.mapIdx (fun (i : Nat) (b : Byte) => b.toNat * 256 ^ i)).sum } }
    let expected (i : Nat) : Byte := s.blk.SIG_EXPECT.extractLsb' (8 * i) 8
    ((∀ (i : Nat) (v : Byte), body[i]? = some v → v = expected i) → s.blk.SEQ_IDX + 1 = s.blk.SEQ_LEN →
      exec (.rx [x]) s = .next (noted.afterLast .readSignature [])) ∧
    (∀ d : Cmd, (∀ (i : Nat) (v : Byte), body[i]? = some v → v = expected i) → s.follows d →
      exec (.rx [x]) s = exec d.toInstr (noted.movedOn .readSignature [])) ∧
    (∀ (i : Nat) (v : Byte), body[i]? = some v → v ≠ expected i →
      (∀ j < i, ∀ u : Byte, body[j]? = some u → u = expected j) →
      exec (.rx [x]) s =
        .next (State.afterFail .signatureMismatch .readSignature (BitVec.ofNat 32 i) (expected i) v
          { noted with blk := { noted.blk with RB := s.blk.RB ++ [x] } }))

/-- R256: TICK: no effect with no command in flight; else TMR counts down, and at 0 the command fails with Timeout. -/
def Obligations.TickCountsDownTheBudget : Prop :=
  ∀ s : State,
    (s.blk.INFLIGHT = none → exec .tick s = .next s) ∧
    (s.blk.INFLIGHT ≠ none → s.blk.TMR ≠ 0 →
      exec .tick s = .next { s with blk := { s.blk with TMR := BitVec.ofNat 32 (s.blk.TMR.toNat - 1) } }) ∧
    (∀ c : Cmd, s.blk.INFLIGHT ≠ none → s.blk.TMR = 0 → s.blk.current = some c → s.blk.RB.length < 2 ^ 32 →
      exec .tick s = .next (s.afterFail .timeout c (BitVec.ofNat 32 s.blk.RB.length) 0 0))

/-- R256: a command that stays incomplete survives TMR ticks and fails with Timeout on the next one. -/
def Obligations.TimeoutComesOneTickAfterTheBudget : Prop :=
  ∀ (s : State) (c : Cmd), s.blk.INFLIGHT ≠ none → s.blk.current = some c → s.blk.RB.length < 2 ^ 32 →
    (∀ n ≤ s.blk.TMR.toNat,
      runInstrs (List.replicate n .tick) s =
        .next { s with blk := { s.blk with TMR := BitVec.ofNat 32 (s.blk.TMR.toNat - n) } }) ∧
    runInstrs (List.replicate (s.blk.TMR.toNat + 1) .tick) s =
      .next (State.afterFail .timeout c (BitVec.ofNat 32 s.blk.RB.length) 0 0 { s with blk := { s.blk with TMR := 0 } })

/-- R258: CLOSE sets LINK_CLOSED; with a command in flight it fails it with Disconnected; a second CLOSE changes nothing. -/
def Obligations.CloseFailsTheCommandInFlight : Prop :=
  ∀ s : State,
    (s.blk.INFLIGHT = none →
      exec .close s = .next { s with blk := { s.blk with LINK_CLOSED := true } } ∧
      (s.blk.LINK_CLOSED = true → exec .close s = .next s)) ∧
    (∀ c : Cmd, s.blk.INFLIGHT ≠ none → s.blk.current = some c → s.blk.RB.length < 2 ^ 32 →
      exec .close s =
        .next (State.afterFail .disconnected c (BitVec.ofNat 32 s.blk.RB.length) 0 0
          { s with blk := { s.blk with LINK_CLOSED := true } }))

/-- R243: two splits of the same bytes into RX events end in the same state with the same frames written. -/
def Obligations.RxIsFragmentationInvariant : Prop :=
  ∀ (s : State) (chunks chunks' : List (List Byte)), (∀ c ∈ chunks, c ≠ []) → (∀ c ∈ chunks', c ≠ []) →
    chunks.flatten = chunks'.flatten →
    ∃ t u : State,
      Host.Core.run core chunks.length { s with cycles := cyclesOf (chunks.map .rx) } = .next t ∧
      Host.Core.run core chunks'.length { s with cycles := cyclesOf (chunks'.map .rx) } = .next u ∧
      t.tx = u.tx ∧ { t with cycles := [] } = { u with cycles := [] }

/-! ### Invariants -/

/-- R49: the machine starts in the invariant; its configuration is legal, whatever the OPEN parameters are (the model's
choice, log entry 1). -/
def Obligations.ResetSatisfiesTheInvariant : Prop := State.reset.Inv

/-- R49: every step, from any state that has the invariant, leads to a state that has it. The clauses on the configuration and on
the memories' canonical form are the model's own (log entries 1 and 2). -/
def Obligations.EveryStepKeepsTheInvariant : Prop := ∀ s t : State, s.Inv → step s = .next t → t.Inv

/-- R228, R281: in a terminal state nothing but RST, SOFT_RESET and SES_RESET changes the session state, its diagnosis or its
reports, and no frame is written. -/
def Obligations.TerminalStatesEndOnlyByReset : Prop :=
  ∀ (i : Instr) (s t : State), s.Inv → i.WellFormed → s.blk.SES_ST.terminal = true → exec i s = .next t →
    i ≠ .rst → i ≠ .softReset → i ≠ .sesReset →
    t.blk.SES_ST = s.blk.SES_ST ∧ t.blk.INFLIGHT = none ∧ t.blk.Q = s.blk.Q ∧ t.blk.SEQ_IDX = s.blk.SEQ_IDX ∧
    t.blk.SEQ_LEN = s.blk.SEQ_LEN ∧ t.blk.RB = s.blk.RB ∧ t.blk.TMR = s.blk.TMR ∧
    t.blk.FAIL_REASON = s.blk.FAIL_REASON ∧ t.blk.FAIL_KIND = s.blk.FAIL_KIND ∧ t.blk.FAIL_IDX = s.blk.FAIL_IDX ∧
    t.blk.FAIL_ADDR = s.blk.FAIL_ADDR ∧ t.blk.FAIL_OFF = s.blk.FAIL_OFF ∧ t.blk.FAIL_EXP = s.blk.FAIL_EXP ∧
    t.blk.FAIL_ACT = s.blk.FAIL_ACT ∧ t.blk.SIG_READ = s.blk.SIG_READ ∧ t.blk.REPORTS = s.blk.REPORTS ∧
    t.blk.LAST_KIND = s.blk.LAST_KIND ∧ t.blk.LAST_RES = s.blk.LAST_RES ∧ t.blk.LAST_IDX = s.blk.LAST_IDX ∧
    t.tx = s.tx

/-- R82, R86, R301, R303: a byte of IMG changes only by an IMG_WRITE to it or by RST, a byte of PARAM only by a PARAM_WRITE to it or
by RST; R260, R302: a frame written stays written. That the configuration and the inputs to come are kept, and that frames and
data returned are kept as growing lists, is a clause on the model's own fields (log entries 1, 7 and 8). -/
def Obligations.OnlyMemoryWritesAndRstChangeMemory : Prop :=
  ∀ (i : Instr) (s t : State), exec i s = .next t →
    (i ≠ .rst → ∀ j : Nat,
      ((∀ (a : Word) (x : Byte), i = .imgWrite a x → a.toNat ≠ j) → t.imgByte j = s.imgByte j) ∧
      ((∀ (a : Half) (x : Byte), i = .paramWrite a x → a.toNat ≠ j) → t.paramByte j = s.paramByte j)) ∧
    t.cfg = s.cfg ∧ t.cycles = s.cycles ∧ s.tx <+: t.tx ∧ s.reads <+: t.reads
end

