-- ==== Sys2Proof/Laws/Config.lean ====
section
/-! SUPPORT. The legal configurations are exactly the ones `legalise` leaves as they are. -/

namespace Sys2Proof

theorem or_not_or_self (l t : Bool) : ((l || !t) || t) = true := by cases l <;> cases t <;> rfl

theorem or_not_of_or {l t : Bool} (h : (l || t) = true) : (l || !t) = l := by cases l <;> cases t <;> simp_all

/-- Every configuration becomes legal. -/
theorem Config.legalise_valid (c : Config) : c.legalise.Valid := by
  refine ⟨?_, ?_, ?_, ?_, ?_, ?_⟩
  · exact Nat.le_max_left _ _
  · exact Nat.max_le.mpr ⟨by decide, Nat.min_le_right _ _⟩
  · exact Nat.min_le_right _ _
  · exact Nat.le_max_left _ _
  · exact Nat.min_le_right _ _
  · exact ⟨or_not_or_self _ _, or_not_or_self _ _, or_not_or_self _ _, or_not_or_self _ _, or_not_or_self _ _,
      or_not_or_self _ _, or_not_or_self _ _⟩

/-- A legal configuration is left as it is, so the platform's configuration ranges over all the legal ones. -/
theorem Config.legalise_of_valid {c : Config} (h : c.Valid) : c.legalise = c := by
  obtain ⟨h1, h2, h3, h4, h5, k1, k2, k3, k4, k5, k6, k7⟩ := h
  rcases c with ⟨i, p, r, ⟨opc, mf, me, ee, e, wc, ao, sh, ⟨l1, l2, l3, l4, l5, l6, l7⟩, ld, ⟨t1, t2, t3, t4, t5, t6, t7⟩, tl⟩⟩
  simp only [Config.legalise, PerKind.zipWith] at *
  rw [or_not_of_or k1, or_not_of_or k2, or_not_of_or k3, or_not_of_or k4, or_not_of_or k5, or_not_of_or k6,
    or_not_of_or k7, Nat.min_eq_left h2, Nat.max_eq_right h1, Nat.min_eq_left h3, Nat.max_eq_right h4,
    Nat.min_eq_left h5]

/-- The machine's configuration at reset is legal. -/
theorem Config.platform_valid : Config.platform.Valid := Config.legalise_valid _

/-- Every response has a marker (spec R115), kind by kind. -/
theorem WireProfile.marker_of_kind {wp : WireProfile} (h : wp.markersPresent) (k : Kind) :
    wp.LEAD_EN.get k = true ∨ wp.TRAIL_EN.get k = true := by
  obtain ⟨h1, h2, h3, h4, h5, h6, h7⟩ := h
  cases k <;> simp_all [PerKind.get]

end Sys2Proof
end

