-- ==== Sys2Proof/Laws/Record.lean ====
section
/-! SUPPORT. Laws of the checksum fold, of the record forms and of the text lines. -/

namespace Sys2Proof.Machine

@[simp] theorem ckFold_nil (a : Byte) : ckFold a [] = a := rfl

@[simp] theorem ckFold_cons (a b : Byte) (bs : List Byte) : ckFold a (b :: bs) = ckFold (a + b) bs := rfl

theorem ckFold_append (a : Byte) (bs cs : List Byte) : ckFold a (bs ++ cs) = ckFold (ckFold a bs) cs :=
  List.foldl_append ..

/-- The start of the fold comes out as a summand. -/
theorem ckFold_eq_add (a : Byte) (bs : List Byte) : ckFold a bs = a + ckFold 0 bs := by
  induction bs generalizing a with
  | nil => simp
  | cons b bs ih =>
    rw [ckFold_cons, ckFold_cons, ih (a + b), ih (0 + b), zero_add, add_assoc]

/-- A list with its checksum appended sums to 0 (spec R165). -/
theorem ckFold_cksum8 (bs : List Byte) : ckFold 0 (bs ++ [cksum8 bs]) = 0 := by
  rw [ckFold_append, ckFold_cons, ckFold_nil, cksum8, cksumOf]
  bv_omega

theorem ofCode_code (t : RecType) : RecType.ofCode t.code = some t := by cases t <;> rfl

@[simp] theorem beBytes_length (h : Half) : (beBytes h).length = 2 := rfl

/-- The two bytes of a 16-bit value join back, high byte first. -/
theorem beBytes_join (h : Half) : (h.extractLsb' 8 8 ++ h.extractLsb' 0 8 : Half) = h := by
  apply BitVec.eq_of_getLsbD_eq
  intro i hi
  simp only [BitVec.getLsbD_append, BitVec.getLsbD_extractLsb']
  by_cases h8 : i < 8
  · simp [h8]
  · have : i - 8 < 8 := by omega
    have e : 8 + (i - 8) = i := by omega
    simp [h8, this, e]

@[simp] theorem recFields_length (t : RecType) (a : Half) (d : List Byte) : (recFields t a d).length = 4 + d.length := by
  simp [recFields]; omega

/-- The binary form of a record has 5 bytes more than its payload (spec R104, R111). -/
@[simp] theorem recBytes_length (r : HexRecord) : (recBytes r).length = 5 + r.payload.length := by
  simp [recBytes]; omega

theorem flatMap_hex2_length (bs : List Byte) : (bs.flatMap hex2).length = 2 * bs.length := by
  induction bs with
  | nil => rfl
  | cons b bs ih => rw [List.flatMap_cons, List.length_append, ih]; simp [hex2]; omega

/-- The text line of a record has 12 characters more than two per payload byte (spec R106, R111). -/
@[simp] theorem textLine_length (r : HexRecord) : (textLine r).length = 12 + 2 * r.payload.length := by
  rw [textLine, List.length_cons, List.length_append, flatMap_hex2_length, recBytes_length, List.length_singleton]
  omega

theorem textLine_ne_nil (r : HexRecord) : textLine r ≠ [] := by simp [textLine]

@[simp] theorem mkRecord_type (t : RecType) (a : Half) (d : List Byte) : (mkRecord t a d).type = t := rfl

@[simp] theorem mkRecord_address (t : RecType) (a : Half) (d : List Byte) : (mkRecord t a d).address = a := rfl

@[simp] theorem mkRecord_payload (t : RecType) (a : Half) (d : List Byte) : (mkRecord t a d).payload = d := rfl

/-- The bytes of a record made with rule R105's checksum sum to 0 (spec R105). -/
theorem recBytes_mkRecord_sum (t : RecType) (a : Half) (d : List Byte) : ckFold 0 (recBytes (mkRecord t a d)) = 0 :=
  ckFold_cksum8 _

end Sys2Proof.Machine
end

