-- ==== Sys2Proof/Laws/Decode.lean ====
section
/-! SUPPORT. Laws of the decoder's pieces: the fields of a command word, the opcode map, the record types. -/

namespace Sys2Proof

/-- A word is its three fields OP, RSVD and IMM8 (spec R96). -/
theorem word_fields (w : Word) : w = (w.extractLsb' 24 8 ++ w.extractLsb' 8 16 ++ w.extractLsb' 0 8 : Word) := by
  apply BitVec.eq_of_getLsbD_eq
  intro i hi
  simp only [BitVec.getLsbD_append, BitVec.getLsbD_extractLsb']
  by_cases h : i < 8
  · simp [h]
  · by_cases h2 : i - 8 < 16
    · have e : 8 + (i - 8) = i := by omega
      simp [h, h2, e]
    · have e : 24 + (i - 8 - 16) = i := by omega
      have e2 : i - 8 - 16 < 8 := by omega
      simp [h, h2, e, e2]

/-- What the opcode map answers, row by row (spec R97). -/
theorem commandOfOp_cases {op imm : Byte} {c : Command} (h : commandOfOp op imm = some c) :
    (op = 0x00 ∧ c = .nop) ∨ (op = 0x10 ∧ c = .ckClr) ∨ (op = 0x11 ∧ c = .ckAdd imm) ∨ (op = 0x20 ∧ c = .encStart) ∨
    (op = 0x30 ∧ c = .sesFlash) ∨ (op = 0x31 ∧ c = .sesSig) ∨ (op = 0x3E ∧ c = .sesReset) ∨
    (op = 0x3F ∧ c = .sesStop) ∨ (op = 0xF0 ∧ c = .softReset) := by
  unfold commandOfOp at h
  split at h <;> simp only [Option.some.injEq, reduceCtorEq] at h <;> rename_i hop
  all_goals
    have key := BitVec.eq_of_toNat_eq (x := op) (y := BitVec.ofNat 8 op.toNat) (by simp)
    rw [hop] at key
    subst h
    simp [key]

/-- Two bytes joined, high byte first, are those bytes (spec R79). -/
theorem beBytes_append (hi lo : Byte) : Machine.beBytes (hi ++ lo) = [hi, lo] := by
  unfold Machine.beBytes
  congr 1
  · simp [BitVec.extractLsb'_append_eq_ite, -Nat.reduceAdd]
  · congr 1
    simp [BitVec.extractLsb'_append_eq_ite, -Nat.reduceAdd]

/-- A type read from a code has that code (spec R103). -/
theorem code_of_ofCode {tt : Byte} {t : Machine.RecType} (h : Machine.RecType.ofCode tt = some t) : t.code = tt := by
  unfold Machine.RecType.ofCode at h
  split at h
  all_goals first
    | cases h; done
    | (rename_i hc; cases h; exact BitVec.eq_of_toNat_eq (by rw [hc]; rfl))

end Sys2Proof
end

