-- ==== Sys2Proof/Laws/Encoder.lean ====
section
/-! SUPPORT. Laws of `cut` and of the encoder's chunks: once for each function, what its pieces are. -/

namespace Sys2Proof.Machine

/-- The pieces follow one another without a gap from address `A` and make up `d`. -/
def Tiles : Nat → List Byte → List Piece → Prop
  | _, d, [] => d = []
  | A, d, p :: ps => p.1 = A ∧ p.2 ≠ [] ∧ ∃ e, d = p.2 ++ e ∧ Tiles (A + p.2.length) e ps

/-- The pieces stand in `d`, which begins at address `A`, in rising order, and what lies between them is zero. -/
def Sparse : Nat → List Byte → List Piece → Prop
  | _, d, [] => allZero d = true
  | A, d, p :: ps =>
    ∃ z e, d = z ++ (p.2 ++ e) ∧ allZero z = true ∧ p.1 = A + z.length ∧ p.2 ≠ [] ∧
      Sparse (A + z.length + p.2.length) e ps

@[simp] theorem allZero_nil : allZero [] = true := rfl

@[simp] theorem allZero_cons (b : Byte) (d : List Byte) : allZero (b :: d) = (b == 0 && allZero d) := rfl

@[simp] theorem allZero_append (d e : List Byte) : allZero (d ++ e) = (allZero d && allZero e) := List.all_append ..

theorem allZero_iff (d : List Byte) : allZero d = true ↔ ∀ b ∈ d, b = 0 := by simp [allZero]

/-! ### `cut` -/

theorem cut_cons (size : Nat → Nat) (fuel A : Nat) {d : List Byte} (h : d ≠ []) :
    cut size (fuel + 1) A d = (A, d.take (size A)) :: cut size fuel (A + size A) (d.drop (size A)) := by
  simp [cut, h]

@[simp] theorem cut_empty (size : Nat → Nat) (fuel A : Nat) : cut size fuel A [] = [] := by
  cases fuel <;> simp [cut]

/-- With positive sizes the pieces tile the bytes. -/
theorem cut_tiles {size : Nat → Nat} (hpos : ∀ a, 0 < size a) (fuel A : Nat) (d : List Byte) (hf : d.length ≤ fuel) :
    Tiles A d (cut size fuel A d) := by
  induction fuel generalizing A d with
  | zero =>
    have : d = [] := List.length_eq_zero_iff.mp (by omega)
    simp [cut, Tiles, this]
  | succ fuel ih =>
    by_cases hd : d = []
    · simp [hd, Tiles]
    · rw [cut_cons size fuel A hd]
      have hlen : 0 < d.length := List.length_pos_iff.mpr hd
      refine ⟨rfl, ?_, d.drop (size A), (List.take_append_drop ..).symm, ?_⟩
      · have hA := hpos A
        intro h
        rcases List.take_eq_nil_iff.mp h with h | h
        · omega
        · exact hd h
      · by_cases hs : size A ≤ d.length
        · have e : (d.take (size A)).length = size A := by simp [hs]
          rw [e]
          apply ih
          have := hpos A
          simp
          omega
        · have e : d.drop (size A) = [] := List.drop_eq_nil_of_le (by omega)
          simp [e, Tiles]

/-- A piece is at most its size. -/
theorem cut_length_le (size : Nat → Nat) (fuel A : Nat) (d : List Byte) :
    ∀ p ∈ cut size fuel A d, p.2.length ≤ size p.1 := by
  induction fuel generalizing A d with
  | zero => simp [cut]
  | succ fuel ih =>
    by_cases hd : d = []
    · simp [hd]
    · rw [cut_cons size fuel A hd]
      intro p hp
      rcases List.mem_cons.mp hp with rfl | hp
      · exact List.length_take_le ..
      · exact ih _ _ p hp

/-- A piece is the bytes at its address, as many as its size and the end of the data allow. -/
theorem cut_piece (size : Nat → Nat) (fuel A : Nat) (d : List Byte) :
    ∀ p ∈ cut size fuel A d, ∃ k, p.1 = A + k ∧ k < d.length ∧ p.2 = (d.drop k).take (size p.1) := by
  induction fuel generalizing A d with
  | zero => simp [cut]
  | succ fuel ih =>
    by_cases hd : d = []
    · simp [hd]
    · rw [cut_cons size fuel A hd]
      intro p hp
      rcases List.mem_cons.mp hp with rfl | hp
      · exact ⟨0, rfl, List.length_pos_iff.mpr hd, rfl⟩
      · obtain ⟨k, h1, h2, h3⟩ := ih _ _ p hp
        refine ⟨size A + k, by omega, by simp at h2; omega, ?_⟩
        rw [h3, List.drop_drop]

/-! ### Tilings -/

theorem Tiles.flatten {A : Nat} {d : List Byte} {ps : List Piece} (h : Tiles A d ps) : (ps.map (·.2)).flatten = d := by
  induction ps generalizing A d with
  | nil => simpa [Tiles, eq_comm] using h
  | cons p ps ih =>
    obtain ⟨-, -, e, rfl, h⟩ := h
    simp [ih h]

theorem Tiles.sparse {A : Nat} {d : List Byte} {ps : List Piece} (h : Tiles A d ps) : Sparse A d ps := by
  induction ps generalizing A d with
  | nil => simp only [Tiles] at h; simp [Sparse, h]
  | cons p ps ih =>
    obtain ⟨h1, h2, e, rfl, h⟩ := h
    exact ⟨[], e, rfl, rfl, by simp [h1], h2, ih h⟩

/-! ### Sparse covers -/

theorem Sparse.cons_zero {A : Nat} {d : List Byte} {ps : List Piece} (h : Sparse (A + 1) d ps) :
    Sparse A (0 :: d) ps := by
  cases ps with
  | nil => simpa [Sparse] using h
  | cons p ps =>
    obtain ⟨z, e, rfl, hz, hp, hne, h⟩ := h
    refine ⟨0 :: z, e, rfl, by simpa using hz, by rw [hp, List.length_cons]; omega, hne, ?_⟩
    have : A + (0 :: z).length + p.2.length = A + 1 + z.length + p.2.length := by simp; omega
    rwa [this]

theorem Sparse.append {A : Nat} {d e : List Byte} {ps qs : List Piece} (h : Sparse A d ps)
    (h' : Sparse (A + d.length) e qs) : Sparse A (d ++ e) (ps ++ qs) := by
  induction ps generalizing A d with
  | nil =>
    cases qs with
    | nil => simp only [Sparse, List.append_nil, allZero_append, Bool.and_eq_true] at *; exact ⟨h, h'⟩
    | cons q qs =>
      obtain ⟨z, f, rfl, hz, hq, hne, h''⟩ := h'
      refine ⟨d ++ z, f, by simp, by simp only [Sparse] at h; simp [h, hz], by simp [hq]; omega, hne, ?_⟩
      have : A + (d ++ z).length + q.2.length = A + d.length + z.length + q.2.length := by simp; omega
      rwa [this]
  | cons p ps ih =>
    obtain ⟨z, f, rfl, hz, hp, hne, h⟩ := h
    refine ⟨z, f ++ e, by simp, hz, hp, hne, ?_⟩
    apply ih h
    have : A + z.length + p.2.length + f.length = A + (z ++ (p.2 ++ f)).length := by simp; omega
    rwa [this]

/-- Each piece of a sparse cover holds the bytes that stand at its address. -/
theorem Sparse.piece {A : Nat} {d : List Byte} {ps : List Piece} (h : Sparse A d ps) :
    ∀ p ∈ ps, p.2 ≠ [] ∧ ∃ k, p.1 = A + k ∧ k + p.2.length ≤ d.length ∧ p.2 = (d.drop k).take p.2.length := by
  induction ps generalizing A d with
  | nil => simp
  | cons q ps ih =>
    obtain ⟨z, f, rfl, hz, hq, hne, h⟩ := h
    intro p hp
    rcases List.mem_cons.mp hp with rfl | hp
    · exact ⟨hne, z.length, hq, by simp, by simp⟩
    · obtain ⟨hp1, k, hk1, hk2, hk3⟩ := ih h p hp
      refine ⟨hp1, z.length + (q.2.length + k), by omega, by simp; omega, ?_⟩
      have e1 : (z ++ (q.2 ++ f)).drop (z.length + (q.2.length + k)) = f.drop k := by simp
      rw [e1]
      exact hk3

/-- The pieces of a sparse cover rise and do not overlap. -/
theorem Sparse.pairwise {A : Nat} {d : List Byte} {ps : List Piece} (h : Sparse A d ps) :
    ps.Pairwise (fun p q => p.1 + p.2.length ≤ q.1) := by
  induction ps generalizing A d with
  | nil => exact List.Pairwise.nil
  | cons q ps ih =>
    obtain ⟨z, f, rfl, hz, hq, hne, h⟩ := h
    refine List.pairwise_cons.mpr ⟨?_, ih h⟩
    intro p hp
    obtain ⟨-, k, hk, -⟩ := h.piece p hp
    omega

/-- Every nonzero byte is in some piece of a sparse cover. -/
theorem Sparse.covers {A : Nat} {d : List Byte} {ps : List Piece} (h : Sparse A d ps) (k : Nat) (hk : k < d.length)
    (hb : d[k] ≠ 0) : ∃ p ∈ ps, p.1 ≤ A + k ∧ A + k < p.1 + p.2.length := by
  induction ps generalizing A d k with
  | nil =>
    simp only [Sparse, allZero_iff] at h
    exact absurd (h _ (List.getElem_mem hk)) hb
  | cons q ps ih =>
    obtain ⟨z, f, rfl, hz, hq, hne, h⟩ := h
    by_cases h1 : k < z.length
    · rw [List.getElem_append_left h1] at hb
      exact absurd ((allZero_iff z).mp hz _ (List.getElem_mem h1)) hb
    · by_cases h2 : k < z.length + q.2.length
      · exact ⟨q, List.mem_cons_self .., by omega, by omega⟩
      · have hk' : k - z.length - q.2.length < f.length := by simp at hk; omega
        have hb' : f[k - z.length - q.2.length] ≠ 0 := by
          intro hc
          apply hb
          rw [List.getElem_append_right (by omega), List.getElem_append_right (by omega)]
          exact hc
        obtain ⟨p, hp, hp1, hp2⟩ := ih h (k - z.length - q.2.length) hk' hb'
        exact ⟨p, List.mem_cons_of_mem _ hp, by omega, by omega⟩

/-! ### The record that starts at a nonzero byte (spec R185) -/

/-- Whether ZRUN zero bytes lie at index `c` wholly inside the window. -/
def ZeroRunAt (w : List Byte) (c : Nat) : Prop := c + Config.ZRUN ≤ w.length ∧ allZero ((w.drop c).take Config.ZRUN) = true

/-- `zeroRunStart` is the least index of a zero run inside the window, or the window's end (spec R185). -/
theorem zeroRunStart_spec (w : List Byte) :
    zeroRunStart w ≤ w.length ∧ (zeroRunStart w = w.length ∨ ZeroRunAt w (zeroRunStart w)) ∧
      ∀ c < zeroRunStart w, ¬ ZeroRunAt w c := by
  induction w with
  | nil => simp [zeroRunStart]
  | cons b w ih =>
    unfold zeroRunStart
    split
    · rename_i h
      refine ⟨Nat.zero_le _, .inr ⟨by simpa using h.1, by simpa using h.2⟩, by simp⟩
    · rename_i h
      obtain ⟨h1, h2, h3⟩ := ih
      refine ⟨by simp; omega, ?_, ?_⟩
      · rcases h2 with h2 | h2
        · left; simp [h2]; omega
        · right
          refine ⟨by have := h2.1; simp; omega, ?_⟩
          rw [Nat.add_comm 1]
          simpa using h2.2
      · intro c hc hrun
        cases c with
        | zero => exact h ⟨by simpa using hrun.1, by simpa using hrun.2⟩
        | succ c =>
          refine h3 c (by omega) ⟨?_, by simpa using hrun.2⟩
          have := hrun.1
          simp at this
          omega

theorem dropTrailingZeros_eq (d : List Byte) : dropTrailingZeros d = d.rdropWhile (fun b => b == 0) := rfl

/-- What is dropped at the end is zero. -/
theorem dropTrailingZeros_append (d : List Byte) : ∃ z, d = dropTrailingZeros d ++ z ∧ allZero z = true := by
  induction d using List.reverseRecOn with
  | nil => exact ⟨[], rfl, rfl⟩
  | append_singleton d b ih =>
    obtain ⟨z, hz, hz0⟩ := ih
    rw [dropTrailingZeros_eq] at *
    by_cases hb : b = 0
    · subst hb
      refine ⟨z ++ [0], ?_, by simp [hz0]⟩
      rw [List.rdropWhile_concat_pos _ _ _ (by rfl), ← List.append_assoc, ← hz]
    · refine ⟨[], ?_, rfl⟩
      rw [List.rdropWhile_concat_neg _ _ _ (by simpa using hb)]
      simp

theorem dropTrailingZeros_getLast {d : List Byte} (h : dropTrailingZeros d ≠ []) :
    (dropTrailingZeros d).getLast h ≠ 0 := by
  have := List.rdropWhile_last_not (fun b : Byte => b == 0) d (by simpa [dropTrailingZeros_eq] using h)
  simpa [dropTrailingZeros_eq] using this

/-- The payload of a record that starts at a nonzero byte: a prefix of the bytes, not empty, at most L long, first and last
bytes nonzero, no run of ZRUN zeros in it; and what follows it in its window up to the cut is zero (spec R185). -/
theorem recordPayload_spec {L : Nat} (hL : 1 ≤ L) {b : Byte} (hb : b ≠ 0) (d : List Byte) :
    (∃ t, recordPayload L (b :: d) = b :: t) ∧ (recordPayload L (b :: d)).length ≤ L ∧
      recordPayload L (b :: d) <+: b :: d ∧
      (∀ h : recordPayload L (b :: d) ≠ [], (recordPayload L (b :: d)).getLast h ≠ 0) ∧
      ∀ c, ¬ ZeroRunAt (recordPayload L (b :: d)) c := by
  obtain ⟨L, rfl⟩ : ∃ L', L = L' + 1 := ⟨L - 1, by omega⟩
  obtain ⟨h1, h2, h3⟩ := zeroRunStart_spec ((b :: d).take (L + 1))
  have hpos : 1 ≤ zeroRunStart ((b :: d).take (L + 1)) := by
    rcases h2 with h2 | h2
    · rw [h2]; simp
    · rcases Nat.eq_zero_or_pos (zeroRunStart ((b :: d).take (L + 1))) with h0 | h0
      · rw [h0] at h2
        have := h2.2
        simp [Config.ZRUN] at this
        exact absurd this.1 hb
      · exact h0
  obtain ⟨z, hz, hz0⟩ := dropTrailingZeros_append (((b :: d).take (L + 1)).take (zeroRunStart ((b :: d).take (L + 1))))
  have hpre : recordPayload (L + 1) (b :: d) <+: ((b :: d).take (L + 1)).take (zeroRunStart ((b :: d).take (L + 1))) :=
    ⟨z, hz.symm⟩
  have hpre2 : recordPayload (L + 1) (b :: d) <+: b :: d :=
    hpre.trans ((List.take_prefix _ _).trans (List.take_prefix _ _))
  have hcons : ∃ t, recordPayload (L + 1) (b :: d) = b :: t := by
    cases hr : recordPayload (L + 1) (b :: d) with
    | nil =>
      rw [recordPayload] at hr
      rw [hr, List.nil_append] at hz
      obtain ⟨n, hn⟩ : ∃ n, zeroRunStart ((b :: d).take (L + 1)) = n + 1 := Nat.exists_eq_add_one.mpr hpos
      rw [hn] at hz
      simp at hz
      rw [← hz] at hz0
      simp at hz0
      exact absurd hz0.1 hb
    | cons x t =>
      rw [hr] at hpre2
      exact ⟨t, by rw [(List.cons_prefix_cons.mp hpre2).1]⟩
  refine ⟨hcons, ?_, hpre2, ?_, ?_⟩
  · have := hpre.length_le
    simp at this
    omega
  · intro h
    exact dropTrailingZeros_getLast h
  · intro c hrun
    have hlen := hpre.length_le
    have hlen1 := hrun.1
    have hlt : c < zeroRunStart ((b :: d).take (L + 1)) := by
      simp only [List.length_take] at hlen
      have : Config.ZRUN = 6 := rfl
      omega
    refine h3 c hlt ⟨?_, ?_⟩
    · simp only [List.length_take] at hlen ⊢
      omega
    · have hp : recordPayload (L + 1) (b :: d) <+: (b :: d).take (L + 1) := hpre.trans (List.take_prefix _ _)
      obtain ⟨y, hy⟩ := hp
      rw [← hy, List.drop_append_of_le_length (by omega), List.take_append_of_le_length]
      · exact hrun.2
      · simp; omega

/-- Whether a zero run lies at the index where a window goes on, said of what is left of the window. -/
theorem ZeroRunAt.prefix {w : List Byte} {c : Nat} (h : ZeroRunAt w c) : List.replicate Config.ZRUN 0 <+: w.drop c := by
  have e : (w.drop c).take Config.ZRUN = List.replicate Config.ZRUN 0 := by
    refine List.eq_replicate_iff.mpr ⟨?_, (allZero_iff _).mp h.2⟩
    have := h.1
    simp
    omega
  exact e ▸ List.take_prefix ..

/-- What a record leaves of its window is all zero, or begins with ZRUN zeros: a shorter run never ends it (spec R185 b, c). -/
theorem recordPayload_window (L : Nat) (d : List Byte) :
    ∃ w, d.take L = recordPayload L d ++ w ∧ (allZero w = true ∨ List.replicate Config.ZRUN 0 <+: w) := by
  obtain ⟨-, hend, hfirst⟩ := zeroRunStart_spec (d.take L)
  obtain ⟨z, hz, hz0⟩ := dropTrailingZeros_append ((d.take L).take (zeroRunStart (d.take L)))
  have hr : recordPayload L d = dropTrailingZeros ((d.take L).take (zeroRunStart (d.take L))) := rfl
  generalize d.take L = w at *
  rw [← hr] at hz
  have hw : w = recordPayload L d ++ (z ++ w.drop (zeroRunStart w)) := by
    rw [← List.append_assoc, ← hz, List.take_append_drop]
  refine ⟨_, hw, ?_⟩
  rcases hend with hend | hrun
  · left
    simp [hend, hz0]
  · right
    suffices z = [] by simpa [this] using hrun.prefix
    by_contra hzn
    have hpos : 0 < z.length := List.length_pos_iff.mpr hzn
    have hlen := congrArg List.length hz
    simp only [List.length_take, List.length_append] at hlen
    have hle := hrun.1
    -- a zero dropped just before the run makes a run one byte earlier
    refine hfirst (zeroRunStart w - 1) (by omega) ⟨by omega, ?_⟩
    obtain ⟨t, ht⟩ := hrun.prefix
    have hi : zeroRunStart w - 1 = (recordPayload L d).length + (z.length - 1) := by omega
    have hdrop : w.drop (zeroRunStart w - 1) = z.drop (z.length - 1) ++ w.drop (zeroRunStart w) := by
      generalize w.drop (zeroRunStart w) = tl at hw ⊢
      rw [hi]
      conv_lhs => rw [hw]
      rw [← List.drop_drop, List.drop_left, List.drop_append_of_le_length (by omega)]
    rw [hdrop, ← ht, ← List.append_assoc, List.take_append_of_le_length (by simp), allZero_iff]
    intro b hb
    rcases List.mem_append.mp (List.mem_of_mem_take hb) with hb | hb
    · exact (allZero_iff z).mp hz0 b (List.mem_of_mem_drop hb)
    · exact List.eq_of_mem_replicate hb

/-! ### The chunks of an image -/

theorem segmentChunks_sparse {L : Nat} (hL : 1 ≤ L) (fuel A : Nat) (d : List Byte) (hf : d.length ≤ fuel) :
    Sparse A d (segmentChunks L fuel A d) := by
  induction fuel generalizing A d with
  | zero =>
    have : d = [] := List.length_eq_zero_iff.mp (by omega)
    simp [segmentChunks, Sparse, this]
  | succ fuel ih =>
    cases d with
    | nil => simp [segmentChunks, Sparse]
    | cons b d =>
      rw [segmentChunks]
      split
      · rename_i hb
        subst hb
        exact (ih (A + 1) d (by simpa using hf)).cons_zero
      · rename_i hb
        obtain ⟨⟨t, ht⟩, -, ⟨e, he⟩, -, -⟩ := recordPayload_spec hL hb d
        have hdrop : (b :: d).drop (recordPayload L (b :: d)).length = e := by
          have := congrArg (List.drop (recordPayload L (b :: d)).length) he
          rw [List.drop_left] at this
          exact this.symm
        refine ⟨[], e, by simpa using he.symm, rfl, rfl, by simp [ht], ?_⟩
        rw [hdrop]
        apply ih
        have h1 := congrArg List.length he
        have h2 := congrArg List.length ht
        simp only [List.length_append, List.length_cons] at h1 h2 hf
        omega

theorem omitSegment_sparse {L : Nat} (hL : 1 ≤ L) (p : Piece) (hp : p.2 ≠ []) : Sparse p.1 p.2 (omitSegment L p) := by
  unfold omitSegment
  split
  · rename_i h
    obtain ⟨b, t, hbt⟩ := List.exists_cons_of_ne_nil hp
    rw [hbt] at h ⊢
    simp at h
    exact ⟨[], t, by simp [h.1], rfl, rfl, by simp, by simpa [Sparse] using h.2⟩
  · exact segmentChunks_sparse hL _ _ _ (Nat.le_refl _)

theorem Tiles.flatMap_sparse {f : Piece → List Piece} (hf : ∀ p : Piece, p.2 ≠ [] → Sparse p.1 p.2 (f p))
    {A : Nat} {d : List Byte} {ps : List Piece} (h : Tiles A d ps) : Sparse A d (ps.flatMap f) := by
  induction ps generalizing A d with
  | nil => simp only [Tiles] at h; simp [Sparse, h]
  | cons p ps ih =>
    obtain ⟨rfl, h2, e, rfl, h⟩ := h
    exact (hf p h2).append (ih h)

theorem roomBelowMultiple_pos {m : Nat} (hm : 0 < m) (a : Nat) : 0 < roomBelowMultiple m a := by
  have := Nat.mod_lt a hm
  unfold roomBelowMultiple
  omega

theorem pageSegments_tiles {m : Nat} (hm : 0 < m) (A : Nat) (d : List Byte) : Tiles A d (pageSegments m A d) :=
  cut_tiles (roomBelowMultiple_pos hm) _ _ _ (Nat.le_refl _)

theorem plainChunks_tiles {L : Nat} (hL : 1 ≤ L) (A : Nat) (d : List Byte) : Tiles A d (plainChunks L A d) :=
  cut_tiles (fun a => Nat.lt_min.mpr ⟨hL, roomBelowMultiple_pos (by decide) a⟩) _ _ _ (Nat.le_refl _)

/-- In both modes the chunks stand in the image, rising, with only zeros between them (spec R190). -/
theorem imageChunks_sparse {L : Nat} (hL : 1 ≤ L) {mode : Option Nat} (hm : ∀ P, mode = some P → 0 < P) (B : Nat)
    (d : List Byte) : Sparse B d (imageChunks L mode B d) := by
  cases mode with
  | none => exact (plainChunks_tiles hL B d).sparse
  | some P => exact (pageSegments_tiles (hm P rfl) B d).flatMap_sparse (omitSegment_sparse hL)

/-! ### `emit_data` -/

theorem injectEla_nil (u : Nat) : injectEla u [] = [] := rfl

theorem injectEla_cons (u : Nat) (p : Piece) (ps : List Piece) :
    injectEla u (p :: ps) =
      (if blockOf p.1 = u then [] else [elaRecord (BitVec.ofNat 16 (blockOf p.1))]) ++
        dataRecord (BitVec.ofNat 16 p.1) p.2 :: injectEla (blockOf p.1) ps := by
  obtain ⟨A, d⟩ := p
  by_cases h : blockOf A = u <;> simp [injectEla, h]

/-- What a record of `emit_data`'s output is: the ELA record of a block of some chunk, or the Data record of a chunk. -/
theorem mem_injectEla {u : Nat} {ps : List Piece} {r : HexRecord} (h : r ∈ injectEla u ps) :
    ∃ p ∈ ps, r = elaRecord (BitVec.ofNat 16 (blockOf p.1)) ∨ r = dataRecord (BitVec.ofNat 16 p.1) p.2 := by
  induction ps generalizing u with
  | nil => simp [injectEla] at h
  | cons p ps ih =>
    rw [injectEla_cons] at h
    rcases List.mem_append.mp h with h | h
    · split at h
      · simp at h
      · exact ⟨p, List.mem_cons_self .., .inl (by simpa using h)⟩
    · rcases List.mem_cons.mp h with h | h
      · exact ⟨p, List.mem_cons_self .., .inr h⟩
      · obtain ⟨q, hq, hr⟩ := ih h
        exact ⟨q, List.mem_cons_of_mem _ hq, hr⟩

/-- The records of an image: each one is an ELA record, the Data record of a chunk, or the last one, EOF. -/
theorem mem_encodeImage {L : Nat} {mode : Option Nat} {B : Nat} {d : List Byte} {r : HexRecord}
    (h : r ∈ encodeImage L mode B d) :
    (∃ p ∈ imageChunks L mode B d, r = elaRecord (BitVec.ofNat 16 (blockOf p.1)) ∨
      r = dataRecord (BitVec.ofNat 16 p.1) p.2) ∨ r = eofRecord := by
  rcases List.mem_append.mp h with h | h
  · exact .inl (mem_injectEla h)
  · exact .inr (by simpa using h)

end Sys2Proof.Machine
end

