-- ==== Sys2Proof/Laws/State.lean ====
section
/-! SUPPORT. One lemma per field per update of the block and of the state, so that no proof unfolds a record update. -/

namespace Sys2Proof.Machine

/-! `Block.irqSet` -/

@[simp] theorem Block.irqSet_ACC (k : IrqBit) (b : Block) : (Block.irqSet k b).ACC = b.ACC := rfl
@[simp] theorem Block.irqSet_IMG (k : IrqBit) (b : Block) : (Block.irqSet k b).IMG = b.IMG := rfl
@[simp] theorem Block.irqSet_PARAM (k : IrqBit) (b : Block) : (Block.irqSet k b).PARAM = b.PARAM := rfl
@[simp] theorem Block.irqSet_IMG_BASE (k : IrqBit) (b : Block) : (Block.irqSet k b).IMG_BASE = b.IMG_BASE := rfl
@[simp] theorem Block.irqSet_IMG_LEN (k : IrqBit) (b : Block) : (Block.irqSet k b).IMG_LEN = b.IMG_LEN := rfl
@[simp] theorem Block.irqSet_LINE_LEN (k : IrqBit) (b : Block) : (Block.irqSet k b).LINE_LEN = b.LINE_LEN := rfl
@[simp] theorem Block.irqSet_PAGE_LOG2 (k : IrqBit) (b : Block) : (Block.irqSet k b).PAGE_LOG2 = b.PAGE_LOG2 := rfl
@[simp] theorem Block.irqSet_PAGE_EN (k : IrqBit) (b : Block) : (Block.irqSet k b).PAGE_EN = b.PAGE_EN := rfl
@[simp] theorem Block.irqSet_OMIT_NULL (k : IrqBit) (b : Block) : (Block.irqSet k b).OMIT_NULL = b.OMIT_NULL := rfl
@[simp] theorem Block.irqSet_ENC_ST (k : IrqBit) (b : Block) : (Block.irqSet k b).ENC_ST = b.ENC_ST := rfl
@[simp] theorem Block.irqSet_ENC_ERRC (k : IrqBit) (b : Block) : (Block.irqSet k b).ENC_ERRC = b.ENC_ERRC := rfl
@[simp] theorem Block.irqSet_ENC_NREC (k : IrqBit) (b : Block) : (Block.irqSet k b).ENC_NREC = b.ENC_NREC := rfl
@[simp] theorem Block.irqSet_OUTQ (k : IrqBit) (b : Block) : (Block.irqSet k b).OUTQ = b.OUTQ := rfl
@[simp] theorem Block.irqSet_MEMKIND (k : IrqBit) (b : Block) : (Block.irqSet k b).MEMKIND = b.MEMKIND := rfl
@[simp] theorem Block.irqSet_VERIFY (k : IrqBit) (b : Block) : (Block.irqSet k b).VERIFY = b.VERIFY := rfl
@[simp] theorem Block.irqSet_SIGCHK (k : IrqBit) (b : Block) : (Block.irqSet k b).SIGCHK = b.SIGCHK := rfl
@[simp] theorem Block.irqSet_SIG_LEN (k : IrqBit) (b : Block) : (Block.irqSet k b).SIG_LEN = b.SIG_LEN := rfl
@[simp] theorem Block.irqSet_DEV_PAGE (k : IrqBit) (b : Block) : (Block.irqSet k b).DEV_PAGE = b.DEV_PAGE := rfl
@[simp] theorem Block.irqSet_SES_TIMEOUT (k : IrqBit) (b : Block) : (Block.irqSet k b).SES_TIMEOUT = b.SES_TIMEOUT := rfl
@[simp] theorem Block.irqSet_SIG_EXPECT (k : IrqBit) (b : Block) : (Block.irqSet k b).SIG_EXPECT = b.SIG_EXPECT := rfl
@[simp] theorem Block.irqSet_PARAM_LEN (k : IrqBit) (b : Block) : (Block.irqSet k b).PARAM_LEN = b.PARAM_LEN := rfl
@[simp] theorem Block.irqSet_SES_ST (k : IrqBit) (b : Block) : (Block.irqSet k b).SES_ST = b.SES_ST := rfl
@[simp] theorem Block.irqSet_INFLIGHT (k : IrqBit) (b : Block) : (Block.irqSet k b).INFLIGHT = b.INFLIGHT := rfl
@[simp] theorem Block.irqSet_Q (k : IrqBit) (b : Block) : (Block.irqSet k b).Q = b.Q := rfl
@[simp] theorem Block.irqSet_SEQ_IDX (k : IrqBit) (b : Block) : (Block.irqSet k b).SEQ_IDX = b.SEQ_IDX := rfl
@[simp] theorem Block.irqSet_SEQ_LEN (k : IrqBit) (b : Block) : (Block.irqSet k b).SEQ_LEN = b.SEQ_LEN := rfl
@[simp] theorem Block.irqSet_RB (k : IrqBit) (b : Block) : (Block.irqSet k b).RB = b.RB := rfl
@[simp] theorem Block.irqSet_TMR (k : IrqBit) (b : Block) : (Block.irqSet k b).TMR = b.TMR := rfl
@[simp] theorem Block.irqSet_WCUR (k : IrqBit) (b : Block) : (Block.irqSet k b).WCUR = b.WCUR := rfl
@[simp] theorem Block.irqSet_WCUR_V (k : IrqBit) (b : Block) : (Block.irqSet k b).WCUR_V = b.WCUR_V := rfl
@[simp] theorem Block.irqSet_LINK_CLOSED (k : IrqBit) (b : Block) : (Block.irqSet k b).LINK_CLOSED = b.LINK_CLOSED := rfl
@[simp] theorem Block.irqSet_FAIL_REASON (k : IrqBit) (b : Block) : (Block.irqSet k b).FAIL_REASON = b.FAIL_REASON := rfl
@[simp] theorem Block.irqSet_FAIL_KIND (k : IrqBit) (b : Block) : (Block.irqSet k b).FAIL_KIND = b.FAIL_KIND := rfl
@[simp] theorem Block.irqSet_FAIL_IDX (k : IrqBit) (b : Block) : (Block.irqSet k b).FAIL_IDX = b.FAIL_IDX := rfl
@[simp] theorem Block.irqSet_FAIL_ADDR (k : IrqBit) (b : Block) : (Block.irqSet k b).FAIL_ADDR = b.FAIL_ADDR := rfl
@[simp] theorem Block.irqSet_FAIL_OFF (k : IrqBit) (b : Block) : (Block.irqSet k b).FAIL_OFF = b.FAIL_OFF := rfl
@[simp] theorem Block.irqSet_FAIL_EXP (k : IrqBit) (b : Block) : (Block.irqSet k b).FAIL_EXP = b.FAIL_EXP := rfl
@[simp] theorem Block.irqSet_FAIL_ACT (k : IrqBit) (b : Block) : (Block.irqSet k b).FAIL_ACT = b.FAIL_ACT := rfl
@[simp] theorem Block.irqSet_SIG_READ (k : IrqBit) (b : Block) : (Block.irqSet k b).SIG_READ = b.SIG_READ := rfl
@[simp] theorem Block.irqSet_REPORTS (k : IrqBit) (b : Block) : (Block.irqSet k b).REPORTS = b.REPORTS := rfl
@[simp] theorem Block.irqSet_LAST_KIND (k : IrqBit) (b : Block) : (Block.irqSet k b).LAST_KIND = b.LAST_KIND := rfl
@[simp] theorem Block.irqSet_LAST_RES (k : IrqBit) (b : Block) : (Block.irqSet k b).LAST_RES = b.LAST_RES := rfl
@[simp] theorem Block.irqSet_LAST_IDX (k : IrqBit) (b : Block) : (Block.irqSet k b).LAST_IDX = b.LAST_IDX := rfl
@[simp] theorem Block.irqSet_IRQ_STAT (k : IrqBit) (b : Block) : (Block.irqSet k b).IRQ_STAT = b.IRQ_STAT ||| k.mask := rfl
@[simp] theorem Block.irqSet_IRQ_EN (k : IrqBit) (b : Block) : (Block.irqSet k b).IRQ_EN = b.IRQ_EN := rfl
@[simp] theorem Block.irqSet_CMD_ERRC (k : IrqBit) (b : Block) : (Block.irqSet k b).CMD_ERRC = b.CMD_ERRC := rfl
@[simp] theorem Block.irqSet_CMD_ERRS (k : IrqBit) (b : Block) : (Block.irqSet k b).CMD_ERRS = b.CMD_ERRS := rfl

/-! `Block.cmdErr` -/

@[simp] theorem Block.cmdErr_ACC (c : CmdErrCode) (e : SesCfgErr) (b : Block) : (Block.cmdErr c e b).ACC = b.ACC := rfl
@[simp] theorem Block.cmdErr_IMG (c : CmdErrCode) (e : SesCfgErr) (b : Block) : (Block.cmdErr c e b).IMG = b.IMG := rfl
@[simp] theorem Block.cmdErr_PARAM (c : CmdErrCode) (e : SesCfgErr) (b : Block) : (Block.cmdErr c e b).PARAM = b.PARAM := rfl
@[simp] theorem Block.cmdErr_IMG_BASE (c : CmdErrCode) (e : SesCfgErr) (b : Block) : (Block.cmdErr c e b).IMG_BASE = b.IMG_BASE := rfl
@[simp] theorem Block.cmdErr_IMG_LEN (c : CmdErrCode) (e : SesCfgErr) (b : Block) : (Block.cmdErr c e b).IMG_LEN = b.IMG_LEN := rfl
@[simp] theorem Block.cmdErr_LINE_LEN (c : CmdErrCode) (e : SesCfgErr) (b : Block) : (Block.cmdErr c e b).LINE_LEN = b.LINE_LEN := rfl
@[simp] theorem Block.cmdErr_PAGE_LOG2 (c : CmdErrCode) (e : SesCfgErr) (b : Block) : (Block.cmdErr c e b).PAGE_LOG2 = b.PAGE_LOG2 := rfl
@[simp] theorem Block.cmdErr_PAGE_EN (c : CmdErrCode) (e : SesCfgErr) (b : Block) : (Block.cmdErr c e b).PAGE_EN = b.PAGE_EN := rfl
@[simp] theorem Block.cmdErr_OMIT_NULL (c : CmdErrCode) (e : SesCfgErr) (b : Block) : (Block.cmdErr c e b).OMIT_NULL = b.OMIT_NULL := rfl
@[simp] theorem Block.cmdErr_ENC_ST (c : CmdErrCode) (e : SesCfgErr) (b : Block) : (Block.cmdErr c e b).ENC_ST = b.ENC_ST := rfl
@[simp] theorem Block.cmdErr_ENC_ERRC (c : CmdErrCode) (e : SesCfgErr) (b : Block) : (Block.cmdErr c e b).ENC_ERRC = b.ENC_ERRC := rfl
@[simp] theorem Block.cmdErr_ENC_NREC (c : CmdErrCode) (e : SesCfgErr) (b : Block) : (Block.cmdErr c e b).ENC_NREC = b.ENC_NREC := rfl
@[simp] theorem Block.cmdErr_OUTQ (c : CmdErrCode) (e : SesCfgErr) (b : Block) : (Block.cmdErr c e b).OUTQ = b.OUTQ := rfl
@[simp] theorem Block.cmdErr_MEMKIND (c : CmdErrCode) (e : SesCfgErr) (b : Block) : (Block.cmdErr c e b).MEMKIND = b.MEMKIND := rfl
@[simp] theorem Block.cmdErr_VERIFY (c : CmdErrCode) (e : SesCfgErr) (b : Block) : (Block.cmdErr c e b).VERIFY = b.VERIFY := rfl
@[simp] theorem Block.cmdErr_SIGCHK (c : CmdErrCode) (e : SesCfgErr) (b : Block) : (Block.cmdErr c e b).SIGCHK = b.SIGCHK := rfl
@[simp] theorem Block.cmdErr_SIG_LEN (c : CmdErrCode) (e : SesCfgErr) (b : Block) : (Block.cmdErr c e b).SIG_LEN = b.SIG_LEN := rfl
@[simp] theorem Block.cmdErr_DEV_PAGE (c : CmdErrCode) (e : SesCfgErr) (b : Block) : (Block.cmdErr c e b).DEV_PAGE = b.DEV_PAGE := rfl
@[simp] theorem Block.cmdErr_SES_TIMEOUT (c : CmdErrCode) (e : SesCfgErr) (b : Block) : (Block.cmdErr c e b).SES_TIMEOUT = b.SES_TIMEOUT := rfl
@[simp] theorem Block.cmdErr_SIG_EXPECT (c : CmdErrCode) (e : SesCfgErr) (b : Block) : (Block.cmdErr c e b).SIG_EXPECT = b.SIG_EXPECT := rfl
@[simp] theorem Block.cmdErr_PARAM_LEN (c : CmdErrCode) (e : SesCfgErr) (b : Block) : (Block.cmdErr c e b).PARAM_LEN = b.PARAM_LEN := rfl
@[simp] theorem Block.cmdErr_SES_ST (c : CmdErrCode) (e : SesCfgErr) (b : Block) : (Block.cmdErr c e b).SES_ST = b.SES_ST := rfl
@[simp] theorem Block.cmdErr_INFLIGHT (c : CmdErrCode) (e : SesCfgErr) (b : Block) : (Block.cmdErr c e b).INFLIGHT = b.INFLIGHT := rfl
@[simp] theorem Block.cmdErr_Q (c : CmdErrCode) (e : SesCfgErr) (b : Block) : (Block.cmdErr c e b).Q = b.Q := rfl
@[simp] theorem Block.cmdErr_SEQ_IDX (c : CmdErrCode) (e : SesCfgErr) (b : Block) : (Block.cmdErr c e b).SEQ_IDX = b.SEQ_IDX := rfl
@[simp] theorem Block.cmdErr_SEQ_LEN (c : CmdErrCode) (e : SesCfgErr) (b : Block) : (Block.cmdErr c e b).SEQ_LEN = b.SEQ_LEN := rfl
@[simp] theorem Block.cmdErr_RB (c : CmdErrCode) (e : SesCfgErr) (b : Block) : (Block.cmdErr c e b).RB = b.RB := rfl
@[simp] theorem Block.cmdErr_TMR (c : CmdErrCode) (e : SesCfgErr) (b : Block) : (Block.cmdErr c e b).TMR = b.TMR := rfl
@[simp] theorem Block.cmdErr_WCUR (c : CmdErrCode) (e : SesCfgErr) (b : Block) : (Block.cmdErr c e b).WCUR = b.WCUR := rfl
@[simp] theorem Block.cmdErr_WCUR_V (c : CmdErrCode) (e : SesCfgErr) (b : Block) : (Block.cmdErr c e b).WCUR_V = b.WCUR_V := rfl
@[simp] theorem Block.cmdErr_LINK_CLOSED (c : CmdErrCode) (e : SesCfgErr) (b : Block) : (Block.cmdErr c e b).LINK_CLOSED = b.LINK_CLOSED := rfl
@[simp] theorem Block.cmdErr_FAIL_REASON (c : CmdErrCode) (e : SesCfgErr) (b : Block) : (Block.cmdErr c e b).FAIL_REASON = b.FAIL_REASON := rfl
@[simp] theorem Block.cmdErr_FAIL_KIND (c : CmdErrCode) (e : SesCfgErr) (b : Block) : (Block.cmdErr c e b).FAIL_KIND = b.FAIL_KIND := rfl
@[simp] theorem Block.cmdErr_FAIL_IDX (c : CmdErrCode) (e : SesCfgErr) (b : Block) : (Block.cmdErr c e b).FAIL_IDX = b.FAIL_IDX := rfl
@[simp] theorem Block.cmdErr_FAIL_ADDR (c : CmdErrCode) (e : SesCfgErr) (b : Block) : (Block.cmdErr c e b).FAIL_ADDR = b.FAIL_ADDR := rfl
@[simp] theorem Block.cmdErr_FAIL_OFF (c : CmdErrCode) (e : SesCfgErr) (b : Block) : (Block.cmdErr c e b).FAIL_OFF = b.FAIL_OFF := rfl
@[simp] theorem Block.cmdErr_FAIL_EXP (c : CmdErrCode) (e : SesCfgErr) (b : Block) : (Block.cmdErr c e b).FAIL_EXP = b.FAIL_EXP := rfl
@[simp] theorem Block.cmdErr_FAIL_ACT (c : CmdErrCode) (e : SesCfgErr) (b : Block) : (Block.cmdErr c e b).FAIL_ACT = b.FAIL_ACT := rfl
@[simp] theorem Block.cmdErr_SIG_READ (c : CmdErrCode) (e : SesCfgErr) (b : Block) : (Block.cmdErr c e b).SIG_READ = b.SIG_READ := rfl
@[simp] theorem Block.cmdErr_REPORTS (c : CmdErrCode) (e : SesCfgErr) (b : Block) : (Block.cmdErr c e b).REPORTS = b.REPORTS := rfl
@[simp] theorem Block.cmdErr_LAST_KIND (c : CmdErrCode) (e : SesCfgErr) (b : Block) : (Block.cmdErr c e b).LAST_KIND = b.LAST_KIND := rfl
@[simp] theorem Block.cmdErr_LAST_RES (c : CmdErrCode) (e : SesCfgErr) (b : Block) : (Block.cmdErr c e b).LAST_RES = b.LAST_RES := rfl
@[simp] theorem Block.cmdErr_LAST_IDX (c : CmdErrCode) (e : SesCfgErr) (b : Block) : (Block.cmdErr c e b).LAST_IDX = b.LAST_IDX := rfl
@[simp] theorem Block.cmdErr_IRQ_STAT (c : CmdErrCode) (e : SesCfgErr) (b : Block) : (Block.cmdErr c e b).IRQ_STAT = b.IRQ_STAT ||| IrqBit.cmdErr.mask := rfl
@[simp] theorem Block.cmdErr_IRQ_EN (c : CmdErrCode) (e : SesCfgErr) (b : Block) : (Block.cmdErr c e b).IRQ_EN = b.IRQ_EN := rfl
@[simp] theorem Block.cmdErr_CMD_ERRC (c : CmdErrCode) (e : SesCfgErr) (b : Block) : (Block.cmdErr c e b).CMD_ERRC = c := rfl
@[simp] theorem Block.cmdErr_CMD_ERRS (c : CmdErrCode) (e : SesCfgErr) (b : Block) : (Block.cmdErr c e b).CMD_ERRS = e := rfl

/-! `Block.encErr` -/

@[simp] theorem Block.encErr_ACC (c : EncErrCode) (b : Block) : (Block.encErr c b).ACC = b.ACC := rfl
@[simp] theorem Block.encErr_IMG (c : EncErrCode) (b : Block) : (Block.encErr c b).IMG = b.IMG := rfl
@[simp] theorem Block.encErr_PARAM (c : EncErrCode) (b : Block) : (Block.encErr c b).PARAM = b.PARAM := rfl
@[simp] theorem Block.encErr_IMG_BASE (c : EncErrCode) (b : Block) : (Block.encErr c b).IMG_BASE = b.IMG_BASE := rfl
@[simp] theorem Block.encErr_IMG_LEN (c : EncErrCode) (b : Block) : (Block.encErr c b).IMG_LEN = b.IMG_LEN := rfl
@[simp] theorem Block.encErr_LINE_LEN (c : EncErrCode) (b : Block) : (Block.encErr c b).LINE_LEN = b.LINE_LEN := rfl
@[simp] theorem Block.encErr_PAGE_LOG2 (c : EncErrCode) (b : Block) : (Block.encErr c b).PAGE_LOG2 = b.PAGE_LOG2 := rfl
@[simp] theorem Block.encErr_PAGE_EN (c : EncErrCode) (b : Block) : (Block.encErr c b).PAGE_EN = b.PAGE_EN := rfl
@[simp] theorem Block.encErr_OMIT_NULL (c : EncErrCode) (b : Block) : (Block.encErr c b).OMIT_NULL = b.OMIT_NULL := rfl
@[simp] theorem Block.encErr_ENC_ST (c : EncErrCode) (b : Block) : (Block.encErr c b).ENC_ST = .error := rfl
@[simp] theorem Block.encErr_ENC_ERRC (c : EncErrCode) (b : Block) : (Block.encErr c b).ENC_ERRC = c := rfl
@[simp] theorem Block.encErr_ENC_NREC (c : EncErrCode) (b : Block) : (Block.encErr c b).ENC_NREC = b.ENC_NREC := rfl
@[simp] theorem Block.encErr_OUTQ (c : EncErrCode) (b : Block) : (Block.encErr c b).OUTQ = [] := rfl
@[simp] theorem Block.encErr_MEMKIND (c : EncErrCode) (b : Block) : (Block.encErr c b).MEMKIND = b.MEMKIND := rfl
@[simp] theorem Block.encErr_VERIFY (c : EncErrCode) (b : Block) : (Block.encErr c b).VERIFY = b.VERIFY := rfl
@[simp] theorem Block.encErr_SIGCHK (c : EncErrCode) (b : Block) : (Block.encErr c b).SIGCHK = b.SIGCHK := rfl
@[simp] theorem Block.encErr_SIG_LEN (c : EncErrCode) (b : Block) : (Block.encErr c b).SIG_LEN = b.SIG_LEN := rfl
@[simp] theorem Block.encErr_DEV_PAGE (c : EncErrCode) (b : Block) : (Block.encErr c b).DEV_PAGE = b.DEV_PAGE := rfl
@[simp] theorem Block.encErr_SES_TIMEOUT (c : EncErrCode) (b : Block) : (Block.encErr c b).SES_TIMEOUT = b.SES_TIMEOUT := rfl
@[simp] theorem Block.encErr_SIG_EXPECT (c : EncErrCode) (b : Block) : (Block.encErr c b).SIG_EXPECT = b.SIG_EXPECT := rfl
@[simp] theorem Block.encErr_PARAM_LEN (c : EncErrCode) (b : Block) : (Block.encErr c b).PARAM_LEN = b.PARAM_LEN := rfl
@[simp] theorem Block.encErr_SES_ST (c : EncErrCode) (b : Block) : (Block.encErr c b).SES_ST = b.SES_ST := rfl
@[simp] theorem Block.encErr_INFLIGHT (c : EncErrCode) (b : Block) : (Block.encErr c b).INFLIGHT = b.INFLIGHT := rfl
@[simp] theorem Block.encErr_Q (c : EncErrCode) (b : Block) : (Block.encErr c b).Q = b.Q := rfl
@[simp] theorem Block.encErr_SEQ_IDX (c : EncErrCode) (b : Block) : (Block.encErr c b).SEQ_IDX = b.SEQ_IDX := rfl
@[simp] theorem Block.encErr_SEQ_LEN (c : EncErrCode) (b : Block) : (Block.encErr c b).SEQ_LEN = b.SEQ_LEN := rfl
@[simp] theorem Block.encErr_RB (c : EncErrCode) (b : Block) : (Block.encErr c b).RB = b.RB := rfl
@[simp] theorem Block.encErr_TMR (c : EncErrCode) (b : Block) : (Block.encErr c b).TMR = b.TMR := rfl
@[simp] theorem Block.encErr_WCUR (c : EncErrCode) (b : Block) : (Block.encErr c b).WCUR = b.WCUR := rfl
@[simp] theorem Block.encErr_WCUR_V (c : EncErrCode) (b : Block) : (Block.encErr c b).WCUR_V = b.WCUR_V := rfl
@[simp] theorem Block.encErr_LINK_CLOSED (c : EncErrCode) (b : Block) : (Block.encErr c b).LINK_CLOSED = b.LINK_CLOSED := rfl
@[simp] theorem Block.encErr_FAIL_REASON (c : EncErrCode) (b : Block) : (Block.encErr c b).FAIL_REASON = b.FAIL_REASON := rfl
@[simp] theorem Block.encErr_FAIL_KIND (c : EncErrCode) (b : Block) : (Block.encErr c b).FAIL_KIND = b.FAIL_KIND := rfl
@[simp] theorem Block.encErr_FAIL_IDX (c : EncErrCode) (b : Block) : (Block.encErr c b).FAIL_IDX = b.FAIL_IDX := rfl
@[simp] theorem Block.encErr_FAIL_ADDR (c : EncErrCode) (b : Block) : (Block.encErr c b).FAIL_ADDR = b.FAIL_ADDR := rfl
@[simp] theorem Block.encErr_FAIL_OFF (c : EncErrCode) (b : Block) : (Block.encErr c b).FAIL_OFF = b.FAIL_OFF := rfl
@[simp] theorem Block.encErr_FAIL_EXP (c : EncErrCode) (b : Block) : (Block.encErr c b).FAIL_EXP = b.FAIL_EXP := rfl
@[simp] theorem Block.encErr_FAIL_ACT (c : EncErrCode) (b : Block) : (Block.encErr c b).FAIL_ACT = b.FAIL_ACT := rfl
@[simp] theorem Block.encErr_SIG_READ (c : EncErrCode) (b : Block) : (Block.encErr c b).SIG_READ = b.SIG_READ := rfl
@[simp] theorem Block.encErr_REPORTS (c : EncErrCode) (b : Block) : (Block.encErr c b).REPORTS = b.REPORTS := rfl
@[simp] theorem Block.encErr_LAST_KIND (c : EncErrCode) (b : Block) : (Block.encErr c b).LAST_KIND = b.LAST_KIND := rfl
@[simp] theorem Block.encErr_LAST_RES (c : EncErrCode) (b : Block) : (Block.encErr c b).LAST_RES = b.LAST_RES := rfl
@[simp] theorem Block.encErr_LAST_IDX (c : EncErrCode) (b : Block) : (Block.encErr c b).LAST_IDX = b.LAST_IDX := rfl
@[simp] theorem Block.encErr_IRQ_STAT (c : EncErrCode) (b : Block) : (Block.encErr c b).IRQ_STAT = b.IRQ_STAT ||| IrqBit.encErr.mask := rfl
@[simp] theorem Block.encErr_IRQ_EN (c : EncErrCode) (b : Block) : (Block.encErr c b).IRQ_EN = b.IRQ_EN := rfl
@[simp] theorem Block.encErr_CMD_ERRC (c : EncErrCode) (b : Block) : (Block.encErr c b).CMD_ERRC = b.CMD_ERRC := rfl
@[simp] theorem Block.encErr_CMD_ERRS (c : EncErrCode) (b : Block) : (Block.encErr c b).CMD_ERRS = b.CMD_ERRS := rfl

/-! `Block.report` -/

@[simp] theorem Block.report_ACC (k : Option Kind) (i : Word) (r : ReportResult) (b : Block) : (Block.report k i r b).ACC = b.ACC := rfl
@[simp] theorem Block.report_IMG (k : Option Kind) (i : Word) (r : ReportResult) (b : Block) : (Block.report k i r b).IMG = b.IMG := rfl
@[simp] theorem Block.report_PARAM (k : Option Kind) (i : Word) (r : ReportResult) (b : Block) : (Block.report k i r b).PARAM = b.PARAM := rfl
@[simp] theorem Block.report_IMG_BASE (k : Option Kind) (i : Word) (r : ReportResult) (b : Block) : (Block.report k i r b).IMG_BASE = b.IMG_BASE := rfl
@[simp] theorem Block.report_IMG_LEN (k : Option Kind) (i : Word) (r : ReportResult) (b : Block) : (Block.report k i r b).IMG_LEN = b.IMG_LEN := rfl
@[simp] theorem Block.report_LINE_LEN (k : Option Kind) (i : Word) (r : ReportResult) (b : Block) : (Block.report k i r b).LINE_LEN = b.LINE_LEN := rfl
@[simp] theorem Block.report_PAGE_LOG2 (k : Option Kind) (i : Word) (r : ReportResult) (b : Block) : (Block.report k i r b).PAGE_LOG2 = b.PAGE_LOG2 := rfl
@[simp] theorem Block.report_PAGE_EN (k : Option Kind) (i : Word) (r : ReportResult) (b : Block) : (Block.report k i r b).PAGE_EN = b.PAGE_EN := rfl
@[simp] theorem Block.report_OMIT_NULL (k : Option Kind) (i : Word) (r : ReportResult) (b : Block) : (Block.report k i r b).OMIT_NULL = b.OMIT_NULL := rfl
@[simp] theorem Block.report_ENC_ST (k : Option Kind) (i : Word) (r : ReportResult) (b : Block) : (Block.report k i r b).ENC_ST = b.ENC_ST := rfl
@[simp] theorem Block.report_ENC_ERRC (k : Option Kind) (i : Word) (r : ReportResult) (b : Block) : (Block.report k i r b).ENC_ERRC = b.ENC_ERRC := rfl
@[simp] theorem Block.report_ENC_NREC (k : Option Kind) (i : Word) (r : ReportResult) (b : Block) : (Block.report k i r b).ENC_NREC = b.ENC_NREC := rfl
@[simp] theorem Block.report_OUTQ (k : Option Kind) (i : Word) (r : ReportResult) (b : Block) : (Block.report k i r b).OUTQ = b.OUTQ := rfl
@[simp] theorem Block.report_MEMKIND (k : Option Kind) (i : Word) (r : ReportResult) (b : Block) : (Block.report k i r b).MEMKIND = b.MEMKIND := rfl
@[simp] theorem Block.report_VERIFY (k : Option Kind) (i : Word) (r : ReportResult) (b : Block) : (Block.report k i r b).VERIFY = b.VERIFY := rfl
@[simp] theorem Block.report_SIGCHK (k : Option Kind) (i : Word) (r : ReportResult) (b : Block) : (Block.report k i r b).SIGCHK = b.SIGCHK := rfl
@[simp] theorem Block.report_SIG_LEN (k : Option Kind) (i : Word) (r : ReportResult) (b : Block) : (Block.report k i r b).SIG_LEN = b.SIG_LEN := rfl
@[simp] theorem Block.report_DEV_PAGE (k : Option Kind) (i : Word) (r : ReportResult) (b : Block) : (Block.report k i r b).DEV_PAGE = b.DEV_PAGE := rfl
@[simp] theorem Block.report_SES_TIMEOUT (k : Option Kind) (i : Word) (r : ReportResult) (b : Block) : (Block.report k i r b).SES_TIMEOUT = b.SES_TIMEOUT := rfl
@[simp] theorem Block.report_SIG_EXPECT (k : Option Kind) (i : Word) (r : ReportResult) (b : Block) : (Block.report k i r b).SIG_EXPECT = b.SIG_EXPECT := rfl
@[simp] theorem Block.report_PARAM_LEN (k : Option Kind) (i : Word) (r : ReportResult) (b : Block) : (Block.report k i r b).PARAM_LEN = b.PARAM_LEN := rfl
@[simp] theorem Block.report_SES_ST (k : Option Kind) (i : Word) (r : ReportResult) (b : Block) : (Block.report k i r b).SES_ST = b.SES_ST := rfl
@[simp] theorem Block.report_INFLIGHT (k : Option Kind) (i : Word) (r : ReportResult) (b : Block) : (Block.report k i r b).INFLIGHT = b.INFLIGHT := rfl
@[simp] theorem Block.report_Q (k : Option Kind) (i : Word) (r : ReportResult) (b : Block) : (Block.report k i r b).Q = b.Q := rfl
@[simp] theorem Block.report_SEQ_IDX (k : Option Kind) (i : Word) (r : ReportResult) (b : Block) : (Block.report k i r b).SEQ_IDX = b.SEQ_IDX := rfl
@[simp] theorem Block.report_SEQ_LEN (k : Option Kind) (i : Word) (r : ReportResult) (b : Block) : (Block.report k i r b).SEQ_LEN = b.SEQ_LEN := rfl
@[simp] theorem Block.report_RB (k : Option Kind) (i : Word) (r : ReportResult) (b : Block) : (Block.report k i r b).RB = b.RB := rfl
@[simp] theorem Block.report_TMR (k : Option Kind) (i : Word) (r : ReportResult) (b : Block) : (Block.report k i r b).TMR = b.TMR := rfl
@[simp] theorem Block.report_WCUR (k : Option Kind) (i : Word) (r : ReportResult) (b : Block) : (Block.report k i r b).WCUR = b.WCUR := rfl
@[simp] theorem Block.report_WCUR_V (k : Option Kind) (i : Word) (r : ReportResult) (b : Block) : (Block.report k i r b).WCUR_V = b.WCUR_V := rfl
@[simp] theorem Block.report_LINK_CLOSED (k : Option Kind) (i : Word) (r : ReportResult) (b : Block) : (Block.report k i r b).LINK_CLOSED = b.LINK_CLOSED := rfl
@[simp] theorem Block.report_FAIL_REASON (k : Option Kind) (i : Word) (r : ReportResult) (b : Block) : (Block.report k i r b).FAIL_REASON = b.FAIL_REASON := rfl
@[simp] theorem Block.report_FAIL_KIND (k : Option Kind) (i : Word) (r : ReportResult) (b : Block) : (Block.report k i r b).FAIL_KIND = b.FAIL_KIND := rfl
@[simp] theorem Block.report_FAIL_IDX (k : Option Kind) (i : Word) (r : ReportResult) (b : Block) : (Block.report k i r b).FAIL_IDX = b.FAIL_IDX := rfl
@[simp] theorem Block.report_FAIL_ADDR (k : Option Kind) (i : Word) (r : ReportResult) (b : Block) : (Block.report k i r b).FAIL_ADDR = b.FAIL_ADDR := rfl
@[simp] theorem Block.report_FAIL_OFF (k : Option Kind) (i : Word) (r : ReportResult) (b : Block) : (Block.report k i r b).FAIL_OFF = b.FAIL_OFF := rfl
@[simp] theorem Block.report_FAIL_EXP (k : Option Kind) (i : Word) (r : ReportResult) (b : Block) : (Block.report k i r b).FAIL_EXP = b.FAIL_EXP := rfl
@[simp] theorem Block.report_FAIL_ACT (k : Option Kind) (i : Word) (r : ReportResult) (b : Block) : (Block.report k i r b).FAIL_ACT = b.FAIL_ACT := rfl
@[simp] theorem Block.report_SIG_READ (k : Option Kind) (i : Word) (r : ReportResult) (b : Block) : (Block.report k i r b).SIG_READ = b.SIG_READ := rfl
@[simp] theorem Block.report_REPORTS (k : Option Kind) (i : Word) (r : ReportResult) (b : Block) : (Block.report k i r b).REPORTS = b.REPORTS + 1 := rfl
@[simp] theorem Block.report_LAST_KIND (k : Option Kind) (i : Word) (r : ReportResult) (b : Block) : (Block.report k i r b).LAST_KIND = k := rfl
@[simp] theorem Block.report_LAST_RES (k : Option Kind) (i : Word) (r : ReportResult) (b : Block) : (Block.report k i r b).LAST_RES = r := rfl
@[simp] theorem Block.report_LAST_IDX (k : Option Kind) (i : Word) (r : ReportResult) (b : Block) : (Block.report k i r b).LAST_IDX = i.extractLsb' 0 24 := rfl
@[simp] theorem Block.report_IRQ_STAT (k : Option Kind) (i : Word) (r : ReportResult) (b : Block) : (Block.report k i r b).IRQ_STAT = b.IRQ_STAT ||| IrqBit.cmdRpt.mask := rfl
@[simp] theorem Block.report_IRQ_EN (k : Option Kind) (i : Word) (r : ReportResult) (b : Block) : (Block.report k i r b).IRQ_EN = b.IRQ_EN := rfl
@[simp] theorem Block.report_CMD_ERRC (k : Option Kind) (i : Word) (r : ReportResult) (b : Block) : (Block.report k i r b).CMD_ERRC = b.CMD_ERRC := rfl
@[simp] theorem Block.report_CMD_ERRS (k : Option Kind) (i : Word) (r : ReportResult) (b : Block) : (Block.report k i r b).CMD_ERRS = b.CMD_ERRS := rfl

/-! `Block.fail` -/

@[simp] theorem Block.fail_ACC (r : FailReason) (x : FailCtx) (b : Block) : (Block.fail r x b).ACC = b.ACC := rfl
@[simp] theorem Block.fail_IMG (r : FailReason) (x : FailCtx) (b : Block) : (Block.fail r x b).IMG = b.IMG := rfl
@[simp] theorem Block.fail_PARAM (r : FailReason) (x : FailCtx) (b : Block) : (Block.fail r x b).PARAM = b.PARAM := rfl
@[simp] theorem Block.fail_IMG_BASE (r : FailReason) (x : FailCtx) (b : Block) : (Block.fail r x b).IMG_BASE = b.IMG_BASE := rfl
@[simp] theorem Block.fail_IMG_LEN (r : FailReason) (x : FailCtx) (b : Block) : (Block.fail r x b).IMG_LEN = b.IMG_LEN := rfl
@[simp] theorem Block.fail_LINE_LEN (r : FailReason) (x : FailCtx) (b : Block) : (Block.fail r x b).LINE_LEN = b.LINE_LEN := rfl
@[simp] theorem Block.fail_PAGE_LOG2 (r : FailReason) (x : FailCtx) (b : Block) : (Block.fail r x b).PAGE_LOG2 = b.PAGE_LOG2 := rfl
@[simp] theorem Block.fail_PAGE_EN (r : FailReason) (x : FailCtx) (b : Block) : (Block.fail r x b).PAGE_EN = b.PAGE_EN := rfl
@[simp] theorem Block.fail_OMIT_NULL (r : FailReason) (x : FailCtx) (b : Block) : (Block.fail r x b).OMIT_NULL = b.OMIT_NULL := rfl
@[simp] theorem Block.fail_ENC_ST (r : FailReason) (x : FailCtx) (b : Block) : (Block.fail r x b).ENC_ST = b.ENC_ST := rfl
@[simp] theorem Block.fail_ENC_ERRC (r : FailReason) (x : FailCtx) (b : Block) : (Block.fail r x b).ENC_ERRC = b.ENC_ERRC := rfl
@[simp] theorem Block.fail_ENC_NREC (r : FailReason) (x : FailCtx) (b : Block) : (Block.fail r x b).ENC_NREC = b.ENC_NREC := rfl
@[simp] theorem Block.fail_OUTQ (r : FailReason) (x : FailCtx) (b : Block) : (Block.fail r x b).OUTQ = b.OUTQ := rfl
@[simp] theorem Block.fail_MEMKIND (r : FailReason) (x : FailCtx) (b : Block) : (Block.fail r x b).MEMKIND = b.MEMKIND := rfl
@[simp] theorem Block.fail_VERIFY (r : FailReason) (x : FailCtx) (b : Block) : (Block.fail r x b).VERIFY = b.VERIFY := rfl
@[simp] theorem Block.fail_SIGCHK (r : FailReason) (x : FailCtx) (b : Block) : (Block.fail r x b).SIGCHK = b.SIGCHK := rfl
@[simp] theorem Block.fail_SIG_LEN (r : FailReason) (x : FailCtx) (b : Block) : (Block.fail r x b).SIG_LEN = b.SIG_LEN := rfl
@[simp] theorem Block.fail_DEV_PAGE (r : FailReason) (x : FailCtx) (b : Block) : (Block.fail r x b).DEV_PAGE = b.DEV_PAGE := rfl
@[simp] theorem Block.fail_SES_TIMEOUT (r : FailReason) (x : FailCtx) (b : Block) : (Block.fail r x b).SES_TIMEOUT = b.SES_TIMEOUT := rfl
@[simp] theorem Block.fail_SIG_EXPECT (r : FailReason) (x : FailCtx) (b : Block) : (Block.fail r x b).SIG_EXPECT = b.SIG_EXPECT := rfl
@[simp] theorem Block.fail_PARAM_LEN (r : FailReason) (x : FailCtx) (b : Block) : (Block.fail r x b).PARAM_LEN = b.PARAM_LEN := rfl
@[simp] theorem Block.fail_SES_ST (r : FailReason) (x : FailCtx) (b : Block) : (Block.fail r x b).SES_ST = .failed := rfl
@[simp] theorem Block.fail_INFLIGHT (r : FailReason) (x : FailCtx) (b : Block) : (Block.fail r x b).INFLIGHT = none := rfl
@[simp] theorem Block.fail_Q (r : FailReason) (x : FailCtx) (b : Block) : (Block.fail r x b).Q = b.Q := rfl
@[simp] theorem Block.fail_SEQ_IDX (r : FailReason) (x : FailCtx) (b : Block) : (Block.fail r x b).SEQ_IDX = b.SEQ_IDX := rfl
@[simp] theorem Block.fail_SEQ_LEN (r : FailReason) (x : FailCtx) (b : Block) : (Block.fail r x b).SEQ_LEN = b.SEQ_LEN := rfl
@[simp] theorem Block.fail_RB (r : FailReason) (x : FailCtx) (b : Block) : (Block.fail r x b).RB = b.RB := rfl
@[simp] theorem Block.fail_TMR (r : FailReason) (x : FailCtx) (b : Block) : (Block.fail r x b).TMR = b.TMR := rfl
@[simp] theorem Block.fail_WCUR (r : FailReason) (x : FailCtx) (b : Block) : (Block.fail r x b).WCUR = b.WCUR := rfl
@[simp] theorem Block.fail_WCUR_V (r : FailReason) (x : FailCtx) (b : Block) : (Block.fail r x b).WCUR_V = b.WCUR_V := rfl
@[simp] theorem Block.fail_LINK_CLOSED (r : FailReason) (x : FailCtx) (b : Block) : (Block.fail r x b).LINK_CLOSED = b.LINK_CLOSED := rfl
@[simp] theorem Block.fail_FAIL_REASON (r : FailReason) (x : FailCtx) (b : Block) : (Block.fail r x b).FAIL_REASON = r := rfl
@[simp] theorem Block.fail_FAIL_KIND (r : FailReason) (x : FailCtx) (b : Block) : (Block.fail r x b).FAIL_KIND = b.current.map Cmd.kind := rfl
@[simp] theorem Block.fail_FAIL_IDX (r : FailReason) (x : FailCtx) (b : Block) : (Block.fail r x b).FAIL_IDX = b.SEQ_IDX := rfl
@[simp] theorem Block.fail_FAIL_ADDR (r : FailReason) (x : FailCtx) (b : Block) : (Block.fail r x b).FAIL_ADDR = (b.current.map addrOf).getD 0 := rfl
@[simp] theorem Block.fail_FAIL_OFF (r : FailReason) (x : FailCtx) (b : Block) : (Block.fail r x b).FAIL_OFF = x.off := rfl
@[simp] theorem Block.fail_FAIL_EXP (r : FailReason) (x : FailCtx) (b : Block) : (Block.fail r x b).FAIL_EXP = x.exp := rfl
@[simp] theorem Block.fail_FAIL_ACT (r : FailReason) (x : FailCtx) (b : Block) : (Block.fail r x b).FAIL_ACT = x.act := rfl
@[simp] theorem Block.fail_SIG_READ (r : FailReason) (x : FailCtx) (b : Block) : (Block.fail r x b).SIG_READ = b.SIG_READ := rfl
@[simp] theorem Block.fail_REPORTS (r : FailReason) (x : FailCtx) (b : Block) : (Block.fail r x b).REPORTS = b.REPORTS + 1 := rfl
@[simp] theorem Block.fail_LAST_KIND (r : FailReason) (x : FailCtx) (b : Block) : (Block.fail r x b).LAST_KIND = b.current.map Cmd.kind := rfl
@[simp] theorem Block.fail_LAST_RES (r : FailReason) (x : FailCtx) (b : Block) : (Block.fail r x b).LAST_RES = .failed := rfl
@[simp] theorem Block.fail_LAST_IDX (r : FailReason) (x : FailCtx) (b : Block) : (Block.fail r x b).LAST_IDX = b.SEQ_IDX.extractLsb' 0 24 := rfl
@[simp] theorem Block.fail_IRQ_STAT (r : FailReason) (x : FailCtx) (b : Block) : (Block.fail r x b).IRQ_STAT = b.IRQ_STAT ||| IrqBit.cmdRpt.mask ||| IrqBit.sesFail.mask := rfl
@[simp] theorem Block.fail_IRQ_EN (r : FailReason) (x : FailCtx) (b : Block) : (Block.fail r x b).IRQ_EN = b.IRQ_EN := rfl
@[simp] theorem Block.fail_CMD_ERRC (r : FailReason) (x : FailCtx) (b : Block) : (Block.fail r x b).CMD_ERRC = b.CMD_ERRC := rfl
@[simp] theorem Block.fail_CMD_ERRS (r : FailReason) (x : FailCtx) (b : Block) : (Block.fail r x b).CMD_ERRS = b.CMD_ERRS := rfl

/-! `Block.begin` -/

@[simp] theorem Block.begin_ACC (c : Cmd) (b : Block) : (Block.begin c b).ACC = b.ACC := rfl
@[simp] theorem Block.begin_IMG (c : Cmd) (b : Block) : (Block.begin c b).IMG = b.IMG := rfl
@[simp] theorem Block.begin_PARAM (c : Cmd) (b : Block) : (Block.begin c b).PARAM = b.PARAM := rfl
@[simp] theorem Block.begin_IMG_BASE (c : Cmd) (b : Block) : (Block.begin c b).IMG_BASE = b.IMG_BASE := rfl
@[simp] theorem Block.begin_IMG_LEN (c : Cmd) (b : Block) : (Block.begin c b).IMG_LEN = b.IMG_LEN := rfl
@[simp] theorem Block.begin_LINE_LEN (c : Cmd) (b : Block) : (Block.begin c b).LINE_LEN = b.LINE_LEN := rfl
@[simp] theorem Block.begin_PAGE_LOG2 (c : Cmd) (b : Block) : (Block.begin c b).PAGE_LOG2 = b.PAGE_LOG2 := rfl
@[simp] theorem Block.begin_PAGE_EN (c : Cmd) (b : Block) : (Block.begin c b).PAGE_EN = b.PAGE_EN := rfl
@[simp] theorem Block.begin_OMIT_NULL (c : Cmd) (b : Block) : (Block.begin c b).OMIT_NULL = b.OMIT_NULL := rfl
@[simp] theorem Block.begin_ENC_ST (c : Cmd) (b : Block) : (Block.begin c b).ENC_ST = b.ENC_ST := rfl
@[simp] theorem Block.begin_ENC_ERRC (c : Cmd) (b : Block) : (Block.begin c b).ENC_ERRC = b.ENC_ERRC := rfl
@[simp] theorem Block.begin_ENC_NREC (c : Cmd) (b : Block) : (Block.begin c b).ENC_NREC = b.ENC_NREC := rfl
@[simp] theorem Block.begin_OUTQ (c : Cmd) (b : Block) : (Block.begin c b).OUTQ = b.OUTQ := rfl
@[simp] theorem Block.begin_MEMKIND (c : Cmd) (b : Block) : (Block.begin c b).MEMKIND = b.MEMKIND := rfl
@[simp] theorem Block.begin_VERIFY (c : Cmd) (b : Block) : (Block.begin c b).VERIFY = b.VERIFY := rfl
@[simp] theorem Block.begin_SIGCHK (c : Cmd) (b : Block) : (Block.begin c b).SIGCHK = b.SIGCHK := rfl
@[simp] theorem Block.begin_SIG_LEN (c : Cmd) (b : Block) : (Block.begin c b).SIG_LEN = b.SIG_LEN := rfl
@[simp] theorem Block.begin_DEV_PAGE (c : Cmd) (b : Block) : (Block.begin c b).DEV_PAGE = b.DEV_PAGE := rfl
@[simp] theorem Block.begin_SES_TIMEOUT (c : Cmd) (b : Block) : (Block.begin c b).SES_TIMEOUT = b.SES_TIMEOUT := rfl
@[simp] theorem Block.begin_SIG_EXPECT (c : Cmd) (b : Block) : (Block.begin c b).SIG_EXPECT = b.SIG_EXPECT := rfl
@[simp] theorem Block.begin_PARAM_LEN (c : Cmd) (b : Block) : (Block.begin c b).PARAM_LEN = b.PARAM_LEN := rfl
@[simp] theorem Block.begin_SES_ST (c : Cmd) (b : Block) : (Block.begin c b).SES_ST = b.SES_ST := rfl
@[simp] theorem Block.begin_INFLIGHT (c : Cmd) (b : Block) : (Block.begin c b).INFLIGHT = some c.kind := rfl
@[simp] theorem Block.begin_Q (c : Cmd) (b : Block) : (Block.begin c b).Q = b.Q := rfl
@[simp] theorem Block.begin_SEQ_IDX (c : Cmd) (b : Block) : (Block.begin c b).SEQ_IDX = b.SEQ_IDX := rfl
@[simp] theorem Block.begin_SEQ_LEN (c : Cmd) (b : Block) : (Block.begin c b).SEQ_LEN = b.SEQ_LEN := rfl
@[simp] theorem Block.begin_RB (c : Cmd) (b : Block) : (Block.begin c b).RB = b.RB := rfl
@[simp] theorem Block.begin_TMR (c : Cmd) (b : Block) : (Block.begin c b).TMR = b.SES_TIMEOUT := rfl
@[simp] theorem Block.begin_WCUR (c : Cmd) (b : Block) : (Block.begin c b).WCUR = b.WCUR := rfl
@[simp] theorem Block.begin_WCUR_V (c : Cmd) (b : Block) : (Block.begin c b).WCUR_V = b.WCUR_V := rfl
@[simp] theorem Block.begin_LINK_CLOSED (c : Cmd) (b : Block) : (Block.begin c b).LINK_CLOSED = b.LINK_CLOSED := rfl
@[simp] theorem Block.begin_FAIL_REASON (c : Cmd) (b : Block) : (Block.begin c b).FAIL_REASON = b.FAIL_REASON := rfl
@[simp] theorem Block.begin_FAIL_KIND (c : Cmd) (b : Block) : (Block.begin c b).FAIL_KIND = b.FAIL_KIND := rfl
@[simp] theorem Block.begin_FAIL_IDX (c : Cmd) (b : Block) : (Block.begin c b).FAIL_IDX = b.FAIL_IDX := rfl
@[simp] theorem Block.begin_FAIL_ADDR (c : Cmd) (b : Block) : (Block.begin c b).FAIL_ADDR = b.FAIL_ADDR := rfl
@[simp] theorem Block.begin_FAIL_OFF (c : Cmd) (b : Block) : (Block.begin c b).FAIL_OFF = b.FAIL_OFF := rfl
@[simp] theorem Block.begin_FAIL_EXP (c : Cmd) (b : Block) : (Block.begin c b).FAIL_EXP = b.FAIL_EXP := rfl
@[simp] theorem Block.begin_FAIL_ACT (c : Cmd) (b : Block) : (Block.begin c b).FAIL_ACT = b.FAIL_ACT := rfl
@[simp] theorem Block.begin_SIG_READ (c : Cmd) (b : Block) : (Block.begin c b).SIG_READ = b.SIG_READ := rfl
@[simp] theorem Block.begin_REPORTS (c : Cmd) (b : Block) : (Block.begin c b).REPORTS = b.REPORTS := rfl
@[simp] theorem Block.begin_LAST_KIND (c : Cmd) (b : Block) : (Block.begin c b).LAST_KIND = b.LAST_KIND := rfl
@[simp] theorem Block.begin_LAST_RES (c : Cmd) (b : Block) : (Block.begin c b).LAST_RES = b.LAST_RES := rfl
@[simp] theorem Block.begin_LAST_IDX (c : Cmd) (b : Block) : (Block.begin c b).LAST_IDX = b.LAST_IDX := rfl
@[simp] theorem Block.begin_IRQ_STAT (c : Cmd) (b : Block) : (Block.begin c b).IRQ_STAT = b.IRQ_STAT := rfl
@[simp] theorem Block.begin_IRQ_EN (c : Cmd) (b : Block) : (Block.begin c b).IRQ_EN = b.IRQ_EN := rfl
@[simp] theorem Block.begin_CMD_ERRC (c : Cmd) (b : Block) : (Block.begin c b).CMD_ERRC = b.CMD_ERRC := rfl
@[simp] theorem Block.begin_CMD_ERRS (c : Cmd) (b : Block) : (Block.begin c b).CMD_ERRS = b.CMD_ERRS := rfl

/-! `Block.consume` -/

@[simp] theorem Block.consume_ACC (n : Nat) (b : Block) : (Block.consume n b).ACC = b.ACC := rfl
@[simp] theorem Block.consume_IMG (n : Nat) (b : Block) : (Block.consume n b).IMG = b.IMG := rfl
@[simp] theorem Block.consume_PARAM (n : Nat) (b : Block) : (Block.consume n b).PARAM = b.PARAM := rfl
@[simp] theorem Block.consume_IMG_BASE (n : Nat) (b : Block) : (Block.consume n b).IMG_BASE = b.IMG_BASE := rfl
@[simp] theorem Block.consume_IMG_LEN (n : Nat) (b : Block) : (Block.consume n b).IMG_LEN = b.IMG_LEN := rfl
@[simp] theorem Block.consume_LINE_LEN (n : Nat) (b : Block) : (Block.consume n b).LINE_LEN = b.LINE_LEN := rfl
@[simp] theorem Block.consume_PAGE_LOG2 (n : Nat) (b : Block) : (Block.consume n b).PAGE_LOG2 = b.PAGE_LOG2 := rfl
@[simp] theorem Block.consume_PAGE_EN (n : Nat) (b : Block) : (Block.consume n b).PAGE_EN = b.PAGE_EN := rfl
@[simp] theorem Block.consume_OMIT_NULL (n : Nat) (b : Block) : (Block.consume n b).OMIT_NULL = b.OMIT_NULL := rfl
@[simp] theorem Block.consume_ENC_ST (n : Nat) (b : Block) : (Block.consume n b).ENC_ST = b.ENC_ST := rfl
@[simp] theorem Block.consume_ENC_ERRC (n : Nat) (b : Block) : (Block.consume n b).ENC_ERRC = b.ENC_ERRC := rfl
@[simp] theorem Block.consume_ENC_NREC (n : Nat) (b : Block) : (Block.consume n b).ENC_NREC = b.ENC_NREC := rfl
@[simp] theorem Block.consume_OUTQ (n : Nat) (b : Block) : (Block.consume n b).OUTQ = b.OUTQ := rfl
@[simp] theorem Block.consume_MEMKIND (n : Nat) (b : Block) : (Block.consume n b).MEMKIND = b.MEMKIND := rfl
@[simp] theorem Block.consume_VERIFY (n : Nat) (b : Block) : (Block.consume n b).VERIFY = b.VERIFY := rfl
@[simp] theorem Block.consume_SIGCHK (n : Nat) (b : Block) : (Block.consume n b).SIGCHK = b.SIGCHK := rfl
@[simp] theorem Block.consume_SIG_LEN (n : Nat) (b : Block) : (Block.consume n b).SIG_LEN = b.SIG_LEN := rfl
@[simp] theorem Block.consume_DEV_PAGE (n : Nat) (b : Block) : (Block.consume n b).DEV_PAGE = b.DEV_PAGE := rfl
@[simp] theorem Block.consume_SES_TIMEOUT (n : Nat) (b : Block) : (Block.consume n b).SES_TIMEOUT = b.SES_TIMEOUT := rfl
@[simp] theorem Block.consume_SIG_EXPECT (n : Nat) (b : Block) : (Block.consume n b).SIG_EXPECT = b.SIG_EXPECT := rfl
@[simp] theorem Block.consume_PARAM_LEN (n : Nat) (b : Block) : (Block.consume n b).PARAM_LEN = b.PARAM_LEN := rfl
@[simp] theorem Block.consume_SES_ST (n : Nat) (b : Block) : (Block.consume n b).SES_ST = b.SES_ST := rfl
@[simp] theorem Block.consume_INFLIGHT (n : Nat) (b : Block) : (Block.consume n b).INFLIGHT = b.INFLIGHT := rfl
@[simp] theorem Block.consume_Q (n : Nat) (b : Block) : (Block.consume n b).Q = b.Q := rfl
@[simp] theorem Block.consume_SEQ_IDX (n : Nat) (b : Block) : (Block.consume n b).SEQ_IDX = b.SEQ_IDX := rfl
@[simp] theorem Block.consume_SEQ_LEN (n : Nat) (b : Block) : (Block.consume n b).SEQ_LEN = b.SEQ_LEN := rfl
@[simp] theorem Block.consume_RB (n : Nat) (b : Block) : (Block.consume n b).RB = b.RB.drop n := rfl
@[simp] theorem Block.consume_TMR (n : Nat) (b : Block) : (Block.consume n b).TMR = b.TMR := rfl
@[simp] theorem Block.consume_WCUR (n : Nat) (b : Block) : (Block.consume n b).WCUR = b.WCUR := rfl
@[simp] theorem Block.consume_WCUR_V (n : Nat) (b : Block) : (Block.consume n b).WCUR_V = b.WCUR_V := rfl
@[simp] theorem Block.consume_LINK_CLOSED (n : Nat) (b : Block) : (Block.consume n b).LINK_CLOSED = b.LINK_CLOSED := rfl
@[simp] theorem Block.consume_FAIL_REASON (n : Nat) (b : Block) : (Block.consume n b).FAIL_REASON = b.FAIL_REASON := rfl
@[simp] theorem Block.consume_FAIL_KIND (n : Nat) (b : Block) : (Block.consume n b).FAIL_KIND = b.FAIL_KIND := rfl
@[simp] theorem Block.consume_FAIL_IDX (n : Nat) (b : Block) : (Block.consume n b).FAIL_IDX = b.FAIL_IDX := rfl
@[simp] theorem Block.consume_FAIL_ADDR (n : Nat) (b : Block) : (Block.consume n b).FAIL_ADDR = b.FAIL_ADDR := rfl
@[simp] theorem Block.consume_FAIL_OFF (n : Nat) (b : Block) : (Block.consume n b).FAIL_OFF = b.FAIL_OFF := rfl
@[simp] theorem Block.consume_FAIL_EXP (n : Nat) (b : Block) : (Block.consume n b).FAIL_EXP = b.FAIL_EXP := rfl
@[simp] theorem Block.consume_FAIL_ACT (n : Nat) (b : Block) : (Block.consume n b).FAIL_ACT = b.FAIL_ACT := rfl
@[simp] theorem Block.consume_SIG_READ (n : Nat) (b : Block) : (Block.consume n b).SIG_READ = b.SIG_READ := rfl
@[simp] theorem Block.consume_REPORTS (n : Nat) (b : Block) : (Block.consume n b).REPORTS = b.REPORTS := rfl
@[simp] theorem Block.consume_LAST_KIND (n : Nat) (b : Block) : (Block.consume n b).LAST_KIND = b.LAST_KIND := rfl
@[simp] theorem Block.consume_LAST_RES (n : Nat) (b : Block) : (Block.consume n b).LAST_RES = b.LAST_RES := rfl
@[simp] theorem Block.consume_LAST_IDX (n : Nat) (b : Block) : (Block.consume n b).LAST_IDX = b.LAST_IDX := rfl
@[simp] theorem Block.consume_IRQ_STAT (n : Nat) (b : Block) : (Block.consume n b).IRQ_STAT = b.IRQ_STAT := rfl
@[simp] theorem Block.consume_IRQ_EN (n : Nat) (b : Block) : (Block.consume n b).IRQ_EN = b.IRQ_EN := rfl
@[simp] theorem Block.consume_CMD_ERRC (n : Nat) (b : Block) : (Block.consume n b).CMD_ERRC = b.CMD_ERRC := rfl
@[simp] theorem Block.consume_CMD_ERRS (n : Nat) (b : Block) : (Block.consume n b).CMD_ERRS = b.CMD_ERRS := rfl

/-! `Block.enterDone` -/

@[simp] theorem Block.enterDone_ACC (b : Block) : (Block.enterDone b).ACC = b.ACC := rfl
@[simp] theorem Block.enterDone_IMG (b : Block) : (Block.enterDone b).IMG = b.IMG := rfl
@[simp] theorem Block.enterDone_PARAM (b : Block) : (Block.enterDone b).PARAM = b.PARAM := rfl
@[simp] theorem Block.enterDone_IMG_BASE (b : Block) : (Block.enterDone b).IMG_BASE = b.IMG_BASE := rfl
@[simp] theorem Block.enterDone_IMG_LEN (b : Block) : (Block.enterDone b).IMG_LEN = b.IMG_LEN := rfl
@[simp] theorem Block.enterDone_LINE_LEN (b : Block) : (Block.enterDone b).LINE_LEN = b.LINE_LEN := rfl
@[simp] theorem Block.enterDone_PAGE_LOG2 (b : Block) : (Block.enterDone b).PAGE_LOG2 = b.PAGE_LOG2 := rfl
@[simp] theorem Block.enterDone_PAGE_EN (b : Block) : (Block.enterDone b).PAGE_EN = b.PAGE_EN := rfl
@[simp] theorem Block.enterDone_OMIT_NULL (b : Block) : (Block.enterDone b).OMIT_NULL = b.OMIT_NULL := rfl
@[simp] theorem Block.enterDone_ENC_ST (b : Block) : (Block.enterDone b).ENC_ST = b.ENC_ST := rfl
@[simp] theorem Block.enterDone_ENC_ERRC (b : Block) : (Block.enterDone b).ENC_ERRC = b.ENC_ERRC := rfl
@[simp] theorem Block.enterDone_ENC_NREC (b : Block) : (Block.enterDone b).ENC_NREC = b.ENC_NREC := rfl
@[simp] theorem Block.enterDone_OUTQ (b : Block) : (Block.enterDone b).OUTQ = b.OUTQ := rfl
@[simp] theorem Block.enterDone_MEMKIND (b : Block) : (Block.enterDone b).MEMKIND = b.MEMKIND := rfl
@[simp] theorem Block.enterDone_VERIFY (b : Block) : (Block.enterDone b).VERIFY = b.VERIFY := rfl
@[simp] theorem Block.enterDone_SIGCHK (b : Block) : (Block.enterDone b).SIGCHK = b.SIGCHK := rfl
@[simp] theorem Block.enterDone_SIG_LEN (b : Block) : (Block.enterDone b).SIG_LEN = b.SIG_LEN := rfl
@[simp] theorem Block.enterDone_DEV_PAGE (b : Block) : (Block.enterDone b).DEV_PAGE = b.DEV_PAGE := rfl
@[simp] theorem Block.enterDone_SES_TIMEOUT (b : Block) : (Block.enterDone b).SES_TIMEOUT = b.SES_TIMEOUT := rfl
@[simp] theorem Block.enterDone_SIG_EXPECT (b : Block) : (Block.enterDone b).SIG_EXPECT = b.SIG_EXPECT := rfl
@[simp] theorem Block.enterDone_PARAM_LEN (b : Block) : (Block.enterDone b).PARAM_LEN = b.PARAM_LEN := rfl
@[simp] theorem Block.enterDone_SES_ST (b : Block) : (Block.enterDone b).SES_ST = .done := rfl
@[simp] theorem Block.enterDone_INFLIGHT (b : Block) : (Block.enterDone b).INFLIGHT = b.INFLIGHT := rfl
@[simp] theorem Block.enterDone_Q (b : Block) : (Block.enterDone b).Q = b.Q := rfl
@[simp] theorem Block.enterDone_SEQ_IDX (b : Block) : (Block.enterDone b).SEQ_IDX = b.SEQ_IDX := rfl
@[simp] theorem Block.enterDone_SEQ_LEN (b : Block) : (Block.enterDone b).SEQ_LEN = b.SEQ_LEN := rfl
@[simp] theorem Block.enterDone_RB (b : Block) : (Block.enterDone b).RB = b.RB := rfl
@[simp] theorem Block.enterDone_TMR (b : Block) : (Block.enterDone b).TMR = b.TMR := rfl
@[simp] theorem Block.enterDone_WCUR (b : Block) : (Block.enterDone b).WCUR = b.WCUR := rfl
@[simp] theorem Block.enterDone_WCUR_V (b : Block) : (Block.enterDone b).WCUR_V = b.WCUR_V := rfl
@[simp] theorem Block.enterDone_LINK_CLOSED (b : Block) : (Block.enterDone b).LINK_CLOSED = b.LINK_CLOSED := rfl
@[simp] theorem Block.enterDone_FAIL_REASON (b : Block) : (Block.enterDone b).FAIL_REASON = b.FAIL_REASON := rfl
@[simp] theorem Block.enterDone_FAIL_KIND (b : Block) : (Block.enterDone b).FAIL_KIND = b.FAIL_KIND := rfl
@[simp] theorem Block.enterDone_FAIL_IDX (b : Block) : (Block.enterDone b).FAIL_IDX = b.FAIL_IDX := rfl
@[simp] theorem Block.enterDone_FAIL_ADDR (b : Block) : (Block.enterDone b).FAIL_ADDR = b.FAIL_ADDR := rfl
@[simp] theorem Block.enterDone_FAIL_OFF (b : Block) : (Block.enterDone b).FAIL_OFF = b.FAIL_OFF := rfl
@[simp] theorem Block.enterDone_FAIL_EXP (b : Block) : (Block.enterDone b).FAIL_EXP = b.FAIL_EXP := rfl
@[simp] theorem Block.enterDone_FAIL_ACT (b : Block) : (Block.enterDone b).FAIL_ACT = b.FAIL_ACT := rfl
@[simp] theorem Block.enterDone_SIG_READ (b : Block) : (Block.enterDone b).SIG_READ = b.SIG_READ := rfl
@[simp] theorem Block.enterDone_REPORTS (b : Block) : (Block.enterDone b).REPORTS = b.REPORTS := rfl
@[simp] theorem Block.enterDone_LAST_KIND (b : Block) : (Block.enterDone b).LAST_KIND = b.LAST_KIND := rfl
@[simp] theorem Block.enterDone_LAST_RES (b : Block) : (Block.enterDone b).LAST_RES = b.LAST_RES := rfl
@[simp] theorem Block.enterDone_LAST_IDX (b : Block) : (Block.enterDone b).LAST_IDX = b.LAST_IDX := rfl
@[simp] theorem Block.enterDone_IRQ_STAT (b : Block) : (Block.enterDone b).IRQ_STAT = b.IRQ_STAT ||| IrqBit.sesDone.mask := rfl
@[simp] theorem Block.enterDone_IRQ_EN (b : Block) : (Block.enterDone b).IRQ_EN = b.IRQ_EN := rfl
@[simp] theorem Block.enterDone_CMD_ERRC (b : Block) : (Block.enterDone b).CMD_ERRC = b.CMD_ERRC := rfl
@[simp] theorem Block.enterDone_CMD_ERRS (b : Block) : (Block.enterDone b).CMD_ERRS = b.CMD_ERRS := rfl

/-! `Block.openSession` -/

@[simp] theorem Block.openSession_ACC (q : List Cmd) (b : Block) : (Block.openSession q b).ACC = b.ACC := rfl
@[simp] theorem Block.openSession_IMG (q : List Cmd) (b : Block) : (Block.openSession q b).IMG = b.IMG := rfl
@[simp] theorem Block.openSession_PARAM (q : List Cmd) (b : Block) : (Block.openSession q b).PARAM = b.PARAM := rfl
@[simp] theorem Block.openSession_IMG_BASE (q : List Cmd) (b : Block) : (Block.openSession q b).IMG_BASE = b.IMG_BASE := rfl
@[simp] theorem Block.openSession_IMG_LEN (q : List Cmd) (b : Block) : (Block.openSession q b).IMG_LEN = b.IMG_LEN := rfl
@[simp] theorem Block.openSession_LINE_LEN (q : List Cmd) (b : Block) : (Block.openSession q b).LINE_LEN = b.LINE_LEN := rfl
@[simp] theorem Block.openSession_PAGE_LOG2 (q : List Cmd) (b : Block) : (Block.openSession q b).PAGE_LOG2 = b.PAGE_LOG2 := rfl
@[simp] theorem Block.openSession_PAGE_EN (q : List Cmd) (b : Block) : (Block.openSession q b).PAGE_EN = b.PAGE_EN := rfl
@[simp] theorem Block.openSession_OMIT_NULL (q : List Cmd) (b : Block) : (Block.openSession q b).OMIT_NULL = b.OMIT_NULL := rfl
@[simp] theorem Block.openSession_ENC_ST (q : List Cmd) (b : Block) : (Block.openSession q b).ENC_ST = b.ENC_ST := rfl
@[simp] theorem Block.openSession_ENC_ERRC (q : List Cmd) (b : Block) : (Block.openSession q b).ENC_ERRC = b.ENC_ERRC := rfl
@[simp] theorem Block.openSession_ENC_NREC (q : List Cmd) (b : Block) : (Block.openSession q b).ENC_NREC = b.ENC_NREC := rfl
@[simp] theorem Block.openSession_OUTQ (q : List Cmd) (b : Block) : (Block.openSession q b).OUTQ = b.OUTQ := rfl
@[simp] theorem Block.openSession_MEMKIND (q : List Cmd) (b : Block) : (Block.openSession q b).MEMKIND = b.MEMKIND := rfl
@[simp] theorem Block.openSession_VERIFY (q : List Cmd) (b : Block) : (Block.openSession q b).VERIFY = b.VERIFY := rfl
@[simp] theorem Block.openSession_SIGCHK (q : List Cmd) (b : Block) : (Block.openSession q b).SIGCHK = b.SIGCHK := rfl
@[simp] theorem Block.openSession_SIG_LEN (q : List Cmd) (b : Block) : (Block.openSession q b).SIG_LEN = b.SIG_LEN := rfl
@[simp] theorem Block.openSession_DEV_PAGE (q : List Cmd) (b : Block) : (Block.openSession q b).DEV_PAGE = b.DEV_PAGE := rfl
@[simp] theorem Block.openSession_SES_TIMEOUT (q : List Cmd) (b : Block) : (Block.openSession q b).SES_TIMEOUT = b.SES_TIMEOUT := rfl
@[simp] theorem Block.openSession_SIG_EXPECT (q : List Cmd) (b : Block) : (Block.openSession q b).SIG_EXPECT = b.SIG_EXPECT := rfl
@[simp] theorem Block.openSession_PARAM_LEN (q : List Cmd) (b : Block) : (Block.openSession q b).PARAM_LEN = b.PARAM_LEN := rfl
@[simp] theorem Block.openSession_SES_ST (q : List Cmd) (b : Block) : (Block.openSession q b).SES_ST = b.SES_ST := rfl
@[simp] theorem Block.openSession_INFLIGHT (q : List Cmd) (b : Block) : (Block.openSession q b).INFLIGHT = b.INFLIGHT := rfl
@[simp] theorem Block.openSession_Q (q : List Cmd) (b : Block) : (Block.openSession q b).Q = q := rfl
@[simp] theorem Block.openSession_SEQ_IDX (q : List Cmd) (b : Block) : (Block.openSession q b).SEQ_IDX = 0 := rfl
@[simp] theorem Block.openSession_SEQ_LEN (q : List Cmd) (b : Block) : (Block.openSession q b).SEQ_LEN = BitVec.ofNat 32 q.length := rfl
@[simp] theorem Block.openSession_RB (q : List Cmd) (b : Block) : (Block.openSession q b).RB = b.RB := rfl
@[simp] theorem Block.openSession_TMR (q : List Cmd) (b : Block) : (Block.openSession q b).TMR = b.TMR := rfl
@[simp] theorem Block.openSession_WCUR (q : List Cmd) (b : Block) : (Block.openSession q b).WCUR = 0 := rfl
@[simp] theorem Block.openSession_WCUR_V (q : List Cmd) (b : Block) : (Block.openSession q b).WCUR_V = false := rfl
@[simp] theorem Block.openSession_LINK_CLOSED (q : List Cmd) (b : Block) : (Block.openSession q b).LINK_CLOSED = b.LINK_CLOSED := rfl
@[simp] theorem Block.openSession_FAIL_REASON (q : List Cmd) (b : Block) : (Block.openSession q b).FAIL_REASON = b.FAIL_REASON := rfl
@[simp] theorem Block.openSession_FAIL_KIND (q : List Cmd) (b : Block) : (Block.openSession q b).FAIL_KIND = b.FAIL_KIND := rfl
@[simp] theorem Block.openSession_FAIL_IDX (q : List Cmd) (b : Block) : (Block.openSession q b).FAIL_IDX = b.FAIL_IDX := rfl
@[simp] theorem Block.openSession_FAIL_ADDR (q : List Cmd) (b : Block) : (Block.openSession q b).FAIL_ADDR = b.FAIL_ADDR := rfl
@[simp] theorem Block.openSession_FAIL_OFF (q : List Cmd) (b : Block) : (Block.openSession q b).FAIL_OFF = b.FAIL_OFF := rfl
@[simp] theorem Block.openSession_FAIL_EXP (q : List Cmd) (b : Block) : (Block.openSession q b).FAIL_EXP = b.FAIL_EXP := rfl
@[simp] theorem Block.openSession_FAIL_ACT (q : List Cmd) (b : Block) : (Block.openSession q b).FAIL_ACT = b.FAIL_ACT := rfl
@[simp] theorem Block.openSession_SIG_READ (q : List Cmd) (b : Block) : (Block.openSession q b).SIG_READ = b.SIG_READ := rfl
@[simp] theorem Block.openSession_REPORTS (q : List Cmd) (b : Block) : (Block.openSession q b).REPORTS = b.REPORTS := rfl
@[simp] theorem Block.openSession_LAST_KIND (q : List Cmd) (b : Block) : (Block.openSession q b).LAST_KIND = b.LAST_KIND := rfl
@[simp] theorem Block.openSession_LAST_RES (q : List Cmd) (b : Block) : (Block.openSession q b).LAST_RES = b.LAST_RES := rfl
@[simp] theorem Block.openSession_LAST_IDX (q : List Cmd) (b : Block) : (Block.openSession q b).LAST_IDX = b.LAST_IDX := rfl
@[simp] theorem Block.openSession_IRQ_STAT (q : List Cmd) (b : Block) : (Block.openSession q b).IRQ_STAT = b.IRQ_STAT := rfl
@[simp] theorem Block.openSession_IRQ_EN (q : List Cmd) (b : Block) : (Block.openSession q b).IRQ_EN = b.IRQ_EN := rfl
@[simp] theorem Block.openSession_CMD_ERRC (q : List Cmd) (b : Block) : (Block.openSession q b).CMD_ERRC = b.CMD_ERRC := rfl
@[simp] theorem Block.openSession_CMD_ERRS (q : List Cmd) (b : Block) : (Block.openSession q b).CMD_ERRS = b.CMD_ERRS := rfl

/-! `Block.emitRecord` -/

@[simp] theorem Block.emitRecord_ACC (r : HexRecord) (b : Block) : (Block.emitRecord r b).ACC = b.ACC := rfl
@[simp] theorem Block.emitRecord_IMG (r : HexRecord) (b : Block) : (Block.emitRecord r b).IMG = b.IMG := rfl
@[simp] theorem Block.emitRecord_PARAM (r : HexRecord) (b : Block) : (Block.emitRecord r b).PARAM = b.PARAM := rfl
@[simp] theorem Block.emitRecord_IMG_BASE (r : HexRecord) (b : Block) : (Block.emitRecord r b).IMG_BASE = b.IMG_BASE := rfl
@[simp] theorem Block.emitRecord_IMG_LEN (r : HexRecord) (b : Block) : (Block.emitRecord r b).IMG_LEN = b.IMG_LEN := rfl
@[simp] theorem Block.emitRecord_LINE_LEN (r : HexRecord) (b : Block) : (Block.emitRecord r b).LINE_LEN = b.LINE_LEN := rfl
@[simp] theorem Block.emitRecord_PAGE_LOG2 (r : HexRecord) (b : Block) : (Block.emitRecord r b).PAGE_LOG2 = b.PAGE_LOG2 := rfl
@[simp] theorem Block.emitRecord_PAGE_EN (r : HexRecord) (b : Block) : (Block.emitRecord r b).PAGE_EN = b.PAGE_EN := rfl
@[simp] theorem Block.emitRecord_OMIT_NULL (r : HexRecord) (b : Block) : (Block.emitRecord r b).OMIT_NULL = b.OMIT_NULL := rfl
@[simp] theorem Block.emitRecord_ENC_ST (r : HexRecord) (b : Block) : (Block.emitRecord r b).ENC_ST = .busy := rfl
@[simp] theorem Block.emitRecord_ENC_ERRC (r : HexRecord) (b : Block) : (Block.emitRecord r b).ENC_ERRC = b.ENC_ERRC := rfl
@[simp] theorem Block.emitRecord_ENC_NREC (r : HexRecord) (b : Block) : (Block.emitRecord r b).ENC_NREC = countWord (b.ENC_NREC.toNat + 1) := rfl
@[simp] theorem Block.emitRecord_OUTQ (r : HexRecord) (b : Block) : (Block.emitRecord r b).OUTQ = b.OUTQ ++ textLine r := rfl
@[simp] theorem Block.emitRecord_MEMKIND (r : HexRecord) (b : Block) : (Block.emitRecord r b).MEMKIND = b.MEMKIND := rfl
@[simp] theorem Block.emitRecord_VERIFY (r : HexRecord) (b : Block) : (Block.emitRecord r b).VERIFY = b.VERIFY := rfl
@[simp] theorem Block.emitRecord_SIGCHK (r : HexRecord) (b : Block) : (Block.emitRecord r b).SIGCHK = b.SIGCHK := rfl
@[simp] theorem Block.emitRecord_SIG_LEN (r : HexRecord) (b : Block) : (Block.emitRecord r b).SIG_LEN = b.SIG_LEN := rfl
@[simp] theorem Block.emitRecord_DEV_PAGE (r : HexRecord) (b : Block) : (Block.emitRecord r b).DEV_PAGE = b.DEV_PAGE := rfl
@[simp] theorem Block.emitRecord_SES_TIMEOUT (r : HexRecord) (b : Block) : (Block.emitRecord r b).SES_TIMEOUT = b.SES_TIMEOUT := rfl
@[simp] theorem Block.emitRecord_SIG_EXPECT (r : HexRecord) (b : Block) : (Block.emitRecord r b).SIG_EXPECT = b.SIG_EXPECT := rfl
@[simp] theorem Block.emitRecord_PARAM_LEN (r : HexRecord) (b : Block) : (Block.emitRecord r b).PARAM_LEN = b.PARAM_LEN := rfl
@[simp] theorem Block.emitRecord_SES_ST (r : HexRecord) (b : Block) : (Block.emitRecord r b).SES_ST = b.SES_ST := rfl
@[simp] theorem Block.emitRecord_INFLIGHT (r : HexRecord) (b : Block) : (Block.emitRecord r b).INFLIGHT = b.INFLIGHT := rfl
@[simp] theorem Block.emitRecord_Q (r : HexRecord) (b : Block) : (Block.emitRecord r b).Q = b.Q := rfl
@[simp] theorem Block.emitRecord_SEQ_IDX (r : HexRecord) (b : Block) : (Block.emitRecord r b).SEQ_IDX = b.SEQ_IDX := rfl
@[simp] theorem Block.emitRecord_SEQ_LEN (r : HexRecord) (b : Block) : (Block.emitRecord r b).SEQ_LEN = b.SEQ_LEN := rfl
@[simp] theorem Block.emitRecord_RB (r : HexRecord) (b : Block) : (Block.emitRecord r b).RB = b.RB := rfl
@[simp] theorem Block.emitRecord_TMR (r : HexRecord) (b : Block) : (Block.emitRecord r b).TMR = b.TMR := rfl
@[simp] theorem Block.emitRecord_WCUR (r : HexRecord) (b : Block) : (Block.emitRecord r b).WCUR = b.WCUR := rfl
@[simp] theorem Block.emitRecord_WCUR_V (r : HexRecord) (b : Block) : (Block.emitRecord r b).WCUR_V = b.WCUR_V := rfl
@[simp] theorem Block.emitRecord_LINK_CLOSED (r : HexRecord) (b : Block) : (Block.emitRecord r b).LINK_CLOSED = b.LINK_CLOSED := rfl
@[simp] theorem Block.emitRecord_FAIL_REASON (r : HexRecord) (b : Block) : (Block.emitRecord r b).FAIL_REASON = b.FAIL_REASON := rfl
@[simp] theorem Block.emitRecord_FAIL_KIND (r : HexRecord) (b : Block) : (Block.emitRecord r b).FAIL_KIND = b.FAIL_KIND := rfl
@[simp] theorem Block.emitRecord_FAIL_IDX (r : HexRecord) (b : Block) : (Block.emitRecord r b).FAIL_IDX = b.FAIL_IDX := rfl
@[simp] theorem Block.emitRecord_FAIL_ADDR (r : HexRecord) (b : Block) : (Block.emitRecord r b).FAIL_ADDR = b.FAIL_ADDR := rfl
@[simp] theorem Block.emitRecord_FAIL_OFF (r : HexRecord) (b : Block) : (Block.emitRecord r b).FAIL_OFF = b.FAIL_OFF := rfl
@[simp] theorem Block.emitRecord_FAIL_EXP (r : HexRecord) (b : Block) : (Block.emitRecord r b).FAIL_EXP = b.FAIL_EXP := rfl
@[simp] theorem Block.emitRecord_FAIL_ACT (r : HexRecord) (b : Block) : (Block.emitRecord r b).FAIL_ACT = b.FAIL_ACT := rfl
@[simp] theorem Block.emitRecord_SIG_READ (r : HexRecord) (b : Block) : (Block.emitRecord r b).SIG_READ = b.SIG_READ := rfl
@[simp] theorem Block.emitRecord_REPORTS (r : HexRecord) (b : Block) : (Block.emitRecord r b).REPORTS = b.REPORTS := rfl
@[simp] theorem Block.emitRecord_LAST_KIND (r : HexRecord) (b : Block) : (Block.emitRecord r b).LAST_KIND = b.LAST_KIND := rfl
@[simp] theorem Block.emitRecord_LAST_RES (r : HexRecord) (b : Block) : (Block.emitRecord r b).LAST_RES = b.LAST_RES := rfl
@[simp] theorem Block.emitRecord_LAST_IDX (r : HexRecord) (b : Block) : (Block.emitRecord r b).LAST_IDX = b.LAST_IDX := rfl
@[simp] theorem Block.emitRecord_IRQ_STAT (r : HexRecord) (b : Block) : (Block.emitRecord r b).IRQ_STAT = b.IRQ_STAT := rfl
@[simp] theorem Block.emitRecord_IRQ_EN (r : HexRecord) (b : Block) : (Block.emitRecord r b).IRQ_EN = b.IRQ_EN := rfl
@[simp] theorem Block.emitRecord_CMD_ERRC (r : HexRecord) (b : Block) : (Block.emitRecord r b).CMD_ERRC = b.CMD_ERRC := rfl
@[simp] theorem Block.emitRecord_CMD_ERRS (r : HexRecord) (b : Block) : (Block.emitRecord r b).CMD_ERRS = b.CMD_ERRS := rfl

/-! `Block.loadText` -/

@[simp] theorem Block.loadText_ACC (rs : List HexRecord) (b : Block) : (Block.loadText rs b).ACC = b.ACC := rfl
@[simp] theorem Block.loadText_IMG (rs : List HexRecord) (b : Block) : (Block.loadText rs b).IMG = b.IMG := rfl
@[simp] theorem Block.loadText_PARAM (rs : List HexRecord) (b : Block) : (Block.loadText rs b).PARAM = b.PARAM := rfl
@[simp] theorem Block.loadText_IMG_BASE (rs : List HexRecord) (b : Block) : (Block.loadText rs b).IMG_BASE = b.IMG_BASE := rfl
@[simp] theorem Block.loadText_IMG_LEN (rs : List HexRecord) (b : Block) : (Block.loadText rs b).IMG_LEN = b.IMG_LEN := rfl
@[simp] theorem Block.loadText_LINE_LEN (rs : List HexRecord) (b : Block) : (Block.loadText rs b).LINE_LEN = b.LINE_LEN := rfl
@[simp] theorem Block.loadText_PAGE_LOG2 (rs : List HexRecord) (b : Block) : (Block.loadText rs b).PAGE_LOG2 = b.PAGE_LOG2 := rfl
@[simp] theorem Block.loadText_PAGE_EN (rs : List HexRecord) (b : Block) : (Block.loadText rs b).PAGE_EN = b.PAGE_EN := rfl
@[simp] theorem Block.loadText_OMIT_NULL (rs : List HexRecord) (b : Block) : (Block.loadText rs b).OMIT_NULL = b.OMIT_NULL := rfl
@[simp] theorem Block.loadText_ENC_ST (rs : List HexRecord) (b : Block) : (Block.loadText rs b).ENC_ST = .busy := rfl
@[simp] theorem Block.loadText_ENC_ERRC (rs : List HexRecord) (b : Block) : (Block.loadText rs b).ENC_ERRC = .noError := rfl
@[simp] theorem Block.loadText_ENC_NREC (rs : List HexRecord) (b : Block) : (Block.loadText rs b).ENC_NREC = countWord rs.length := rfl
@[simp] theorem Block.loadText_OUTQ (rs : List HexRecord) (b : Block) : (Block.loadText rs b).OUTQ = textOf rs := rfl
@[simp] theorem Block.loadText_MEMKIND (rs : List HexRecord) (b : Block) : (Block.loadText rs b).MEMKIND = b.MEMKIND := rfl
@[simp] theorem Block.loadText_VERIFY (rs : List HexRecord) (b : Block) : (Block.loadText rs b).VERIFY = b.VERIFY := rfl
@[simp] theorem Block.loadText_SIGCHK (rs : List HexRecord) (b : Block) : (Block.loadText rs b).SIGCHK = b.SIGCHK := rfl
@[simp] theorem Block.loadText_SIG_LEN (rs : List HexRecord) (b : Block) : (Block.loadText rs b).SIG_LEN = b.SIG_LEN := rfl
@[simp] theorem Block.loadText_DEV_PAGE (rs : List HexRecord) (b : Block) : (Block.loadText rs b).DEV_PAGE = b.DEV_PAGE := rfl
@[simp] theorem Block.loadText_SES_TIMEOUT (rs : List HexRecord) (b : Block) : (Block.loadText rs b).SES_TIMEOUT = b.SES_TIMEOUT := rfl
@[simp] theorem Block.loadText_SIG_EXPECT (rs : List HexRecord) (b : Block) : (Block.loadText rs b).SIG_EXPECT = b.SIG_EXPECT := rfl
@[simp] theorem Block.loadText_PARAM_LEN (rs : List HexRecord) (b : Block) : (Block.loadText rs b).PARAM_LEN = b.PARAM_LEN := rfl
@[simp] theorem Block.loadText_SES_ST (rs : List HexRecord) (b : Block) : (Block.loadText rs b).SES_ST = b.SES_ST := rfl
@[simp] theorem Block.loadText_INFLIGHT (rs : List HexRecord) (b : Block) : (Block.loadText rs b).INFLIGHT = b.INFLIGHT := rfl
@[simp] theorem Block.loadText_Q (rs : List HexRecord) (b : Block) : (Block.loadText rs b).Q = b.Q := rfl
@[simp] theorem Block.loadText_SEQ_IDX (rs : List HexRecord) (b : Block) : (Block.loadText rs b).SEQ_IDX = b.SEQ_IDX := rfl
@[simp] theorem Block.loadText_SEQ_LEN (rs : List HexRecord) (b : Block) : (Block.loadText rs b).SEQ_LEN = b.SEQ_LEN := rfl
@[simp] theorem Block.loadText_RB (rs : List HexRecord) (b : Block) : (Block.loadText rs b).RB = b.RB := rfl
@[simp] theorem Block.loadText_TMR (rs : List HexRecord) (b : Block) : (Block.loadText rs b).TMR = b.TMR := rfl
@[simp] theorem Block.loadText_WCUR (rs : List HexRecord) (b : Block) : (Block.loadText rs b).WCUR = b.WCUR := rfl
@[simp] theorem Block.loadText_WCUR_V (rs : List HexRecord) (b : Block) : (Block.loadText rs b).WCUR_V = b.WCUR_V := rfl
@[simp] theorem Block.loadText_LINK_CLOSED (rs : List HexRecord) (b : Block) : (Block.loadText rs b).LINK_CLOSED = b.LINK_CLOSED := rfl
@[simp] theorem Block.loadText_FAIL_REASON (rs : List HexRecord) (b : Block) : (Block.loadText rs b).FAIL_REASON = b.FAIL_REASON := rfl
@[simp] theorem Block.loadText_FAIL_KIND (rs : List HexRecord) (b : Block) : (Block.loadText rs b).FAIL_KIND = b.FAIL_KIND := rfl
@[simp] theorem Block.loadText_FAIL_IDX (rs : List HexRecord) (b : Block) : (Block.loadText rs b).FAIL_IDX = b.FAIL_IDX := rfl
@[simp] theorem Block.loadText_FAIL_ADDR (rs : List HexRecord) (b : Block) : (Block.loadText rs b).FAIL_ADDR = b.FAIL_ADDR := rfl
@[simp] theorem Block.loadText_FAIL_OFF (rs : List HexRecord) (b : Block) : (Block.loadText rs b).FAIL_OFF = b.FAIL_OFF := rfl
@[simp] theorem Block.loadText_FAIL_EXP (rs : List HexRecord) (b : Block) : (Block.loadText rs b).FAIL_EXP = b.FAIL_EXP := rfl
@[simp] theorem Block.loadText_FAIL_ACT (rs : List HexRecord) (b : Block) : (Block.loadText rs b).FAIL_ACT = b.FAIL_ACT := rfl
@[simp] theorem Block.loadText_SIG_READ (rs : List HexRecord) (b : Block) : (Block.loadText rs b).SIG_READ = b.SIG_READ := rfl
@[simp] theorem Block.loadText_REPORTS (rs : List HexRecord) (b : Block) : (Block.loadText rs b).REPORTS = b.REPORTS := rfl
@[simp] theorem Block.loadText_LAST_KIND (rs : List HexRecord) (b : Block) : (Block.loadText rs b).LAST_KIND = b.LAST_KIND := rfl
@[simp] theorem Block.loadText_LAST_RES (rs : List HexRecord) (b : Block) : (Block.loadText rs b).LAST_RES = b.LAST_RES := rfl
@[simp] theorem Block.loadText_LAST_IDX (rs : List HexRecord) (b : Block) : (Block.loadText rs b).LAST_IDX = b.LAST_IDX := rfl
@[simp] theorem Block.loadText_IRQ_STAT (rs : List HexRecord) (b : Block) : (Block.loadText rs b).IRQ_STAT = b.IRQ_STAT := rfl
@[simp] theorem Block.loadText_IRQ_EN (rs : List HexRecord) (b : Block) : (Block.loadText rs b).IRQ_EN = b.IRQ_EN := rfl
@[simp] theorem Block.loadText_CMD_ERRC (rs : List HexRecord) (b : Block) : (Block.loadText rs b).CMD_ERRC = b.CMD_ERRC := rfl
@[simp] theorem Block.loadText_CMD_ERRS (rs : List HexRecord) (b : Block) : (Block.loadText rs b).CMD_ERRS = b.CMD_ERRS := rfl

/-! `Block.clearIrq` -/

@[simp] theorem Block.clearIrq_ACC (w : Word) (b : Block) : (Block.clearIrq w b).ACC = b.ACC := rfl
@[simp] theorem Block.clearIrq_IMG (w : Word) (b : Block) : (Block.clearIrq w b).IMG = b.IMG := rfl
@[simp] theorem Block.clearIrq_PARAM (w : Word) (b : Block) : (Block.clearIrq w b).PARAM = b.PARAM := rfl
@[simp] theorem Block.clearIrq_IMG_BASE (w : Word) (b : Block) : (Block.clearIrq w b).IMG_BASE = b.IMG_BASE := rfl
@[simp] theorem Block.clearIrq_IMG_LEN (w : Word) (b : Block) : (Block.clearIrq w b).IMG_LEN = b.IMG_LEN := rfl
@[simp] theorem Block.clearIrq_LINE_LEN (w : Word) (b : Block) : (Block.clearIrq w b).LINE_LEN = b.LINE_LEN := rfl
@[simp] theorem Block.clearIrq_PAGE_LOG2 (w : Word) (b : Block) : (Block.clearIrq w b).PAGE_LOG2 = b.PAGE_LOG2 := rfl
@[simp] theorem Block.clearIrq_PAGE_EN (w : Word) (b : Block) : (Block.clearIrq w b).PAGE_EN = b.PAGE_EN := rfl
@[simp] theorem Block.clearIrq_OMIT_NULL (w : Word) (b : Block) : (Block.clearIrq w b).OMIT_NULL = b.OMIT_NULL := rfl
@[simp] theorem Block.clearIrq_ENC_ST (w : Word) (b : Block) : (Block.clearIrq w b).ENC_ST = b.ENC_ST := rfl
@[simp] theorem Block.clearIrq_ENC_ERRC (w : Word) (b : Block) : (Block.clearIrq w b).ENC_ERRC = b.ENC_ERRC := rfl
@[simp] theorem Block.clearIrq_ENC_NREC (w : Word) (b : Block) : (Block.clearIrq w b).ENC_NREC = b.ENC_NREC := rfl
@[simp] theorem Block.clearIrq_OUTQ (w : Word) (b : Block) : (Block.clearIrq w b).OUTQ = b.OUTQ := rfl
@[simp] theorem Block.clearIrq_MEMKIND (w : Word) (b : Block) : (Block.clearIrq w b).MEMKIND = b.MEMKIND := rfl
@[simp] theorem Block.clearIrq_VERIFY (w : Word) (b : Block) : (Block.clearIrq w b).VERIFY = b.VERIFY := rfl
@[simp] theorem Block.clearIrq_SIGCHK (w : Word) (b : Block) : (Block.clearIrq w b).SIGCHK = b.SIGCHK := rfl
@[simp] theorem Block.clearIrq_SIG_LEN (w : Word) (b : Block) : (Block.clearIrq w b).SIG_LEN = b.SIG_LEN := rfl
@[simp] theorem Block.clearIrq_DEV_PAGE (w : Word) (b : Block) : (Block.clearIrq w b).DEV_PAGE = b.DEV_PAGE := rfl
@[simp] theorem Block.clearIrq_SES_TIMEOUT (w : Word) (b : Block) : (Block.clearIrq w b).SES_TIMEOUT = b.SES_TIMEOUT := rfl
@[simp] theorem Block.clearIrq_SIG_EXPECT (w : Word) (b : Block) : (Block.clearIrq w b).SIG_EXPECT = b.SIG_EXPECT := rfl
@[simp] theorem Block.clearIrq_PARAM_LEN (w : Word) (b : Block) : (Block.clearIrq w b).PARAM_LEN = b.PARAM_LEN := rfl
@[simp] theorem Block.clearIrq_SES_ST (w : Word) (b : Block) : (Block.clearIrq w b).SES_ST = b.SES_ST := rfl
@[simp] theorem Block.clearIrq_INFLIGHT (w : Word) (b : Block) : (Block.clearIrq w b).INFLIGHT = b.INFLIGHT := rfl
@[simp] theorem Block.clearIrq_Q (w : Word) (b : Block) : (Block.clearIrq w b).Q = b.Q := rfl
@[simp] theorem Block.clearIrq_SEQ_IDX (w : Word) (b : Block) : (Block.clearIrq w b).SEQ_IDX = b.SEQ_IDX := rfl
@[simp] theorem Block.clearIrq_SEQ_LEN (w : Word) (b : Block) : (Block.clearIrq w b).SEQ_LEN = b.SEQ_LEN := rfl
@[simp] theorem Block.clearIrq_RB (w : Word) (b : Block) : (Block.clearIrq w b).RB = b.RB := rfl
@[simp] theorem Block.clearIrq_TMR (w : Word) (b : Block) : (Block.clearIrq w b).TMR = b.TMR := rfl
@[simp] theorem Block.clearIrq_WCUR (w : Word) (b : Block) : (Block.clearIrq w b).WCUR = b.WCUR := rfl
@[simp] theorem Block.clearIrq_WCUR_V (w : Word) (b : Block) : (Block.clearIrq w b).WCUR_V = b.WCUR_V := rfl
@[simp] theorem Block.clearIrq_LINK_CLOSED (w : Word) (b : Block) : (Block.clearIrq w b).LINK_CLOSED = b.LINK_CLOSED := rfl
@[simp] theorem Block.clearIrq_FAIL_REASON (w : Word) (b : Block) : (Block.clearIrq w b).FAIL_REASON = b.FAIL_REASON := rfl
@[simp] theorem Block.clearIrq_FAIL_KIND (w : Word) (b : Block) : (Block.clearIrq w b).FAIL_KIND = b.FAIL_KIND := rfl
@[simp] theorem Block.clearIrq_FAIL_IDX (w : Word) (b : Block) : (Block.clearIrq w b).FAIL_IDX = b.FAIL_IDX := rfl
@[simp] theorem Block.clearIrq_FAIL_ADDR (w : Word) (b : Block) : (Block.clearIrq w b).FAIL_ADDR = b.FAIL_ADDR := rfl
@[simp] theorem Block.clearIrq_FAIL_OFF (w : Word) (b : Block) : (Block.clearIrq w b).FAIL_OFF = b.FAIL_OFF := rfl
@[simp] theorem Block.clearIrq_FAIL_EXP (w : Word) (b : Block) : (Block.clearIrq w b).FAIL_EXP = b.FAIL_EXP := rfl
@[simp] theorem Block.clearIrq_FAIL_ACT (w : Word) (b : Block) : (Block.clearIrq w b).FAIL_ACT = b.FAIL_ACT := rfl
@[simp] theorem Block.clearIrq_SIG_READ (w : Word) (b : Block) : (Block.clearIrq w b).SIG_READ = b.SIG_READ := rfl
@[simp] theorem Block.clearIrq_REPORTS (w : Word) (b : Block) : (Block.clearIrq w b).REPORTS = b.REPORTS := rfl
@[simp] theorem Block.clearIrq_LAST_KIND (w : Word) (b : Block) : (Block.clearIrq w b).LAST_KIND = b.LAST_KIND := rfl
@[simp] theorem Block.clearIrq_LAST_RES (w : Word) (b : Block) : (Block.clearIrq w b).LAST_RES = b.LAST_RES := rfl
@[simp] theorem Block.clearIrq_LAST_IDX (w : Word) (b : Block) : (Block.clearIrq w b).LAST_IDX = b.LAST_IDX := rfl
@[simp] theorem Block.clearIrq_IRQ_STAT (w : Word) (b : Block) : (Block.clearIrq w b).IRQ_STAT = b.IRQ_STAT &&& ~~~(w.extractLsb' 0 8) := rfl
@[simp] theorem Block.clearIrq_IRQ_EN (w : Word) (b : Block) : (Block.clearIrq w b).IRQ_EN = b.IRQ_EN := rfl
@[simp] theorem Block.clearIrq_CMD_ERRC (w : Word) (b : Block) : (Block.clearIrq w b).CMD_ERRC = b.CMD_ERRC := rfl
@[simp] theorem Block.clearIrq_CMD_ERRS (w : Word) (b : Block) : (Block.clearIrq w b).CMD_ERRS = b.CMD_ERRS := rfl

/-! `Block.writeIrqEn` -/

@[simp] theorem Block.writeIrqEn_ACC (w : Word) (b : Block) : (Block.writeIrqEn w b).ACC = b.ACC := rfl
@[simp] theorem Block.writeIrqEn_IMG (w : Word) (b : Block) : (Block.writeIrqEn w b).IMG = b.IMG := rfl
@[simp] theorem Block.writeIrqEn_PARAM (w : Word) (b : Block) : (Block.writeIrqEn w b).PARAM = b.PARAM := rfl
@[simp] theorem Block.writeIrqEn_IMG_BASE (w : Word) (b : Block) : (Block.writeIrqEn w b).IMG_BASE = b.IMG_BASE := rfl
@[simp] theorem Block.writeIrqEn_IMG_LEN (w : Word) (b : Block) : (Block.writeIrqEn w b).IMG_LEN = b.IMG_LEN := rfl
@[simp] theorem Block.writeIrqEn_LINE_LEN (w : Word) (b : Block) : (Block.writeIrqEn w b).LINE_LEN = b.LINE_LEN := rfl
@[simp] theorem Block.writeIrqEn_PAGE_LOG2 (w : Word) (b : Block) : (Block.writeIrqEn w b).PAGE_LOG2 = b.PAGE_LOG2 := rfl
@[simp] theorem Block.writeIrqEn_PAGE_EN (w : Word) (b : Block) : (Block.writeIrqEn w b).PAGE_EN = b.PAGE_EN := rfl
@[simp] theorem Block.writeIrqEn_OMIT_NULL (w : Word) (b : Block) : (Block.writeIrqEn w b).OMIT_NULL = b.OMIT_NULL := rfl
@[simp] theorem Block.writeIrqEn_ENC_ST (w : Word) (b : Block) : (Block.writeIrqEn w b).ENC_ST = b.ENC_ST := rfl
@[simp] theorem Block.writeIrqEn_ENC_ERRC (w : Word) (b : Block) : (Block.writeIrqEn w b).ENC_ERRC = b.ENC_ERRC := rfl
@[simp] theorem Block.writeIrqEn_ENC_NREC (w : Word) (b : Block) : (Block.writeIrqEn w b).ENC_NREC = b.ENC_NREC := rfl
@[simp] theorem Block.writeIrqEn_OUTQ (w : Word) (b : Block) : (Block.writeIrqEn w b).OUTQ = b.OUTQ := rfl
@[simp] theorem Block.writeIrqEn_MEMKIND (w : Word) (b : Block) : (Block.writeIrqEn w b).MEMKIND = b.MEMKIND := rfl
@[simp] theorem Block.writeIrqEn_VERIFY (w : Word) (b : Block) : (Block.writeIrqEn w b).VERIFY = b.VERIFY := rfl
@[simp] theorem Block.writeIrqEn_SIGCHK (w : Word) (b : Block) : (Block.writeIrqEn w b).SIGCHK = b.SIGCHK := rfl
@[simp] theorem Block.writeIrqEn_SIG_LEN (w : Word) (b : Block) : (Block.writeIrqEn w b).SIG_LEN = b.SIG_LEN := rfl
@[simp] theorem Block.writeIrqEn_DEV_PAGE (w : Word) (b : Block) : (Block.writeIrqEn w b).DEV_PAGE = b.DEV_PAGE := rfl
@[simp] theorem Block.writeIrqEn_SES_TIMEOUT (w : Word) (b : Block) : (Block.writeIrqEn w b).SES_TIMEOUT = b.SES_TIMEOUT := rfl
@[simp] theorem Block.writeIrqEn_SIG_EXPECT (w : Word) (b : Block) : (Block.writeIrqEn w b).SIG_EXPECT = b.SIG_EXPECT := rfl
@[simp] theorem Block.writeIrqEn_PARAM_LEN (w : Word) (b : Block) : (Block.writeIrqEn w b).PARAM_LEN = b.PARAM_LEN := rfl
@[simp] theorem Block.writeIrqEn_SES_ST (w : Word) (b : Block) : (Block.writeIrqEn w b).SES_ST = b.SES_ST := rfl
@[simp] theorem Block.writeIrqEn_INFLIGHT (w : Word) (b : Block) : (Block.writeIrqEn w b).INFLIGHT = b.INFLIGHT := rfl
@[simp] theorem Block.writeIrqEn_Q (w : Word) (b : Block) : (Block.writeIrqEn w b).Q = b.Q := rfl
@[simp] theorem Block.writeIrqEn_SEQ_IDX (w : Word) (b : Block) : (Block.writeIrqEn w b).SEQ_IDX = b.SEQ_IDX := rfl
@[simp] theorem Block.writeIrqEn_SEQ_LEN (w : Word) (b : Block) : (Block.writeIrqEn w b).SEQ_LEN = b.SEQ_LEN := rfl
@[simp] theorem Block.writeIrqEn_RB (w : Word) (b : Block) : (Block.writeIrqEn w b).RB = b.RB := rfl
@[simp] theorem Block.writeIrqEn_TMR (w : Word) (b : Block) : (Block.writeIrqEn w b).TMR = b.TMR := rfl
@[simp] theorem Block.writeIrqEn_WCUR (w : Word) (b : Block) : (Block.writeIrqEn w b).WCUR = b.WCUR := rfl
@[simp] theorem Block.writeIrqEn_WCUR_V (w : Word) (b : Block) : (Block.writeIrqEn w b).WCUR_V = b.WCUR_V := rfl
@[simp] theorem Block.writeIrqEn_LINK_CLOSED (w : Word) (b : Block) : (Block.writeIrqEn w b).LINK_CLOSED = b.LINK_CLOSED := rfl
@[simp] theorem Block.writeIrqEn_FAIL_REASON (w : Word) (b : Block) : (Block.writeIrqEn w b).FAIL_REASON = b.FAIL_REASON := rfl
@[simp] theorem Block.writeIrqEn_FAIL_KIND (w : Word) (b : Block) : (Block.writeIrqEn w b).FAIL_KIND = b.FAIL_KIND := rfl
@[simp] theorem Block.writeIrqEn_FAIL_IDX (w : Word) (b : Block) : (Block.writeIrqEn w b).FAIL_IDX = b.FAIL_IDX := rfl
@[simp] theorem Block.writeIrqEn_FAIL_ADDR (w : Word) (b : Block) : (Block.writeIrqEn w b).FAIL_ADDR = b.FAIL_ADDR := rfl
@[simp] theorem Block.writeIrqEn_FAIL_OFF (w : Word) (b : Block) : (Block.writeIrqEn w b).FAIL_OFF = b.FAIL_OFF := rfl
@[simp] theorem Block.writeIrqEn_FAIL_EXP (w : Word) (b : Block) : (Block.writeIrqEn w b).FAIL_EXP = b.FAIL_EXP := rfl
@[simp] theorem Block.writeIrqEn_FAIL_ACT (w : Word) (b : Block) : (Block.writeIrqEn w b).FAIL_ACT = b.FAIL_ACT := rfl
@[simp] theorem Block.writeIrqEn_SIG_READ (w : Word) (b : Block) : (Block.writeIrqEn w b).SIG_READ = b.SIG_READ := rfl
@[simp] theorem Block.writeIrqEn_REPORTS (w : Word) (b : Block) : (Block.writeIrqEn w b).REPORTS = b.REPORTS := rfl
@[simp] theorem Block.writeIrqEn_LAST_KIND (w : Word) (b : Block) : (Block.writeIrqEn w b).LAST_KIND = b.LAST_KIND := rfl
@[simp] theorem Block.writeIrqEn_LAST_RES (w : Word) (b : Block) : (Block.writeIrqEn w b).LAST_RES = b.LAST_RES := rfl
@[simp] theorem Block.writeIrqEn_LAST_IDX (w : Word) (b : Block) : (Block.writeIrqEn w b).LAST_IDX = b.LAST_IDX := rfl
@[simp] theorem Block.writeIrqEn_IRQ_STAT (w : Word) (b : Block) : (Block.writeIrqEn w b).IRQ_STAT = b.IRQ_STAT := rfl
@[simp] theorem Block.writeIrqEn_IRQ_EN (w : Word) (b : Block) : (Block.writeIrqEn w b).IRQ_EN = w.extractLsb' 0 8 := rfl
@[simp] theorem Block.writeIrqEn_CMD_ERRC (w : Word) (b : Block) : (Block.writeIrqEn w b).CMD_ERRC = b.CMD_ERRC := rfl
@[simp] theorem Block.writeIrqEn_CMD_ERRS (w : Word) (b : Block) : (Block.writeIrqEn w b).CMD_ERRS = b.CMD_ERRS := rfl

/-! `Block.writeEncCfg` -/

@[simp] theorem Block.writeEncCfg_ACC (w : Word) (b : Block) : (Block.writeEncCfg w b).ACC = b.ACC := rfl
@[simp] theorem Block.writeEncCfg_IMG (w : Word) (b : Block) : (Block.writeEncCfg w b).IMG = b.IMG := rfl
@[simp] theorem Block.writeEncCfg_PARAM (w : Word) (b : Block) : (Block.writeEncCfg w b).PARAM = b.PARAM := rfl
@[simp] theorem Block.writeEncCfg_IMG_BASE (w : Word) (b : Block) : (Block.writeEncCfg w b).IMG_BASE = b.IMG_BASE := rfl
@[simp] theorem Block.writeEncCfg_IMG_LEN (w : Word) (b : Block) : (Block.writeEncCfg w b).IMG_LEN = b.IMG_LEN := rfl
@[simp] theorem Block.writeEncCfg_LINE_LEN (w : Word) (b : Block) : (Block.writeEncCfg w b).LINE_LEN = w.extractLsb' 0 8 := rfl
@[simp] theorem Block.writeEncCfg_PAGE_LOG2 (w : Word) (b : Block) : (Block.writeEncCfg w b).PAGE_LOG2 = w.extractLsb' 8 5 := rfl
@[simp] theorem Block.writeEncCfg_PAGE_EN (w : Word) (b : Block) : (Block.writeEncCfg w b).PAGE_EN = w.getLsbD 13 := rfl
@[simp] theorem Block.writeEncCfg_OMIT_NULL (w : Word) (b : Block) : (Block.writeEncCfg w b).OMIT_NULL = w.getLsbD 14 := rfl
@[simp] theorem Block.writeEncCfg_ENC_ST (w : Word) (b : Block) : (Block.writeEncCfg w b).ENC_ST = b.ENC_ST := rfl
@[simp] theorem Block.writeEncCfg_ENC_ERRC (w : Word) (b : Block) : (Block.writeEncCfg w b).ENC_ERRC = b.ENC_ERRC := rfl
@[simp] theorem Block.writeEncCfg_ENC_NREC (w : Word) (b : Block) : (Block.writeEncCfg w b).ENC_NREC = b.ENC_NREC := rfl
@[simp] theorem Block.writeEncCfg_OUTQ (w : Word) (b : Block) : (Block.writeEncCfg w b).OUTQ = b.OUTQ := rfl
@[simp] theorem Block.writeEncCfg_MEMKIND (w : Word) (b : Block) : (Block.writeEncCfg w b).MEMKIND = b.MEMKIND := rfl
@[simp] theorem Block.writeEncCfg_VERIFY (w : Word) (b : Block) : (Block.writeEncCfg w b).VERIFY = b.VERIFY := rfl
@[simp] theorem Block.writeEncCfg_SIGCHK (w : Word) (b : Block) : (Block.writeEncCfg w b).SIGCHK = b.SIGCHK := rfl
@[simp] theorem Block.writeEncCfg_SIG_LEN (w : Word) (b : Block) : (Block.writeEncCfg w b).SIG_LEN = b.SIG_LEN := rfl
@[simp] theorem Block.writeEncCfg_DEV_PAGE (w : Word) (b : Block) : (Block.writeEncCfg w b).DEV_PAGE = b.DEV_PAGE := rfl
@[simp] theorem Block.writeEncCfg_SES_TIMEOUT (w : Word) (b : Block) : (Block.writeEncCfg w b).SES_TIMEOUT = b.SES_TIMEOUT := rfl
@[simp] theorem Block.writeEncCfg_SIG_EXPECT (w : Word) (b : Block) : (Block.writeEncCfg w b).SIG_EXPECT = b.SIG_EXPECT := rfl
@[simp] theorem Block.writeEncCfg_PARAM_LEN (w : Word) (b : Block) : (Block.writeEncCfg w b).PARAM_LEN = b.PARAM_LEN := rfl
@[simp] theorem Block.writeEncCfg_SES_ST (w : Word) (b : Block) : (Block.writeEncCfg w b).SES_ST = b.SES_ST := rfl
@[simp] theorem Block.writeEncCfg_INFLIGHT (w : Word) (b : Block) : (Block.writeEncCfg w b).INFLIGHT = b.INFLIGHT := rfl
@[simp] theorem Block.writeEncCfg_Q (w : Word) (b : Block) : (Block.writeEncCfg w b).Q = b.Q := rfl
@[simp] theorem Block.writeEncCfg_SEQ_IDX (w : Word) (b : Block) : (Block.writeEncCfg w b).SEQ_IDX = b.SEQ_IDX := rfl
@[simp] theorem Block.writeEncCfg_SEQ_LEN (w : Word) (b : Block) : (Block.writeEncCfg w b).SEQ_LEN = b.SEQ_LEN := rfl
@[simp] theorem Block.writeEncCfg_RB (w : Word) (b : Block) : (Block.writeEncCfg w b).RB = b.RB := rfl
@[simp] theorem Block.writeEncCfg_TMR (w : Word) (b : Block) : (Block.writeEncCfg w b).TMR = b.TMR := rfl
@[simp] theorem Block.writeEncCfg_WCUR (w : Word) (b : Block) : (Block.writeEncCfg w b).WCUR = b.WCUR := rfl
@[simp] theorem Block.writeEncCfg_WCUR_V (w : Word) (b : Block) : (Block.writeEncCfg w b).WCUR_V = b.WCUR_V := rfl
@[simp] theorem Block.writeEncCfg_LINK_CLOSED (w : Word) (b : Block) : (Block.writeEncCfg w b).LINK_CLOSED = b.LINK_CLOSED := rfl
@[simp] theorem Block.writeEncCfg_FAIL_REASON (w : Word) (b : Block) : (Block.writeEncCfg w b).FAIL_REASON = b.FAIL_REASON := rfl
@[simp] theorem Block.writeEncCfg_FAIL_KIND (w : Word) (b : Block) : (Block.writeEncCfg w b).FAIL_KIND = b.FAIL_KIND := rfl
@[simp] theorem Block.writeEncCfg_FAIL_IDX (w : Word) (b : Block) : (Block.writeEncCfg w b).FAIL_IDX = b.FAIL_IDX := rfl
@[simp] theorem Block.writeEncCfg_FAIL_ADDR (w : Word) (b : Block) : (Block.writeEncCfg w b).FAIL_ADDR = b.FAIL_ADDR := rfl
@[simp] theorem Block.writeEncCfg_FAIL_OFF (w : Word) (b : Block) : (Block.writeEncCfg w b).FAIL_OFF = b.FAIL_OFF := rfl
@[simp] theorem Block.writeEncCfg_FAIL_EXP (w : Word) (b : Block) : (Block.writeEncCfg w b).FAIL_EXP = b.FAIL_EXP := rfl
@[simp] theorem Block.writeEncCfg_FAIL_ACT (w : Word) (b : Block) : (Block.writeEncCfg w b).FAIL_ACT = b.FAIL_ACT := rfl
@[simp] theorem Block.writeEncCfg_SIG_READ (w : Word) (b : Block) : (Block.writeEncCfg w b).SIG_READ = b.SIG_READ := rfl
@[simp] theorem Block.writeEncCfg_REPORTS (w : Word) (b : Block) : (Block.writeEncCfg w b).REPORTS = b.REPORTS := rfl
@[simp] theorem Block.writeEncCfg_LAST_KIND (w : Word) (b : Block) : (Block.writeEncCfg w b).LAST_KIND = b.LAST_KIND := rfl
@[simp] theorem Block.writeEncCfg_LAST_RES (w : Word) (b : Block) : (Block.writeEncCfg w b).LAST_RES = b.LAST_RES := rfl
@[simp] theorem Block.writeEncCfg_LAST_IDX (w : Word) (b : Block) : (Block.writeEncCfg w b).LAST_IDX = b.LAST_IDX := rfl
@[simp] theorem Block.writeEncCfg_IRQ_STAT (w : Word) (b : Block) : (Block.writeEncCfg w b).IRQ_STAT = b.IRQ_STAT := rfl
@[simp] theorem Block.writeEncCfg_IRQ_EN (w : Word) (b : Block) : (Block.writeEncCfg w b).IRQ_EN = b.IRQ_EN := rfl
@[simp] theorem Block.writeEncCfg_CMD_ERRC (w : Word) (b : Block) : (Block.writeEncCfg w b).CMD_ERRC = b.CMD_ERRC := rfl
@[simp] theorem Block.writeEncCfg_CMD_ERRS (w : Word) (b : Block) : (Block.writeEncCfg w b).CMD_ERRS = b.CMD_ERRS := rfl

/-! `Block.writeSesCfg` -/

@[simp] theorem Block.writeSesCfg_ACC (w : Word) (b : Block) : (Block.writeSesCfg w b).ACC = b.ACC := rfl
@[simp] theorem Block.writeSesCfg_IMG (w : Word) (b : Block) : (Block.writeSesCfg w b).IMG = b.IMG := rfl
@[simp] theorem Block.writeSesCfg_PARAM (w : Word) (b : Block) : (Block.writeSesCfg w b).PARAM = b.PARAM := rfl
@[simp] theorem Block.writeSesCfg_IMG_BASE (w : Word) (b : Block) : (Block.writeSesCfg w b).IMG_BASE = b.IMG_BASE := rfl
@[simp] theorem Block.writeSesCfg_IMG_LEN (w : Word) (b : Block) : (Block.writeSesCfg w b).IMG_LEN = b.IMG_LEN := rfl
@[simp] theorem Block.writeSesCfg_LINE_LEN (w : Word) (b : Block) : (Block.writeSesCfg w b).LINE_LEN = b.LINE_LEN := rfl
@[simp] theorem Block.writeSesCfg_PAGE_LOG2 (w : Word) (b : Block) : (Block.writeSesCfg w b).PAGE_LOG2 = b.PAGE_LOG2 := rfl
@[simp] theorem Block.writeSesCfg_PAGE_EN (w : Word) (b : Block) : (Block.writeSesCfg w b).PAGE_EN = b.PAGE_EN := rfl
@[simp] theorem Block.writeSesCfg_OMIT_NULL (w : Word) (b : Block) : (Block.writeSesCfg w b).OMIT_NULL = b.OMIT_NULL := rfl
@[simp] theorem Block.writeSesCfg_ENC_ST (w : Word) (b : Block) : (Block.writeSesCfg w b).ENC_ST = b.ENC_ST := rfl
@[simp] theorem Block.writeSesCfg_ENC_ERRC (w : Word) (b : Block) : (Block.writeSesCfg w b).ENC_ERRC = b.ENC_ERRC := rfl
@[simp] theorem Block.writeSesCfg_ENC_NREC (w : Word) (b : Block) : (Block.writeSesCfg w b).ENC_NREC = b.ENC_NREC := rfl
@[simp] theorem Block.writeSesCfg_OUTQ (w : Word) (b : Block) : (Block.writeSesCfg w b).OUTQ = b.OUTQ := rfl
@[simp] theorem Block.writeSesCfg_MEMKIND (w : Word) (b : Block) : (Block.writeSesCfg w b).MEMKIND = (if w.getLsbD 0 then .eeprom else .flash) := rfl
@[simp] theorem Block.writeSesCfg_VERIFY (w : Word) (b : Block) : (Block.writeSesCfg w b).VERIFY = w.getLsbD 1 := rfl
@[simp] theorem Block.writeSesCfg_SIGCHK (w : Word) (b : Block) : (Block.writeSesCfg w b).SIGCHK = w.getLsbD 2 := rfl
@[simp] theorem Block.writeSesCfg_SIG_LEN (w : Word) (b : Block) : (Block.writeSesCfg w b).SIG_LEN = w.extractLsb' 3 3 := rfl
@[simp] theorem Block.writeSesCfg_DEV_PAGE (w : Word) (b : Block) : (Block.writeSesCfg w b).DEV_PAGE = w.extractLsb' 16 16 := rfl
@[simp] theorem Block.writeSesCfg_SES_TIMEOUT (w : Word) (b : Block) : (Block.writeSesCfg w b).SES_TIMEOUT = b.SES_TIMEOUT := rfl
@[simp] theorem Block.writeSesCfg_SIG_EXPECT (w : Word) (b : Block) : (Block.writeSesCfg w b).SIG_EXPECT = b.SIG_EXPECT := rfl
@[simp] theorem Block.writeSesCfg_PARAM_LEN (w : Word) (b : Block) : (Block.writeSesCfg w b).PARAM_LEN = b.PARAM_LEN := rfl
@[simp] theorem Block.writeSesCfg_SES_ST (w : Word) (b : Block) : (Block.writeSesCfg w b).SES_ST = b.SES_ST := rfl
@[simp] theorem Block.writeSesCfg_INFLIGHT (w : Word) (b : Block) : (Block.writeSesCfg w b).INFLIGHT = b.INFLIGHT := rfl
@[simp] theorem Block.writeSesCfg_Q (w : Word) (b : Block) : (Block.writeSesCfg w b).Q = b.Q := rfl
@[simp] theorem Block.writeSesCfg_SEQ_IDX (w : Word) (b : Block) : (Block.writeSesCfg w b).SEQ_IDX = b.SEQ_IDX := rfl
@[simp] theorem Block.writeSesCfg_SEQ_LEN (w : Word) (b : Block) : (Block.writeSesCfg w b).SEQ_LEN = b.SEQ_LEN := rfl
@[simp] theorem Block.writeSesCfg_RB (w : Word) (b : Block) : (Block.writeSesCfg w b).RB = b.RB := rfl
@[simp] theorem Block.writeSesCfg_TMR (w : Word) (b : Block) : (Block.writeSesCfg w b).TMR = b.TMR := rfl
@[simp] theorem Block.writeSesCfg_WCUR (w : Word) (b : Block) : (Block.writeSesCfg w b).WCUR = b.WCUR := rfl
@[simp] theorem Block.writeSesCfg_WCUR_V (w : Word) (b : Block) : (Block.writeSesCfg w b).WCUR_V = b.WCUR_V := rfl
@[simp] theorem Block.writeSesCfg_LINK_CLOSED (w : Word) (b : Block) : (Block.writeSesCfg w b).LINK_CLOSED = b.LINK_CLOSED := rfl
@[simp] theorem Block.writeSesCfg_FAIL_REASON (w : Word) (b : Block) : (Block.writeSesCfg w b).FAIL_REASON = b.FAIL_REASON := rfl
@[simp] theorem Block.writeSesCfg_FAIL_KIND (w : Word) (b : Block) : (Block.writeSesCfg w b).FAIL_KIND = b.FAIL_KIND := rfl
@[simp] theorem Block.writeSesCfg_FAIL_IDX (w : Word) (b : Block) : (Block.writeSesCfg w b).FAIL_IDX = b.FAIL_IDX := rfl
@[simp] theorem Block.writeSesCfg_FAIL_ADDR (w : Word) (b : Block) : (Block.writeSesCfg w b).FAIL_ADDR = b.FAIL_ADDR := rfl
@[simp] theorem Block.writeSesCfg_FAIL_OFF (w : Word) (b : Block) : (Block.writeSesCfg w b).FAIL_OFF = b.FAIL_OFF := rfl
@[simp] theorem Block.writeSesCfg_FAIL_EXP (w : Word) (b : Block) : (Block.writeSesCfg w b).FAIL_EXP = b.FAIL_EXP := rfl
@[simp] theorem Block.writeSesCfg_FAIL_ACT (w : Word) (b : Block) : (Block.writeSesCfg w b).FAIL_ACT = b.FAIL_ACT := rfl
@[simp] theorem Block.writeSesCfg_SIG_READ (w : Word) (b : Block) : (Block.writeSesCfg w b).SIG_READ = b.SIG_READ := rfl
@[simp] theorem Block.writeSesCfg_REPORTS (w : Word) (b : Block) : (Block.writeSesCfg w b).REPORTS = b.REPORTS := rfl
@[simp] theorem Block.writeSesCfg_LAST_KIND (w : Word) (b : Block) : (Block.writeSesCfg w b).LAST_KIND = b.LAST_KIND := rfl
@[simp] theorem Block.writeSesCfg_LAST_RES (w : Word) (b : Block) : (Block.writeSesCfg w b).LAST_RES = b.LAST_RES := rfl
@[simp] theorem Block.writeSesCfg_LAST_IDX (w : Word) (b : Block) : (Block.writeSesCfg w b).LAST_IDX = b.LAST_IDX := rfl
@[simp] theorem Block.writeSesCfg_IRQ_STAT (w : Word) (b : Block) : (Block.writeSesCfg w b).IRQ_STAT = b.IRQ_STAT := rfl
@[simp] theorem Block.writeSesCfg_IRQ_EN (w : Word) (b : Block) : (Block.writeSesCfg w b).IRQ_EN = b.IRQ_EN := rfl
@[simp] theorem Block.writeSesCfg_CMD_ERRC (w : Word) (b : Block) : (Block.writeSesCfg w b).CMD_ERRC = b.CMD_ERRC := rfl
@[simp] theorem Block.writeSesCfg_CMD_ERRS (w : Word) (b : Block) : (Block.writeSesCfg w b).CMD_ERRS = b.CMD_ERRS := rfl

/-! `Block.clearSession` -/

@[simp] theorem Block.clearSession_ACC (b : Block) : (Block.clearSession b).ACC = b.ACC := rfl
@[simp] theorem Block.clearSession_IMG (b : Block) : (Block.clearSession b).IMG = b.IMG := rfl
@[simp] theorem Block.clearSession_PARAM (b : Block) : (Block.clearSession b).PARAM = b.PARAM := rfl
@[simp] theorem Block.clearSession_IMG_BASE (b : Block) : (Block.clearSession b).IMG_BASE = b.IMG_BASE := rfl
@[simp] theorem Block.clearSession_IMG_LEN (b : Block) : (Block.clearSession b).IMG_LEN = b.IMG_LEN := rfl
@[simp] theorem Block.clearSession_LINE_LEN (b : Block) : (Block.clearSession b).LINE_LEN = b.LINE_LEN := rfl
@[simp] theorem Block.clearSession_PAGE_LOG2 (b : Block) : (Block.clearSession b).PAGE_LOG2 = b.PAGE_LOG2 := rfl
@[simp] theorem Block.clearSession_PAGE_EN (b : Block) : (Block.clearSession b).PAGE_EN = b.PAGE_EN := rfl
@[simp] theorem Block.clearSession_OMIT_NULL (b : Block) : (Block.clearSession b).OMIT_NULL = b.OMIT_NULL := rfl
@[simp] theorem Block.clearSession_ENC_ST (b : Block) : (Block.clearSession b).ENC_ST = b.ENC_ST := rfl
@[simp] theorem Block.clearSession_ENC_ERRC (b : Block) : (Block.clearSession b).ENC_ERRC = b.ENC_ERRC := rfl
@[simp] theorem Block.clearSession_ENC_NREC (b : Block) : (Block.clearSession b).ENC_NREC = b.ENC_NREC := rfl
@[simp] theorem Block.clearSession_OUTQ (b : Block) : (Block.clearSession b).OUTQ = b.OUTQ := rfl
@[simp] theorem Block.clearSession_MEMKIND (b : Block) : (Block.clearSession b).MEMKIND = b.MEMKIND := rfl
@[simp] theorem Block.clearSession_VERIFY (b : Block) : (Block.clearSession b).VERIFY = b.VERIFY := rfl
@[simp] theorem Block.clearSession_SIGCHK (b : Block) : (Block.clearSession b).SIGCHK = b.SIGCHK := rfl
@[simp] theorem Block.clearSession_SIG_LEN (b : Block) : (Block.clearSession b).SIG_LEN = b.SIG_LEN := rfl
@[simp] theorem Block.clearSession_DEV_PAGE (b : Block) : (Block.clearSession b).DEV_PAGE = b.DEV_PAGE := rfl
@[simp] theorem Block.clearSession_SES_TIMEOUT (b : Block) : (Block.clearSession b).SES_TIMEOUT = b.SES_TIMEOUT := rfl
@[simp] theorem Block.clearSession_SIG_EXPECT (b : Block) : (Block.clearSession b).SIG_EXPECT = b.SIG_EXPECT := rfl
@[simp] theorem Block.clearSession_PARAM_LEN (b : Block) : (Block.clearSession b).PARAM_LEN = b.PARAM_LEN := rfl
@[simp] theorem Block.clearSession_SES_ST (b : Block) : (Block.clearSession b).SES_ST = .idle := rfl
@[simp] theorem Block.clearSession_INFLIGHT (b : Block) : (Block.clearSession b).INFLIGHT = b.INFLIGHT := rfl
@[simp] theorem Block.clearSession_Q (b : Block) : (Block.clearSession b).Q = [] := rfl
@[simp] theorem Block.clearSession_SEQ_IDX (b : Block) : (Block.clearSession b).SEQ_IDX = 0 := rfl
@[simp] theorem Block.clearSession_SEQ_LEN (b : Block) : (Block.clearSession b).SEQ_LEN = 0 := rfl
@[simp] theorem Block.clearSession_RB (b : Block) : (Block.clearSession b).RB = [] := rfl
@[simp] theorem Block.clearSession_TMR (b : Block) : (Block.clearSession b).TMR = 0 := rfl
@[simp] theorem Block.clearSession_WCUR (b : Block) : (Block.clearSession b).WCUR = 0 := rfl
@[simp] theorem Block.clearSession_WCUR_V (b : Block) : (Block.clearSession b).WCUR_V = false := rfl
@[simp] theorem Block.clearSession_LINK_CLOSED (b : Block) : (Block.clearSession b).LINK_CLOSED = false := rfl
@[simp] theorem Block.clearSession_FAIL_REASON (b : Block) : (Block.clearSession b).FAIL_REASON = .noFailure := rfl
@[simp] theorem Block.clearSession_FAIL_KIND (b : Block) : (Block.clearSession b).FAIL_KIND = none := rfl
@[simp] theorem Block.clearSession_FAIL_IDX (b : Block) : (Block.clearSession b).FAIL_IDX = 0 := rfl
@[simp] theorem Block.clearSession_FAIL_ADDR (b : Block) : (Block.clearSession b).FAIL_ADDR = 0 := rfl
@[simp] theorem Block.clearSession_FAIL_OFF (b : Block) : (Block.clearSession b).FAIL_OFF = 0 := rfl
@[simp] theorem Block.clearSession_FAIL_EXP (b : Block) : (Block.clearSession b).FAIL_EXP = 0 := rfl
@[simp] theorem Block.clearSession_FAIL_ACT (b : Block) : (Block.clearSession b).FAIL_ACT = 0 := rfl
@[simp] theorem Block.clearSession_SIG_READ (b : Block) : (Block.clearSession b).SIG_READ = 0 := rfl
@[simp] theorem Block.clearSession_REPORTS (b : Block) : (Block.clearSession b).REPORTS = 0 := rfl
@[simp] theorem Block.clearSession_LAST_KIND (b : Block) : (Block.clearSession b).LAST_KIND = none := rfl
@[simp] theorem Block.clearSession_LAST_RES (b : Block) : (Block.clearSession b).LAST_RES = .noReport := rfl
@[simp] theorem Block.clearSession_LAST_IDX (b : Block) : (Block.clearSession b).LAST_IDX = 0 := rfl
@[simp] theorem Block.clearSession_IRQ_STAT (b : Block) : (Block.clearSession b).IRQ_STAT = b.IRQ_STAT := rfl
@[simp] theorem Block.clearSession_IRQ_EN (b : Block) : (Block.clearSession b).IRQ_EN = b.IRQ_EN := rfl
@[simp] theorem Block.clearSession_CMD_ERRC (b : Block) : (Block.clearSession b).CMD_ERRC = b.CMD_ERRC := rfl
@[simp] theorem Block.clearSession_CMD_ERRS (b : Block) : (Block.clearSession b).CMD_ERRS = b.CMD_ERRS := rfl

/-! `Block.softReset` -/

@[simp] theorem Block.softReset_ACC (b : Block) : (Block.softReset b).ACC = 0 := rfl
@[simp] theorem Block.softReset_IMG (b : Block) : (Block.softReset b).IMG = b.IMG := rfl
@[simp] theorem Block.softReset_PARAM (b : Block) : (Block.softReset b).PARAM = b.PARAM := rfl
@[simp] theorem Block.softReset_IMG_BASE (b : Block) : (Block.softReset b).IMG_BASE = 0 := rfl
@[simp] theorem Block.softReset_IMG_LEN (b : Block) : (Block.softReset b).IMG_LEN = 0 := rfl
@[simp] theorem Block.softReset_LINE_LEN (b : Block) : (Block.softReset b).LINE_LEN = 0 := rfl
@[simp] theorem Block.softReset_PAGE_LOG2 (b : Block) : (Block.softReset b).PAGE_LOG2 = 0 := rfl
@[simp] theorem Block.softReset_PAGE_EN (b : Block) : (Block.softReset b).PAGE_EN = false := rfl
@[simp] theorem Block.softReset_OMIT_NULL (b : Block) : (Block.softReset b).OMIT_NULL = false := rfl
@[simp] theorem Block.softReset_ENC_ST (b : Block) : (Block.softReset b).ENC_ST = .idle := rfl
@[simp] theorem Block.softReset_ENC_ERRC (b : Block) : (Block.softReset b).ENC_ERRC = .noError := rfl
@[simp] theorem Block.softReset_ENC_NREC (b : Block) : (Block.softReset b).ENC_NREC = 0 := rfl
@[simp] theorem Block.softReset_OUTQ (b : Block) : (Block.softReset b).OUTQ = [] := rfl
@[simp] theorem Block.softReset_MEMKIND (b : Block) : (Block.softReset b).MEMKIND = .flash := rfl
@[simp] theorem Block.softReset_VERIFY (b : Block) : (Block.softReset b).VERIFY = false := rfl
@[simp] theorem Block.softReset_SIGCHK (b : Block) : (Block.softReset b).SIGCHK = false := rfl
@[simp] theorem Block.softReset_SIG_LEN (b : Block) : (Block.softReset b).SIG_LEN = 0 := rfl
@[simp] theorem Block.softReset_DEV_PAGE (b : Block) : (Block.softReset b).DEV_PAGE = 0 := rfl
@[simp] theorem Block.softReset_SES_TIMEOUT (b : Block) : (Block.softReset b).SES_TIMEOUT = 0 := rfl
@[simp] theorem Block.softReset_SIG_EXPECT (b : Block) : (Block.softReset b).SIG_EXPECT = 0 := rfl
@[simp] theorem Block.softReset_PARAM_LEN (b : Block) : (Block.softReset b).PARAM_LEN = 0 := rfl
@[simp] theorem Block.softReset_SES_ST (b : Block) : (Block.softReset b).SES_ST = .idle := rfl
@[simp] theorem Block.softReset_INFLIGHT (b : Block) : (Block.softReset b).INFLIGHT = none := rfl
@[simp] theorem Block.softReset_Q (b : Block) : (Block.softReset b).Q = [] := rfl
@[simp] theorem Block.softReset_SEQ_IDX (b : Block) : (Block.softReset b).SEQ_IDX = 0 := rfl
@[simp] theorem Block.softReset_SEQ_LEN (b : Block) : (Block.softReset b).SEQ_LEN = 0 := rfl
@[simp] theorem Block.softReset_RB (b : Block) : (Block.softReset b).RB = [] := rfl
@[simp] theorem Block.softReset_TMR (b : Block) : (Block.softReset b).TMR = 0 := rfl
@[simp] theorem Block.softReset_WCUR (b : Block) : (Block.softReset b).WCUR = 0 := rfl
@[simp] theorem Block.softReset_WCUR_V (b : Block) : (Block.softReset b).WCUR_V = false := rfl
@[simp] theorem Block.softReset_LINK_CLOSED (b : Block) : (Block.softReset b).LINK_CLOSED = false := rfl
@[simp] theorem Block.softReset_FAIL_REASON (b : Block) : (Block.softReset b).FAIL_REASON = .noFailure := rfl
@[simp] theorem Block.softReset_FAIL_KIND (b : Block) : (Block.softReset b).FAIL_KIND = none := rfl
@[simp] theorem Block.softReset_FAIL_IDX (b : Block) : (Block.softReset b).FAIL_IDX = 0 := rfl
@[simp] theorem Block.softReset_FAIL_ADDR (b : Block) : (Block.softReset b).FAIL_ADDR = 0 := rfl
@[simp] theorem Block.softReset_FAIL_OFF (b : Block) : (Block.softReset b).FAIL_OFF = 0 := rfl
@[simp] theorem Block.softReset_FAIL_EXP (b : Block) : (Block.softReset b).FAIL_EXP = 0 := rfl
@[simp] theorem Block.softReset_FAIL_ACT (b : Block) : (Block.softReset b).FAIL_ACT = 0 := rfl
@[simp] theorem Block.softReset_SIG_READ (b : Block) : (Block.softReset b).SIG_READ = 0 := rfl
@[simp] theorem Block.softReset_REPORTS (b : Block) : (Block.softReset b).REPORTS = 0 := rfl
@[simp] theorem Block.softReset_LAST_KIND (b : Block) : (Block.softReset b).LAST_KIND = none := rfl
@[simp] theorem Block.softReset_LAST_RES (b : Block) : (Block.softReset b).LAST_RES = .noReport := rfl
@[simp] theorem Block.softReset_LAST_IDX (b : Block) : (Block.softReset b).LAST_IDX = 0 := rfl
@[simp] theorem Block.softReset_IRQ_STAT (b : Block) : (Block.softReset b).IRQ_STAT = 0 := rfl
@[simp] theorem Block.softReset_IRQ_EN (b : Block) : (Block.softReset b).IRQ_EN = 0 := rfl
@[simp] theorem Block.softReset_CMD_ERRC (b : Block) : (Block.softReset b).CMD_ERRC = .noError := rfl
@[simp] theorem Block.softReset_CMD_ERRS (b : Block) : (Block.softReset b).CMD_ERRS = .noSub := rfl

/-! `Block.clearAcc` -/

@[simp] theorem Block.clearAcc_ACC (b : Block) : (Block.clearAcc b).ACC = 0 := rfl
@[simp] theorem Block.clearAcc_IMG (b : Block) : (Block.clearAcc b).IMG = b.IMG := rfl
@[simp] theorem Block.clearAcc_PARAM (b : Block) : (Block.clearAcc b).PARAM = b.PARAM := rfl
@[simp] theorem Block.clearAcc_IMG_BASE (b : Block) : (Block.clearAcc b).IMG_BASE = b.IMG_BASE := rfl
@[simp] theorem Block.clearAcc_IMG_LEN (b : Block) : (Block.clearAcc b).IMG_LEN = b.IMG_LEN := rfl
@[simp] theorem Block.clearAcc_LINE_LEN (b : Block) : (Block.clearAcc b).LINE_LEN = b.LINE_LEN := rfl
@[simp] theorem Block.clearAcc_PAGE_LOG2 (b : Block) : (Block.clearAcc b).PAGE_LOG2 = b.PAGE_LOG2 := rfl
@[simp] theorem Block.clearAcc_PAGE_EN (b : Block) : (Block.clearAcc b).PAGE_EN = b.PAGE_EN := rfl
@[simp] theorem Block.clearAcc_OMIT_NULL (b : Block) : (Block.clearAcc b).OMIT_NULL = b.OMIT_NULL := rfl
@[simp] theorem Block.clearAcc_ENC_ST (b : Block) : (Block.clearAcc b).ENC_ST = b.ENC_ST := rfl
@[simp] theorem Block.clearAcc_ENC_ERRC (b : Block) : (Block.clearAcc b).ENC_ERRC = b.ENC_ERRC := rfl
@[simp] theorem Block.clearAcc_ENC_NREC (b : Block) : (Block.clearAcc b).ENC_NREC = b.ENC_NREC := rfl
@[simp] theorem Block.clearAcc_OUTQ (b : Block) : (Block.clearAcc b).OUTQ = b.OUTQ := rfl
@[simp] theorem Block.clearAcc_MEMKIND (b : Block) : (Block.clearAcc b).MEMKIND = b.MEMKIND := rfl
@[simp] theorem Block.clearAcc_VERIFY (b : Block) : (Block.clearAcc b).VERIFY = b.VERIFY := rfl
@[simp] theorem Block.clearAcc_SIGCHK (b : Block) : (Block.clearAcc b).SIGCHK = b.SIGCHK := rfl
@[simp] theorem Block.clearAcc_SIG_LEN (b : Block) : (Block.clearAcc b).SIG_LEN = b.SIG_LEN := rfl
@[simp] theorem Block.clearAcc_DEV_PAGE (b : Block) : (Block.clearAcc b).DEV_PAGE = b.DEV_PAGE := rfl
@[simp] theorem Block.clearAcc_SES_TIMEOUT (b : Block) : (Block.clearAcc b).SES_TIMEOUT = b.SES_TIMEOUT := rfl
@[simp] theorem Block.clearAcc_SIG_EXPECT (b : Block) : (Block.clearAcc b).SIG_EXPECT = b.SIG_EXPECT := rfl
@[simp] theorem Block.clearAcc_PARAM_LEN (b : Block) : (Block.clearAcc b).PARAM_LEN = b.PARAM_LEN := rfl
@[simp] theorem Block.clearAcc_SES_ST (b : Block) : (Block.clearAcc b).SES_ST = b.SES_ST := rfl
@[simp] theorem Block.clearAcc_INFLIGHT (b : Block) : (Block.clearAcc b).INFLIGHT = b.INFLIGHT := rfl
@[simp] theorem Block.clearAcc_Q (b : Block) : (Block.clearAcc b).Q = b.Q := rfl
@[simp] theorem Block.clearAcc_SEQ_IDX (b : Block) : (Block.clearAcc b).SEQ_IDX = b.SEQ_IDX := rfl
@[simp] theorem Block.clearAcc_SEQ_LEN (b : Block) : (Block.clearAcc b).SEQ_LEN = b.SEQ_LEN := rfl
@[simp] theorem Block.clearAcc_RB (b : Block) : (Block.clearAcc b).RB = b.RB := rfl
@[simp] theorem Block.clearAcc_TMR (b : Block) : (Block.clearAcc b).TMR = b.TMR := rfl
@[simp] theorem Block.clearAcc_WCUR (b : Block) : (Block.clearAcc b).WCUR = b.WCUR := rfl
@[simp] theorem Block.clearAcc_WCUR_V (b : Block) : (Block.clearAcc b).WCUR_V = b.WCUR_V := rfl
@[simp] theorem Block.clearAcc_LINK_CLOSED (b : Block) : (Block.clearAcc b).LINK_CLOSED = b.LINK_CLOSED := rfl
@[simp] theorem Block.clearAcc_FAIL_REASON (b : Block) : (Block.clearAcc b).FAIL_REASON = b.FAIL_REASON := rfl
@[simp] theorem Block.clearAcc_FAIL_KIND (b : Block) : (Block.clearAcc b).FAIL_KIND = b.FAIL_KIND := rfl
@[simp] theorem Block.clearAcc_FAIL_IDX (b : Block) : (Block.clearAcc b).FAIL_IDX = b.FAIL_IDX := rfl
@[simp] theorem Block.clearAcc_FAIL_ADDR (b : Block) : (Block.clearAcc b).FAIL_ADDR = b.FAIL_ADDR := rfl
@[simp] theorem Block.clearAcc_FAIL_OFF (b : Block) : (Block.clearAcc b).FAIL_OFF = b.FAIL_OFF := rfl
@[simp] theorem Block.clearAcc_FAIL_EXP (b : Block) : (Block.clearAcc b).FAIL_EXP = b.FAIL_EXP := rfl
@[simp] theorem Block.clearAcc_FAIL_ACT (b : Block) : (Block.clearAcc b).FAIL_ACT = b.FAIL_ACT := rfl
@[simp] theorem Block.clearAcc_SIG_READ (b : Block) : (Block.clearAcc b).SIG_READ = b.SIG_READ := rfl
@[simp] theorem Block.clearAcc_REPORTS (b : Block) : (Block.clearAcc b).REPORTS = b.REPORTS := rfl
@[simp] theorem Block.clearAcc_LAST_KIND (b : Block) : (Block.clearAcc b).LAST_KIND = b.LAST_KIND := rfl
@[simp] theorem Block.clearAcc_LAST_RES (b : Block) : (Block.clearAcc b).LAST_RES = b.LAST_RES := rfl
@[simp] theorem Block.clearAcc_LAST_IDX (b : Block) : (Block.clearAcc b).LAST_IDX = b.LAST_IDX := rfl
@[simp] theorem Block.clearAcc_IRQ_STAT (b : Block) : (Block.clearAcc b).IRQ_STAT = b.IRQ_STAT := rfl
@[simp] theorem Block.clearAcc_IRQ_EN (b : Block) : (Block.clearAcc b).IRQ_EN = b.IRQ_EN := rfl
@[simp] theorem Block.clearAcc_CMD_ERRC (b : Block) : (Block.clearAcc b).CMD_ERRC = b.CMD_ERRC := rfl
@[simp] theorem Block.clearAcc_CMD_ERRS (b : Block) : (Block.clearAcc b).CMD_ERRS = b.CMD_ERRS := rfl

/-! `Block.addAcc` -/

@[simp] theorem Block.addAcc_ACC (x : Byte) (b : Block) : (Block.addAcc x b).ACC = ckAccumulate b.ACC x := rfl
@[simp] theorem Block.addAcc_IMG (x : Byte) (b : Block) : (Block.addAcc x b).IMG = b.IMG := rfl
@[simp] theorem Block.addAcc_PARAM (x : Byte) (b : Block) : (Block.addAcc x b).PARAM = b.PARAM := rfl
@[simp] theorem Block.addAcc_IMG_BASE (x : Byte) (b : Block) : (Block.addAcc x b).IMG_BASE = b.IMG_BASE := rfl
@[simp] theorem Block.addAcc_IMG_LEN (x : Byte) (b : Block) : (Block.addAcc x b).IMG_LEN = b.IMG_LEN := rfl
@[simp] theorem Block.addAcc_LINE_LEN (x : Byte) (b : Block) : (Block.addAcc x b).LINE_LEN = b.LINE_LEN := rfl
@[simp] theorem Block.addAcc_PAGE_LOG2 (x : Byte) (b : Block) : (Block.addAcc x b).PAGE_LOG2 = b.PAGE_LOG2 := rfl
@[simp] theorem Block.addAcc_PAGE_EN (x : Byte) (b : Block) : (Block.addAcc x b).PAGE_EN = b.PAGE_EN := rfl
@[simp] theorem Block.addAcc_OMIT_NULL (x : Byte) (b : Block) : (Block.addAcc x b).OMIT_NULL = b.OMIT_NULL := rfl
@[simp] theorem Block.addAcc_ENC_ST (x : Byte) (b : Block) : (Block.addAcc x b).ENC_ST = b.ENC_ST := rfl
@[simp] theorem Block.addAcc_ENC_ERRC (x : Byte) (b : Block) : (Block.addAcc x b).ENC_ERRC = b.ENC_ERRC := rfl
@[simp] theorem Block.addAcc_ENC_NREC (x : Byte) (b : Block) : (Block.addAcc x b).ENC_NREC = b.ENC_NREC := rfl
@[simp] theorem Block.addAcc_OUTQ (x : Byte) (b : Block) : (Block.addAcc x b).OUTQ = b.OUTQ := rfl
@[simp] theorem Block.addAcc_MEMKIND (x : Byte) (b : Block) : (Block.addAcc x b).MEMKIND = b.MEMKIND := rfl
@[simp] theorem Block.addAcc_VERIFY (x : Byte) (b : Block) : (Block.addAcc x b).VERIFY = b.VERIFY := rfl
@[simp] theorem Block.addAcc_SIGCHK (x : Byte) (b : Block) : (Block.addAcc x b).SIGCHK = b.SIGCHK := rfl
@[simp] theorem Block.addAcc_SIG_LEN (x : Byte) (b : Block) : (Block.addAcc x b).SIG_LEN = b.SIG_LEN := rfl
@[simp] theorem Block.addAcc_DEV_PAGE (x : Byte) (b : Block) : (Block.addAcc x b).DEV_PAGE = b.DEV_PAGE := rfl
@[simp] theorem Block.addAcc_SES_TIMEOUT (x : Byte) (b : Block) : (Block.addAcc x b).SES_TIMEOUT = b.SES_TIMEOUT := rfl
@[simp] theorem Block.addAcc_SIG_EXPECT (x : Byte) (b : Block) : (Block.addAcc x b).SIG_EXPECT = b.SIG_EXPECT := rfl
@[simp] theorem Block.addAcc_PARAM_LEN (x : Byte) (b : Block) : (Block.addAcc x b).PARAM_LEN = b.PARAM_LEN := rfl
@[simp] theorem Block.addAcc_SES_ST (x : Byte) (b : Block) : (Block.addAcc x b).SES_ST = b.SES_ST := rfl
@[simp] theorem Block.addAcc_INFLIGHT (x : Byte) (b : Block) : (Block.addAcc x b).INFLIGHT = b.INFLIGHT := rfl
@[simp] theorem Block.addAcc_Q (x : Byte) (b : Block) : (Block.addAcc x b).Q = b.Q := rfl
@[simp] theorem Block.addAcc_SEQ_IDX (x : Byte) (b : Block) : (Block.addAcc x b).SEQ_IDX = b.SEQ_IDX := rfl
@[simp] theorem Block.addAcc_SEQ_LEN (x : Byte) (b : Block) : (Block.addAcc x b).SEQ_LEN = b.SEQ_LEN := rfl
@[simp] theorem Block.addAcc_RB (x : Byte) (b : Block) : (Block.addAcc x b).RB = b.RB := rfl
@[simp] theorem Block.addAcc_TMR (x : Byte) (b : Block) : (Block.addAcc x b).TMR = b.TMR := rfl
@[simp] theorem Block.addAcc_WCUR (x : Byte) (b : Block) : (Block.addAcc x b).WCUR = b.WCUR := rfl
@[simp] theorem Block.addAcc_WCUR_V (x : Byte) (b : Block) : (Block.addAcc x b).WCUR_V = b.WCUR_V := rfl
@[simp] theorem Block.addAcc_LINK_CLOSED (x : Byte) (b : Block) : (Block.addAcc x b).LINK_CLOSED = b.LINK_CLOSED := rfl
@[simp] theorem Block.addAcc_FAIL_REASON (x : Byte) (b : Block) : (Block.addAcc x b).FAIL_REASON = b.FAIL_REASON := rfl
@[simp] theorem Block.addAcc_FAIL_KIND (x : Byte) (b : Block) : (Block.addAcc x b).FAIL_KIND = b.FAIL_KIND := rfl
@[simp] theorem Block.addAcc_FAIL_IDX (x : Byte) (b : Block) : (Block.addAcc x b).FAIL_IDX = b.FAIL_IDX := rfl
@[simp] theorem Block.addAcc_FAIL_ADDR (x : Byte) (b : Block) : (Block.addAcc x b).FAIL_ADDR = b.FAIL_ADDR := rfl
@[simp] theorem Block.addAcc_FAIL_OFF (x : Byte) (b : Block) : (Block.addAcc x b).FAIL_OFF = b.FAIL_OFF := rfl
@[simp] theorem Block.addAcc_FAIL_EXP (x : Byte) (b : Block) : (Block.addAcc x b).FAIL_EXP = b.FAIL_EXP := rfl
@[simp] theorem Block.addAcc_FAIL_ACT (x : Byte) (b : Block) : (Block.addAcc x b).FAIL_ACT = b.FAIL_ACT := rfl
@[simp] theorem Block.addAcc_SIG_READ (x : Byte) (b : Block) : (Block.addAcc x b).SIG_READ = b.SIG_READ := rfl
@[simp] theorem Block.addAcc_REPORTS (x : Byte) (b : Block) : (Block.addAcc x b).REPORTS = b.REPORTS := rfl
@[simp] theorem Block.addAcc_LAST_KIND (x : Byte) (b : Block) : (Block.addAcc x b).LAST_KIND = b.LAST_KIND := rfl
@[simp] theorem Block.addAcc_LAST_RES (x : Byte) (b : Block) : (Block.addAcc x b).LAST_RES = b.LAST_RES := rfl
@[simp] theorem Block.addAcc_LAST_IDX (x : Byte) (b : Block) : (Block.addAcc x b).LAST_IDX = b.LAST_IDX := rfl
@[simp] theorem Block.addAcc_IRQ_STAT (x : Byte) (b : Block) : (Block.addAcc x b).IRQ_STAT = b.IRQ_STAT := rfl
@[simp] theorem Block.addAcc_IRQ_EN (x : Byte) (b : Block) : (Block.addAcc x b).IRQ_EN = b.IRQ_EN := rfl
@[simp] theorem Block.addAcc_CMD_ERRC (x : Byte) (b : Block) : (Block.addAcc x b).CMD_ERRC = b.CMD_ERRC := rfl
@[simp] theorem Block.addAcc_CMD_ERRS (x : Byte) (b : Block) : (Block.addAcc x b).CMD_ERRS = b.CMD_ERRS := rfl

/-! `Block.store` -/

@[simp] theorem Block.store_ACC (x : Byte) (b : Block) : (Block.store x b).ACC = b.ACC := rfl
@[simp] theorem Block.store_IMG (x : Byte) (b : Block) : (Block.store x b).IMG = b.IMG := rfl
@[simp] theorem Block.store_PARAM (x : Byte) (b : Block) : (Block.store x b).PARAM = b.PARAM := rfl
@[simp] theorem Block.store_IMG_BASE (x : Byte) (b : Block) : (Block.store x b).IMG_BASE = b.IMG_BASE := rfl
@[simp] theorem Block.store_IMG_LEN (x : Byte) (b : Block) : (Block.store x b).IMG_LEN = b.IMG_LEN := rfl
@[simp] theorem Block.store_LINE_LEN (x : Byte) (b : Block) : (Block.store x b).LINE_LEN = b.LINE_LEN := rfl
@[simp] theorem Block.store_PAGE_LOG2 (x : Byte) (b : Block) : (Block.store x b).PAGE_LOG2 = b.PAGE_LOG2 := rfl
@[simp] theorem Block.store_PAGE_EN (x : Byte) (b : Block) : (Block.store x b).PAGE_EN = b.PAGE_EN := rfl
@[simp] theorem Block.store_OMIT_NULL (x : Byte) (b : Block) : (Block.store x b).OMIT_NULL = b.OMIT_NULL := rfl
@[simp] theorem Block.store_ENC_ST (x : Byte) (b : Block) : (Block.store x b).ENC_ST = b.ENC_ST := rfl
@[simp] theorem Block.store_ENC_ERRC (x : Byte) (b : Block) : (Block.store x b).ENC_ERRC = b.ENC_ERRC := rfl
@[simp] theorem Block.store_ENC_NREC (x : Byte) (b : Block) : (Block.store x b).ENC_NREC = b.ENC_NREC := rfl
@[simp] theorem Block.store_OUTQ (x : Byte) (b : Block) : (Block.store x b).OUTQ = b.OUTQ := rfl
@[simp] theorem Block.store_MEMKIND (x : Byte) (b : Block) : (Block.store x b).MEMKIND = b.MEMKIND := rfl
@[simp] theorem Block.store_VERIFY (x : Byte) (b : Block) : (Block.store x b).VERIFY = b.VERIFY := rfl
@[simp] theorem Block.store_SIGCHK (x : Byte) (b : Block) : (Block.store x b).SIGCHK = b.SIGCHK := rfl
@[simp] theorem Block.store_SIG_LEN (x : Byte) (b : Block) : (Block.store x b).SIG_LEN = b.SIG_LEN := rfl
@[simp] theorem Block.store_DEV_PAGE (x : Byte) (b : Block) : (Block.store x b).DEV_PAGE = b.DEV_PAGE := rfl
@[simp] theorem Block.store_SES_TIMEOUT (x : Byte) (b : Block) : (Block.store x b).SES_TIMEOUT = b.SES_TIMEOUT := rfl
@[simp] theorem Block.store_SIG_EXPECT (x : Byte) (b : Block) : (Block.store x b).SIG_EXPECT = b.SIG_EXPECT := rfl
@[simp] theorem Block.store_PARAM_LEN (x : Byte) (b : Block) : (Block.store x b).PARAM_LEN = b.PARAM_LEN := rfl
@[simp] theorem Block.store_SES_ST (x : Byte) (b : Block) : (Block.store x b).SES_ST = b.SES_ST := rfl
@[simp] theorem Block.store_INFLIGHT (x : Byte) (b : Block) : (Block.store x b).INFLIGHT = b.INFLIGHT := rfl
@[simp] theorem Block.store_Q (x : Byte) (b : Block) : (Block.store x b).Q = b.Q := rfl
@[simp] theorem Block.store_SEQ_IDX (x : Byte) (b : Block) : (Block.store x b).SEQ_IDX = b.SEQ_IDX := rfl
@[simp] theorem Block.store_SEQ_LEN (x : Byte) (b : Block) : (Block.store x b).SEQ_LEN = b.SEQ_LEN := rfl
@[simp] theorem Block.store_RB (x : Byte) (b : Block) : (Block.store x b).RB = b.RB ++ [x] := rfl
@[simp] theorem Block.store_TMR (x : Byte) (b : Block) : (Block.store x b).TMR = b.TMR := rfl
@[simp] theorem Block.store_WCUR (x : Byte) (b : Block) : (Block.store x b).WCUR = b.WCUR := rfl
@[simp] theorem Block.store_WCUR_V (x : Byte) (b : Block) : (Block.store x b).WCUR_V = b.WCUR_V := rfl
@[simp] theorem Block.store_LINK_CLOSED (x : Byte) (b : Block) : (Block.store x b).LINK_CLOSED = b.LINK_CLOSED := rfl
@[simp] theorem Block.store_FAIL_REASON (x : Byte) (b : Block) : (Block.store x b).FAIL_REASON = b.FAIL_REASON := rfl
@[simp] theorem Block.store_FAIL_KIND (x : Byte) (b : Block) : (Block.store x b).FAIL_KIND = b.FAIL_KIND := rfl
@[simp] theorem Block.store_FAIL_IDX (x : Byte) (b : Block) : (Block.store x b).FAIL_IDX = b.FAIL_IDX := rfl
@[simp] theorem Block.store_FAIL_ADDR (x : Byte) (b : Block) : (Block.store x b).FAIL_ADDR = b.FAIL_ADDR := rfl
@[simp] theorem Block.store_FAIL_OFF (x : Byte) (b : Block) : (Block.store x b).FAIL_OFF = b.FAIL_OFF := rfl
@[simp] theorem Block.store_FAIL_EXP (x : Byte) (b : Block) : (Block.store x b).FAIL_EXP = b.FAIL_EXP := rfl
@[simp] theorem Block.store_FAIL_ACT (x : Byte) (b : Block) : (Block.store x b).FAIL_ACT = b.FAIL_ACT := rfl
@[simp] theorem Block.store_SIG_READ (x : Byte) (b : Block) : (Block.store x b).SIG_READ = b.SIG_READ := rfl
@[simp] theorem Block.store_REPORTS (x : Byte) (b : Block) : (Block.store x b).REPORTS = b.REPORTS := rfl
@[simp] theorem Block.store_LAST_KIND (x : Byte) (b : Block) : (Block.store x b).LAST_KIND = b.LAST_KIND := rfl
@[simp] theorem Block.store_LAST_RES (x : Byte) (b : Block) : (Block.store x b).LAST_RES = b.LAST_RES := rfl
@[simp] theorem Block.store_LAST_IDX (x : Byte) (b : Block) : (Block.store x b).LAST_IDX = b.LAST_IDX := rfl
@[simp] theorem Block.store_IRQ_STAT (x : Byte) (b : Block) : (Block.store x b).IRQ_STAT = b.IRQ_STAT := rfl
@[simp] theorem Block.store_IRQ_EN (x : Byte) (b : Block) : (Block.store x b).IRQ_EN = b.IRQ_EN := rfl
@[simp] theorem Block.store_CMD_ERRC (x : Byte) (b : Block) : (Block.store x b).CMD_ERRC = b.CMD_ERRC := rfl
@[simp] theorem Block.store_CMD_ERRS (x : Byte) (b : Block) : (Block.store x b).CMD_ERRS = b.CMD_ERRS := rfl

/-! `Block.writeImg` -/

@[simp] theorem Block.writeImg_ACC (i : Nat) (x : Byte) (b : Block) : (Block.writeImg i x b).ACC = b.ACC := rfl
@[simp] theorem Block.writeImg_IMG (i : Nat) (x : Byte) (b : Block) : (Block.writeImg i x b).IMG = Memory.write b.IMG i x := rfl
@[simp] theorem Block.writeImg_PARAM (i : Nat) (x : Byte) (b : Block) : (Block.writeImg i x b).PARAM = b.PARAM := rfl
@[simp] theorem Block.writeImg_IMG_BASE (i : Nat) (x : Byte) (b : Block) : (Block.writeImg i x b).IMG_BASE = b.IMG_BASE := rfl
@[simp] theorem Block.writeImg_IMG_LEN (i : Nat) (x : Byte) (b : Block) : (Block.writeImg i x b).IMG_LEN = b.IMG_LEN := rfl
@[simp] theorem Block.writeImg_LINE_LEN (i : Nat) (x : Byte) (b : Block) : (Block.writeImg i x b).LINE_LEN = b.LINE_LEN := rfl
@[simp] theorem Block.writeImg_PAGE_LOG2 (i : Nat) (x : Byte) (b : Block) : (Block.writeImg i x b).PAGE_LOG2 = b.PAGE_LOG2 := rfl
@[simp] theorem Block.writeImg_PAGE_EN (i : Nat) (x : Byte) (b : Block) : (Block.writeImg i x b).PAGE_EN = b.PAGE_EN := rfl
@[simp] theorem Block.writeImg_OMIT_NULL (i : Nat) (x : Byte) (b : Block) : (Block.writeImg i x b).OMIT_NULL = b.OMIT_NULL := rfl
@[simp] theorem Block.writeImg_ENC_ST (i : Nat) (x : Byte) (b : Block) : (Block.writeImg i x b).ENC_ST = b.ENC_ST := rfl
@[simp] theorem Block.writeImg_ENC_ERRC (i : Nat) (x : Byte) (b : Block) : (Block.writeImg i x b).ENC_ERRC = b.ENC_ERRC := rfl
@[simp] theorem Block.writeImg_ENC_NREC (i : Nat) (x : Byte) (b : Block) : (Block.writeImg i x b).ENC_NREC = b.ENC_NREC := rfl
@[simp] theorem Block.writeImg_OUTQ (i : Nat) (x : Byte) (b : Block) : (Block.writeImg i x b).OUTQ = b.OUTQ := rfl
@[simp] theorem Block.writeImg_MEMKIND (i : Nat) (x : Byte) (b : Block) : (Block.writeImg i x b).MEMKIND = b.MEMKIND := rfl
@[simp] theorem Block.writeImg_VERIFY (i : Nat) (x : Byte) (b : Block) : (Block.writeImg i x b).VERIFY = b.VERIFY := rfl
@[simp] theorem Block.writeImg_SIGCHK (i : Nat) (x : Byte) (b : Block) : (Block.writeImg i x b).SIGCHK = b.SIGCHK := rfl
@[simp] theorem Block.writeImg_SIG_LEN (i : Nat) (x : Byte) (b : Block) : (Block.writeImg i x b).SIG_LEN = b.SIG_LEN := rfl
@[simp] theorem Block.writeImg_DEV_PAGE (i : Nat) (x : Byte) (b : Block) : (Block.writeImg i x b).DEV_PAGE = b.DEV_PAGE := rfl
@[simp] theorem Block.writeImg_SES_TIMEOUT (i : Nat) (x : Byte) (b : Block) : (Block.writeImg i x b).SES_TIMEOUT = b.SES_TIMEOUT := rfl
@[simp] theorem Block.writeImg_SIG_EXPECT (i : Nat) (x : Byte) (b : Block) : (Block.writeImg i x b).SIG_EXPECT = b.SIG_EXPECT := rfl
@[simp] theorem Block.writeImg_PARAM_LEN (i : Nat) (x : Byte) (b : Block) : (Block.writeImg i x b).PARAM_LEN = b.PARAM_LEN := rfl
@[simp] theorem Block.writeImg_SES_ST (i : Nat) (x : Byte) (b : Block) : (Block.writeImg i x b).SES_ST = b.SES_ST := rfl
@[simp] theorem Block.writeImg_INFLIGHT (i : Nat) (x : Byte) (b : Block) : (Block.writeImg i x b).INFLIGHT = b.INFLIGHT := rfl
@[simp] theorem Block.writeImg_Q (i : Nat) (x : Byte) (b : Block) : (Block.writeImg i x b).Q = b.Q := rfl
@[simp] theorem Block.writeImg_SEQ_IDX (i : Nat) (x : Byte) (b : Block) : (Block.writeImg i x b).SEQ_IDX = b.SEQ_IDX := rfl
@[simp] theorem Block.writeImg_SEQ_LEN (i : Nat) (x : Byte) (b : Block) : (Block.writeImg i x b).SEQ_LEN = b.SEQ_LEN := rfl
@[simp] theorem Block.writeImg_RB (i : Nat) (x : Byte) (b : Block) : (Block.writeImg i x b).RB = b.RB := rfl
@[simp] theorem Block.writeImg_TMR (i : Nat) (x : Byte) (b : Block) : (Block.writeImg i x b).TMR = b.TMR := rfl
@[simp] theorem Block.writeImg_WCUR (i : Nat) (x : Byte) (b : Block) : (Block.writeImg i x b).WCUR = b.WCUR := rfl
@[simp] theorem Block.writeImg_WCUR_V (i : Nat) (x : Byte) (b : Block) : (Block.writeImg i x b).WCUR_V = b.WCUR_V := rfl
@[simp] theorem Block.writeImg_LINK_CLOSED (i : Nat) (x : Byte) (b : Block) : (Block.writeImg i x b).LINK_CLOSED = b.LINK_CLOSED := rfl
@[simp] theorem Block.writeImg_FAIL_REASON (i : Nat) (x : Byte) (b : Block) : (Block.writeImg i x b).FAIL_REASON = b.FAIL_REASON := rfl
@[simp] theorem Block.writeImg_FAIL_KIND (i : Nat) (x : Byte) (b : Block) : (Block.writeImg i x b).FAIL_KIND = b.FAIL_KIND := rfl
@[simp] theorem Block.writeImg_FAIL_IDX (i : Nat) (x : Byte) (b : Block) : (Block.writeImg i x b).FAIL_IDX = b.FAIL_IDX := rfl
@[simp] theorem Block.writeImg_FAIL_ADDR (i : Nat) (x : Byte) (b : Block) : (Block.writeImg i x b).FAIL_ADDR = b.FAIL_ADDR := rfl
@[simp] theorem Block.writeImg_FAIL_OFF (i : Nat) (x : Byte) (b : Block) : (Block.writeImg i x b).FAIL_OFF = b.FAIL_OFF := rfl
@[simp] theorem Block.writeImg_FAIL_EXP (i : Nat) (x : Byte) (b : Block) : (Block.writeImg i x b).FAIL_EXP = b.FAIL_EXP := rfl
@[simp] theorem Block.writeImg_FAIL_ACT (i : Nat) (x : Byte) (b : Block) : (Block.writeImg i x b).FAIL_ACT = b.FAIL_ACT := rfl
@[simp] theorem Block.writeImg_SIG_READ (i : Nat) (x : Byte) (b : Block) : (Block.writeImg i x b).SIG_READ = b.SIG_READ := rfl
@[simp] theorem Block.writeImg_REPORTS (i : Nat) (x : Byte) (b : Block) : (Block.writeImg i x b).REPORTS = b.REPORTS := rfl
@[simp] theorem Block.writeImg_LAST_KIND (i : Nat) (x : Byte) (b : Block) : (Block.writeImg i x b).LAST_KIND = b.LAST_KIND := rfl
@[simp] theorem Block.writeImg_LAST_RES (i : Nat) (x : Byte) (b : Block) : (Block.writeImg i x b).LAST_RES = b.LAST_RES := rfl
@[simp] theorem Block.writeImg_LAST_IDX (i : Nat) (x : Byte) (b : Block) : (Block.writeImg i x b).LAST_IDX = b.LAST_IDX := rfl
@[simp] theorem Block.writeImg_IRQ_STAT (i : Nat) (x : Byte) (b : Block) : (Block.writeImg i x b).IRQ_STAT = b.IRQ_STAT := rfl
@[simp] theorem Block.writeImg_IRQ_EN (i : Nat) (x : Byte) (b : Block) : (Block.writeImg i x b).IRQ_EN = b.IRQ_EN := rfl
@[simp] theorem Block.writeImg_CMD_ERRC (i : Nat) (x : Byte) (b : Block) : (Block.writeImg i x b).CMD_ERRC = b.CMD_ERRC := rfl
@[simp] theorem Block.writeImg_CMD_ERRS (i : Nat) (x : Byte) (b : Block) : (Block.writeImg i x b).CMD_ERRS = b.CMD_ERRS := rfl

/-! `Block.writeParam` -/

@[simp] theorem Block.writeParam_ACC (i : Nat) (x : Byte) (b : Block) : (Block.writeParam i x b).ACC = b.ACC := rfl
@[simp] theorem Block.writeParam_IMG (i : Nat) (x : Byte) (b : Block) : (Block.writeParam i x b).IMG = b.IMG := rfl
@[simp] theorem Block.writeParam_PARAM (i : Nat) (x : Byte) (b : Block) : (Block.writeParam i x b).PARAM = Memory.write b.PARAM i x := rfl
@[simp] theorem Block.writeParam_IMG_BASE (i : Nat) (x : Byte) (b : Block) : (Block.writeParam i x b).IMG_BASE = b.IMG_BASE := rfl
@[simp] theorem Block.writeParam_IMG_LEN (i : Nat) (x : Byte) (b : Block) : (Block.writeParam i x b).IMG_LEN = b.IMG_LEN := rfl
@[simp] theorem Block.writeParam_LINE_LEN (i : Nat) (x : Byte) (b : Block) : (Block.writeParam i x b).LINE_LEN = b.LINE_LEN := rfl
@[simp] theorem Block.writeParam_PAGE_LOG2 (i : Nat) (x : Byte) (b : Block) : (Block.writeParam i x b).PAGE_LOG2 = b.PAGE_LOG2 := rfl
@[simp] theorem Block.writeParam_PAGE_EN (i : Nat) (x : Byte) (b : Block) : (Block.writeParam i x b).PAGE_EN = b.PAGE_EN := rfl
@[simp] theorem Block.writeParam_OMIT_NULL (i : Nat) (x : Byte) (b : Block) : (Block.writeParam i x b).OMIT_NULL = b.OMIT_NULL := rfl
@[simp] theorem Block.writeParam_ENC_ST (i : Nat) (x : Byte) (b : Block) : (Block.writeParam i x b).ENC_ST = b.ENC_ST := rfl
@[simp] theorem Block.writeParam_ENC_ERRC (i : Nat) (x : Byte) (b : Block) : (Block.writeParam i x b).ENC_ERRC = b.ENC_ERRC := rfl
@[simp] theorem Block.writeParam_ENC_NREC (i : Nat) (x : Byte) (b : Block) : (Block.writeParam i x b).ENC_NREC = b.ENC_NREC := rfl
@[simp] theorem Block.writeParam_OUTQ (i : Nat) (x : Byte) (b : Block) : (Block.writeParam i x b).OUTQ = b.OUTQ := rfl
@[simp] theorem Block.writeParam_MEMKIND (i : Nat) (x : Byte) (b : Block) : (Block.writeParam i x b).MEMKIND = b.MEMKIND := rfl
@[simp] theorem Block.writeParam_VERIFY (i : Nat) (x : Byte) (b : Block) : (Block.writeParam i x b).VERIFY = b.VERIFY := rfl
@[simp] theorem Block.writeParam_SIGCHK (i : Nat) (x : Byte) (b : Block) : (Block.writeParam i x b).SIGCHK = b.SIGCHK := rfl
@[simp] theorem Block.writeParam_SIG_LEN (i : Nat) (x : Byte) (b : Block) : (Block.writeParam i x b).SIG_LEN = b.SIG_LEN := rfl
@[simp] theorem Block.writeParam_DEV_PAGE (i : Nat) (x : Byte) (b : Block) : (Block.writeParam i x b).DEV_PAGE = b.DEV_PAGE := rfl
@[simp] theorem Block.writeParam_SES_TIMEOUT (i : Nat) (x : Byte) (b : Block) : (Block.writeParam i x b).SES_TIMEOUT = b.SES_TIMEOUT := rfl
@[simp] theorem Block.writeParam_SIG_EXPECT (i : Nat) (x : Byte) (b : Block) : (Block.writeParam i x b).SIG_EXPECT = b.SIG_EXPECT := rfl
@[simp] theorem Block.writeParam_PARAM_LEN (i : Nat) (x : Byte) (b : Block) : (Block.writeParam i x b).PARAM_LEN = b.PARAM_LEN := rfl
@[simp] theorem Block.writeParam_SES_ST (i : Nat) (x : Byte) (b : Block) : (Block.writeParam i x b).SES_ST = b.SES_ST := rfl
@[simp] theorem Block.writeParam_INFLIGHT (i : Nat) (x : Byte) (b : Block) : (Block.writeParam i x b).INFLIGHT = b.INFLIGHT := rfl
@[simp] theorem Block.writeParam_Q (i : Nat) (x : Byte) (b : Block) : (Block.writeParam i x b).Q = b.Q := rfl
@[simp] theorem Block.writeParam_SEQ_IDX (i : Nat) (x : Byte) (b : Block) : (Block.writeParam i x b).SEQ_IDX = b.SEQ_IDX := rfl
@[simp] theorem Block.writeParam_SEQ_LEN (i : Nat) (x : Byte) (b : Block) : (Block.writeParam i x b).SEQ_LEN = b.SEQ_LEN := rfl
@[simp] theorem Block.writeParam_RB (i : Nat) (x : Byte) (b : Block) : (Block.writeParam i x b).RB = b.RB := rfl
@[simp] theorem Block.writeParam_TMR (i : Nat) (x : Byte) (b : Block) : (Block.writeParam i x b).TMR = b.TMR := rfl
@[simp] theorem Block.writeParam_WCUR (i : Nat) (x : Byte) (b : Block) : (Block.writeParam i x b).WCUR = b.WCUR := rfl
@[simp] theorem Block.writeParam_WCUR_V (i : Nat) (x : Byte) (b : Block) : (Block.writeParam i x b).WCUR_V = b.WCUR_V := rfl
@[simp] theorem Block.writeParam_LINK_CLOSED (i : Nat) (x : Byte) (b : Block) : (Block.writeParam i x b).LINK_CLOSED = b.LINK_CLOSED := rfl
@[simp] theorem Block.writeParam_FAIL_REASON (i : Nat) (x : Byte) (b : Block) : (Block.writeParam i x b).FAIL_REASON = b.FAIL_REASON := rfl
@[simp] theorem Block.writeParam_FAIL_KIND (i : Nat) (x : Byte) (b : Block) : (Block.writeParam i x b).FAIL_KIND = b.FAIL_KIND := rfl
@[simp] theorem Block.writeParam_FAIL_IDX (i : Nat) (x : Byte) (b : Block) : (Block.writeParam i x b).FAIL_IDX = b.FAIL_IDX := rfl
@[simp] theorem Block.writeParam_FAIL_ADDR (i : Nat) (x : Byte) (b : Block) : (Block.writeParam i x b).FAIL_ADDR = b.FAIL_ADDR := rfl
@[simp] theorem Block.writeParam_FAIL_OFF (i : Nat) (x : Byte) (b : Block) : (Block.writeParam i x b).FAIL_OFF = b.FAIL_OFF := rfl
@[simp] theorem Block.writeParam_FAIL_EXP (i : Nat) (x : Byte) (b : Block) : (Block.writeParam i x b).FAIL_EXP = b.FAIL_EXP := rfl
@[simp] theorem Block.writeParam_FAIL_ACT (i : Nat) (x : Byte) (b : Block) : (Block.writeParam i x b).FAIL_ACT = b.FAIL_ACT := rfl
@[simp] theorem Block.writeParam_SIG_READ (i : Nat) (x : Byte) (b : Block) : (Block.writeParam i x b).SIG_READ = b.SIG_READ := rfl
@[simp] theorem Block.writeParam_REPORTS (i : Nat) (x : Byte) (b : Block) : (Block.writeParam i x b).REPORTS = b.REPORTS := rfl
@[simp] theorem Block.writeParam_LAST_KIND (i : Nat) (x : Byte) (b : Block) : (Block.writeParam i x b).LAST_KIND = b.LAST_KIND := rfl
@[simp] theorem Block.writeParam_LAST_RES (i : Nat) (x : Byte) (b : Block) : (Block.writeParam i x b).LAST_RES = b.LAST_RES := rfl
@[simp] theorem Block.writeParam_LAST_IDX (i : Nat) (x : Byte) (b : Block) : (Block.writeParam i x b).LAST_IDX = b.LAST_IDX := rfl
@[simp] theorem Block.writeParam_IRQ_STAT (i : Nat) (x : Byte) (b : Block) : (Block.writeParam i x b).IRQ_STAT = b.IRQ_STAT := rfl
@[simp] theorem Block.writeParam_IRQ_EN (i : Nat) (x : Byte) (b : Block) : (Block.writeParam i x b).IRQ_EN = b.IRQ_EN := rfl
@[simp] theorem Block.writeParam_CMD_ERRC (i : Nat) (x : Byte) (b : Block) : (Block.writeParam i x b).CMD_ERRC = b.CMD_ERRC := rfl
@[simp] theorem Block.writeParam_CMD_ERRS (i : Nat) (x : Byte) (b : Block) : (Block.writeParam i x b).CMD_ERRS = b.CMD_ERRS := rfl

/-! `Block.countDown` -/

@[simp] theorem Block.countDown_ACC (b : Block) : (Block.countDown b).ACC = b.ACC := rfl
@[simp] theorem Block.countDown_IMG (b : Block) : (Block.countDown b).IMG = b.IMG := rfl
@[simp] theorem Block.countDown_PARAM (b : Block) : (Block.countDown b).PARAM = b.PARAM := rfl
@[simp] theorem Block.countDown_IMG_BASE (b : Block) : (Block.countDown b).IMG_BASE = b.IMG_BASE := rfl
@[simp] theorem Block.countDown_IMG_LEN (b : Block) : (Block.countDown b).IMG_LEN = b.IMG_LEN := rfl
@[simp] theorem Block.countDown_LINE_LEN (b : Block) : (Block.countDown b).LINE_LEN = b.LINE_LEN := rfl
@[simp] theorem Block.countDown_PAGE_LOG2 (b : Block) : (Block.countDown b).PAGE_LOG2 = b.PAGE_LOG2 := rfl
@[simp] theorem Block.countDown_PAGE_EN (b : Block) : (Block.countDown b).PAGE_EN = b.PAGE_EN := rfl
@[simp] theorem Block.countDown_OMIT_NULL (b : Block) : (Block.countDown b).OMIT_NULL = b.OMIT_NULL := rfl
@[simp] theorem Block.countDown_ENC_ST (b : Block) : (Block.countDown b).ENC_ST = b.ENC_ST := rfl
@[simp] theorem Block.countDown_ENC_ERRC (b : Block) : (Block.countDown b).ENC_ERRC = b.ENC_ERRC := rfl
@[simp] theorem Block.countDown_ENC_NREC (b : Block) : (Block.countDown b).ENC_NREC = b.ENC_NREC := rfl
@[simp] theorem Block.countDown_OUTQ (b : Block) : (Block.countDown b).OUTQ = b.OUTQ := rfl
@[simp] theorem Block.countDown_MEMKIND (b : Block) : (Block.countDown b).MEMKIND = b.MEMKIND := rfl
@[simp] theorem Block.countDown_VERIFY (b : Block) : (Block.countDown b).VERIFY = b.VERIFY := rfl
@[simp] theorem Block.countDown_SIGCHK (b : Block) : (Block.countDown b).SIGCHK = b.SIGCHK := rfl
@[simp] theorem Block.countDown_SIG_LEN (b : Block) : (Block.countDown b).SIG_LEN = b.SIG_LEN := rfl
@[simp] theorem Block.countDown_DEV_PAGE (b : Block) : (Block.countDown b).DEV_PAGE = b.DEV_PAGE := rfl
@[simp] theorem Block.countDown_SES_TIMEOUT (b : Block) : (Block.countDown b).SES_TIMEOUT = b.SES_TIMEOUT := rfl
@[simp] theorem Block.countDown_SIG_EXPECT (b : Block) : (Block.countDown b).SIG_EXPECT = b.SIG_EXPECT := rfl
@[simp] theorem Block.countDown_PARAM_LEN (b : Block) : (Block.countDown b).PARAM_LEN = b.PARAM_LEN := rfl
@[simp] theorem Block.countDown_SES_ST (b : Block) : (Block.countDown b).SES_ST = b.SES_ST := rfl
@[simp] theorem Block.countDown_INFLIGHT (b : Block) : (Block.countDown b).INFLIGHT = b.INFLIGHT := rfl
@[simp] theorem Block.countDown_Q (b : Block) : (Block.countDown b).Q = b.Q := rfl
@[simp] theorem Block.countDown_SEQ_IDX (b : Block) : (Block.countDown b).SEQ_IDX = b.SEQ_IDX := rfl
@[simp] theorem Block.countDown_SEQ_LEN (b : Block) : (Block.countDown b).SEQ_LEN = b.SEQ_LEN := rfl
@[simp] theorem Block.countDown_RB (b : Block) : (Block.countDown b).RB = b.RB := rfl
@[simp] theorem Block.countDown_TMR (b : Block) : (Block.countDown b).TMR = b.TMR - 1 := rfl
@[simp] theorem Block.countDown_WCUR (b : Block) : (Block.countDown b).WCUR = b.WCUR := rfl
@[simp] theorem Block.countDown_WCUR_V (b : Block) : (Block.countDown b).WCUR_V = b.WCUR_V := rfl
@[simp] theorem Block.countDown_LINK_CLOSED (b : Block) : (Block.countDown b).LINK_CLOSED = b.LINK_CLOSED := rfl
@[simp] theorem Block.countDown_FAIL_REASON (b : Block) : (Block.countDown b).FAIL_REASON = b.FAIL_REASON := rfl
@[simp] theorem Block.countDown_FAIL_KIND (b : Block) : (Block.countDown b).FAIL_KIND = b.FAIL_KIND := rfl
@[simp] theorem Block.countDown_FAIL_IDX (b : Block) : (Block.countDown b).FAIL_IDX = b.FAIL_IDX := rfl
@[simp] theorem Block.countDown_FAIL_ADDR (b : Block) : (Block.countDown b).FAIL_ADDR = b.FAIL_ADDR := rfl
@[simp] theorem Block.countDown_FAIL_OFF (b : Block) : (Block.countDown b).FAIL_OFF = b.FAIL_OFF := rfl
@[simp] theorem Block.countDown_FAIL_EXP (b : Block) : (Block.countDown b).FAIL_EXP = b.FAIL_EXP := rfl
@[simp] theorem Block.countDown_FAIL_ACT (b : Block) : (Block.countDown b).FAIL_ACT = b.FAIL_ACT := rfl
@[simp] theorem Block.countDown_SIG_READ (b : Block) : (Block.countDown b).SIG_READ = b.SIG_READ := rfl
@[simp] theorem Block.countDown_REPORTS (b : Block) : (Block.countDown b).REPORTS = b.REPORTS := rfl
@[simp] theorem Block.countDown_LAST_KIND (b : Block) : (Block.countDown b).LAST_KIND = b.LAST_KIND := rfl
@[simp] theorem Block.countDown_LAST_RES (b : Block) : (Block.countDown b).LAST_RES = b.LAST_RES := rfl
@[simp] theorem Block.countDown_LAST_IDX (b : Block) : (Block.countDown b).LAST_IDX = b.LAST_IDX := rfl
@[simp] theorem Block.countDown_IRQ_STAT (b : Block) : (Block.countDown b).IRQ_STAT = b.IRQ_STAT := rfl
@[simp] theorem Block.countDown_IRQ_EN (b : Block) : (Block.countDown b).IRQ_EN = b.IRQ_EN := rfl
@[simp] theorem Block.countDown_CMD_ERRC (b : Block) : (Block.countDown b).CMD_ERRC = b.CMD_ERRC := rfl
@[simp] theorem Block.countDown_CMD_ERRS (b : Block) : (Block.countDown b).CMD_ERRS = b.CMD_ERRS := rfl

/-! `Block.closeLink` -/

@[simp] theorem Block.closeLink_ACC (b : Block) : (Block.closeLink b).ACC = b.ACC := rfl
@[simp] theorem Block.closeLink_IMG (b : Block) : (Block.closeLink b).IMG = b.IMG := rfl
@[simp] theorem Block.closeLink_PARAM (b : Block) : (Block.closeLink b).PARAM = b.PARAM := rfl
@[simp] theorem Block.closeLink_IMG_BASE (b : Block) : (Block.closeLink b).IMG_BASE = b.IMG_BASE := rfl
@[simp] theorem Block.closeLink_IMG_LEN (b : Block) : (Block.closeLink b).IMG_LEN = b.IMG_LEN := rfl
@[simp] theorem Block.closeLink_LINE_LEN (b : Block) : (Block.closeLink b).LINE_LEN = b.LINE_LEN := rfl
@[simp] theorem Block.closeLink_PAGE_LOG2 (b : Block) : (Block.closeLink b).PAGE_LOG2 = b.PAGE_LOG2 := rfl
@[simp] theorem Block.closeLink_PAGE_EN (b : Block) : (Block.closeLink b).PAGE_EN = b.PAGE_EN := rfl
@[simp] theorem Block.closeLink_OMIT_NULL (b : Block) : (Block.closeLink b).OMIT_NULL = b.OMIT_NULL := rfl
@[simp] theorem Block.closeLink_ENC_ST (b : Block) : (Block.closeLink b).ENC_ST = b.ENC_ST := rfl
@[simp] theorem Block.closeLink_ENC_ERRC (b : Block) : (Block.closeLink b).ENC_ERRC = b.ENC_ERRC := rfl
@[simp] theorem Block.closeLink_ENC_NREC (b : Block) : (Block.closeLink b).ENC_NREC = b.ENC_NREC := rfl
@[simp] theorem Block.closeLink_OUTQ (b : Block) : (Block.closeLink b).OUTQ = b.OUTQ := rfl
@[simp] theorem Block.closeLink_MEMKIND (b : Block) : (Block.closeLink b).MEMKIND = b.MEMKIND := rfl
@[simp] theorem Block.closeLink_VERIFY (b : Block) : (Block.closeLink b).VERIFY = b.VERIFY := rfl
@[simp] theorem Block.closeLink_SIGCHK (b : Block) : (Block.closeLink b).SIGCHK = b.SIGCHK := rfl
@[simp] theorem Block.closeLink_SIG_LEN (b : Block) : (Block.closeLink b).SIG_LEN = b.SIG_LEN := rfl
@[simp] theorem Block.closeLink_DEV_PAGE (b : Block) : (Block.closeLink b).DEV_PAGE = b.DEV_PAGE := rfl
@[simp] theorem Block.closeLink_SES_TIMEOUT (b : Block) : (Block.closeLink b).SES_TIMEOUT = b.SES_TIMEOUT := rfl
@[simp] theorem Block.closeLink_SIG_EXPECT (b : Block) : (Block.closeLink b).SIG_EXPECT = b.SIG_EXPECT := rfl
@[simp] theorem Block.closeLink_PARAM_LEN (b : Block) : (Block.closeLink b).PARAM_LEN = b.PARAM_LEN := rfl
@[simp] theorem Block.closeLink_SES_ST (b : Block) : (Block.closeLink b).SES_ST = b.SES_ST := rfl
@[simp] theorem Block.closeLink_INFLIGHT (b : Block) : (Block.closeLink b).INFLIGHT = b.INFLIGHT := rfl
@[simp] theorem Block.closeLink_Q (b : Block) : (Block.closeLink b).Q = b.Q := rfl
@[simp] theorem Block.closeLink_SEQ_IDX (b : Block) : (Block.closeLink b).SEQ_IDX = b.SEQ_IDX := rfl
@[simp] theorem Block.closeLink_SEQ_LEN (b : Block) : (Block.closeLink b).SEQ_LEN = b.SEQ_LEN := rfl
@[simp] theorem Block.closeLink_RB (b : Block) : (Block.closeLink b).RB = b.RB := rfl
@[simp] theorem Block.closeLink_TMR (b : Block) : (Block.closeLink b).TMR = b.TMR := rfl
@[simp] theorem Block.closeLink_WCUR (b : Block) : (Block.closeLink b).WCUR = b.WCUR := rfl
@[simp] theorem Block.closeLink_WCUR_V (b : Block) : (Block.closeLink b).WCUR_V = b.WCUR_V := rfl
@[simp] theorem Block.closeLink_LINK_CLOSED (b : Block) : (Block.closeLink b).LINK_CLOSED = true := rfl
@[simp] theorem Block.closeLink_FAIL_REASON (b : Block) : (Block.closeLink b).FAIL_REASON = b.FAIL_REASON := rfl
@[simp] theorem Block.closeLink_FAIL_KIND (b : Block) : (Block.closeLink b).FAIL_KIND = b.FAIL_KIND := rfl
@[simp] theorem Block.closeLink_FAIL_IDX (b : Block) : (Block.closeLink b).FAIL_IDX = b.FAIL_IDX := rfl
@[simp] theorem Block.closeLink_FAIL_ADDR (b : Block) : (Block.closeLink b).FAIL_ADDR = b.FAIL_ADDR := rfl
@[simp] theorem Block.closeLink_FAIL_OFF (b : Block) : (Block.closeLink b).FAIL_OFF = b.FAIL_OFF := rfl
@[simp] theorem Block.closeLink_FAIL_EXP (b : Block) : (Block.closeLink b).FAIL_EXP = b.FAIL_EXP := rfl
@[simp] theorem Block.closeLink_FAIL_ACT (b : Block) : (Block.closeLink b).FAIL_ACT = b.FAIL_ACT := rfl
@[simp] theorem Block.closeLink_SIG_READ (b : Block) : (Block.closeLink b).SIG_READ = b.SIG_READ := rfl
@[simp] theorem Block.closeLink_REPORTS (b : Block) : (Block.closeLink b).REPORTS = b.REPORTS := rfl
@[simp] theorem Block.closeLink_LAST_KIND (b : Block) : (Block.closeLink b).LAST_KIND = b.LAST_KIND := rfl
@[simp] theorem Block.closeLink_LAST_RES (b : Block) : (Block.closeLink b).LAST_RES = b.LAST_RES := rfl
@[simp] theorem Block.closeLink_LAST_IDX (b : Block) : (Block.closeLink b).LAST_IDX = b.LAST_IDX := rfl
@[simp] theorem Block.closeLink_IRQ_STAT (b : Block) : (Block.closeLink b).IRQ_STAT = b.IRQ_STAT := rfl
@[simp] theorem Block.closeLink_IRQ_EN (b : Block) : (Block.closeLink b).IRQ_EN = b.IRQ_EN := rfl
@[simp] theorem Block.closeLink_CMD_ERRC (b : Block) : (Block.closeLink b).CMD_ERRC = b.CMD_ERRC := rfl
@[simp] theorem Block.closeLink_CMD_ERRS (b : Block) : (Block.closeLink b).CMD_ERRS = b.CMD_ERRS := rfl

/-! `Block.noteCursor`, `Block.noteSignature`, `Block.discard`: the fields that no case changes -/

@[simp] theorem Block.noteCursor_ACC (c : Cmd) (b : Block) : (Block.noteCursor c b).ACC = b.ACC := by cases c <;> exact rfl
@[simp] theorem Block.noteCursor_IMG (c : Cmd) (b : Block) : (Block.noteCursor c b).IMG = b.IMG := by cases c <;> exact rfl
@[simp] theorem Block.noteCursor_PARAM (c : Cmd) (b : Block) : (Block.noteCursor c b).PARAM = b.PARAM := by cases c <;> exact rfl
@[simp] theorem Block.noteCursor_IMG_BASE (c : Cmd) (b : Block) : (Block.noteCursor c b).IMG_BASE = b.IMG_BASE := by cases c <;> exact rfl
@[simp] theorem Block.noteCursor_IMG_LEN (c : Cmd) (b : Block) : (Block.noteCursor c b).IMG_LEN = b.IMG_LEN := by cases c <;> exact rfl
@[simp] theorem Block.noteCursor_LINE_LEN (c : Cmd) (b : Block) : (Block.noteCursor c b).LINE_LEN = b.LINE_LEN := by cases c <;> exact rfl
@[simp] theorem Block.noteCursor_PAGE_LOG2 (c : Cmd) (b : Block) : (Block.noteCursor c b).PAGE_LOG2 = b.PAGE_LOG2 := by cases c <;> exact rfl
@[simp] theorem Block.noteCursor_PAGE_EN (c : Cmd) (b : Block) : (Block.noteCursor c b).PAGE_EN = b.PAGE_EN := by cases c <;> exact rfl
@[simp] theorem Block.noteCursor_OMIT_NULL (c : Cmd) (b : Block) : (Block.noteCursor c b).OMIT_NULL = b.OMIT_NULL := by cases c <;> exact rfl
@[simp] theorem Block.noteCursor_ENC_ST (c : Cmd) (b : Block) : (Block.noteCursor c b).ENC_ST = b.ENC_ST := by cases c <;> exact rfl
@[simp] theorem Block.noteCursor_ENC_ERRC (c : Cmd) (b : Block) : (Block.noteCursor c b).ENC_ERRC = b.ENC_ERRC := by cases c <;> exact rfl
@[simp] theorem Block.noteCursor_ENC_NREC (c : Cmd) (b : Block) : (Block.noteCursor c b).ENC_NREC = b.ENC_NREC := by cases c <;> exact rfl
@[simp] theorem Block.noteCursor_OUTQ (c : Cmd) (b : Block) : (Block.noteCursor c b).OUTQ = b.OUTQ := by cases c <;> exact rfl
@[simp] theorem Block.noteCursor_MEMKIND (c : Cmd) (b : Block) : (Block.noteCursor c b).MEMKIND = b.MEMKIND := by cases c <;> exact rfl
@[simp] theorem Block.noteCursor_VERIFY (c : Cmd) (b : Block) : (Block.noteCursor c b).VERIFY = b.VERIFY := by cases c <;> exact rfl
@[simp] theorem Block.noteCursor_SIGCHK (c : Cmd) (b : Block) : (Block.noteCursor c b).SIGCHK = b.SIGCHK := by cases c <;> exact rfl
@[simp] theorem Block.noteCursor_SIG_LEN (c : Cmd) (b : Block) : (Block.noteCursor c b).SIG_LEN = b.SIG_LEN := by cases c <;> exact rfl
@[simp] theorem Block.noteCursor_DEV_PAGE (c : Cmd) (b : Block) : (Block.noteCursor c b).DEV_PAGE = b.DEV_PAGE := by cases c <;> exact rfl
@[simp] theorem Block.noteCursor_SES_TIMEOUT (c : Cmd) (b : Block) : (Block.noteCursor c b).SES_TIMEOUT = b.SES_TIMEOUT := by cases c <;> exact rfl
@[simp] theorem Block.noteCursor_SIG_EXPECT (c : Cmd) (b : Block) : (Block.noteCursor c b).SIG_EXPECT = b.SIG_EXPECT := by cases c <;> exact rfl
@[simp] theorem Block.noteCursor_PARAM_LEN (c : Cmd) (b : Block) : (Block.noteCursor c b).PARAM_LEN = b.PARAM_LEN := by cases c <;> exact rfl
@[simp] theorem Block.noteCursor_SES_ST (c : Cmd) (b : Block) : (Block.noteCursor c b).SES_ST = b.SES_ST := by cases c <;> exact rfl
@[simp] theorem Block.noteCursor_INFLIGHT (c : Cmd) (b : Block) : (Block.noteCursor c b).INFLIGHT = b.INFLIGHT := by cases c <;> exact rfl
@[simp] theorem Block.noteCursor_Q (c : Cmd) (b : Block) : (Block.noteCursor c b).Q = b.Q := by cases c <;> exact rfl
@[simp] theorem Block.noteCursor_SEQ_IDX (c : Cmd) (b : Block) : (Block.noteCursor c b).SEQ_IDX = b.SEQ_IDX := by cases c <;> exact rfl
@[simp] theorem Block.noteCursor_SEQ_LEN (c : Cmd) (b : Block) : (Block.noteCursor c b).SEQ_LEN = b.SEQ_LEN := by cases c <;> exact rfl
@[simp] theorem Block.noteCursor_RB (c : Cmd) (b : Block) : (Block.noteCursor c b).RB = b.RB := by cases c <;> exact rfl
@[simp] theorem Block.noteCursor_TMR (c : Cmd) (b : Block) : (Block.noteCursor c b).TMR = b.TMR := by cases c <;> exact rfl
@[simp] theorem Block.noteCursor_LINK_CLOSED (c : Cmd) (b : Block) : (Block.noteCursor c b).LINK_CLOSED = b.LINK_CLOSED := by cases c <;> exact rfl
@[simp] theorem Block.noteCursor_FAIL_REASON (c : Cmd) (b : Block) : (Block.noteCursor c b).FAIL_REASON = b.FAIL_REASON := by cases c <;> exact rfl
@[simp] theorem Block.noteCursor_FAIL_KIND (c : Cmd) (b : Block) : (Block.noteCursor c b).FAIL_KIND = b.FAIL_KIND := by cases c <;> exact rfl
@[simp] theorem Block.noteCursor_FAIL_IDX (c : Cmd) (b : Block) : (Block.noteCursor c b).FAIL_IDX = b.FAIL_IDX := by cases c <;> exact rfl
@[simp] theorem Block.noteCursor_FAIL_ADDR (c : Cmd) (b : Block) : (Block.noteCursor c b).FAIL_ADDR = b.FAIL_ADDR := by cases c <;> exact rfl
@[simp] theorem Block.noteCursor_FAIL_OFF (c : Cmd) (b : Block) : (Block.noteCursor c b).FAIL_OFF = b.FAIL_OFF := by cases c <;> exact rfl
@[simp] theorem Block.noteCursor_FAIL_EXP (c : Cmd) (b : Block) : (Block.noteCursor c b).FAIL_EXP = b.FAIL_EXP := by cases c <;> exact rfl
@[simp] theorem Block.noteCursor_FAIL_ACT (c : Cmd) (b : Block) : (Block.noteCursor c b).FAIL_ACT = b.FAIL_ACT := by cases c <;> exact rfl
@[simp] theorem Block.noteCursor_SIG_READ (c : Cmd) (b : Block) : (Block.noteCursor c b).SIG_READ = b.SIG_READ := by cases c <;> exact rfl
@[simp] theorem Block.noteCursor_REPORTS (c : Cmd) (b : Block) : (Block.noteCursor c b).REPORTS = b.REPORTS := by cases c <;> exact rfl
@[simp] theorem Block.noteCursor_LAST_KIND (c : Cmd) (b : Block) : (Block.noteCursor c b).LAST_KIND = b.LAST_KIND := by cases c <;> exact rfl
@[simp] theorem Block.noteCursor_LAST_RES (c : Cmd) (b : Block) : (Block.noteCursor c b).LAST_RES = b.LAST_RES := by cases c <;> exact rfl
@[simp] theorem Block.noteCursor_LAST_IDX (c : Cmd) (b : Block) : (Block.noteCursor c b).LAST_IDX = b.LAST_IDX := by cases c <;> exact rfl
@[simp] theorem Block.noteCursor_IRQ_STAT (c : Cmd) (b : Block) : (Block.noteCursor c b).IRQ_STAT = b.IRQ_STAT := by cases c <;> exact rfl
@[simp] theorem Block.noteCursor_IRQ_EN (c : Cmd) (b : Block) : (Block.noteCursor c b).IRQ_EN = b.IRQ_EN := by cases c <;> exact rfl
@[simp] theorem Block.noteCursor_CMD_ERRC (c : Cmd) (b : Block) : (Block.noteCursor c b).CMD_ERRC = b.CMD_ERRC := by cases c <;> exact rfl
@[simp] theorem Block.noteCursor_CMD_ERRS (c : Cmd) (b : Block) : (Block.noteCursor c b).CMD_ERRS = b.CMD_ERRS := by cases c <;> exact rfl

@[simp] theorem Block.noteSignature_ACC (c : Cmd) (x : List Byte) (b : Block) : (Block.noteSignature c x b).ACC = b.ACC := by cases c <;> exact rfl
@[simp] theorem Block.noteSignature_IMG (c : Cmd) (x : List Byte) (b : Block) : (Block.noteSignature c x b).IMG = b.IMG := by cases c <;> exact rfl
@[simp] theorem Block.noteSignature_PARAM (c : Cmd) (x : List Byte) (b : Block) : (Block.noteSignature c x b).PARAM = b.PARAM := by cases c <;> exact rfl
@[simp] theorem Block.noteSignature_IMG_BASE (c : Cmd) (x : List Byte) (b : Block) : (Block.noteSignature c x b).IMG_BASE = b.IMG_BASE := by cases c <;> exact rfl
@[simp] theorem Block.noteSignature_IMG_LEN (c : Cmd) (x : List Byte) (b : Block) : (Block.noteSignature c x b).IMG_LEN = b.IMG_LEN := by cases c <;> exact rfl
@[simp] theorem Block.noteSignature_LINE_LEN (c : Cmd) (x : List Byte) (b : Block) : (Block.noteSignature c x b).LINE_LEN = b.LINE_LEN := by cases c <;> exact rfl
@[simp] theorem Block.noteSignature_PAGE_LOG2 (c : Cmd) (x : List Byte) (b : Block) : (Block.noteSignature c x b).PAGE_LOG2 = b.PAGE_LOG2 := by cases c <;> exact rfl
@[simp] theorem Block.noteSignature_PAGE_EN (c : Cmd) (x : List Byte) (b : Block) : (Block.noteSignature c x b).PAGE_EN = b.PAGE_EN := by cases c <;> exact rfl
@[simp] theorem Block.noteSignature_OMIT_NULL (c : Cmd) (x : List Byte) (b : Block) : (Block.noteSignature c x b).OMIT_NULL = b.OMIT_NULL := by cases c <;> exact rfl
@[simp] theorem Block.noteSignature_ENC_ST (c : Cmd) (x : List Byte) (b : Block) : (Block.noteSignature c x b).ENC_ST = b.ENC_ST := by cases c <;> exact rfl
@[simp] theorem Block.noteSignature_ENC_ERRC (c : Cmd) (x : List Byte) (b : Block) : (Block.noteSignature c x b).ENC_ERRC = b.ENC_ERRC := by cases c <;> exact rfl
@[simp] theorem Block.noteSignature_ENC_NREC (c : Cmd) (x : List Byte) (b : Block) : (Block.noteSignature c x b).ENC_NREC = b.ENC_NREC := by cases c <;> exact rfl
@[simp] theorem Block.noteSignature_OUTQ (c : Cmd) (x : List Byte) (b : Block) : (Block.noteSignature c x b).OUTQ = b.OUTQ := by cases c <;> exact rfl
@[simp] theorem Block.noteSignature_MEMKIND (c : Cmd) (x : List Byte) (b : Block) : (Block.noteSignature c x b).MEMKIND = b.MEMKIND := by cases c <;> exact rfl
@[simp] theorem Block.noteSignature_VERIFY (c : Cmd) (x : List Byte) (b : Block) : (Block.noteSignature c x b).VERIFY = b.VERIFY := by cases c <;> exact rfl
@[simp] theorem Block.noteSignature_SIGCHK (c : Cmd) (x : List Byte) (b : Block) : (Block.noteSignature c x b).SIGCHK = b.SIGCHK := by cases c <;> exact rfl
@[simp] theorem Block.noteSignature_SIG_LEN (c : Cmd) (x : List Byte) (b : Block) : (Block.noteSignature c x b).SIG_LEN = b.SIG_LEN := by cases c <;> exact rfl
@[simp] theorem Block.noteSignature_DEV_PAGE (c : Cmd) (x : List Byte) (b : Block) : (Block.noteSignature c x b).DEV_PAGE = b.DEV_PAGE := by cases c <;> exact rfl
@[simp] theorem Block.noteSignature_SES_TIMEOUT (c : Cmd) (x : List Byte) (b : Block) : (Block.noteSignature c x b).SES_TIMEOUT = b.SES_TIMEOUT := by cases c <;> exact rfl
@[simp] theorem Block.noteSignature_SIG_EXPECT (c : Cmd) (x : List Byte) (b : Block) : (Block.noteSignature c x b).SIG_EXPECT = b.SIG_EXPECT := by cases c <;> exact rfl
@[simp] theorem Block.noteSignature_PARAM_LEN (c : Cmd) (x : List Byte) (b : Block) : (Block.noteSignature c x b).PARAM_LEN = b.PARAM_LEN := by cases c <;> exact rfl
@[simp] theorem Block.noteSignature_SES_ST (c : Cmd) (x : List Byte) (b : Block) : (Block.noteSignature c x b).SES_ST = b.SES_ST := by cases c <;> exact rfl
@[simp] theorem Block.noteSignature_INFLIGHT (c : Cmd) (x : List Byte) (b : Block) : (Block.noteSignature c x b).INFLIGHT = b.INFLIGHT := by cases c <;> exact rfl
@[simp] theorem Block.noteSignature_Q (c : Cmd) (x : List Byte) (b : Block) : (Block.noteSignature c x b).Q = b.Q := by cases c <;> exact rfl
@[simp] theorem Block.noteSignature_SEQ_IDX (c : Cmd) (x : List Byte) (b : Block) : (Block.noteSignature c x b).SEQ_IDX = b.SEQ_IDX := by cases c <;> exact rfl
@[simp] theorem Block.noteSignature_SEQ_LEN (c : Cmd) (x : List Byte) (b : Block) : (Block.noteSignature c x b).SEQ_LEN = b.SEQ_LEN := by cases c <;> exact rfl
@[simp] theorem Block.noteSignature_RB (c : Cmd) (x : List Byte) (b : Block) : (Block.noteSignature c x b).RB = b.RB := by cases c <;> exact rfl
@[simp] theorem Block.noteSignature_TMR (c : Cmd) (x : List Byte) (b : Block) : (Block.noteSignature c x b).TMR = b.TMR := by cases c <;> exact rfl
@[simp] theorem Block.noteSignature_WCUR (c : Cmd) (x : List Byte) (b : Block) : (Block.noteSignature c x b).WCUR = b.WCUR := by cases c <;> exact rfl
@[simp] theorem Block.noteSignature_WCUR_V (c : Cmd) (x : List Byte) (b : Block) : (Block.noteSignature c x b).WCUR_V = b.WCUR_V := by cases c <;> exact rfl
@[simp] theorem Block.noteSignature_LINK_CLOSED (c : Cmd) (x : List Byte) (b : Block) : (Block.noteSignature c x b).LINK_CLOSED = b.LINK_CLOSED := by cases c <;> exact rfl
@[simp] theorem Block.noteSignature_FAIL_REASON (c : Cmd) (x : List Byte) (b : Block) : (Block.noteSignature c x b).FAIL_REASON = b.FAIL_REASON := by cases c <;> exact rfl
@[simp] theorem Block.noteSignature_FAIL_KIND (c : Cmd) (x : List Byte) (b : Block) : (Block.noteSignature c x b).FAIL_KIND = b.FAIL_KIND := by cases c <;> exact rfl
@[simp] theorem Block.noteSignature_FAIL_IDX (c : Cmd) (x : List Byte) (b : Block) : (Block.noteSignature c x b).FAIL_IDX = b.FAIL_IDX := by cases c <;> exact rfl
@[simp] theorem Block.noteSignature_FAIL_ADDR (c : Cmd) (x : List Byte) (b : Block) : (Block.noteSignature c x b).FAIL_ADDR = b.FAIL_ADDR := by cases c <;> exact rfl
@[simp] theorem Block.noteSignature_FAIL_OFF (c : Cmd) (x : List Byte) (b : Block) : (Block.noteSignature c x b).FAIL_OFF = b.FAIL_OFF := by cases c <;> exact rfl
@[simp] theorem Block.noteSignature_FAIL_EXP (c : Cmd) (x : List Byte) (b : Block) : (Block.noteSignature c x b).FAIL_EXP = b.FAIL_EXP := by cases c <;> exact rfl
@[simp] theorem Block.noteSignature_FAIL_ACT (c : Cmd) (x : List Byte) (b : Block) : (Block.noteSignature c x b).FAIL_ACT = b.FAIL_ACT := by cases c <;> exact rfl
@[simp] theorem Block.noteSignature_REPORTS (c : Cmd) (x : List Byte) (b : Block) : (Block.noteSignature c x b).REPORTS = b.REPORTS := by cases c <;> exact rfl
@[simp] theorem Block.noteSignature_LAST_KIND (c : Cmd) (x : List Byte) (b : Block) : (Block.noteSignature c x b).LAST_KIND = b.LAST_KIND := by cases c <;> exact rfl
@[simp] theorem Block.noteSignature_LAST_RES (c : Cmd) (x : List Byte) (b : Block) : (Block.noteSignature c x b).LAST_RES = b.LAST_RES := by cases c <;> exact rfl
@[simp] theorem Block.noteSignature_LAST_IDX (c : Cmd) (x : List Byte) (b : Block) : (Block.noteSignature c x b).LAST_IDX = b.LAST_IDX := by cases c <;> exact rfl
@[simp] theorem Block.noteSignature_IRQ_STAT (c : Cmd) (x : List Byte) (b : Block) : (Block.noteSignature c x b).IRQ_STAT = b.IRQ_STAT := by cases c <;> exact rfl
@[simp] theorem Block.noteSignature_IRQ_EN (c : Cmd) (x : List Byte) (b : Block) : (Block.noteSignature c x b).IRQ_EN = b.IRQ_EN := by cases c <;> exact rfl
@[simp] theorem Block.noteSignature_CMD_ERRC (c : Cmd) (x : List Byte) (b : Block) : (Block.noteSignature c x b).CMD_ERRC = b.CMD_ERRC := by cases c <;> exact rfl
@[simp] theorem Block.noteSignature_CMD_ERRS (c : Cmd) (x : List Byte) (b : Block) : (Block.noteSignature c x b).CMD_ERRS = b.CMD_ERRS := by cases c <;> exact rfl

@[simp] theorem Block.discard_ACC (b : Block) : (Block.discard b).ACC = b.ACC := by unfold Block.discard; split <;> exact rfl
@[simp] theorem Block.discard_IMG (b : Block) : (Block.discard b).IMG = b.IMG := by unfold Block.discard; split <;> exact rfl
@[simp] theorem Block.discard_PARAM (b : Block) : (Block.discard b).PARAM = b.PARAM := by unfold Block.discard; split <;> exact rfl
@[simp] theorem Block.discard_IMG_BASE (b : Block) : (Block.discard b).IMG_BASE = b.IMG_BASE := by unfold Block.discard; split <;> exact rfl
@[simp] theorem Block.discard_IMG_LEN (b : Block) : (Block.discard b).IMG_LEN = b.IMG_LEN := by unfold Block.discard; split <;> exact rfl
@[simp] theorem Block.discard_LINE_LEN (b : Block) : (Block.discard b).LINE_LEN = b.LINE_LEN := by unfold Block.discard; split <;> exact rfl
@[simp] theorem Block.discard_PAGE_LOG2 (b : Block) : (Block.discard b).PAGE_LOG2 = b.PAGE_LOG2 := by unfold Block.discard; split <;> exact rfl
@[simp] theorem Block.discard_PAGE_EN (b : Block) : (Block.discard b).PAGE_EN = b.PAGE_EN := by unfold Block.discard; split <;> exact rfl
@[simp] theorem Block.discard_OMIT_NULL (b : Block) : (Block.discard b).OMIT_NULL = b.OMIT_NULL := by unfold Block.discard; split <;> exact rfl
@[simp] theorem Block.discard_ENC_ST (b : Block) : (Block.discard b).ENC_ST = b.ENC_ST := by unfold Block.discard; split <;> exact rfl
@[simp] theorem Block.discard_ENC_ERRC (b : Block) : (Block.discard b).ENC_ERRC = b.ENC_ERRC := by unfold Block.discard; split <;> exact rfl
@[simp] theorem Block.discard_ENC_NREC (b : Block) : (Block.discard b).ENC_NREC = b.ENC_NREC := by unfold Block.discard; split <;> exact rfl
@[simp] theorem Block.discard_OUTQ (b : Block) : (Block.discard b).OUTQ = b.OUTQ := by unfold Block.discard; split <;> exact rfl
@[simp] theorem Block.discard_MEMKIND (b : Block) : (Block.discard b).MEMKIND = b.MEMKIND := by unfold Block.discard; split <;> exact rfl
@[simp] theorem Block.discard_VERIFY (b : Block) : (Block.discard b).VERIFY = b.VERIFY := by unfold Block.discard; split <;> exact rfl
@[simp] theorem Block.discard_SIGCHK (b : Block) : (Block.discard b).SIGCHK = b.SIGCHK := by unfold Block.discard; split <;> exact rfl
@[simp] theorem Block.discard_SIG_LEN (b : Block) : (Block.discard b).SIG_LEN = b.SIG_LEN := by unfold Block.discard; split <;> exact rfl
@[simp] theorem Block.discard_DEV_PAGE (b : Block) : (Block.discard b).DEV_PAGE = b.DEV_PAGE := by unfold Block.discard; split <;> exact rfl
@[simp] theorem Block.discard_SES_TIMEOUT (b : Block) : (Block.discard b).SES_TIMEOUT = b.SES_TIMEOUT := by unfold Block.discard; split <;> exact rfl
@[simp] theorem Block.discard_SIG_EXPECT (b : Block) : (Block.discard b).SIG_EXPECT = b.SIG_EXPECT := by unfold Block.discard; split <;> exact rfl
@[simp] theorem Block.discard_PARAM_LEN (b : Block) : (Block.discard b).PARAM_LEN = b.PARAM_LEN := by unfold Block.discard; split <;> exact rfl
@[simp] theorem Block.discard_SES_ST (b : Block) : (Block.discard b).SES_ST = b.SES_ST := by unfold Block.discard; split <;> exact rfl
@[simp] theorem Block.discard_Q (b : Block) : (Block.discard b).Q = b.Q := by unfold Block.discard; split <;> exact rfl
@[simp] theorem Block.discard_SEQ_IDX (b : Block) : (Block.discard b).SEQ_IDX = b.SEQ_IDX := by unfold Block.discard; split <;> exact rfl
@[simp] theorem Block.discard_SEQ_LEN (b : Block) : (Block.discard b).SEQ_LEN = b.SEQ_LEN := by unfold Block.discard; split <;> exact rfl
@[simp] theorem Block.discard_RB (b : Block) : (Block.discard b).RB = b.RB := by unfold Block.discard; split <;> exact rfl
@[simp] theorem Block.discard_TMR (b : Block) : (Block.discard b).TMR = b.TMR := by unfold Block.discard; split <;> exact rfl
@[simp] theorem Block.discard_WCUR (b : Block) : (Block.discard b).WCUR = b.WCUR := by unfold Block.discard; split <;> exact rfl
@[simp] theorem Block.discard_WCUR_V (b : Block) : (Block.discard b).WCUR_V = b.WCUR_V := by unfold Block.discard; split <;> exact rfl
@[simp] theorem Block.discard_LINK_CLOSED (b : Block) : (Block.discard b).LINK_CLOSED = b.LINK_CLOSED := by unfold Block.discard; split <;> exact rfl
@[simp] theorem Block.discard_FAIL_REASON (b : Block) : (Block.discard b).FAIL_REASON = b.FAIL_REASON := by unfold Block.discard; split <;> exact rfl
@[simp] theorem Block.discard_FAIL_KIND (b : Block) : (Block.discard b).FAIL_KIND = b.FAIL_KIND := by unfold Block.discard; split <;> exact rfl
@[simp] theorem Block.discard_FAIL_IDX (b : Block) : (Block.discard b).FAIL_IDX = b.FAIL_IDX := by unfold Block.discard; split <;> exact rfl
@[simp] theorem Block.discard_FAIL_ADDR (b : Block) : (Block.discard b).FAIL_ADDR = b.FAIL_ADDR := by unfold Block.discard; split <;> exact rfl
@[simp] theorem Block.discard_FAIL_OFF (b : Block) : (Block.discard b).FAIL_OFF = b.FAIL_OFF := by unfold Block.discard; split <;> exact rfl
@[simp] theorem Block.discard_FAIL_EXP (b : Block) : (Block.discard b).FAIL_EXP = b.FAIL_EXP := by unfold Block.discard; split <;> exact rfl
@[simp] theorem Block.discard_FAIL_ACT (b : Block) : (Block.discard b).FAIL_ACT = b.FAIL_ACT := by unfold Block.discard; split <;> exact rfl
@[simp] theorem Block.discard_SIG_READ (b : Block) : (Block.discard b).SIG_READ = b.SIG_READ := by unfold Block.discard; split <;> exact rfl
@[simp] theorem Block.discard_IRQ_EN (b : Block) : (Block.discard b).IRQ_EN = b.IRQ_EN := by unfold Block.discard; split <;> exact rfl
@[simp] theorem Block.discard_CMD_ERRC (b : Block) : (Block.discard b).CMD_ERRC = b.CMD_ERRC := by unfold Block.discard; split <;> exact rfl
@[simp] theorem Block.discard_CMD_ERRS (b : Block) : (Block.discard b).CMD_ERRS = b.CMD_ERRS := by unfold Block.discard; split <;> exact rfl

/-! `Block.advance` -/

@[simp] theorem Block.advance_ACC (c : Cmd) (b : Block) : (Block.advance c b).ACC = b.ACC := by simp [Block.advance]
@[simp] theorem Block.advance_IMG (c : Cmd) (b : Block) : (Block.advance c b).IMG = b.IMG := by simp [Block.advance]
@[simp] theorem Block.advance_PARAM (c : Cmd) (b : Block) : (Block.advance c b).PARAM = b.PARAM := by simp [Block.advance]
@[simp] theorem Block.advance_IMG_BASE (c : Cmd) (b : Block) : (Block.advance c b).IMG_BASE = b.IMG_BASE := by simp [Block.advance]
@[simp] theorem Block.advance_IMG_LEN (c : Cmd) (b : Block) : (Block.advance c b).IMG_LEN = b.IMG_LEN := by simp [Block.advance]
@[simp] theorem Block.advance_LINE_LEN (c : Cmd) (b : Block) : (Block.advance c b).LINE_LEN = b.LINE_LEN := by simp [Block.advance]
@[simp] theorem Block.advance_PAGE_LOG2 (c : Cmd) (b : Block) : (Block.advance c b).PAGE_LOG2 = b.PAGE_LOG2 := by simp [Block.advance]
@[simp] theorem Block.advance_PAGE_EN (c : Cmd) (b : Block) : (Block.advance c b).PAGE_EN = b.PAGE_EN := by simp [Block.advance]
@[simp] theorem Block.advance_OMIT_NULL (c : Cmd) (b : Block) : (Block.advance c b).OMIT_NULL = b.OMIT_NULL := by simp [Block.advance]
@[simp] theorem Block.advance_ENC_ST (c : Cmd) (b : Block) : (Block.advance c b).ENC_ST = b.ENC_ST := by simp [Block.advance]
@[simp] theorem Block.advance_ENC_ERRC (c : Cmd) (b : Block) : (Block.advance c b).ENC_ERRC = b.ENC_ERRC := by simp [Block.advance]
@[simp] theorem Block.advance_ENC_NREC (c : Cmd) (b : Block) : (Block.advance c b).ENC_NREC = b.ENC_NREC := by simp [Block.advance]
@[simp] theorem Block.advance_OUTQ (c : Cmd) (b : Block) : (Block.advance c b).OUTQ = b.OUTQ := by simp [Block.advance]
@[simp] theorem Block.advance_MEMKIND (c : Cmd) (b : Block) : (Block.advance c b).MEMKIND = b.MEMKIND := by simp [Block.advance]
@[simp] theorem Block.advance_VERIFY (c : Cmd) (b : Block) : (Block.advance c b).VERIFY = b.VERIFY := by simp [Block.advance]
@[simp] theorem Block.advance_SIGCHK (c : Cmd) (b : Block) : (Block.advance c b).SIGCHK = b.SIGCHK := by simp [Block.advance]
@[simp] theorem Block.advance_SIG_LEN (c : Cmd) (b : Block) : (Block.advance c b).SIG_LEN = b.SIG_LEN := by simp [Block.advance]
@[simp] theorem Block.advance_DEV_PAGE (c : Cmd) (b : Block) : (Block.advance c b).DEV_PAGE = b.DEV_PAGE := by simp [Block.advance]
@[simp] theorem Block.advance_SES_TIMEOUT (c : Cmd) (b : Block) : (Block.advance c b).SES_TIMEOUT = b.SES_TIMEOUT := by simp [Block.advance]
@[simp] theorem Block.advance_SIG_EXPECT (c : Cmd) (b : Block) : (Block.advance c b).SIG_EXPECT = b.SIG_EXPECT := by simp [Block.advance]
@[simp] theorem Block.advance_PARAM_LEN (c : Cmd) (b : Block) : (Block.advance c b).PARAM_LEN = b.PARAM_LEN := by simp [Block.advance]
@[simp] theorem Block.advance_SES_ST (c : Cmd) (b : Block) : (Block.advance c b).SES_ST = b.SES_ST := by simp [Block.advance]
@[simp] theorem Block.advance_INFLIGHT (c : Cmd) (b : Block) : (Block.advance c b).INFLIGHT = none := rfl
@[simp] theorem Block.advance_Q (c : Cmd) (b : Block) : (Block.advance c b).Q = b.Q := by simp [Block.advance]
@[simp] theorem Block.advance_SEQ_IDX (c : Cmd) (b : Block) : (Block.advance c b).SEQ_IDX = b.SEQ_IDX + 1 := rfl
@[simp] theorem Block.advance_SEQ_LEN (c : Cmd) (b : Block) : (Block.advance c b).SEQ_LEN = b.SEQ_LEN := by simp [Block.advance]
@[simp] theorem Block.advance_RB (c : Cmd) (b : Block) : (Block.advance c b).RB = b.RB := by simp [Block.advance]
@[simp] theorem Block.advance_TMR (c : Cmd) (b : Block) : (Block.advance c b).TMR = b.TMR := by simp [Block.advance]
@[simp] theorem Block.advance_WCUR (c : Cmd) (b : Block) : (Block.advance c b).WCUR = (b.noteCursor c).WCUR := rfl
@[simp] theorem Block.advance_WCUR_V (c : Cmd) (b : Block) : (Block.advance c b).WCUR_V = (b.noteCursor c).WCUR_V := rfl
@[simp] theorem Block.advance_LINK_CLOSED (c : Cmd) (b : Block) : (Block.advance c b).LINK_CLOSED = b.LINK_CLOSED := by simp [Block.advance]
@[simp] theorem Block.advance_FAIL_REASON (c : Cmd) (b : Block) : (Block.advance c b).FAIL_REASON = b.FAIL_REASON := by simp [Block.advance]
@[simp] theorem Block.advance_FAIL_KIND (c : Cmd) (b : Block) : (Block.advance c b).FAIL_KIND = b.FAIL_KIND := by simp [Block.advance]
@[simp] theorem Block.advance_FAIL_IDX (c : Cmd) (b : Block) : (Block.advance c b).FAIL_IDX = b.FAIL_IDX := by simp [Block.advance]
@[simp] theorem Block.advance_FAIL_ADDR (c : Cmd) (b : Block) : (Block.advance c b).FAIL_ADDR = b.FAIL_ADDR := by simp [Block.advance]
@[simp] theorem Block.advance_FAIL_OFF (c : Cmd) (b : Block) : (Block.advance c b).FAIL_OFF = b.FAIL_OFF := by simp [Block.advance]
@[simp] theorem Block.advance_FAIL_EXP (c : Cmd) (b : Block) : (Block.advance c b).FAIL_EXP = b.FAIL_EXP := by simp [Block.advance]
@[simp] theorem Block.advance_FAIL_ACT (c : Cmd) (b : Block) : (Block.advance c b).FAIL_ACT = b.FAIL_ACT := by simp [Block.advance]
@[simp] theorem Block.advance_SIG_READ (c : Cmd) (b : Block) : (Block.advance c b).SIG_READ = b.SIG_READ := by simp [Block.advance]
@[simp] theorem Block.advance_REPORTS (c : Cmd) (b : Block) : (Block.advance c b).REPORTS = b.REPORTS + 1 := by simp [Block.advance]
@[simp] theorem Block.advance_LAST_KIND (c : Cmd) (b : Block) : (Block.advance c b).LAST_KIND = some c.kind := rfl
@[simp] theorem Block.advance_LAST_RES (c : Cmd) (b : Block) : (Block.advance c b).LAST_RES = .ok := rfl
@[simp] theorem Block.advance_LAST_IDX (c : Cmd) (b : Block) : (Block.advance c b).LAST_IDX = b.SEQ_IDX.extractLsb' 0 24 := rfl
@[simp] theorem Block.advance_IRQ_STAT (c : Cmd) (b : Block) : (Block.advance c b).IRQ_STAT = b.IRQ_STAT ||| IrqBit.cmdRpt.mask := by simp [Block.advance]
@[simp] theorem Block.advance_IRQ_EN (c : Cmd) (b : Block) : (Block.advance c b).IRQ_EN = b.IRQ_EN := by simp [Block.advance]
@[simp] theorem Block.advance_CMD_ERRC (c : Cmd) (b : Block) : (Block.advance c b).CMD_ERRC = b.CMD_ERRC := by simp [Block.advance]
@[simp] theorem Block.advance_CMD_ERRS (c : Cmd) (b : Block) : (Block.advance c b).CMD_ERRS = b.CMD_ERRS := by simp [Block.advance]

/-! `Block.finish`, `Block.moveOn` -/

@[simp] theorem Block.finish_ACC (c : Cmd) (b : Block) : (Block.finish c b).ACC = b.ACC := by simp [Block.finish]
@[simp] theorem Block.finish_IMG (c : Cmd) (b : Block) : (Block.finish c b).IMG = b.IMG := by simp [Block.finish]
@[simp] theorem Block.finish_PARAM (c : Cmd) (b : Block) : (Block.finish c b).PARAM = b.PARAM := by simp [Block.finish]
@[simp] theorem Block.finish_IMG_BASE (c : Cmd) (b : Block) : (Block.finish c b).IMG_BASE = b.IMG_BASE := by simp [Block.finish]
@[simp] theorem Block.finish_IMG_LEN (c : Cmd) (b : Block) : (Block.finish c b).IMG_LEN = b.IMG_LEN := by simp [Block.finish]
@[simp] theorem Block.finish_LINE_LEN (c : Cmd) (b : Block) : (Block.finish c b).LINE_LEN = b.LINE_LEN := by simp [Block.finish]
@[simp] theorem Block.finish_PAGE_LOG2 (c : Cmd) (b : Block) : (Block.finish c b).PAGE_LOG2 = b.PAGE_LOG2 := by simp [Block.finish]
@[simp] theorem Block.finish_PAGE_EN (c : Cmd) (b : Block) : (Block.finish c b).PAGE_EN = b.PAGE_EN := by simp [Block.finish]
@[simp] theorem Block.finish_OMIT_NULL (c : Cmd) (b : Block) : (Block.finish c b).OMIT_NULL = b.OMIT_NULL := by simp [Block.finish]
@[simp] theorem Block.finish_ENC_ST (c : Cmd) (b : Block) : (Block.finish c b).ENC_ST = b.ENC_ST := by simp [Block.finish]
@[simp] theorem Block.finish_ENC_ERRC (c : Cmd) (b : Block) : (Block.finish c b).ENC_ERRC = b.ENC_ERRC := by simp [Block.finish]
@[simp] theorem Block.finish_ENC_NREC (c : Cmd) (b : Block) : (Block.finish c b).ENC_NREC = b.ENC_NREC := by simp [Block.finish]
@[simp] theorem Block.finish_OUTQ (c : Cmd) (b : Block) : (Block.finish c b).OUTQ = b.OUTQ := by simp [Block.finish]
@[simp] theorem Block.finish_MEMKIND (c : Cmd) (b : Block) : (Block.finish c b).MEMKIND = b.MEMKIND := by simp [Block.finish]
@[simp] theorem Block.finish_VERIFY (c : Cmd) (b : Block) : (Block.finish c b).VERIFY = b.VERIFY := by simp [Block.finish]
@[simp] theorem Block.finish_SIGCHK (c : Cmd) (b : Block) : (Block.finish c b).SIGCHK = b.SIGCHK := by simp [Block.finish]
@[simp] theorem Block.finish_SIG_LEN (c : Cmd) (b : Block) : (Block.finish c b).SIG_LEN = b.SIG_LEN := by simp [Block.finish]
@[simp] theorem Block.finish_DEV_PAGE (c : Cmd) (b : Block) : (Block.finish c b).DEV_PAGE = b.DEV_PAGE := by simp [Block.finish]
@[simp] theorem Block.finish_SES_TIMEOUT (c : Cmd) (b : Block) : (Block.finish c b).SES_TIMEOUT = b.SES_TIMEOUT := by simp [Block.finish]
@[simp] theorem Block.finish_SIG_EXPECT (c : Cmd) (b : Block) : (Block.finish c b).SIG_EXPECT = b.SIG_EXPECT := by simp [Block.finish]
@[simp] theorem Block.finish_PARAM_LEN (c : Cmd) (b : Block) : (Block.finish c b).PARAM_LEN = b.PARAM_LEN := by simp [Block.finish]
@[simp] theorem Block.finish_SES_ST (c : Cmd) (b : Block) : (Block.finish c b).SES_ST = .done := rfl
@[simp] theorem Block.finish_INFLIGHT (c : Cmd) (b : Block) : (Block.finish c b).INFLIGHT = none := by simp [Block.finish]
@[simp] theorem Block.finish_Q (c : Cmd) (b : Block) : (Block.finish c b).Q = b.Q := by simp [Block.finish]
@[simp] theorem Block.finish_SEQ_IDX (c : Cmd) (b : Block) : (Block.finish c b).SEQ_IDX = b.SEQ_IDX + 1 := by simp [Block.finish]
@[simp] theorem Block.finish_SEQ_LEN (c : Cmd) (b : Block) : (Block.finish c b).SEQ_LEN = b.SEQ_LEN := by simp [Block.finish]
@[simp] theorem Block.finish_RB (c : Cmd) (b : Block) : (Block.finish c b).RB = b.RB := by simp [Block.finish]
@[simp] theorem Block.finish_TMR (c : Cmd) (b : Block) : (Block.finish c b).TMR = b.TMR := by simp [Block.finish]
@[simp] theorem Block.finish_WCUR (c : Cmd) (b : Block) : (Block.finish c b).WCUR = (b.noteCursor c).WCUR := by simp [Block.finish]
@[simp] theorem Block.finish_WCUR_V (c : Cmd) (b : Block) : (Block.finish c b).WCUR_V = (b.noteCursor c).WCUR_V := by simp [Block.finish]
@[simp] theorem Block.finish_LINK_CLOSED (c : Cmd) (b : Block) : (Block.finish c b).LINK_CLOSED = b.LINK_CLOSED := by simp [Block.finish]
@[simp] theorem Block.finish_FAIL_REASON (c : Cmd) (b : Block) : (Block.finish c b).FAIL_REASON = b.FAIL_REASON := by simp [Block.finish]
@[simp] theorem Block.finish_FAIL_KIND (c : Cmd) (b : Block) : (Block.finish c b).FAIL_KIND = b.FAIL_KIND := by simp [Block.finish]
@[simp] theorem Block.finish_FAIL_IDX (c : Cmd) (b : Block) : (Block.finish c b).FAIL_IDX = b.FAIL_IDX := by simp [Block.finish]
@[simp] theorem Block.finish_FAIL_ADDR (c : Cmd) (b : Block) : (Block.finish c b).FAIL_ADDR = b.FAIL_ADDR := by simp [Block.finish]
@[simp] theorem Block.finish_FAIL_OFF (c : Cmd) (b : Block) : (Block.finish c b).FAIL_OFF = b.FAIL_OFF := by simp [Block.finish]
@[simp] theorem Block.finish_FAIL_EXP (c : Cmd) (b : Block) : (Block.finish c b).FAIL_EXP = b.FAIL_EXP := by simp [Block.finish]
@[simp] theorem Block.finish_FAIL_ACT (c : Cmd) (b : Block) : (Block.finish c b).FAIL_ACT = b.FAIL_ACT := by simp [Block.finish]
@[simp] theorem Block.finish_SIG_READ (c : Cmd) (b : Block) : (Block.finish c b).SIG_READ = b.SIG_READ := by simp [Block.finish]
@[simp] theorem Block.finish_REPORTS (c : Cmd) (b : Block) : (Block.finish c b).REPORTS = b.REPORTS + 1 := by simp [Block.finish]
@[simp] theorem Block.finish_LAST_KIND (c : Cmd) (b : Block) : (Block.finish c b).LAST_KIND = some c.kind := by simp [Block.finish]
@[simp] theorem Block.finish_LAST_RES (c : Cmd) (b : Block) : (Block.finish c b).LAST_RES = .ok := by simp [Block.finish]
@[simp] theorem Block.finish_LAST_IDX (c : Cmd) (b : Block) : (Block.finish c b).LAST_IDX = b.SEQ_IDX.extractLsb' 0 24 := by simp [Block.finish]
@[simp] theorem Block.finish_IRQ_STAT (c : Cmd) (b : Block) : (Block.finish c b).IRQ_STAT = b.IRQ_STAT ||| IrqBit.cmdRpt.mask ||| IrqBit.sesDone.mask := by simp [Block.finish]
@[simp] theorem Block.finish_IRQ_EN (c : Cmd) (b : Block) : (Block.finish c b).IRQ_EN = b.IRQ_EN := by simp [Block.finish]
@[simp] theorem Block.finish_CMD_ERRC (c : Cmd) (b : Block) : (Block.finish c b).CMD_ERRC = b.CMD_ERRC := by simp [Block.finish]
@[simp] theorem Block.finish_CMD_ERRS (c : Cmd) (b : Block) : (Block.finish c b).CMD_ERRS = b.CMD_ERRS := by simp [Block.finish]

@[simp] theorem Block.moveOn_ACC (c : Cmd) (b : Block) : (Block.moveOn c b).ACC = b.ACC := by simp [Block.moveOn]
@[simp] theorem Block.moveOn_IMG (c : Cmd) (b : Block) : (Block.moveOn c b).IMG = b.IMG := by simp [Block.moveOn]
@[simp] theorem Block.moveOn_PARAM (c : Cmd) (b : Block) : (Block.moveOn c b).PARAM = b.PARAM := by simp [Block.moveOn]
@[simp] theorem Block.moveOn_IMG_BASE (c : Cmd) (b : Block) : (Block.moveOn c b).IMG_BASE = b.IMG_BASE := by simp [Block.moveOn]
@[simp] theorem Block.moveOn_IMG_LEN (c : Cmd) (b : Block) : (Block.moveOn c b).IMG_LEN = b.IMG_LEN := by simp [Block.moveOn]
@[simp] theorem Block.moveOn_LINE_LEN (c : Cmd) (b : Block) : (Block.moveOn c b).LINE_LEN = b.LINE_LEN := by simp [Block.moveOn]
@[simp] theorem Block.moveOn_PAGE_LOG2 (c : Cmd) (b : Block) : (Block.moveOn c b).PAGE_LOG2 = b.PAGE_LOG2 := by simp [Block.moveOn]
@[simp] theorem Block.moveOn_PAGE_EN (c : Cmd) (b : Block) : (Block.moveOn c b).PAGE_EN = b.PAGE_EN := by simp [Block.moveOn]
@[simp] theorem Block.moveOn_OMIT_NULL (c : Cmd) (b : Block) : (Block.moveOn c b).OMIT_NULL = b.OMIT_NULL := by simp [Block.moveOn]
@[simp] theorem Block.moveOn_ENC_ST (c : Cmd) (b : Block) : (Block.moveOn c b).ENC_ST = b.ENC_ST := by simp [Block.moveOn]
@[simp] theorem Block.moveOn_ENC_ERRC (c : Cmd) (b : Block) : (Block.moveOn c b).ENC_ERRC = b.ENC_ERRC := by simp [Block.moveOn]
@[simp] theorem Block.moveOn_ENC_NREC (c : Cmd) (b : Block) : (Block.moveOn c b).ENC_NREC = b.ENC_NREC := by simp [Block.moveOn]
@[simp] theorem Block.moveOn_OUTQ (c : Cmd) (b : Block) : (Block.moveOn c b).OUTQ = b.OUTQ := by simp [Block.moveOn]
@[simp] theorem Block.moveOn_MEMKIND (c : Cmd) (b : Block) : (Block.moveOn c b).MEMKIND = b.MEMKIND := by simp [Block.moveOn]
@[simp] theorem Block.moveOn_VERIFY (c : Cmd) (b : Block) : (Block.moveOn c b).VERIFY = b.VERIFY := by simp [Block.moveOn]
@[simp] theorem Block.moveOn_SIGCHK (c : Cmd) (b : Block) : (Block.moveOn c b).SIGCHK = b.SIGCHK := by simp [Block.moveOn]
@[simp] theorem Block.moveOn_SIG_LEN (c : Cmd) (b : Block) : (Block.moveOn c b).SIG_LEN = b.SIG_LEN := by simp [Block.moveOn]
@[simp] theorem Block.moveOn_DEV_PAGE (c : Cmd) (b : Block) : (Block.moveOn c b).DEV_PAGE = b.DEV_PAGE := by simp [Block.moveOn]
@[simp] theorem Block.moveOn_SES_TIMEOUT (c : Cmd) (b : Block) : (Block.moveOn c b).SES_TIMEOUT = b.SES_TIMEOUT := by simp [Block.moveOn]
@[simp] theorem Block.moveOn_SIG_EXPECT (c : Cmd) (b : Block) : (Block.moveOn c b).SIG_EXPECT = b.SIG_EXPECT := by simp [Block.moveOn]
@[simp] theorem Block.moveOn_PARAM_LEN (c : Cmd) (b : Block) : (Block.moveOn c b).PARAM_LEN = b.PARAM_LEN := by simp [Block.moveOn]
@[simp] theorem Block.moveOn_SES_ST (c : Cmd) (b : Block) : (Block.moveOn c b).SES_ST = phaseOf c.kind := rfl
@[simp] theorem Block.moveOn_INFLIGHT (c : Cmd) (b : Block) : (Block.moveOn c b).INFLIGHT = none := by simp [Block.moveOn]
@[simp] theorem Block.moveOn_Q (c : Cmd) (b : Block) : (Block.moveOn c b).Q = b.Q := by simp [Block.moveOn]
@[simp] theorem Block.moveOn_SEQ_IDX (c : Cmd) (b : Block) : (Block.moveOn c b).SEQ_IDX = b.SEQ_IDX + 1 := by simp [Block.moveOn]
@[simp] theorem Block.moveOn_SEQ_LEN (c : Cmd) (b : Block) : (Block.moveOn c b).SEQ_LEN = b.SEQ_LEN := by simp [Block.moveOn]
@[simp] theorem Block.moveOn_RB (c : Cmd) (b : Block) : (Block.moveOn c b).RB = b.RB := by simp [Block.moveOn]
@[simp] theorem Block.moveOn_TMR (c : Cmd) (b : Block) : (Block.moveOn c b).TMR = b.TMR := by simp [Block.moveOn]
@[simp] theorem Block.moveOn_WCUR (c : Cmd) (b : Block) : (Block.moveOn c b).WCUR = (b.noteCursor c).WCUR := by simp [Block.moveOn]
@[simp] theorem Block.moveOn_WCUR_V (c : Cmd) (b : Block) : (Block.moveOn c b).WCUR_V = (b.noteCursor c).WCUR_V := by simp [Block.moveOn]
@[simp] theorem Block.moveOn_LINK_CLOSED (c : Cmd) (b : Block) : (Block.moveOn c b).LINK_CLOSED = b.LINK_CLOSED := by simp [Block.moveOn]
@[simp] theorem Block.moveOn_FAIL_REASON (c : Cmd) (b : Block) : (Block.moveOn c b).FAIL_REASON = b.FAIL_REASON := by simp [Block.moveOn]
@[simp] theorem Block.moveOn_FAIL_KIND (c : Cmd) (b : Block) : (Block.moveOn c b).FAIL_KIND = b.FAIL_KIND := by simp [Block.moveOn]
@[simp] theorem Block.moveOn_FAIL_IDX (c : Cmd) (b : Block) : (Block.moveOn c b).FAIL_IDX = b.FAIL_IDX := by simp [Block.moveOn]
@[simp] theorem Block.moveOn_FAIL_ADDR (c : Cmd) (b : Block) : (Block.moveOn c b).FAIL_ADDR = b.FAIL_ADDR := by simp [Block.moveOn]
@[simp] theorem Block.moveOn_FAIL_OFF (c : Cmd) (b : Block) : (Block.moveOn c b).FAIL_OFF = b.FAIL_OFF := by simp [Block.moveOn]
@[simp] theorem Block.moveOn_FAIL_EXP (c : Cmd) (b : Block) : (Block.moveOn c b).FAIL_EXP = b.FAIL_EXP := by simp [Block.moveOn]
@[simp] theorem Block.moveOn_FAIL_ACT (c : Cmd) (b : Block) : (Block.moveOn c b).FAIL_ACT = b.FAIL_ACT := by simp [Block.moveOn]
@[simp] theorem Block.moveOn_SIG_READ (c : Cmd) (b : Block) : (Block.moveOn c b).SIG_READ = b.SIG_READ := by simp [Block.moveOn]
@[simp] theorem Block.moveOn_REPORTS (c : Cmd) (b : Block) : (Block.moveOn c b).REPORTS = b.REPORTS + 1 := by simp [Block.moveOn]
@[simp] theorem Block.moveOn_LAST_KIND (c : Cmd) (b : Block) : (Block.moveOn c b).LAST_KIND = some c.kind := by simp [Block.moveOn]
@[simp] theorem Block.moveOn_LAST_RES (c : Cmd) (b : Block) : (Block.moveOn c b).LAST_RES = .ok := by simp [Block.moveOn]
@[simp] theorem Block.moveOn_LAST_IDX (c : Cmd) (b : Block) : (Block.moveOn c b).LAST_IDX = b.SEQ_IDX.extractLsb' 0 24 := by simp [Block.moveOn]
@[simp] theorem Block.moveOn_IRQ_STAT (c : Cmd) (b : Block) : (Block.moveOn c b).IRQ_STAT = b.IRQ_STAT ||| IrqBit.cmdRpt.mask := by simp [Block.moveOn]
@[simp] theorem Block.moveOn_IRQ_EN (c : Cmd) (b : Block) : (Block.moveOn c b).IRQ_EN = b.IRQ_EN := by simp [Block.moveOn]
@[simp] theorem Block.moveOn_CMD_ERRC (c : Cmd) (b : Block) : (Block.moveOn c b).CMD_ERRC = b.CMD_ERRC := by simp [Block.moveOn]
@[simp] theorem Block.moveOn_CMD_ERRS (c : Cmd) (b : Block) : (Block.moveOn c b).CMD_ERRS = b.CMD_ERRS := by simp [Block.moveOn]

/-! Updates of the state -/

@[simp] theorem State.mapBlk_cfg (f : Block → Block) (s : State) : (State.mapBlk f s).cfg = s.cfg := rfl
@[simp] theorem State.mapBlk_blk (f : Block → Block) (s : State) : (State.mapBlk f s).blk = f s.blk := rfl
@[simp] theorem State.mapBlk_powerOns (f : Block → Block) (s : State) : (State.mapBlk f s).powerOns = s.powerOns := rfl
@[simp] theorem State.mapBlk_linkAnswers (f : Block → Block) (s : State) : (State.mapBlk f s).linkAnswers = s.linkAnswers := rfl
@[simp] theorem State.mapBlk_tx (f : Block → Block) (s : State) : (State.mapBlk f s).tx = s.tx := rfl
@[simp] theorem State.mapBlk_reads (f : Block → Block) (s : State) : (State.mapBlk f s).reads = s.reads := rfl
@[simp] theorem State.mapBlk_cycles (f : Block → Block) (s : State) : (State.mapBlk f s).cycles = s.cycles := rfl

@[simp] theorem State.cmdErr_cfg (c : CmdErrCode) (s : State) : (State.cmdErr c s).cfg = s.cfg := rfl
@[simp] theorem State.cmdErr_blk (c : CmdErrCode) (s : State) : (State.cmdErr c s).blk = s.blk.cmdErr c .noSub := rfl
@[simp] theorem State.cmdErr_powerOns (c : CmdErrCode) (s : State) : (State.cmdErr c s).powerOns = s.powerOns := rfl
@[simp] theorem State.cmdErr_linkAnswers (c : CmdErrCode) (s : State) : (State.cmdErr c s).linkAnswers = s.linkAnswers := rfl
@[simp] theorem State.cmdErr_tx (c : CmdErrCode) (s : State) : (State.cmdErr c s).tx = s.tx := rfl
@[simp] theorem State.cmdErr_reads (c : CmdErrCode) (s : State) : (State.cmdErr c s).reads = s.reads := rfl
@[simp] theorem State.cmdErr_cycles (c : CmdErrCode) (s : State) : (State.cmdErr c s).cycles = s.cycles := rfl

@[simp] theorem State.cfgErr_cfg (e : SesCfgErr) (s : State) : (State.cfgErr e s).cfg = s.cfg := rfl
@[simp] theorem State.cfgErr_blk (e : SesCfgErr) (s : State) : (State.cfgErr e s).blk = s.blk.cmdErr .sesCfgInvalid e := rfl
@[simp] theorem State.cfgErr_powerOns (e : SesCfgErr) (s : State) : (State.cfgErr e s).powerOns = s.powerOns := rfl
@[simp] theorem State.cfgErr_linkAnswers (e : SesCfgErr) (s : State) : (State.cfgErr e s).linkAnswers = s.linkAnswers := rfl
@[simp] theorem State.cfgErr_tx (e : SesCfgErr) (s : State) : (State.cfgErr e s).tx = s.tx := rfl
@[simp] theorem State.cfgErr_reads (e : SesCfgErr) (s : State) : (State.cfgErr e s).reads = s.reads := rfl
@[simp] theorem State.cfgErr_cycles (e : SesCfgErr) (s : State) : (State.cfgErr e s).cycles = s.cycles := rfl

@[simp] theorem State.reply_cfg (r : HostRead) (s : State) : (State.reply r s).cfg = s.cfg := rfl
@[simp] theorem State.reply_blk (r : HostRead) (s : State) : (State.reply r s).blk = s.blk := rfl
@[simp] theorem State.reply_powerOns (r : HostRead) (s : State) : (State.reply r s).powerOns = s.powerOns := rfl
@[simp] theorem State.reply_linkAnswers (r : HostRead) (s : State) : (State.reply r s).linkAnswers = s.linkAnswers := rfl
@[simp] theorem State.reply_tx (r : HostRead) (s : State) : (State.reply r s).tx = s.tx := rfl
@[simp] theorem State.reply_reads (r : HostRead) (s : State) : (State.reply r s).reads = s.reads ++ [r] := rfl
@[simp] theorem State.reply_cycles (r : HostRead) (s : State) : (State.reply r s).cycles = s.cycles := rfl

@[simp] theorem State.emitTx_cfg (x : List Byte) (s : State) : (State.emitTx x s).cfg = s.cfg := rfl
@[simp] theorem State.emitTx_blk (x : List Byte) (s : State) : (State.emitTx x s).blk = s.blk := rfl
@[simp] theorem State.emitTx_powerOns (x : List Byte) (s : State) : (State.emitTx x s).powerOns = s.powerOns := rfl
@[simp] theorem State.emitTx_linkAnswers (x : List Byte) (s : State) : (State.emitTx x s).linkAnswers = s.linkAnswers.drop 1 := rfl
@[simp] theorem State.emitTx_tx (x : List Byte) (s : State) : (State.emitTx x s).tx = s.tx ++ [⟨x, s.nextAnswer⟩] := rfl
@[simp] theorem State.emitTx_reads (x : List Byte) (s : State) : (State.emitTx x s).reads = s.reads := rfl
@[simp] theorem State.emitTx_cycles (x : List Byte) (s : State) : (State.emitTx x s).cycles = s.cycles := rfl

@[simp] theorem State.powerOn_cfg (s : State) : (State.powerOn s).cfg = s.cfg := rfl
@[simp] theorem State.powerOn_blk (s : State) : (State.powerOn s).blk = Block.reset := rfl
@[simp] theorem State.powerOn_powerOns (s : State) : (State.powerOn s).powerOns = s.powerOns + 1 := rfl
@[simp] theorem State.powerOn_linkAnswers (s : State) : (State.powerOn s).linkAnswers = s.linkAnswers := rfl
@[simp] theorem State.powerOn_tx (s : State) : (State.powerOn s).tx = s.tx := rfl
@[simp] theorem State.powerOn_reads (s : State) : (State.powerOn s).reads = s.reads := rfl
@[simp] theorem State.powerOn_cycles (s : State) : (State.powerOn s).cycles = s.cycles := rfl

@[simp] theorem State.failWith_cfg (r : FailReason) (x : FailCtx) (s : State) : (State.failWith r x s).cfg = s.cfg := rfl
@[simp] theorem State.failWith_blk (r : FailReason) (x : FailCtx) (s : State) : (State.failWith r x s).blk = s.blk.fail r x := rfl
@[simp] theorem State.failWith_powerOns (r : FailReason) (x : FailCtx) (s : State) : (State.failWith r x s).powerOns = s.powerOns := rfl
@[simp] theorem State.failWith_linkAnswers (r : FailReason) (x : FailCtx) (s : State) : (State.failWith r x s).linkAnswers = s.linkAnswers := rfl
@[simp] theorem State.failWith_tx (r : FailReason) (x : FailCtx) (s : State) : (State.failWith r x s).tx = s.tx := rfl
@[simp] theorem State.failWith_reads (r : FailReason) (x : FailCtx) (s : State) : (State.failWith r x s).reads = s.reads := rfl
@[simp] theorem State.failWith_cycles (r : FailReason) (x : FailCtx) (s : State) : (State.failWith r x s).cycles = s.cycles := rfl

end Sys2Proof.Machine
end

