-- ==== Sys2Proof/Laws/Session.lean ====
section
/-! SUPPORT. Laws of the session engine: what issue, completion check and byte arrival can do, said once. -/

namespace Sys2Proof.Machine

/-! ### What the session engine leaves alone -/

/-- `t` differs from `s` only in the state of a running session: SES_ST, INFLIGHT, SEQ_IDX, RB, TMR, the cursor, the failure
record, SIG_READ, the reports, more IRQ_STAT bits, more frames written and fewer answers to come. -/
structure OnlySession (s t : State) : Prop where
  cfg : t.cfg = s.cfg
  powerOns : t.powerOns = s.powerOns
  reads : t.reads = s.reads
  cycles : t.cycles = s.cycles
  tx : s.tx <+: t.tx
  irq : ∀ i, s.blk.IRQ_STAT.getLsbD i = true → t.blk.IRQ_STAT.getLsbD i = true
  ACC : t.blk.ACC = s.blk.ACC
  IMG : t.blk.IMG = s.blk.IMG
  PARAM : t.blk.PARAM = s.blk.PARAM
  IMG_BASE : t.blk.IMG_BASE = s.blk.IMG_BASE
  IMG_LEN : t.blk.IMG_LEN = s.blk.IMG_LEN
  LINE_LEN : t.blk.LINE_LEN = s.blk.LINE_LEN
  PAGE_LOG2 : t.blk.PAGE_LOG2 = s.blk.PAGE_LOG2
  PAGE_EN : t.blk.PAGE_EN = s.blk.PAGE_EN
  OMIT_NULL : t.blk.OMIT_NULL = s.blk.OMIT_NULL
  ENC_ST : t.blk.ENC_ST = s.blk.ENC_ST
  ENC_ERRC : t.blk.ENC_ERRC = s.blk.ENC_ERRC
  ENC_NREC : t.blk.ENC_NREC = s.blk.ENC_NREC
  OUTQ : t.blk.OUTQ = s.blk.OUTQ
  MEMKIND : t.blk.MEMKIND = s.blk.MEMKIND
  VERIFY : t.blk.VERIFY = s.blk.VERIFY
  SIGCHK : t.blk.SIGCHK = s.blk.SIGCHK
  SIG_LEN : t.blk.SIG_LEN = s.blk.SIG_LEN
  DEV_PAGE : t.blk.DEV_PAGE = s.blk.DEV_PAGE
  SES_TIMEOUT : t.blk.SES_TIMEOUT = s.blk.SES_TIMEOUT
  SIG_EXPECT : t.blk.SIG_EXPECT = s.blk.SIG_EXPECT
  PARAM_LEN : t.blk.PARAM_LEN = s.blk.PARAM_LEN
  Q : t.blk.Q = s.blk.Q
  SEQ_LEN : t.blk.SEQ_LEN = s.blk.SEQ_LEN
  LINK_CLOSED : t.blk.LINK_CLOSED = s.blk.LINK_CLOSED
  IRQ_EN : t.blk.IRQ_EN = s.blk.IRQ_EN
  CMD_ERRC : t.blk.CMD_ERRC = s.blk.CMD_ERRC
  CMD_ERRS : t.blk.CMD_ERRS = s.blk.CMD_ERRS

theorem OnlySession.refl (s : State) : OnlySession s s := by
  constructor <;> first | rfl | exact List.prefix_rfl | exact fun _ h => h

theorem OnlySession.trans {s t u : State} (h : OnlySession s t) (k : OnlySession t u) : OnlySession s u := by
  constructor
  case tx => exact h.tx.trans k.tx
  case irq => exact fun i hi => k.irq i (h.irq i hi)
  case cfg => exact k.cfg.trans h.cfg
  case powerOns => exact k.powerOns.trans h.powerOns
  case reads => exact k.reads.trans h.reads
  case cycles => exact k.cycles.trans h.cycles
  case ACC => exact k.ACC.trans h.ACC
  case IMG => exact k.IMG.trans h.IMG
  case PARAM => exact k.PARAM.trans h.PARAM
  case IMG_BASE => exact k.IMG_BASE.trans h.IMG_BASE
  case IMG_LEN => exact k.IMG_LEN.trans h.IMG_LEN
  case LINE_LEN => exact k.LINE_LEN.trans h.LINE_LEN
  case PAGE_LOG2 => exact k.PAGE_LOG2.trans h.PAGE_LOG2
  case PAGE_EN => exact k.PAGE_EN.trans h.PAGE_EN
  case OMIT_NULL => exact k.OMIT_NULL.trans h.OMIT_NULL
  case ENC_ST => exact k.ENC_ST.trans h.ENC_ST
  case ENC_ERRC => exact k.ENC_ERRC.trans h.ENC_ERRC
  case ENC_NREC => exact k.ENC_NREC.trans h.ENC_NREC
  case OUTQ => exact k.OUTQ.trans h.OUTQ
  case MEMKIND => exact k.MEMKIND.trans h.MEMKIND
  case VERIFY => exact k.VERIFY.trans h.VERIFY
  case SIGCHK => exact k.SIGCHK.trans h.SIGCHK
  case SIG_LEN => exact k.SIG_LEN.trans h.SIG_LEN
  case DEV_PAGE => exact k.DEV_PAGE.trans h.DEV_PAGE
  case SES_TIMEOUT => exact k.SES_TIMEOUT.trans h.SES_TIMEOUT
  case SIG_EXPECT => exact k.SIG_EXPECT.trans h.SIG_EXPECT
  case PARAM_LEN => exact k.PARAM_LEN.trans h.PARAM_LEN
  case Q => exact k.Q.trans h.Q
  case SEQ_LEN => exact k.SEQ_LEN.trans h.SEQ_LEN
  case LINK_CLOSED => exact k.LINK_CLOSED.trans h.LINK_CLOSED
  case IRQ_EN => exact k.IRQ_EN.trans h.IRQ_EN
  case CMD_ERRC => exact k.CMD_ERRC.trans h.CMD_ERRC
  case CMD_ERRS => exact k.CMD_ERRS.trans h.CMD_ERRS

theorem getLsbD_or_of_left {x y : Byte} {i : Nat} (h : x.getLsbD i = true) : (x ||| y).getLsbD i = true := by
  simp [h]

/-- A change of the block alone that keeps what a session keeps. -/
theorem OnlySession.of_block {s : State} {f : Block → Block}
    (irq : ∀ i, s.blk.IRQ_STAT.getLsbD i = true → (f s.blk).IRQ_STAT.getLsbD i = true)
    (hACC : (f s.blk).ACC = s.blk.ACC := by first | rfl | simp)
    (hIMG : (f s.blk).IMG = s.blk.IMG := by first | rfl | simp)
    (hPARAM : (f s.blk).PARAM = s.blk.PARAM := by first | rfl | simp)
    (hIMG_BASE : (f s.blk).IMG_BASE = s.blk.IMG_BASE := by first | rfl | simp)
    (hIMG_LEN : (f s.blk).IMG_LEN = s.blk.IMG_LEN := by first | rfl | simp)
    (hLINE_LEN : (f s.blk).LINE_LEN = s.blk.LINE_LEN := by first | rfl | simp)
    (hPAGE_LOG2 : (f s.blk).PAGE_LOG2 = s.blk.PAGE_LOG2 := by first | rfl | simp)
    (hPAGE_EN : (f s.blk).PAGE_EN = s.blk.PAGE_EN := by first | rfl | simp)
    (hOMIT_NULL : (f s.blk).OMIT_NULL = s.blk.OMIT_NULL := by first | rfl | simp)
    (hENC_ST : (f s.blk).ENC_ST = s.blk.ENC_ST := by first | rfl | simp)
    (hENC_ERRC : (f s.blk).ENC_ERRC = s.blk.ENC_ERRC := by first | rfl | simp)
    (hENC_NREC : (f s.blk).ENC_NREC = s.blk.ENC_NREC := by first | rfl | simp)
    (hOUTQ : (f s.blk).OUTQ = s.blk.OUTQ := by first | rfl | simp)
    (hMEMKIND : (f s.blk).MEMKIND = s.blk.MEMKIND := by first | rfl | simp)
    (hVERIFY : (f s.blk).VERIFY = s.blk.VERIFY := by first | rfl | simp)
    (hSIGCHK : (f s.blk).SIGCHK = s.blk.SIGCHK := by first | rfl | simp)
    (hSIG_LEN : (f s.blk).SIG_LEN = s.blk.SIG_LEN := by first | rfl | simp)
    (hDEV_PAGE : (f s.blk).DEV_PAGE = s.blk.DEV_PAGE := by first | rfl | simp)
    (hSES_TIMEOUT : (f s.blk).SES_TIMEOUT = s.blk.SES_TIMEOUT := by first | rfl | simp)
    (hSIG_EXPECT : (f s.blk).SIG_EXPECT = s.blk.SIG_EXPECT := by first | rfl | simp)
    (hPARAM_LEN : (f s.blk).PARAM_LEN = s.blk.PARAM_LEN := by first | rfl | simp)
    (hQ : (f s.blk).Q = s.blk.Q := by first | rfl | simp)
    (hSEQ_LEN : (f s.blk).SEQ_LEN = s.blk.SEQ_LEN := by first | rfl | simp)
    (hLINK_CLOSED : (f s.blk).LINK_CLOSED = s.blk.LINK_CLOSED := by first | rfl | simp)
    (hIRQ_EN : (f s.blk).IRQ_EN = s.blk.IRQ_EN := by first | rfl | simp)
    (hCMD_ERRC : (f s.blk).CMD_ERRC = s.blk.CMD_ERRC := by first | rfl | simp)
    (hCMD_ERRS : (f s.blk).CMD_ERRS = s.blk.CMD_ERRS := by first | rfl | simp)
    : OnlySession s (s.mapBlk f) := by
  constructor <;> first | rfl | assumption

theorem failWith_onlySession (r : FailReason) (x : FailCtx) (s : State) : OnlySession s (s.failWith r x) :=
  OnlySession.of_block fun _ h => getLsbD_or_of_left (getLsbD_or_of_left h)

theorem begin_onlySession (c : Cmd) (s : State) : OnlySession s (s.mapBlk (Block.begin c)) :=
  OnlySession.of_block fun _ h => h

theorem noteSignature_onlySession (c : Cmd) (x : List Byte) (s : State) :
    OnlySession s (s.mapBlk (Block.noteSignature c x)) := OnlySession.of_block fun _ h => by simpa using h

theorem consume_onlySession (n : Nat) (s : State) : OnlySession s (s.mapBlk (Block.consume n)) :=
  OnlySession.of_block fun _ h => h

theorem finish_onlySession (c : Cmd) (s : State) :
    OnlySession s (s.mapBlk (Block.finish c)) :=
  OnlySession.of_block fun _ h => by simpa using Or.inl (Or.inl h)

theorem moveOn_onlySession (c : Cmd) (s : State) : OnlySession s (s.mapBlk (Block.moveOn c)) :=
  OnlySession.of_block fun _ h => by simpa using Or.inl h

theorem emitTx_onlySession (x : List Byte) (s : State) : OnlySession s (s.emitTx x) := by
  constructor <;> first | rfl | exact List.prefix_append _ _ | exact fun _ h => h

/-! ### `respond` -/

/-- What the check of a response can do: wait; fail on a marker; fail on a compare; or consume it and complete (spec R245,
R246). -/
theorem State.respond_cases (c : Cmd) (go : State → State) (s : State) :
    (s.blk.RB.length < s.respLenOf c ∧ s.respond c go = s) ∨
    (s.respLenOf c ≤ s.blk.RB.length ∧
      ((∃ x, markerFault s.cfg.WP c.kind (s.blk.RB.take (s.respLenOf c)) = some x ∧
          s.respond c go = s.failWith .protocolDesync x) ∨
       (markerFault s.cfg.WP c.kind (s.blk.RB.take (s.respLenOf c)) = none ∧
          ∃ body, body = bodyOf s.cfg.WP s.blk.SIG_LEN.toNat c (s.blk.RB.take (s.respLenOf c)) ∧
            ((∃ f, (s.blk.noteSignature c body).compareFault c body = some f ∧
                s.respond c go = (s.mapBlk (Block.noteSignature c body)).failWith f.1 f.2) ∨
             ((s.blk.noteSignature c body).compareFault c body = none ∧
                s.respond c go =
                  ((s.mapBlk (Block.noteSignature c body)).mapBlk (Block.consume (s.respLenOf c))).completeOk c go))))) := by
  unfold State.respond
  split
  · exact .inl ⟨‹_›, rfl⟩
  · right
    have hlen : s.respLenOf c ≤ s.blk.RB.length := by omega
    refine ⟨hlen, ?_⟩
    unfold State.validate
    split
    · rename_i x hx
      exact .inl ⟨x, hx, rfl⟩
    · rename_i hx
      refine .inr ⟨hx, _, rfl, ?_⟩
      simp only [State.mapBlk_blk]
      split
      · rename_i f hf
        exact .inl ⟨f, hf, rfl⟩
      · rename_i hf
        refine .inr ⟨hf, ?_⟩
        rw [List.length_take, Nat.min_eq_left hlen]

theorem completeOk_onlySession (c : Cmd) {go : State → State} (hgo : ∀ t, OnlySession t (go t)) (s : State) :
    OnlySession s (s.completeOk c go) := by
  unfold State.completeOk
  split
  · exact finish_onlySession c s
  · exact (moveOn_onlySession c s).trans (hgo _)

theorem respond_onlySession (c : Cmd) {go : State → State} (hgo : ∀ t, OnlySession t (go t)) (s : State) :
    OnlySession s (s.respond c go) := by
  rcases State.respond_cases c go s with ⟨-, h⟩ | ⟨-, ⟨x, -, h⟩ | ⟨-, body, -, ⟨f, -, h⟩ | ⟨-, h⟩⟩⟩ <;> rw [h]
  · exact .refl s
  · exact failWith_onlySession _ _ s
  · exact (noteSignature_onlySession c body s).trans (failWith_onlySession _ _ _)
  · exact ((noteSignature_onlySession c body s).trans (consume_onlySession _ _)).trans (completeOk_onlySession c hgo _)

/-! ### `issue` -/

/-- Issue of the next command: the command is in flight; then the link is closed, or the frame's answer is `fail`, or the
frame is written and RB is checked (spec R217). -/
theorem State.issueFrom_cons (c : Cmd) (rest : List Cmd) (s : State) :
    State.issueFrom (c :: rest) s =
      if s.blk.LINK_CLOSED = true then
        (s.mapBlk (Block.begin c)).failWith .disconnected (s.blk.begin c).ctxNone
      else if s.nextAnswer = true then
        ((s.mapBlk (Block.begin c)).emitTx (s.frameOf c)).respond c (State.issueFrom rest)
      else ((s.mapBlk (Block.begin c)).emitTx (s.frameOf c)).failWith .disconnected (s.blk.begin c).ctxNone := rfl

theorem issueFrom_onlySession (l : List Cmd) (s : State) : OnlySession s (State.issueFrom l s) := by
  induction l generalizing s with
  | nil => exact .refl s
  | cons c rest ih =>
    rw [State.issueFrom_cons]
    split
    · exact (begin_onlySession c s).trans (failWith_onlySession _ _ _)
    · split
      · exact ((begin_onlySession c s).trans (emitTx_onlySession _ _)).trans (respond_onlySession c ih _)
      · exact ((begin_onlySession c s).trans (emitTx_onlySession _ _)).trans (failWith_onlySession _ _ _)

theorem issue_onlySession (s : State) : OnlySession s s.issue := issueFrom_onlySession _ s

theorem checkCompletion_onlySession (s : State) : OnlySession s s.checkCompletion := by
  unfold State.checkCompletion
  split
  · exact .refl s
  · exact respond_onlySession _ (issueFrom_onlySession _) s

theorem issueDue_onlySession (c : Cmd) (s : State) : OnlySession s (s.issueDue c) := by
  unfold State.issueDue
  split
  · exact issue_onlySession s
  · exact .refl s

/-! ### Byte arrival -/

/-- What one received byte can do (spec R242, R244): nothing in a terminal state; overflow at a full RB; else it is stored,
and with a command in flight the completion check follows. -/
theorem State.rxByte_cases (s : State) (x : Byte) :
    (s.blk.SES_ST.terminal = true ∧ s.rxByte x = s) ∨
    (s.blk.SES_ST.terminal = false ∧ s.blk.RB.length = s.cfg.RB_CAP ∧ s.rxByte x = s.mapBlk (Block.irqSet .rbOvf)) ∨
    (s.blk.SES_ST.terminal = false ∧ s.blk.RB.length ≠ s.cfg.RB_CAP ∧
      ∃ t, t = s.mapBlk (Block.store x) ∧
        ((s.blk.INFLIGHT = none ∧ s.rxByte x = t) ∨ (s.blk.INFLIGHT ≠ none ∧ s.rxByte x = t.checkCompletion))) := by
  unfold State.rxByte
  split
  · exact .inl ⟨‹_›, rfl⟩
  · rename_i h1
    have h1 : s.blk.SES_ST.terminal = false := by simpa using h1
    split
    · exact .inr (.inl ⟨h1, ‹_›, rfl⟩)
    · rename_i h2
      refine .inr (.inr ⟨h1, h2, _, rfl, ?_⟩)
      by_cases h3 : s.blk.INFLIGHT = none
      · exact .inl ⟨h3, by simp [h3]⟩
      · exact .inr ⟨h3, by simp [h3]⟩

theorem storeByte_onlySession (x : Byte) (s : State) :
    OnlySession s (s.mapBlk (Block.store x)) := OnlySession.of_block fun _ h => h

theorem overflow_onlySession (s : State) : OnlySession s (s.mapBlk (Block.irqSet .rbOvf)) :=
  OnlySession.of_block fun _ h => getLsbD_or_of_left h

theorem rxByte_onlySession (s : State) (x : Byte) : OnlySession s (s.rxByte x) := by
  rcases s.rxByte_cases x with ⟨-, h⟩ | ⟨-, -, h⟩ | ⟨-, -, t, rfl, ⟨-, h⟩ | ⟨-, h⟩⟩ <;> rw [h]
  · exact .refl s
  · exact overflow_onlySession s
  · exact storeByte_onlySession x s
  · exact (storeByte_onlySession x s).trans (checkCompletion_onlySession _)

theorem rxBytes_onlySession (chunk : List Byte) (s : State) : OnlySession s (s.rxBytes chunk) := by
  induction chunk generalizing s with
  | nil => exact .refl s
  | cons x chunk ih => exact (rxByte_onlySession s x).trans (ih _)

/-- The bytes of two chunks in turn are the bytes of their join (spec R243). -/
theorem State.rxBytes_append (a b : List Byte) (s : State) : s.rxBytes (a ++ b) = (s.rxBytes a).rxBytes b :=
  List.foldl_append ..

/-! ### The session settles -/

/-- A session at rest between two events: a command is in flight, is the one at SEQ_IDX and lacks response bytes; or the
session has ended and none is (spec R49 (ii), (iii), R224). -/
def State.Settled (s : State) : Prop :=
  (s.blk.SES_ST.terminal = false ∧
    s.blk.SEQ_IDX.toNat < s.blk.SEQ_LEN.toNat ∧
      ∃ c, s.blk.current = some c ∧ s.blk.INFLIGHT = some c.kind ∧ s.blk.RB.length < s.respLenOf c) ∨
  (s.blk.SES_ST.terminal = true ∧ s.blk.INFLIGHT = none)

theorem failWith_settled (r : FailReason) (x : FailCtx) (s : State) : (s.failWith r x).Settled := .inr ⟨rfl, rfl⟩

theorem phaseOf_terminal (k : Kind) : (phaseOf k).terminal = false := by cases k <;> rfl

theorem Block.remaining_cons {b : Block} {c : Cmd} {rest : List Cmd} (h : b.remaining = c :: rest) :
    b.SEQ_IDX.toNat < b.Q.length ∧ b.current = some c ∧ b.Q.drop (b.SEQ_IDX.toNat + 1) = rest := by
  unfold Block.remaining at h
  have hlt : b.SEQ_IDX.toNat < b.Q.length := by
    by_contra hge
    rw [List.drop_eq_nil_of_le (by omega)] at h
    simp at h
  rw [List.drop_eq_getElem_cons hlt] at h
  obtain ⟨h1, h2⟩ := List.cons.inj h
  exact ⟨hlt, by simp [Block.current, hlt, h1], h2⟩

/-- What the bytes that stay can be: RB never grows in a completion check. -/
theorem State.respond_settles (c : Cmd) (rest : List Cmd) (s : State)
    (hgo : ∀ t : State, t.blk.remaining = rest → t.blk.SEQ_LEN.toNat = t.blk.Q.length → rest ≠ [] →
      t.blk.SES_ST.terminal = false → (State.issueFrom rest t).Settled ∧
        (State.issueFrom rest t).blk.RB.length ≤ t.blk.RB.length)
    (hrem : s.blk.remaining = c :: rest) (hlen : s.blk.SEQ_LEN.toNat = s.blk.Q.length)
    (hst : s.blk.SES_ST.terminal = false) (hin : s.blk.INFLIGHT = some c.kind) :
    (s.respond c (State.issueFrom rest)).Settled ∧ (s.respond c (State.issueFrom rest)).blk.RB.length ≤ s.blk.RB.length := by
  obtain ⟨hlt, hcur, hdrop⟩ := Block.remaining_cons hrem
  rcases State.respond_cases c (State.issueFrom rest) s with
    ⟨hs, h⟩ | ⟨-, ⟨x, -, h⟩ | ⟨-, body, -, ⟨f, -, h⟩ | ⟨-, h⟩⟩⟩ <;> rw [h]
  · exact ⟨.inl ⟨hst, by omega, c, hcur, hin, hs⟩, Nat.le_refl _⟩
  · exact ⟨failWith_settled _ _ _, Nat.le_refl _⟩
  · exact ⟨failWith_settled _ _ _, by simp⟩
  · unfold State.completeOk
    split
    · exact ⟨.inr ⟨rfl, by simp⟩, by simp⟩
    · rename_i hne
      have hb : s.blk.SEQ_IDX.toNat + 1 < 2 ^ 32 := by
        have := s.blk.SEQ_LEN.isLt
        omega
      have hidx : (s.blk.SEQ_IDX + 1).toNat = s.blk.SEQ_IDX.toNat + 1 := by
        rw [BitVec.toNat_add]
        simp
        omega
      have hdrop' : s.blk.Q.drop (s.blk.SEQ_IDX + 1).toNat = rest := by rw [hidx]; exact hdrop
      have hrest : rest ≠ [] := by
        intro hnil
        apply hne
        apply BitVec.eq_of_toNat_eq
        simp only [State.mapBlk_blk, Block.consume_SEQ_IDX, Block.noteSignature_SEQ_IDX, Block.consume_SEQ_LEN,
          Block.noteSignature_SEQ_LEN]
        rw [hnil] at hdrop
        have := List.drop_eq_nil_iff.mp hdrop
        omega
      have key := hgo (((s.mapBlk (Block.noteSignature c body)).mapBlk (Block.consume (s.respLenOf c))).mapBlk
        (Block.moveOn c))
        (by simpa [Block.remaining] using hdrop')
        (by simpa using hlen) hrest (phaseOf_terminal _)
      refine ⟨key.1, Nat.le_trans key.2 ?_⟩
      simp

/-- Issue leaves the session settled, and takes no byte into RB (spec R217, R221). -/
theorem State.issueFrom_settles (l : List Cmd) (s : State) (hrem : s.blk.remaining = l)
    (hlen : s.blk.SEQ_LEN.toNat = s.blk.Q.length) (hl : l ≠ []) (hst : s.blk.SES_ST.terminal = false) :
    (State.issueFrom l s).Settled ∧ (State.issueFrom l s).blk.RB.length ≤ s.blk.RB.length := by
  induction l generalizing s with
  | nil => exact absurd rfl hl
  | cons c rest ih =>
    rw [State.issueFrom_cons]
    split
    · exact ⟨failWith_settled _ _ _, Nat.le_refl _⟩
    · split
      · exact State.respond_settles c rest _ (fun t h1 h2 h3 h4 => ih t h1 h2 h3 h4) hrem hlen hst rfl
      · exact ⟨failWith_settled _ _ _, Nat.le_refl _⟩

/-- The completion check leaves a settled session settled, and takes no byte into RB (spec R245). -/
theorem State.checkCompletion_settles (s : State) {c : Cmd} (hcur : s.blk.current = some c)
    (hlen : s.blk.SEQ_LEN.toNat = s.blk.Q.length) (hst : s.blk.SES_ST.terminal = false)
    (hin : s.blk.INFLIGHT = some c.kind) :
    s.checkCompletion.Settled ∧ s.checkCompletion.blk.RB.length ≤ s.blk.RB.length := by
  unfold State.checkCompletion
  split
  · rename_i hnil
    exfalso
    unfold Block.remaining at hnil
    unfold Block.current at hcur
    have := List.drop_eq_nil_iff.mp hnil
    rw [List.getElem?_eq_none this] at hcur
    simp at hcur
  · rename_i d rest hrem
    obtain ⟨-, hcur', -⟩ := Block.remaining_cons hrem
    have hdc : d = c := by rw [hcur] at hcur'; exact (Option.some.inj hcur').symm
    subst hdc
    exact State.respond_settles d rest s (fun t h1 h2 h3 h4 => State.issueFrom_settles rest t h1 h2 h3 h4) hrem hlen hst hin

end Sys2Proof.Machine
end

