-- ==== Sys2Proof/Laws/Exec.lean ====
section
/-! SUPPORT. Once for each meaning with several outcomes: what it can do. -/

namespace Sys2Proof.Machine

/-- A session start is rejected or opens its sequence (spec R206). -/
theorem State.sesFlash_cases (s : State) :
    (∃ code sub, s.sesFlash = s.mapBlk (Block.cmdErr code sub)) ∨
    (s.blk.SES_ST = .idle ∧ s.blk.INFLIGHT = none ∧ s.flashCheck = none ∧
      s.sesFlash = (s.mapBlk (Block.openSession s.flashQ)).issue) := by
  unfold State.sesFlash
  split
  · exact .inl ⟨_, _, rfl⟩
  · rename_i h
    have hr : s.blk.SES_ST = .idle ∧ s.blk.INFLIGHT = none := by simpa [Block.ready] using h
    split
    · exact .inl ⟨_, _, rfl⟩
    · exact .inr ⟨hr.1, hr.2, ‹_›, rfl⟩

/-- The same for the signature session (spec R215). -/
theorem State.sesSig_cases (s : State) :
    (∃ code sub, s.sesSig = s.mapBlk (Block.cmdErr code sub)) ∨
    (s.blk.SES_ST = .idle ∧ s.blk.INFLIGHT = none ∧ s.sigCheck = none ∧
      s.sesSig = (s.mapBlk (Block.openSession [.readSignature])).issue) := by
  unfold State.sesSig
  split
  · exact .inl ⟨_, _, rfl⟩
  · rename_i h
    have hr : s.blk.SES_ST = .idle ∧ s.blk.INFLIGHT = none := by simpa [Block.ready] using h
    split
    · exact .inl ⟨_, _, rfl⟩
    · exact .inr ⟨hr.1, hr.2, ‹_›, rfl⟩

/-- ENC_START is refused, rejected, or accepted (spec R177). -/
theorem State.encStart_cases (s : State) :
    (s.blk.ENC_ST = .busy ∧ s.encStart = s.cmdErr .wrongState) ∨
    (s.blk.ENC_ST ≠ .busy ∧ ∃ e, encCheck s.cfg s.blk = some e ∧ s.encStart = s.mapBlk (Block.encErr e)) ∨
    (s.blk.ENC_ST ≠ .busy ∧ encCheck s.cfg s.blk = none ∧ s.encStart = s.mapBlk (Block.loadText s.encRecords)) := by
  unfold State.encStart
  split
  · rename_i h
    exact .inl ⟨by simpa [Block.encBusy] using h, rfl⟩
  · rename_i h
    have h : s.blk.ENC_ST ≠ .busy := by simpa [Block.encBusy] using h
    split
    · exact .inr (.inl ⟨h, _, ‹_›, rfl⟩)
    · exact .inr (.inr ⟨h, ‹_›, rfl⟩)

/-- SES_RESET is refused or clears the session (spec R229). -/
theorem State.sesReset_cases (s : State) :
    (s.blk.INFLIGHT ≠ none ∧ s.sesReset = s.cmdErr .wrongState) ∨
    (s.blk.INFLIGHT = none ∧ s.sesReset = s.mapBlk Block.clearSession) := by
  unfold State.sesReset
  split
  · rename_i h
    exact .inl ⟨by rintro h'; simp [Block.sesActive, h'] at h, rfl⟩
  · rename_i h
    refine .inr ⟨?_, rfl⟩
    cases hi : s.blk.INFLIGHT with
    | none => rfl
    | some k => simp [Block.sesActive, hi] at h

/-- A CSR_WRITE runs a command, or records a command error, or writes IRQ_STAT, IRQ_EN or a configuration register that is
not locked (spec R142, R145). -/
theorem execCsrWrite_cases (off : Word) (width : Nat) (w : Word) (s : State) :
    (csrAt off width = some .CMD ∧ ∃ c, decodeCommand w = .ok c ∧ execCsrWrite off width w s = exec c.toInstr s) ∨
    (∃ code, execCsrWrite off width w s = .next (s.cmdErr code)) ∨
    (csrAt off width = some .IRQ_STAT ∧ execCsrWrite off width w s = .next (s.mapBlk (Block.clearIrq w))) ∨
    (csrAt off width = some .IRQ_EN ∧ execCsrWrite off width w s = .next (s.mapBlk (Block.writeIrqEn w))) ∨
    (∃ r, csrAt off width = some r ∧ r.writeClass = .config ∧ s.blk.csrLocked r = false ∧
      execCsrWrite off width w s = .next (s.mapBlk (Block.writeConfig r w))) := by
  unfold execCsrWrite
  split
  · exact .inr (.inl ⟨_, rfl⟩)
  · rename_i r hr
    split
    · rename_i hc
      have : r = .CMD := by cases r <;> simp [Csr.writeClass] at hc ⊢
      subst this
      unfold executeCommand
      cases hd : decodeCommand w with
      | error e => exact .inr (.inl ⟨_, rfl⟩)
      | ok c => exact .inl ⟨hr, c, rfl, by cases c <;> rfl⟩
    · rename_i hc
      have : r = .IRQ_STAT := by cases r <;> simp [Csr.writeClass] at hc ⊢
      subst this
      exact .inr (.inr (.inl ⟨hr, rfl⟩))
    · rename_i hc
      have : r = .IRQ_EN := by cases r <;> simp [Csr.writeClass] at hc ⊢
      subst this
      exact .inr (.inr (.inr (.inl ⟨hr, rfl⟩)))
    · rename_i hc
      unfold State.writeConfig
      split
      · exact .inr (.inl ⟨_, rfl⟩)
      · rename_i hl
        exact .inr (.inr (.inr (.inr ⟨r, hr, hc, by simpa using hl, rfl⟩)))
    · exact .inr (.inl ⟨_, rfl⟩)

/-- A CSR_READ returns a value; its only effects are a command error and the pop of a text byte (spec R141). -/
theorem State.csrRead_cases (off : Word) (width : Nat) (s : State) :
    (csrAt off width = none ∧ s.csrRead off width = (s.cmdErr .accessFault).reply (.word 0)) ∨
    (csrAt off width = some .ENC_OUT ∧
      s.csrRead off width = (s.mapBlk Block.popText).reply (.word s.blk.encOutWord)) ∨
    (∃ r, csrAt off width = some r ∧ r ≠ .ENC_OUT ∧ s.csrRead off width = s.reply (.word (s.blk.csrValue r))) := by
  unfold State.csrRead
  split
  · exact .inl ⟨‹_›, rfl⟩
  · rename_i r hr
    by_cases h : r = .ENC_OUT
    · subst h
      exact .inr (.inl ⟨hr, rfl⟩)
    · refine .inr (.inr ⟨r, hr, h, ?_⟩)
      have : s.mapBlk (fun b => b.readEffect r) = s := by cases r <;> first | rfl | exact absurd rfl h
      rw [this]

/-- An IMG_WRITE is refused or writes its byte (spec R143). -/
theorem execImgWrite_cases (i : Word) (x : Byte) (s : State) :
    (∃ code, execImgWrite i x s = .next (s.cmdErr code)) ∨
    (i.toNat < s.cfg.IMG_CAP ∧ s.blk.imgLocked = false ∧
      execImgWrite i x s = .next (s.mapBlk (Block.writeImg i.toNat x))) := by
  unfold execImgWrite
  split
  · exact .inl ⟨_, rfl⟩
  · split
    · exact .inl ⟨_, rfl⟩
    · rename_i h1 h2
      exact .inr ⟨by omega, by simpa using h2, rfl⟩

/-- A PARAM_WRITE is refused or writes its byte (spec R144). -/
theorem execParamWrite_cases (i : Half) (x : Byte) (s : State) :
    (∃ code, execParamWrite i x s = .next (s.cmdErr code)) ∨
    (i.toNat < s.cfg.PARAM_CAP ∧ s.blk.paramLocked = false ∧
      execParamWrite i x s = .next (s.mapBlk (Block.writeParam i.toNat x))) := by
  unfold execParamWrite
  split
  · exact .inl ⟨_, rfl⟩
  · split
    · exact .inl ⟨_, rfl⟩
    · rename_i h1 h2
      exact .inr ⟨by omega, by simpa using h2, rfl⟩

/-- An IMG_READ returns a byte, and beyond the capacity records an ACCESS_FAULT (spec R143). -/
theorem execImgRead_cases (i : Word) (s : State) :
    (s.cfg.IMG_CAP ≤ i.toNat ∧ execImgRead i s = .next ((s.cmdErr .accessFault).reply (.byte 0))) ∨
    (i.toNat < s.cfg.IMG_CAP ∧ execImgRead i s = .next (s.reply (.byte (s.imgByte i.toNat)))) := by
  unfold execImgRead
  split
  · exact .inl ⟨‹_›, rfl⟩
  · exact .inr ⟨by omega, rfl⟩

/-- A PARAM_READ returns a byte, and beyond the capacity records an ACCESS_FAULT (spec R144). -/
theorem execParamRead_cases (i : Half) (s : State) :
    (s.cfg.PARAM_CAP ≤ i.toNat ∧ execParamRead i s = .next ((s.cmdErr .accessFault).reply (.byte 0))) ∨
    (i.toNat < s.cfg.PARAM_CAP ∧ execParamRead i s = .next (s.reply (.byte (s.paramByte i.toNat)))) := by
  unfold execParamRead
  split
  · exact .inl ⟨‹_›, rfl⟩
  · exact .inr ⟨by omega, rfl⟩

/-- TICK does nothing, fails the command in flight, or counts its budget down (spec R256). -/
theorem State.tick_cases (s : State) :
    (s.blk.INFLIGHT = none ∧ s.tick = s) ∨
    (s.blk.INFLIGHT ≠ none ∧ s.blk.TMR = 0 ∧ s.tick = s.failWith .timeout s.blk.ctxNone) ∨
    (s.blk.INFLIGHT ≠ none ∧ s.blk.TMR ≠ 0 ∧ s.tick = s.mapBlk Block.countDown) := by
  unfold State.tick
  split
  · exact .inl ⟨‹_›, rfl⟩
  · split
    · exact .inr (.inl ⟨‹_›, ‹_›, rfl⟩)
    · exact .inr (.inr ⟨‹_›, ‹_›, rfl⟩)

/-- CLOSE closes the link, and fails a command in flight (spec R258). -/
theorem State.close_cases (s : State) :
    (s.blk.INFLIGHT = none ∧ s.close = s.mapBlk Block.closeLink) ∨
    (s.blk.INFLIGHT ≠ none ∧
      s.close = (s.mapBlk Block.closeLink).failWith .disconnected s.blk.ctxNone) := by
  unfold State.close
  by_cases h : s.blk.INFLIGHT = none
  · exact .inl ⟨h, by simp [h]⟩
  · exact .inr ⟨h, by simp only [h, if_false]; rfl⟩

/-- The sequencer's step issues a command that is due, else does nothing (spec R218, log entry 4). -/
theorem State.issueDue_cases (c : Cmd) (s : State) :
    (s.blk.INFLIGHT = none ∧ s.blk.SES_ST.terminal = false ∧ s.blk.current = some c ∧ s.issueDue c = s.issue) ∨
    (¬ (s.blk.INFLIGHT = none ∧ s.blk.SES_ST.terminal = false ∧ s.blk.current = some c) ∧ s.issueDue c = s) := by
  have key : s.blk.due c = true ↔
      s.blk.INFLIGHT = none ∧ s.blk.SES_ST.terminal = false ∧ s.blk.current = some c := by
    simp [Block.due, and_assoc]
  unfold State.issueDue
  by_cases h : s.blk.due c = true
  · obtain ⟨h1, h2, h3⟩ := key.mp h
    exact .inl ⟨h1, h2, h3, by simp [h]⟩
  · exact .inr ⟨fun hc => h (key.mpr hc), by simp [h]⟩

/-- SES_STOP does nothing in a terminal state, else it stops the session, with a report when a command was in flight (spec
R227). -/
theorem Block.stop_cases (b : Block) :
    (b.SES_ST.terminal = true ∧ b.stop = b) ∨
    (b.SES_ST.terminal = false ∧ b.INFLIGHT = none ∧ b.stop = Block.irqSet .sesStop { b with RB := [], SES_ST := .stopped }) ∨
    (b.SES_ST.terminal = false ∧ ∃ k, b.INFLIGHT = some k ∧
      b.stop = Block.irqSet .sesStop
        { b.report (some k) b.SEQ_IDX .discarded with INFLIGHT := none, RB := [], SES_ST := .stopped }) := by
  unfold Block.stop
  split
  · exact .inl ⟨‹_›, rfl⟩
  · rename_i h
    have h : b.SES_ST.terminal = false := by simpa using h
    cases hi : b.INFLIGHT with
    | none => exact .inr (.inl ⟨h, rfl, by simp only [Block.discard, hi]⟩)
    | some k => exact .inr (.inr ⟨h, k, rfl, by simp only [Block.discard, hi]⟩)

/-- A read of ENC_OUT leaves an empty OUTQ, takes the last byte and ends the drain, or takes one byte of more (spec R38,
R192). -/
theorem Block.popText_cases (b : Block) :
    (b.OUTQ = [] ∧ b.popText = b) ∨
    ((∃ c, b.OUTQ = [c]) ∧ b.popText = Block.irqSet .encDone { b with OUTQ := [], ENC_ST := .done }) ∨
    (∃ c d rest, b.OUTQ = c :: d :: rest ∧ b.popText = { b with OUTQ := d :: rest }) := by
  unfold Block.popText
  split
  · exact .inl ⟨‹_›, rfl⟩
  · rename_i c h
    exact .inr (.inl ⟨⟨c, h⟩, rfl⟩)
  · rename_i c rest hne h
    cases rest with
    | nil => exact absurd rfl hne
    | cons d rest => exact .inr (.inr ⟨c, d, rest, h, rfl⟩)

/-- The wire-frame row of a command is the sequencer's step for it (spec R112, R217). -/
theorem exec_cmd_toInstr (c : Cmd) (s : State) : exec c.toInstr s = .next (s.issueDue c) := by cases c <;> rfl

end Sys2Proof.Machine
end

