-- ==== Sys2Proof/Laws/Memory.lean ====
section
/-! SUPPORT. Laws of the byte memories: read after write, the canonical form and its extensionality. -/

namespace Sys2Proof.Machine

/-- Reading after a write: the written index gives the byte written, any other what it gave before. -/
theorem Memory.written_write (m : Memory) (a : Nat) (x : Byte) (j : Nat) :
    Memory.written (Memory.write m a x) j = if j = a then some x else Memory.written m j := by
  induction m with
  | nil => simp [Memory.write, Memory.written, eq_comm]
  | cons c m ih =>
    unfold Memory.write
    split
    · simp [Memory.written, eq_comm]
    · split
      · rename_i h1 h2
        subst h2
        by_cases hj : j = c.1 <;> simp [Memory.written, hj, eq_comm]
      · rename_i h1 h2
        simp only [Memory.written, ih]
        by_cases hc : c.1 = j
        · have : j ≠ a := by omega
          simp [hc, this]
        · simp [hc]

theorem Memory.written_write_self (m : Memory) (a : Nat) (x : Byte) :
    Memory.written (Memory.write m a x) a = some x := by simp [Memory.written_write]

theorem Memory.written_write_of_ne (m : Memory) (a : Nat) (x : Byte) {j : Nat} (h : j ≠ a) :
    Memory.written (Memory.write m a x) j = Memory.written m j := by simp [Memory.written_write, h]

/-- What is listed after a write is the written cell or was listed before. -/
theorem Memory.mem_write {m : Memory} {a : Nat} {x : Byte} {c : Host.Cell} (h : c ∈ Memory.write m a x) :
    c = (a, x) ∨ c ∈ m := by
  induction m with
  | nil => simpa [Memory.write] using h
  | cons e m ih =>
    unfold Memory.write at h
    split at h
    · simpa using h
    · split at h
      · rcases List.mem_cons.mp h with h | h
        · exact .inl h
        · exact .inr (List.mem_cons_of_mem _ h)
      · rcases List.mem_cons.mp h with h | h
        · exact .inr (h ▸ List.mem_cons_self ..)
        · exact (ih h).imp_right (List.mem_cons_of_mem _)

/-- A write keeps the canonical form. -/
theorem Memory.wf_write {m : Memory} (h : Memory.wf m) (a : Nat) (x : Byte) : Memory.wf (Memory.write m a x) := by
  induction m with
  | nil => simp [Memory.wf, Memory.write]
  | cons e m ih =>
    obtain ⟨h1, h2⟩ := List.pairwise_cons.mp h
    unfold Memory.write
    split
    · rename_i ha
      refine List.pairwise_cons.mpr ⟨?_, h⟩
      intro c hc
      rcases List.mem_cons.mp hc with rfl | hc
      · exact ha
      · exact Nat.lt_trans ha (h1 c hc)
    · split
      · rename_i _ ha
        subst ha
        exact List.pairwise_cons.mpr ⟨h1, h2⟩
      · rename_i hn hne
        refine List.pairwise_cons.mpr ⟨?_, ih h2⟩
        intro c hc
        rcases Memory.mem_write hc with rfl | hc
        · show e.1 < a; omega
        · exact h1 c hc

/-- A write inside the capacity keeps every listed index inside it. -/
theorem Memory.within_write {m : Memory} {cap a : Nat} (h : ∀ c ∈ m, c.1 < cap) (ha : a < cap) (x : Byte) :
    ∀ c ∈ Memory.write m a x, c.1 < cap := by
  intro c hc
  rcases Memory.mem_write hc with rfl | hc
  · exact ha
  · exact h c hc

theorem Memory.written_of_lt_all {m : Memory} {a : Nat} (h : ∀ c ∈ m, a < c.1) : Memory.written m a = none := by
  induction m with
  | nil => rfl
  | cons e m ih =>
    have h1 := h e (List.mem_cons_self ..)
    have h2 : e.1 ≠ a := by omega
    simp only [Memory.written, h2, if_false]
    exact ih fun c hc => h c (List.mem_cons_of_mem _ hc)

/-- Memories in canonical form that hold the same written bytes are equal data. -/
theorem Memory.ext_written {m n : Memory} (hm : Memory.wf m) (hn : Memory.wf n)
    (h : ∀ a, Memory.written m a = Memory.written n a) : m = n := by
  induction m generalizing n with
  | nil =>
    cases n with
    | nil => rfl
    | cons e n => have := h e.1; simp [Memory.written] at this
  | cons c m ih =>
    cases n with
    | nil => have := h c.1; simp [Memory.written] at this
    | cons e n =>
      obtain ⟨hc, hm'⟩ := List.pairwise_cons.mp hm
      obtain ⟨he, hn'⟩ := List.pairwise_cons.mp hn
      have key : c.1 = e.1 := by
        rcases Nat.lt_trichotomy c.1 e.1 with hlt | heq | hgt
        · have h1 := h c.1
          have h2 : Memory.written (e :: n) c.1 = none := by
            apply Memory.written_of_lt_all
            intro x hx
            rcases List.mem_cons.mp hx with rfl | hx
            · exact hlt
            · exact Nat.lt_trans hlt (he x hx)
          rw [h2] at h1
          simp [Memory.written] at h1
        · exact heq
        · have h1 := h e.1
          have h2 : Memory.written (c :: m) e.1 = none := by
            apply Memory.written_of_lt_all
            intro x hx
            rcases List.mem_cons.mp hx with rfl | hx
            · exact hgt
            · exact Nat.lt_trans hgt (hc x hx)
          rw [h2] at h1
          simp [Memory.written] at h1
      have hval : c.2 = e.2 := by
        have h1 := h c.1
        simpa [Memory.written, key] using h1
      have hce : c = e := Prod.ext key hval
      subst hce
      congr 1
      apply ih hm' hn'
      intro a
      by_cases ha : c.1 = a
      · subst ha
        rw [Memory.written_of_lt_all hc, Memory.written_of_lt_all he]
      · have h1 := h a
        simpa [Memory.written, ha] using h1

/-- IMG read after an IMG write in the block: the written index gives the byte written, any other what it gave. -/
theorem State.imgByte_write (s : State) (a : Nat) (x : Byte) (j : Nat) :
    State.imgByte { s with blk := { s.blk with IMG := Memory.write s.blk.IMG a x } } j =
      if j = a then x else s.imgByte j := by
  simp only [State.imgByte, Memory.written_write]
  by_cases h : j = a <;> simp [h]

/-- PARAM read after a PARAM write in the block. -/
theorem State.paramByte_write (s : State) (a : Nat) (x : Byte) (j : Nat) :
    State.paramByte { s with blk := { s.blk with PARAM := Memory.write s.blk.PARAM a x } } j =
      if j = a then x else s.paramByte j := by
  simp only [State.paramByte, Memory.written_write]
  by_cases h : j = a <;> simp [h]

end Sys2Proof.Machine
end

