-- ==== Sys2Proof/Laws/PerInstr.lean ====
section
/-! SUPPORT. Statements about every instruction as syntax, one lemma per constructor. -/

namespace Sys2Proof.Laws.TableFormat

/-- The image of an instruction has the form of its row's format in the opcode table (spec R96, R104, R112, R122). -/
def Statement (i : Instr) : Prop :=
  match i.format with
  | .cmd32 => ∃ w, encode i = .event (.csrWrite 0 32 w)
  | .event => ∃ e, encode i = .event e
  | .hexrec => ∃ bytes, encode i = .record bytes
  | .wireframe => ∃ c, encode i = .frame c

theorem nop : Statement .nop := ⟨_, rfl⟩
theorem ckClr : Statement .ckClr := ⟨_, rfl⟩
theorem ckAdd (b : Byte) : Statement (.ckAdd b) := ⟨_, rfl⟩
theorem encStart : Statement .encStart := ⟨_, rfl⟩
theorem sesFlash : Statement .sesFlash := ⟨_, rfl⟩
theorem sesSig : Statement .sesSig := ⟨_, rfl⟩
theorem sesReset : Statement .sesReset := ⟨_, rfl⟩
theorem sesStop : Statement .sesStop := ⟨_, rfl⟩
theorem softReset : Statement .softReset := ⟨_, rfl⟩
theorem csrRead (off : Word) (width : Nat) : Statement (.csrRead off width) := ⟨_, rfl⟩
theorem csrWrite (off : Word) (width : Nat) (w : Word) : Statement (.csrWrite off width w) := ⟨_, rfl⟩
theorem imgRead (i : Word) : Statement (.imgRead i) := ⟨_, rfl⟩
theorem imgWrite (i : Word) (b : Byte) : Statement (.imgWrite i b) := ⟨_, rfl⟩
theorem paramRead (i : Half) : Statement (.paramRead i) := ⟨_, rfl⟩
theorem paramWrite (i : Half) (b : Byte) : Statement (.paramWrite i b) := ⟨_, rfl⟩
theorem rx (chunk : List Byte) : Statement (.rx chunk) := ⟨_, rfl⟩
theorem close : Statement .close := ⟨_, rfl⟩
theorem tick : Statement .tick := ⟨_, rfl⟩
theorem rst : Statement .rst := ⟨_, rfl⟩
theorem recData (address : Half) (payload : List Byte) : Statement (.recData address payload) := ⟨_, rfl⟩
theorem recEof : Statement .recEof := ⟨_, rfl⟩
theorem recEsa (address : Half) (payload : List Byte) : Statement (.recEsa address payload) := ⟨_, rfl⟩
theorem recSsa (address : Half) (payload : List Byte) : Statement (.recSsa address payload) := ⟨_, rfl⟩
theorem recEla (block : Half) : Statement (.recEla block) := ⟨_, rfl⟩
theorem recSla (address : Half) (payload : List Byte) : Statement (.recSla address payload) := ⟨_, rfl⟩
theorem wSetDevice : Statement .wSetDevice := ⟨_, rfl⟩
theorem wEnterProgmode : Statement .wEnterProgmode := ⟨_, rfl⟩
theorem wLoadAddress (a16 : Half) (a32 : Word) : Statement (.wLoadAddress a16 a32) := ⟨_, rfl⟩
theorem wProgramPage (mk : MemKind) (a32 : Word) (data : List Byte) : Statement (.wProgramPage mk a32 data) := ⟨_, rfl⟩
theorem wReadPage (mk : MemKind) (a32 : Word) (n : Half) : Statement (.wReadPage mk a32 n) := ⟨_, rfl⟩
theorem wLeaveProgmode : Statement .wLeaveProgmode := ⟨_, rfl⟩
theorem wReadSignature : Statement .wReadSignature := ⟨_, rfl⟩

end Sys2Proof.Laws.TableFormat
end

