-- ==== Sys2Proof/Laws/Sequencer.lean ====
section
/-! SUPPORT. Laws of the session pages and of the flash sequence. -/

namespace Sys2Proof.Machine

/-! ### Pages, one at a time -/

/-- The number of steps allowed does not matter once it is at least the number of bytes. -/
theorem cut_fuel {size : Nat → Nat} (hpos : ∀ a, 0 < size a) (n m A : Nat) (d : List Byte) (hn : d.length ≤ n)
    (hm : d.length ≤ m) : cut size n A d = cut size m A d := by
  induction n generalizing m A d with
  | zero =>
    have : d = [] := List.length_eq_zero_iff.mp (by omega)
    simp [this]
  | succ n ih =>
    by_cases hd : d = []
    · simp [hd]
    · have hlen : 0 < d.length := List.length_pos_iff.mpr hd
      obtain ⟨m, rfl⟩ : ∃ m', m = m' + 1 := ⟨m - 1, by omega⟩
      have hA := hpos A
      rw [cut_cons size n A hd, cut_cons size m A hd]
      congr 1
      apply ih <;> simp <;> omega

@[simp] theorem pageSegments_nil (m A : Nat) : pageSegments m A [] = [] := rfl

/-- The first page runs to the next multiple of the page size, the others follow (spec R209). -/
theorem pageSegments_of_ne_nil {m : Nat} (hm : 0 < m) (A : Nat) {d : List Byte} (hd : d ≠ []) :
    pageSegments m A d =
      (A, d.take (roomBelowMultiple m A)) ::
        pageSegments m (A + roomBelowMultiple m A) (d.drop (roomBelowMultiple m A)) := by
  have hpos := roomBelowMultiple_pos hm
  have hlen : 0 < d.length := List.length_pos_iff.mpr hd
  have hA := hpos A
  unfold pageSegments
  rw [cut_fuel hpos d.length (d.length - 1 + 1) A d (Nat.le_refl _) (by omega), cut_cons _ _ _ hd]
  congr 1
  refine cut_fuel hpos _ _ _ _ ?_ (Nat.le_refl _)
  simp
  omega

/-- The end of a page is a multiple of the page size. -/
theorem add_roomBelowMultiple {m : Nat} (hm : 0 < m) (a : Nat) : a + roomBelowMultiple m a = (a / m + 1) * m := by
  unfold roomBelowMultiple
  have h1 := Nat.mod_lt a hm
  have h2 := Nat.div_add_mod a m
  have h3 : m * (a / m) = a / m * m := Nat.mul_comm _ _
  rw [Nat.add_mul]
  omega

/-! ### The addresses of a tiling -/

/-- The pieces of a tiling begin at or above its start. -/
theorem Tiles.le_of_mem {A : Nat} {d : List Byte} {ps : List Piece} (h : Tiles A d ps) : ∀ p ∈ ps, A ≤ p.1 := by
  intro p hp
  obtain ⟨-, k, hk, -⟩ := h.sparse.piece p hp
  omega

/-- The addresses of a tiling rise. -/
theorem Tiles.rising {A : Nat} {d : List Byte} {ps : List Piece} (h : Tiles A d ps) :
    ps.Pairwise (fun p q => p.1 < q.1) := by
  refine h.sparse.pairwise.imp_of_mem ?_
  intro p q hp _ hpq
  have := List.length_pos_iff.mpr (h.sparse.piece p hp).1
  omega

/-- The pieces of a tiling follow one another (spec R209). -/
theorem Tiles.next {A : Nat} {d : List Byte} {ps : List Piece} (h : Tiles A d ps) {n : Nat} {p q : Piece}
    (hp : ps[n]? = some p) (hq : ps[n + 1]? = some q) : q.1 = p.1 + p.2.length := by
  induction ps generalizing A d n with
  | nil => simp at hp
  | cons r ps ih =>
    obtain ⟨h1, -, e, -, h⟩ := h
    cases n with
    | succ n => exact ih h (by simpa using hp) (by simpa using hq)
    | zero =>
      have hr : r = p := by simpa using hp
      subst hr
      cases ps with
      | nil => simp at hq
      | cons u ps =>
        have hu : u = q := by simpa using hq
        subst hu
        rw [h.1, h1]

/-! ### Loadable addresses -/

/-- Two loadable addresses with the same LoadAddress operand are the same address (spec R207 check 6). -/
theorem loadOperand_injective {cfg : Config} {A B : Nat} (hA : loadable cfg A = true) (hB : loadable cfg B = true)
    (h : loadOperand cfg A = loadOperand cfg B) : A = B := by
  simp only [loadable, Bool.and_eq_true, beq_iff_eq, decide_eq_true_eq] at hA hB
  have key : A >>> cfg.WP.ADDR_SHIFT = B >>> cfg.WP.ADDR_SHIFT := by
    have := congrArg BitVec.toNat h
    simp only [loadOperand, BitVec.toNat_ofNat] at this
    rwa [Nat.mod_eq_of_lt hA.2, Nat.mod_eq_of_lt hB.2] at this
  rw [Nat.shiftRight_eq_div_pow, Nat.shiftRight_eq_div_pow] at key
  rw [← Nat.div_add_mod A (2 ^ cfg.WP.ADDR_SHIFT), ← Nat.div_add_mod B (2 ^ cfg.WP.ADDR_SHIFT), key, hA.1, hB.1]

/-- Pages that are all loadable have different LoadAddress operands. -/
theorem loadOperands_nodup {cfg : Config} {A : Nat} {d : List Byte} {ps : List Piece} (h : Tiles A d ps)
    (hl : ∀ p ∈ ps, loadable cfg p.1 = true) : (ps.map (fun p => loadOperand cfg p.1)).Nodup := by
  refine List.pairwise_map.mpr (h.rising.imp_of_mem ?_)
  intro p q hp hq hlt he
  have := loadOperand_injective (hl p hp) (hl q hq) he
  omega

/-- There are at most 2^16 pages that are all loadable. -/
theorem length_le_of_loadable {cfg : Config} {A : Nat} {d : List Byte} {ps : List Piece} (h : Tiles A d ps)
    (hl : ∀ p ∈ ps, loadable cfg p.1 = true) : ps.length ≤ 2 ^ 16 := by
  have h1 := (loadOperands_nodup h hl).length_le_card
  rw [List.length_map] at h1
  refine Nat.le_trans h1 (Nat.le_of_eq ?_)
  simpa using Fintype.card_congr (BitVec.equivFin (m := 16)).toEquiv

/-! ### The sequence -/

/-- A page gives at most three commands (spec R212). -/
theorem pageCmds_length_le (cfg : Config) (mk : MemKind) (v : Bool) (cur : Option Half) (ps : List Piece) :
    (pageCmds cfg mk v cur ps).length ≤ 3 * ps.length := by
  induction ps generalizing cur with
  | nil => simp [pageCmds]
  | cons p ps ih =>
    obtain ⟨A, d⟩ := p
    have := ih (some (loadOperand cfg A))
    simp only [pageCmds, List.length_append, List.length_cons]
    have h1 : (if cur = some (loadOperand cfg A) then ([] : List Cmd)
        else [.loadAddress (loadOperand cfg A) (BitVec.ofNat 32 A)]).length ≤ 1 := by split <;> simp
    have h2 : (if v = true then [Cmd.readPage mk (BitVec.ofNat 32 A) (BitVec.ofNat 16 d.length)] else []).length ≤ 1 := by
      split <;> simp
    omega

/-- What a passed configuration check says (spec R207). -/
theorem State.flashCheck_none {s : State} (h : s.flashCheck = none) :
    s.blk.DEV_PAGE ≠ 0 ∧ s.blk.IMG_LEN.toNat ≤ s.cfg.IMG_CAP ∧ s.blk.imgEnd ≤ 2 ^ 32 ∧
      (s.blk.SIGCHK = true → s.blk.sigLenValid = true) ∧ s.blk.PARAM_LEN.toNat ≤ s.cfg.PARAM_CAP ∧
      s.respTooLong s.flashQ = false ∧ ∀ p ∈ s.pages, loadable s.cfg p.1 = true := by
  unfold State.flashCheck at h
  split at h
  · cases h
  · rename_i h1
    split at h
    · cases h
    · rename_i h2
      split at h
      · cases h
      · rename_i h3
        split at h
        · cases h
        · rename_i h4
          split at h
          · cases h
          · rename_i h5
            split at h
            · cases h
            · rename_i h6
              refine ⟨h1, by omega, by omega, ?_, by omega, by simpa using h5, ?_⟩
              · intro hs
                cases hv : s.blk.sigLenValid with
                | true => rfl
                | false => exact absurd ⟨hs, hv⟩ h3
              · simpa using h6

/-- The pages tile the image (spec R209). -/
theorem State.pages_tiles {s : State} (h : s.blk.DEV_PAGE ≠ 0) : Tiles s.blk.IMG_BASE.toNat s.imageBytes s.pages := by
  refine pageSegments_tiles ?_ _ _
  rcases Nat.eq_zero_or_pos s.blk.DEV_PAGE.toNat with h0 | h0
  · exact absurd (BitVec.eq_of_toNat_eq h0) h
  · exact h0

/-- The sequence of a legal configuration fits SEQ_LEN. -/
theorem State.flashQ_length_lt {s : State} (h : s.flashCheck = none) : s.flashQ.length < 2 ^ 32 := by
  obtain ⟨h1, -, -, -, -, -, h7⟩ := State.flashCheck_none h
  have h2 := length_le_of_loadable (State.pages_tiles h1) h7
  have h3 := pageCmds_length_le s.cfg s.blk.MEMKIND s.blk.VERIFY none s.pages
  have h4 : (if s.blk.SIGCHK = true then [Cmd.readSignature] else []).length ≤ 1 := by split <;> simp
  simp only [State.flashQ, List.length_append, List.length_cons]
  omega

end Sys2Proof.Machine
end

