-- ==== Sys2Proof/Laws/Step.lean ====
section
/-! SUPPORT. Laws of the step: which input is taken, and runs of several steps. -/

namespace Sys2Proof.Machine

/-- The input `firstOf` picks and the ones it leaves: those before it rank strictly after it, those behind it no earlier
(spec R290). -/
theorem firstOf_split (x : Input) (xs : List Input) :
    ∃ a b, x :: xs = a ++ (firstOf x xs).1 :: b ∧ (firstOf x xs).2 = a ++ b ∧
      (∀ y ∈ a, Input.rank (firstOf x xs).1 < Input.rank y) ∧
      (∀ y ∈ b, Input.rank (firstOf x xs).1 ≤ Input.rank y) := by
  induction xs generalizing x with
  | nil => exact ⟨[], [], rfl, rfl, by simp, by simp⟩
  | cons y ys ih =>
    obtain ⟨a, b, h1, h2, h3, h4⟩ := ih y
    unfold firstOf
    split
    · rename_i h
      refine ⟨x :: a, b, by rw [h1]; rfl, by rw [h2]; rfl, ?_, h4⟩
      intro z hz
      rcases List.mem_cons.mp hz with rfl | hz
      · exact h
      · exact h3 z hz
    · rename_i h
      refine ⟨[], y :: ys, rfl, rfl, by simp, ?_⟩
      intro z hz
      rw [h1] at hz
      rcases List.mem_append.mp hz with hz | hz
      · exact Nat.le_trans (Nat.le_of_not_lt h) (Nat.le_of_lt (h3 z hz))
      · rcases List.mem_cons.mp hz with rfl | hz
        · exact Nat.le_of_not_lt h
        · exact Nat.le_trans (Nat.le_of_not_lt h) (h4 z hz)

/-- An input presented alone in the next cycle is the one taken. -/
theorem fetch_single (x : Input) (rest : List (List Input)) : fetch ([x] :: rest) = some (x, [] :: rest) := rfl

/-- A cycle that presents nothing is passed over (spec R296). -/
theorem fetch_empty_cycle (rest : List (List Input)) : fetch ([] :: rest) = fetch rest := rfl

/-- A run of one step more, when the step has a next state. -/
theorem run_of_next (M : Host.Core) (k : Nat) {s t : M.State} (h : M.step s = .next t) : M.run (k + 1) s = M.run k t := by
  have e : M.run (k + 1) s =
      match M.step s with
      | .next u => M.run k u
      | .fault r => .fault r
      | .refused r => .refused r := rfl
  rw [e, h]

/-! ### The inputs to come play no part in the session engine -/

/-- The same machine with other inputs to come. -/
def State.withCycles (cs : List (List Input)) (s : State) : State := { s with cycles := cs }

theorem respond_withCycles (cs : List (List Input)) (c : Cmd) {go : State → State}
    (hgo : ∀ s, go (s.withCycles cs) = (go s).withCycles cs) (s : State) :
    (s.withCycles cs).respond c go = (s.respond c go).withCycles cs := by
  rcases State.respond_cases c go s with ⟨h, e⟩ | ⟨h0, ⟨x, h, e⟩ | ⟨h, b, hb, ⟨f, h1, e⟩ | ⟨h1, e⟩⟩⟩ <;> rw [e] <;> clear e
  all_goals rcases State.respond_cases c go (s.withCycles cs) with
    ⟨h', e⟩ | ⟨h0', ⟨x', h', e⟩ | ⟨h', b', hb', ⟨f', h1', e⟩ | ⟨h1', e⟩⟩⟩
  all_goals rw [e]
  all_goals try (exfalso; first | exact absurd h (Nat.not_lt.mpr h0') | exact absurd h' (Nat.not_lt.mpr h0))
  all_goals try (have q := h.symm.trans h'; cases q)
  all_goals try (have q := h'.symm.trans h; cases q; rfl)
  all_goals (have hbb : b' = b := hb'.trans hb.symm; subst hbb)
  · have q := h1'.symm.trans h1
    cases q
    rfl
  · have q := h1'.symm.trans h1
    cases q
  · have q := h1'.symm.trans h1
    cases q
  · unfold State.completeOk
    split
    · rename_i k
      rw [if_pos (by exact k)]
      rfl
    · rename_i k
      rw [if_neg (by exact k)]
      exact hgo (((s.mapBlk (Block.noteSignature c b')).mapBlk (Block.consume (s.respLenOf c))).mapBlk (Block.moveOn c))

theorem issueFrom_withCycles (cs : List (List Input)) (l : List Cmd) (s : State) :
    State.issueFrom l (s.withCycles cs) = (State.issueFrom l s).withCycles cs := by
  induction l generalizing s with
  | nil => rfl
  | cons c rest ih =>
    rw [State.issueFrom_cons, State.issueFrom_cons]
    by_cases h1 : s.blk.LINK_CLOSED = true
    · rw [if_pos h1, if_pos (by exact h1)]
      rfl
    · rw [if_neg h1, if_neg (by exact h1)]
      by_cases h2 : s.nextAnswer = true
      · rw [if_pos h2, if_pos (by exact h2)]
        exact respond_withCycles cs c ih ((s.mapBlk (Block.begin c)).emitTx (s.frameOf c))
      · rw [if_neg h2, if_neg (by exact h2)]
        rfl

theorem checkCompletion_withCycles (cs : List (List Input)) (s : State) :
    (s.withCycles cs).checkCompletion = s.checkCompletion.withCycles cs := by
  unfold State.checkCompletion
  have h : (s.withCycles cs).blk.remaining = s.blk.remaining := rfl
  rw [h]
  cases s.blk.remaining with
  | nil => rfl
  | cons c rest => exact respond_withCycles cs c (issueFrom_withCycles cs rest) s

theorem rxByte_withCycles (cs : List (List Input)) (x : Byte) (s : State) :
    (s.withCycles cs).rxByte x = (s.rxByte x).withCycles cs := by
  unfold State.rxByte
  by_cases h1 : s.blk.SES_ST.terminal = true
  · rw [if_pos h1, if_pos (by exact h1)]
  · rw [if_neg h1, if_neg (by exact h1)]
    by_cases h2 : s.blk.RB.length = s.cfg.RB_CAP
    · rw [if_pos h2, if_pos (by exact h2)]
      rfl
    · rw [if_neg h2, if_neg (by exact h2)]
      by_cases h3 : s.blk.INFLIGHT = none
      · simp only
        rw [if_pos h3, if_pos (by exact h3)]
        rfl
      · simp only
        rw [if_neg h3, if_neg (by exact h3)]
        exact checkCompletion_withCycles cs (s.mapBlk (Block.store x))

/-- The bytes of a chunk do the same whatever inputs are to come. -/
theorem rxBytes_withCycles (cs : List (List Input)) (chunk : List Byte) (s : State) :
    (s.withCycles cs).rxBytes chunk = (s.rxBytes chunk).withCycles cs := by
  induction chunk generalizing s with
  | nil => rfl
  | cons x chunk ih =>
    show State.rxBytes chunk ((s.withCycles cs).rxByte x) = _
    rw [rxByte_withCycles, ih]
    rfl

end Sys2Proof.Machine
end

