-- ==== Sys2Proof/Tests/Slice0.lean ====
section
/-! SUPPORT. The model's own tests: well-formedness smoke tests, words and images written out from the spec's encodings, one-step
tests on the vectors of spec 95_test_vectors.md (named in each comment), and a witness for the hypotheses of every obligation. -/

namespace Sys2Proof.Tests

open Sys2Proof.Machine

-- One theorem at a time: many kernel evaluations waiting for one another would each hold a thread.
set_option Elab.async false

/-! ### Helpers -/

/-- The wire profile TP (30_encoding.md R119). -/
def tp : WireProfile where
  OPC := ⟨0x42, 0x50, 0x55, 0x64, 0x74, 0x51, 0x75⟩
  MEMCODE_FLASH := 0x46
  MEMCODE_EEPROM := 0x45
  EOP_EN := true
  EOP := 0x20
  WIRE_CKSUM := false
  ADDR_ORDER := .be
  ADDR_SHIFT := 0
  LEAD_EN := .const true
  LEAD := .const 0x14
  TRAIL_EN := .const true
  TRAIL := .const 0x10

/-- The capacities of 95_test_vectors.md section 0. -/
def cfg0 : Config := ⟨1024, 64, 300, tp⟩

/-- A machine with that configuration and a block, whose LINK answers `ok` twice. -/
def machine (b : Block) : State := { State.reset with cfg := cfg0, blk := b, linkAnswers := [true, true] }

/-- A machine whose block is at its reset values. -/
def fresh : State := machine Block.reset

/-- What a view of the next state of an instruction shows; nothing when there is no next state. -/
def after {α : Type} (i : Instr) (s : State) (view : State → α) : Option α :=
  match exec i s with
  | .next t => some (view t)
  | .fault _ => none
  | .refused _ => none

/-- The value a register reads in a state. -/
def reg (r : Csr) (s : State) : Word := s.blk.csrValue r

/-- The frames offered to LINK. -/
def frames (s : State) : List (List Byte) := s.tx.map TxFrame.bytes

/-- IMG listing the bytes from index 0 on. -/
def bytesAt0 (d : List Byte) : Memory := d.zipIdx.map (fun p => (p.2, p.1))

/-- A framer ready to encode the bytes `d` at `base` with the ENC_CFG word `w`. -/
def framer (d : List Byte) (base w : Word) : State :=
  machine (Block.writeEncCfg w
    { Block.reset with IMG := bytesAt0 d, IMG_BASE := base, IMG_LEN := BitVec.ofNat 32 d.length })

/-- A block ready for a session with the SES_CFG word `w`. -/
def session (w : Word) : Block := Block.writeSesCfg w Block.reset

/-- A machine with the command at index `n` of `q` in flight, the bytes `rb` received, and phase `p`. -/
def flying (q : List Cmd) (n : Nat) (k : Kind) (p : SesState) (rb : List Byte) : State :=
  machine { Block.reset with
    Q := q
    SEQ_LEN := BitVec.ofNat 32 q.length
    SEQ_IDX := BitVec.ofNat 32 n
    INFLIGHT := some k
    SES_ST := p
    RB := rb }

/-- V-SQ-1: the sequence of an empty image. -/
def emptyQ : List Cmd := [.setDevice, .enterProgrammingMode, .leaveProgrammingMode]

/-- A machine that holds a command due but not issued. -/
def waiting (q : List Cmd) (n : Nat) : State :=
  machine { Block.reset with Q := q, SEQ_LEN := BitVec.ofNat 32 q.length, SEQ_IDX := BitVec.ofNat 32 n }

/-- The same with bytes kept in RB. -/
def holding (q : List Cmd) (n : Nat) (rb : List Byte) : State :=
  let s := waiting q n
  { s with blk := { s.blk with RB := rb } }

/-! ### Well-formedness: an ill-formed term for each check -/

/-- R96: a command word written to CMD is the command's own row. -/
theorem test_wf_refuses_command_as_csr_write :
    Instr.wellFormed (.csrWrite 0x00 32 0x110000AB) = false ∧ Instr.wellFormed (.csrWrite 0x00 32 0xF0000000) = false ∧
    Instr.wellFormed (.csrWrite 0x00 32 0x11000100) = true ∧ Instr.wellFormed (.csrWrite 0x04 32 0xF0000000) = true := by decide

/-- R122: an RX chunk has at least one byte. -/
theorem test_wf_refuses_empty_chunk : Instr.wellFormed (.rx []) = false ∧ Instr.wellFormed (.rx [0x00]) = true := by decide

/-- R102: at most 255 payload bytes. -/
theorem test_wf_refuses_long_payload :
    Instr.wellFormed (.recData 0 (List.replicate 256 0)) = false ∧ Instr.wellFormed (.recData 0 (List.replicate 255 0)) = true ∧
    Instr.wellFormed (.recEsa 0 (List.replicate 256 0)) = false ∧ Instr.wellFormed (.recSsa 0 (List.replicate 256 0)) = false ∧
    Instr.wellFormed (.recSla 0 (List.replicate 256 0)) = false := by decide +kernel

/-- R28: a ProgramPage has 1 to 65535 data bytes. -/
theorem test_wf_refuses_page_data :
    Instr.wellFormed (.wProgramPage .flash 0 []) = false ∧
    Instr.wellFormed (.wProgramPage .flash 0 (List.replicate 65536 0)) = false ∧
    Instr.wellFormed (.wProgramPage .flash 0 [0x5A]) = true := by
  have long : ∀ d : List Byte, d.length = 65536 → Instr.wellFormed (.wProgramPage .flash 0 d) = false := by
    intro d h
    simp [Instr.wellFormed, h]
  exact ⟨rfl, long _ List.length_replicate, rfl⟩

/-! ### Decoding: an image of every constructor, written out from the spec's encodings (R97, R104, R108 to R110, R112, R122) -/

/-- A 32-bit write of a word to CMD (R96). -/
def cmdWrite (w : Word) : Input := .event (.csrWrite 0x00000000#32 32 w)

theorem test_decode_nop : decode (cmdWrite 0x00000000#32) = .ok .nop := rfl
theorem test_decode_ck_clr : decode (cmdWrite 0x10000000#32) = .ok .ckClr := rfl
theorem test_decode_ck_add : decode (cmdWrite 0x110000AB#32) = .ok (.ckAdd 0xAB) := rfl
theorem test_decode_enc_start : decode (cmdWrite 0x20000000#32) = .ok .encStart := rfl
theorem test_decode_ses_flash : decode (cmdWrite 0x30000000#32) = .ok .sesFlash := rfl
theorem test_decode_ses_sig : decode (cmdWrite 0x31000000#32) = .ok .sesSig := rfl
theorem test_decode_ses_reset : decode (cmdWrite 0x3E000000#32) = .ok .sesReset := rfl
theorem test_decode_ses_stop : decode (cmdWrite 0x3F000000#32) = .ok .sesStop := rfl
theorem test_decode_soft_reset : decode (cmdWrite 0xF0000000#32) = .ok .softReset := rfl
theorem test_decode_csr_read : decode (.event (.csrRead 0x74 32)) = .ok (.csrRead 0x74 32) := rfl
theorem test_decode_csr_write : decode (.event (.csrWrite 0x1C 32 0x6410)) = .ok (.csrWrite 0x1C 32 0x6410) := rfl
theorem test_decode_img_read : decode (.event (.imgRead 5)) = .ok (.imgRead 5) := rfl
theorem test_decode_img_write : decode (.event (.imgWrite 5 0xFF)) = .ok (.imgWrite 5 0xFF) := rfl
theorem test_decode_param_read : decode (.event (.paramRead 1)) = .ok (.paramRead 1) := rfl
theorem test_decode_param_write : decode (.event (.paramWrite 1 0x22)) = .ok (.paramWrite 1 0x22) := rfl
theorem test_decode_rx : decode (.event (.rx [0x14, 0x10])) = .ok (.rx [0x14, 0x10]) := rfl
theorem test_decode_rx_empty : decode (.event (.rx [])) = .error .emptyChunk := rfl
theorem test_decode_close : decode (.event .close) = .ok .close := rfl
theorem test_decode_tick : decode (.event .tick) = .ok .tick := rfl
theorem test_decode_rst : decode (.event .rst) = .ok .rst := rfl

/-- V-SRC-3: `:01000500FFFB`. -/
theorem test_decode_rec_data :
    decode (.record [0x01, 0x00, 0x05, 0x00, 0xFF, 0xFB]) = .ok (.recData 0x0005 [0xFF]) := rfl

/-- R109: `:00000001FF`. -/
theorem test_decode_rec_eof : decode (.record [0x00, 0x00, 0x00, 0x01, 0xFF]) = .ok .recEof := rfl

/-- R103, R104: type 02, one payload pair 10 00, sum 02 + 02 + 10 = 14, checksum EC. -/
theorem test_decode_rec_esa :
    decode (.record [0x02, 0x00, 0x00, 0x02, 0x10, 0x00, 0xEC]) = .ok (.recEsa 0x0000 [0x10, 0x00]) := rfl

/-- R103, R104: type 03, four payload bytes, sum 04 + 03 + 38 = 3F, checksum C1. -/
theorem test_decode_rec_ssa :
    decode (.record [0x04, 0x00, 0x00, 0x03, 0x00, 0x00, 0x38, 0x00, 0xC1]) = .ok (.recSsa 0x0000 [0x00, 0x00, 0x38, 0x00]) := rfl

/-- V-SRC-2: `:020000040001F9`. -/
theorem test_decode_rec_ela : decode (.record [0x02, 0x00, 0x00, 0x04, 0x00, 0x01, 0xF9]) = .ok (.recEla 0x0001) := rfl

/-- R103, R104: type 05, four payload bytes, sum 04 + 05 + CD = D6, checksum 2A. -/
theorem test_decode_rec_sla :
    decode (.record [0x04, 0x00, 0x00, 0x05, 0x00, 0x00, 0x00, 0xCD, 0x2A]) = .ok (.recSla 0x0000 [0x00, 0x00, 0x00, 0xCD]) := rfl

/-- R103 to R105, R108, R109: images that are no record. -/
theorem test_decode_rejects_records :
    decode (.record []) = .error .recordTooShort ∧
    decode (.record [0x00, 0x00, 0x00, 0x01]) = .error .recordTooShort ∧
    decode (.record [0x02, 0x00, 0x05, 0x00, 0xFF, 0xFB]) = .error .recordCount ∧
    decode (.record [0x01, 0x00, 0x05, 0x00, 0xFF, 0xFA]) = .error .recordChecksum ∧
    decode (.record [0x00, 0x00, 0x00, 0x06, 0xFA]) = .error .recordType ∧
    decode (.record [0x00, 0x00, 0x01, 0x01, 0xFE]) = .error .recordShape ∧
    decode (.record [0x01, 0x00, 0x00, 0x04, 0x00, 0xFB]) = .error .recordShape := ⟨rfl, rfl, rfl, rfl, rfl, rfl, rfl⟩

theorem test_decode_w_set_device : decode (.frame .setDevice) = .ok .wSetDevice := rfl
theorem test_decode_w_enter_progmode : decode (.frame .enterProgrammingMode) = .ok .wEnterProgmode := rfl
theorem test_decode_w_load_address : decode (.frame (.loadAddress 0x0104 0x104)) = .ok (.wLoadAddress 0x0104 0x104) := rfl
theorem test_decode_w_program_page :
    decode (.frame (.programPage .eeprom 0x10 [0x5A])) = .ok (.wProgramPage .eeprom 0x10 [0x5A]) := rfl
theorem test_decode_w_program_page_empty : decode (.frame (.programPage .eeprom 0x10 [])) = .error .frameData := rfl
theorem test_decode_w_read_page : decode (.frame (.readPage .flash 0x100 4)) = .ok (.wReadPage .flash 0x100 4) := rfl
theorem test_decode_w_leave_progmode : decode (.frame .leaveProgrammingMode) = .ok .wLeaveProgmode := rfl
theorem test_decode_w_read_signature : decode (.frame .readSignature) = .ok .wReadSignature := rfl

/-- V-DEC-3 to V-DEC-7. -/
theorem test_decode_rejects_words :
    decodeCommand 0x12000000#32 = .error .illegalOpcode ∧ decodeCommand 0x10000001#32 = .error .reservedBits ∧
    decodeCommand 0x20000100#32 = .error .reservedBits ∧ decodeCommand 0x12000001#32 = .error .illegalOpcode ∧
    decodeCommand 0xFF000000#32 = .error .illegalOpcode := ⟨rfl, rfl, rfl, rfl, rfl⟩

/-- R113, V-SQ-2, V-SQ-4: the frames of the seven kinds under TP, with the parameter block 11 22. -/
theorem test_frames_of_tp :
    frame tp [0x11, 0x22] .setDevice = [0x42, 0x11, 0x22, 0x20] ∧
    frame tp [] .enterProgrammingMode = [0x50, 0x20] ∧
    frame tp [] (.loadAddress 0x0104 0x104) = [0x55, 0x01, 0x04, 0x20] ∧
    frame tp [] (.programPage .eeprom 0x10 [0x5A]) = [0x64, 0x00, 0x01, 0x45, 0x5A, 0x20] ∧
    frame tp [] (.readPage .flash 0x100 4) = [0x74, 0x00, 0x04, 0x46, 0x20] ∧
    frame tp [] .leaveProgrammingMode = [0x51, 0x20] ∧ frame tp [] .readSignature = [0x75, 0x20] := by decide

/-- V-SQ-5: the same with the frame checksum. -/
theorem test_frames_with_checksum :
    frame { tp with WIRE_CKSUM := true } [0x86] .setDevice = [0x42, 0x86, 0x38, 0x20] ∧
    frame { tp with WIRE_CKSUM := true } [] (.programPage .flash 0x200 [0xDE, 0xAD]) =
      [0x64, 0x00, 0x02, 0x46, 0xDE, 0xAD, 0xC9, 0x20] := by decide

/-- 41_checksum.md vectors of `cksum8`. -/
theorem test_cksum8 :
    cksum8 [] = 0x00 ∧ cksum8 [0xFF] = 0x01 ∧ cksum8 [0x02, 0x00, 0x00, 0x04, 0x00, 0x01] = 0xF9 ∧ cksum8 [0x50] = 0xB0 := by
  decide

/-- The text of a line: `:00000001FF` and LF (R106, R109). -/
theorem test_text_line : textLine eofRecord =
    [0x3A, 0x30, 0x30, 0x30, 0x30, 0x30, 0x30, 0x30, 0x31, 0x46, 0x46, 0x0A] := by decide

/-! ### One step of each instruction -/

theorem test_step_nop : after .nop fresh id = some fresh := by decide +kernel

/-- V-CK-5. -/
theorem test_step_ck_clr :
    after .ckClr (machine { Block.reset with ACC := 0x5A }) (reg .HCK) = some 0x00010000 := by decide

/-- V-CK-7. -/
theorem test_step_ck_add_wraps :
    after (.ckAdd 0x01) (machine { Block.reset with ACC := 0xFF }) (reg .HCK) = some 0x00010000 := by decide

/-- V-CK-9, one step earlier: ACC 07 reads F907 (V-CK-8). -/
theorem test_step_ck_add :
    after (.ckAdd 0x01) (machine { Block.reset with ACC := 0x06 }) (reg .HCK) = some 0x0000F907 := by decide

/-- V-SRC-2 (V-FR-3): two Data records, one ELA record before the second, EOF: 60 bytes. -/
theorem test_step_enc_start_crossing :
    after .encStart (framer [0x01, 0x02, 0x03, 0x04] 0xFFFE 0x10)
      (fun t => (t.encRecords.map recBytes, reg .ENC_NREC t, reg .ENC_REM t, reg .STATUS t)) =
    some ([[0x02, 0xFF, 0xFE, 0x00, 0x01, 0x02, 0xFE], [0x02, 0x00, 0x00, 0x04, 0x00, 0x01, 0xF9],
      [0x02, 0x00, 0x00, 0x00, 0x03, 0x04, 0xF7], [0x00, 0x00, 0x00, 0x01, 0xFF]], 4, 60, 0x0000000B) := by decide +kernel

/-- V-SRC-3: `FF` at 0005 and `AA` at 000E, in the text of the machine. -/
theorem test_step_enc_start_omit :
    after .encStart (framer [0, 0, 0, 0, 0, 0xFF, 0, 0, 0, 0, 0, 0, 0, 0, 0xAA] 0 0x6410)
      (fun t => (t.blk.OUTQ, reg .ENC_NREC t)) =
    some (
      [0x3A, 0x30, 0x31, 0x30, 0x30, 0x30, 0x35, 0x30, 0x30, 0x46, 0x46, 0x46, 0x42, 0x0A] ++
      [0x3A, 0x30, 0x31, 0x30, 0x30, 0x30, 0x45, 0x30, 0x30, 0x41, 0x41, 0x34, 0x37, 0x0A] ++
      [0x3A, 0x30, 0x30, 0x30, 0x30, 0x30, 0x30, 0x30, 0x31, 0x46, 0x46, 0x0A], 3) := by decide +kernel

/-- V-FR-10, V-FR-11, V-FR-13, V-FR-17: corners of null-run omission. -/
theorem test_omission_corners :
    omitChunks 16 16 0x0E [0, 0, 0x11, 0, 0, 0] = [(0x0E, [0]), (0x10, [0x11])] ∧
    omitChunks 16 16 0 [1, 0, 0, 0, 0, 0, 2] = [(0, [1, 0, 0, 0, 0, 0, 2])] ∧
    omitChunks 4 16 0 [1, 2, 3, 0, 0, 4] = [(0, [1, 2, 3]), (5, [4])] ∧
    omitChunks 16 4 0x1FFFE [0, 0, 3, 4] = [(0x1FFFE, [0]), (0x20000, [3, 4])] := by decide +kernel

/-- V-SQ-3: partial first and last pages. -/
theorem test_step_ses_flash_pages :
    after .sesFlash (machine { session 0x00040000 with
      IMG := bytesAt0 [1, 2, 3, 4, 5, 6], IMG_BASE := 0x103, IMG_LEN := 6 }) (fun t => (t.blk.Q, frames t, reg .STATUS t)) =
    some ([.setDevice, .enterProgrammingMode, .loadAddress 0x103 0x103, .programPage .flash 0x103 [1],
      .loadAddress 0x104 0x104, .programPage .flash 0x104 [2, 3, 4, 5], .loadAddress 0x108 0x108,
      .programPage .flash 0x108 [6], .leaveProgrammingMode], [[0x42, 0x20]], 0x00004101) := by decide +kernel

/-- V-VA-16: the bytes kept in RB complete SetDevice at once. -/
theorem test_step_ses_flash_completes_from_rb :
    after .sesFlash (machine { session 0x00100000 with RB := [0x14, 0x10, 0x14] })
      (fun t => (frames t, t.blk.SES_ST, t.blk.INFLIGHT, t.blk.RB, reg .REPORTS t)) =
    some ([[0x42, 0x20], [0x50, 0x20]], .deviceConfigured, some .enterProgrammingMode, [0x14], 1) := by decide +kernel

/-- V-VA-11, its first line. -/
theorem test_step_ses_sig :
    after .sesSig (machine (session 0x18)) (fun t => (frames t, reg .STATUS t)) = some ([[0x75, 0x20]], 0x00004701) := by
  decide +kernel

/-- V-SQ-E9. -/
theorem test_step_ses_sig_length :
    after .sesSig (machine (session 0x28)) (fun t => (frames t, reg .CMD_ERR t)) = some ([], 0x00000305) := by decide +kernel

/-- V-SQ-8. -/
theorem test_step_ses_reset_refused :
    after .sesReset (flying emptyQ 0 .setDevice .idle []) (fun t => (reg .CMD_ERR t, t.blk.INFLIGHT)) =
      some (0x00000003, some .setDevice) := by decide

/-- V-EX-3. -/
theorem test_step_ses_reset_keeps_irq :
    after .sesReset (machine { Block.reset with
      SES_ST := .failed, FAIL_REASON := .timeout, FAIL_KIND := some .enterProgrammingMode, REPORTS := 2, IRQ_STAT := 0x28 })
      (fun t => (reg .STATUS t, reg .FAIL_INFO t, reg .REPORTS t, reg .IRQ_STAT t)) = some (1, 0, 0, 0x28) := by decide

/-- V-SQ-7: SES_STOP with ProgramPage in flight. -/
theorem test_step_ses_stop :
    after .sesStop
      (flying [.setDevice, .enterProgrammingMode, .loadAddress 0 0, .programPage .flash 0 [1, 2, 3, 4], .leaveProgrammingMode]
        3 .programPage .loadingAddress [0x14])
      (fun t => (t.blk.RB, reg .LAST_CMD t, reg .IRQ_STAT t, reg .STATUS t)) =
    some ([], 0x00000334, 0x30, 0x000000A1) := by decide

/-- V-SQ-9: SES_STOP in Idle reports nothing. -/
theorem test_step_ses_stop_idle :
    after .sesStop fresh (fun t => (t.blk.SES_ST, reg .REPORTS t, reg .IRQ_STAT t)) = some (.stopped, 0, 0x10) := by decide

/-- V-EX-1, V-EX-2. -/
theorem test_step_soft_reset :
    after .softReset (machine { Block.reset with ACC := 0x12, IMG := [(0, 0x77)], CMD_ERRC := .wrongState, IRQ_STAT := 0x40 })
      (fun t => (reg .HCK t, t.imgByte 0, reg .CMD_ERR t, reg .IRQ_STAT t)) = some (0x00010000, 0x77, 0, 0) := by decide +kernel

/-- PROG-2: the last byte of the text (LF) is popped and ENC_DONE set. -/
theorem test_step_csr_read_pops :
    after (.csrRead 0x28 32) (machine { Block.reset with OUTQ := [0x0A], ENC_ST := .busy, IRQ_EN := 0x03 })
      (fun t => (t.reads, reg .STATUS t, reg .IRQ_STAT t)) = some ([.word 0x0000010A], 0x00002005, 0x01) := by decide

/-- V-HA-4. -/
theorem test_step_csr_read_fault :
    after (.csrRead 0x74 32) fresh (fun t => (t.reads, reg .CMD_ERR t)) = some ([.word 0], 0x00000006) := by decide

/-- V-HA-8. -/
theorem test_step_csr_write_ses_cfg :
    after (.csrWrite 0x30 32 0xFFFFFFFF) fresh (reg .SES_CFG) = some 0xFFFF003F := by decide

/-- V-HA-16. -/
theorem test_step_csr_write_irq_stat :
    after (.csrWrite 0x08 32 0x04) (machine { Block.reset with IRQ_STAT := 0x24, IRQ_EN := 0x04 })
      (fun t => (reg .IRQ_STAT t, t.blk.irq)) = some (0x20, false) := by decide

/-- V-HA-11. -/
theorem test_step_img_write :
    after (.imgWrite 5 0xFF) fresh (fun t => t.imgByte 5) = some 0xFF := by decide +kernel

/-- V-HA-10. -/
theorem test_step_img_write_fault :
    after (.imgWrite 1024 1) fresh (fun t => (t.blk.IMG, reg .CMD_ERR t)) = some ([], 0x00000006) := by decide +kernel

theorem test_step_img_read :
    after (.imgRead 5) (machine { Block.reset with IMG := [(4, 0xEE), (5, 0xFF)] }) State.reads = some [.byte 0xFF] := by
  decide +kernel

theorem test_step_param_read :
    after (.paramRead 1) (machine { Block.reset with PARAM := [(0, 0x11), (1, 0x22)] }) State.reads = some [.byte 0x22] := by
  decide +kernel

/-- V-HA-14. -/
theorem test_step_param_write_locked :
    after (.paramWrite 0 1) (flying emptyQ 0 .setDevice .idle []) (fun t => (t.blk.PARAM, reg .CMD_ERR t)) =
      some ([], 0x00000004) := by decide +kernel

theorem test_step_param_write :
    after (.paramWrite 1 0x22) (machine { Block.reset with PARAM := [(0, 0x11)] }) (fun t => t.blk.PARAM) =
      some [(0, 0x11), (1, 0x22)] := by decide +kernel

/-- V-VA-3: three responses in one chunk. -/
theorem test_step_rx_three_responses :
    after (.rx [0x14, 0x10, 0x14, 0x10, 0x14, 0x10]) (flying emptyQ 0 .setDevice .idle [])
      (fun t => (reg .SEQ_IDX t, reg .REPORTS t, reg .LAST_CMD t, reg .IRQ_STAT t, reg .STATUS t)) =
    some (3, 3, 0x00000216, 0x24, 0x00000081) := by decide +kernel

/-- V-VA-5: a wrong trailing marker; the third byte is dropped. -/
theorem test_step_rx_wrong_trailer :
    after (.rx [0x14, 0x11, 0x14]) (flying emptyQ 0 .setDevice .idle [])
      (fun t => (reg .FAIL_INFO t, reg .FAIL_OFF t, t.blk.RB)) = some (0x00111011, 1, [0x14, 0x11]) := by decide +kernel

/-- V-VA-12: a signature mismatch, SIG_READ written all the same. -/
theorem test_step_rx_signature_mismatch :
    after (.rx [0x10])
      (let s := flying [.readSignature] 0 .readSignature .idle [0x14, 0x1E, 0x94, 0x0F]
       { s with blk := { s.blk with SIG_LEN := 3, SIG_EXPECT := 0x000F951E } })
      (fun t => (reg .FAIL_INFO t, reg .FAIL_OFF t, reg .SIG_READ t, reg .LAST_CMD t)) =
    some (0x00949575, 1, 0x000F941E, 0x00000027) := by decide +kernel

/-- V-SRC-6. -/
theorem test_step_close :
    after .close (flying emptyQ 0 .setDevice .idle [])
      (fun t => (reg .FAIL_INFO t, reg .LAST_CMD t, reg .IRQ_STAT t, reg .STATUS t)) =
    some (0x00000013, 0x00000021, 0x28, 0x00001091) := by decide

/-- V-VA-13: the tick after TMR reached 0. -/
theorem test_step_tick_timeout :
    after .tick (flying emptyQ 1 .enterProgrammingMode .deviceConfigured [0x14])
      (fun t => (reg .FAIL_INFO t, reg .FAIL_IDX t, reg .FAIL_OFF t, reg .LAST_CMD t, reg .STATUS t)) =
    some (0x00000022, 1, 1, 0x00000122, 0x00000091) := by decide

/-- V-VA-15. -/
theorem test_step_tick_idle : after .tick fresh id = some fresh := by decide +kernel

/-- V-EX-8. -/
theorem test_step_rst :
    after .rst (flying emptyQ 1 .enterProgrammingMode .deviceConfigured [0x14]) (fun t => (t.blk, reg .STATUS t)) =
      some (Block.reset, 1) := by decide +kernel

theorem test_step_rec_data :
    after (.recData 0x0005 [0xFF]) fresh (fun t => (t.blk.OUTQ, reg .ENC_NREC t)) =
    some ([0x3A, 0x30, 0x31, 0x30, 0x30, 0x30, 0x35, 0x30, 0x30, 0x46, 0x46, 0x46, 0x42, 0x0A], 1) := by decide +kernel

theorem test_step_rec_eof : after .recEof fresh (fun t => t.blk.OUTQ) =
    some [0x3A, 0x30, 0x30, 0x30, 0x30, 0x30, 0x30, 0x30, 0x31, 0x46, 0x46, 0x0A] := by decide +kernel

theorem test_step_rec_ela : after (.recEla 1) fresh (fun t => t.blk.OUTQ) =
    some [0x3A, 0x30, 0x32, 0x30, 0x30, 0x30, 0x30, 0x30, 0x34, 0x30, 0x30, 0x30, 0x31, 0x46, 0x39, 0x0A] := by decide +kernel

/-- V-SQ-1: the frames of the rows that are due. -/
theorem test_step_w_frames :
    after .wSetDevice (waiting emptyQ 0) frames = some [[0x42, 0x20]] ∧
    after .wEnterProgmode (waiting emptyQ 1) frames = some [[0x50, 0x20]] ∧
    after .wLeaveProgmode (waiting emptyQ 2) frames = some [[0x51, 0x20]] ∧
    after .wLeaveProgmode (waiting emptyQ 0) frames = some [] ∧
    after .wReadSignature (waiting [.readSignature] 0) frames = some [[0x75, 0x20]] := by decide +kernel

/-- R217, R221, R223: the bytes kept in RB complete SetDevice at its own row; the next frame is refused by LINK. -/
theorem test_step_w_set_device_completes_from_rb :
    after .wSetDevice { holding emptyQ 0 [0x14, 0x10, 0x14] with linkAnswers := [true, false] }
      (fun t => (frames t, t.blk.SES_ST, t.blk.RB, reg .REPORTS t, reg .FAIL_INFO t, reg .FAIL_OFF t)) =
    some ([[0x42, 0x20], [0x50, 0x20]], .failed, [0x14], 2, 0x00000023, 1) := by decide +kernel

/-- V-SQ-2: LoadAddress, ProgramPage and ReadPage. -/
theorem test_step_w_page_frames :
    let q : List Cmd := [.loadAddress 0x104 0x104, .programPage .flash 0x104 [1, 2], .readPage .flash 0x104 2]
    after (.wLoadAddress 0x104 0x104) (waiting q 0) frames = some [[0x55, 0x01, 0x04, 0x20]] ∧
    after (.wProgramPage .flash 0x104 [1, 2]) (waiting q 1) frames = some [[0x64, 0x00, 0x02, 0x46, 0x01, 0x02, 0x20]] ∧
    after (.wReadPage .flash 0x104 2) (waiting q 2) frames = some [[0x74, 0x00, 0x02, 0x46, 0x20]] := by decide +kernel

/-- V-EX-5, V-EX-6: CLOSE is taken before RX, and RX before TICK (R290). -/
theorem test_step_priority :
    fetch [[.event .tick, .event (.rx [0x10]), .event .close]] =
      some (.event .close, [[.event .tick, .event (.rx [0x10])]]) ∧
    fetch [[], [.event .tick, .event (.rx [0x10])]] = some (.event (.rx [0x10]), [[.event .tick]]) := by decide

/-- The opcode table's own numbers: CK_ADD's word and the record types (the 8-bit rows). -/
theorem test_table_words :
    decodeTableWord 32 0x11000000 = some (.ckAdd 0) ∧ decodeTableWord 32 0xF0000000 = some .softReset ∧
    decodeTableWord 32 0x12000000 = none ∧ decodeTableWord 8 0x01 = some .recEof ∧ decodeTableWord 8 0x04 = some (.recEla 0) ∧
    decodeTableWord 8 0x06 = none := ⟨rfl, rfl, rfl, rfl, rfl, rfl⟩

/-- A placed word is the next step's instruction. -/
theorem test_with_fetch_word :
    (match step (State.reset.withFetchWord 32 0x11000000) with
      | .next t => decide (t.blk = Block.reset ∧ t.cycles = [[]])
      | _ => false) = true := by decide +kernel

/-! ### Witnesses: for each obligation with hypotheses, a state and operands that meet them, clause by clause -/

/-- The OP bytes of R97. -/
def ops : List Byte := [0x00, 0x10, 0x11, 0x20, 0x30, 0x31, 0x3E, 0x3F, 0xF0]

theorem test_witness_CommandDecoderFollowsTheOpcodeMap :
    (0xFF000000#32).extractLsb' 24 8 ∉ ops ∧ (0x01000000#32).extractLsb' 24 8 ∉ ops ∧
    ((0xF0000001#32).extractLsb' 24 8 ∈ ops ∧ (0xF0000001#32).extractLsb' 24 8 ≠ 0x11#8 ∧ (0xF0000001#32).extractLsb' 0 8 ≠ 0#8) ∧
    ((0x11000100#32).extractLsb' 24 8 ∈ ops ∧ (0x11000100#32).extractLsb' 8 16 ≠ 0#16) ∧
    ((0x110000FF#32).extractLsb' 8 16 = 0#16 ∧ (0x110000FF#32).extractLsb' 24 8 = 0x11#8) ∧
    (∀ op ∈ ops, (op ++ 0#24 : Word).extractLsb' 24 8 = op ∧ (op ++ 0#24 : Word).extractLsb' 8 16 = 0#16 ∧
      (op ++ 0#24 : Word).extractLsb' 0 8 = 0#8) ∧
    decodeCommand 0xFF000000#32 = .error .illegalOpcode ∧ decodeCommand 0x11000100#32 = .error .reservedBits :=
  ⟨by decide, by decide, by decide, by decide, by decide, by decide, rfl, rfl⟩

theorem test_witness_CommandWordsAndDecoderAreInverse : decodeCommand 0x110000FF#32 = .ok (.ckAdd 0xFF) := rfl

theorem test_witness_DecodeInvertsEncode :
    Instr.WellFormed (.recData 0xFFFF (List.replicate 255 0xFF)) ∧ Instr.WellFormed (.recData 0 []) ∧ Instr.WellFormed (.rx [0]) ∧
    Instr.WellFormed (.wProgramPage .eeprom 0xFFFFFFFF [0]) ∧ Instr.WellFormed (.csrWrite 0 32 0x00000001) ∧
    Instr.WellFormed .sesFlash := by decide +kernel

theorem test_witness_DecodedInstructionsAreWellFormed :
    decode (.record [0x01, 0x00, 0x05, 0x00, 0xFF, 0xFB]) = .ok (.recData 0x0005 [0xFF]) ∧
    decodeRecord [0x00, 0x00, 0x00, 0x01, 0xFF] = .ok .recEof := ⟨rfl, rfl⟩

theorem test_witness_StepRunsTheDecodedInstruction :
    (fetch { fresh with cycles := [[], [.event .tick]] }.cycles = some (.event .tick, [[]]) ∧ decode (.event .tick) = .ok .tick) ∧
    fetch { fresh with cycles := [[], []] }.cycles = none := ⟨⟨rfl, rfl⟩, rfl⟩

theorem test_witness_InputsAreTakenInPriorityOrder :
    fetch [[], [.event .tick, .event .close, .event .close]] = some (.event .close, [[.event .tick, .event .close]]) ∧
    (∀ c ∈ ([[], []] : List (List Input)), c = []) ∧ ¬ ∀ c ∈ ([[], [.event .tick]] : List (List Input)), c = [] := by decide

theorem test_witness_NoEventIsRefused :
    ({ fresh with cycles := [[.event .tick]] }.cycles = [.event .tick] :: [] ∧ Event.tick ≠ .rx []) ∧
    step { fresh with cycles := [[.record [0x00, 0x00, 0x00, 0x02, 0xFE]]] } =
      .refused (.recordNeverEmitted .extendedSegmentAddress) ∧
    step { fresh with cycles := [[.event (.rx [])]] } = .refused (.undecodable .emptyChunk) := ⟨⟨rfl, by decide⟩, rfl, rfl⟩

theorem test_witness_CsrReadsReturnTheirRegister : fresh.blk.RB.length < 2 ^ 32 := by decide

theorem test_witness_EncOutReadPopsTheText :
    fresh.blk.OUTQ = [] ∧ (machine { Block.reset with OUTQ := [0x0A] }).blk.OUTQ = [0x0A] ∧
    (machine { Block.reset with OUTQ := [0x46, 0x0A] }).blk.OUTQ = 0x46 :: 0x0A :: [] ∧ fresh.blk.OUTQ.length < 2 ^ 32 := by decide

theorem test_witness_ConfigurationRegistersReadBackAsWritten : fresh.blk.ENC_ST ≠ .busy ∧ fresh.blk.INFLIGHT = none := by decide

theorem test_witness_InterruptBitsAreStickyUntilCleared :
    ∃ s t : State, Instr.WellFormed .nop ∧ exec .nop s = .next t ∧ Instr.nop ≠ .rst ∧ Instr.nop ≠ .softReset ∧
      (∀ w : Word, Instr.nop ≠ .csrWrite 0x08#32 32 w) ∧ s.blk.IRQ_STAT.getLsbD 7 = true :=
  ⟨machine { Block.reset with IRQ_STAT := 0x80 }, _, rfl, rfl, by decide, by decide, by simp, by decide⟩

theorem test_witness_LockedTargetsRefuseWrites :
    ((machine { Block.reset with ENC_ST := .busy, OUTQ := [0x0A] }).blk.ENC_ST = .busy ∧
      (1023#32).toNat < (machine { Block.reset with ENC_ST := .busy, OUTQ := [0x0A] }).cfg.IMG_CAP) ∧
    ((flying emptyQ 0 .setDevice .idle []).blk.INFLIGHT ≠ none ∧
      (63#16).toNat < (flying emptyQ 0 .setDevice .idle []).cfg.PARAM_CAP) := by decide

theorem test_witness_AccessFaultsRecordOnlyTheError :
    (0x06#32).toNat % 4 ≠ 0 ∧ 8 ≠ 32 ∧ 0x74 ≤ (0x74#32).toNat ∧
    0x70#32 ∈ ([0x04, 0x10, 0x20, 0x24, 0x28, 0x2C, 0x40, 0x44, 0x48, 0x4C, 0x50, 0x54, 0x58, 0x5C, 0x60, 0x64, 0x68, 0x6C,
        0x70] : List Word) ∧
    fresh.cfg.IMG_CAP ≤ (1024#32).toNat ∧ fresh.cfg.PARAM_CAP ≤ (64#16).toNat := by decide

theorem test_witness_ImgAccessesReadAndWriteOneByte :
    (0#32).toNat < fresh.cfg.IMG_CAP ∧ (1023#32).toNat < fresh.cfg.IMG_CAP ∧ fresh.blk.ENC_ST ≠ .busy ∧
    fresh.blk.INFLIGHT = none ∧ Memory.wf fresh.blk.IMG := by decide

theorem test_witness_ParamAccessesReadAndWriteOneByte :
    (0#16).toNat < fresh.cfg.PARAM_CAP ∧ (63#16).toNat < fresh.cfg.PARAM_CAP ∧ fresh.blk.INFLIGHT = none ∧
    Memory.wf fresh.blk.PARAM := by decide

theorem test_witness_NopChangesNothing :
    ((0x00000100#32).extractLsb' 24 8 = 0x00#8 ∧ (0x00000100#32).extractLsb' 8 16 ≠ 0#16) ∧
    ((0x00000001#32).extractLsb' 24 8 = 0x00#8 ∧ (0x00000001#32).extractLsb' 0 8 ≠ 0#8) := by decide

theorem test_witness_CkClrClearsTheAccumulator :
    ((0x10800000#32).extractLsb' 24 8 = 0x10#8 ∧ (0x10800000#32).extractLsb' 8 16 ≠ 0#16) ∧
    ((0x100000FF#32).extractLsb' 24 8 = 0x10#8 ∧ (0x100000FF#32).extractLsb' 0 8 ≠ 0#8) := by decide

theorem test_witness_CkAddAddsModulo256 :
    (0x11000100#32).extractLsb' 24 8 = 0x11#8 ∧ (0x11000100#32).extractLsb' 8 16 ≠ 0#16 := by decide

theorem test_witness_HostCommandsFoldToCksum8 : ([0x01, 0xFF] : List Byte).Perm [0xFF, 0x01] := by decide

theorem test_witness_ChecksumVerificationLaw : elaRecord 1 ∈ encodeImage 1 (some 1) 0x10000 [0x55] := by decide +kernel

theorem test_witness_EncStartChecksThenEncodes :
    (machine { Block.reset with ENC_ST := .busy }).blk.ENC_ST = .busy ∧
    (fresh.blk.ENC_ST ≠ .busy ∧ fresh.blk.LINE_LEN = 0) ∧
    (let b := (framer [1] 0 0x4401).blk
     b.LINE_LEN ≠ 0 ∧ b.OMIT_NULL = true ∧ b.PAGE_EN = false) ∧
    (let b := (framer [1] 0 0x7101).blk
     b.LINE_LEN ≠ 0 ∧ ¬ (b.OMIT_NULL = true ∧ b.PAGE_EN = false) ∧ b.PAGE_EN = true ∧ 16 < b.PAGE_LOG2.toNat) ∧
    (let b := { (framer [] 0 0x7001).blk with IMG_LEN := 1025 }
     ¬ (b.PAGE_EN = true ∧ 16 < b.PAGE_LOG2.toNat) ∧ fresh.cfg.IMG_CAP < b.IMG_LEN.toNat) ∧
    (let b := (framer [1, 2] 0xFFFFFFFF 0x7001).blk
     b.IMG_LEN.toNat ≤ fresh.cfg.IMG_CAP ∧ 2 ^ 32 < b.IMG_BASE.toNat + b.IMG_LEN.toNat) ∧
    (let s := framer [0xA5] 0xFFFFFFFF 0x7001
     s.blk.ENC_ST ≠ .busy ∧ s.blk.LINE_LEN ≠ 0 ∧ s.blk.IMG_LEN.toNat ≤ s.cfg.IMG_CAP ∧
     s.blk.IMG_BASE.toNat + s.blk.IMG_LEN.toNat ≤ 2 ^ 32 ∧ s.encRecords.length < 2 ^ 32) := by decide +kernel

theorem test_witness_EncoderReconstructsTheImage :
    1 ≤ 1 ∧ (∀ P, (some 1 : Option Nat) = some P → 0 < P) ∧
    (0, [(9 : Byte)]) ∈ imageChunks 1 (some 1) 0 [9, 0] ∧ (0 < [(9 : Byte), 0].length ∧ [(9 : Byte), 0][0] ≠ 0) ∧
    imageChunks 2 none 0xFFFD [1, 2, 3, 4] = [(0xFFFD, [1, 2]), (0xFFFF, [3]), (0x10000, [4])] := by
  refine ⟨by decide, ?_, by decide +kernel, ⟨by decide, by decide⟩, by decide +kernel⟩
  intro P h
  cases h
  decide

theorem test_witness_ElaRecordsAreTheBlockChanges :
    1 ≤ 1 ∧ (∀ P, (none : Option Nat) = some P → 0 < P) ∧ 0xFFFFFFFE + [(1 : Byte), 2].length ≤ 2 ^ 32 ∧
    (encodeImage 1 none 0xFFFFFFFE [1, 2])[0]? = some (elaRecord 0xFFFF) ∧ (elaRecord 0xFFFF).type = .extendedLinearAddress := by
  refine ⟨by decide, ?_, by decide, by decide +kernel, rfl⟩
  intro P h
  cases h

theorem test_witness_ReceiverRebuildsTheChunks :
    1 ≤ 255 ∧ (∀ P, (some 65536 : Option Nat) = some P → 0 < P) ∧ 0xFFFE + [(1 : Byte), 2, 3, 4].length ≤ 2 ^ 32 := by
  refine ⟨by decide, ?_, by decide⟩
  intro P h
  cases h
  decide

theorem test_witness_ChunksStayInOneBlock :
    1 ≤ 16 ∧ (0xFFFE, [(1 : Byte), 2]) ∈ imageChunks 16 none 0xFFFE [1, 2, 3, 4] ∧ 0 ≤ 16 ∧ 16 ≤ 16 ∧
    (0x10000, [(3 : Byte), 4]) ∈ imageChunks 16 (some (2 ^ 16)) 0xFFFE [1, 2, 3, 4] ∧
    (0x10001, [(4 : Byte)]) ∈ imageChunks 16 (some (2 ^ 0)) 0xFFFE [1, 2, 3, 4] := by decide +kernel

/-- A record may end at its window's end, at the segment's end or before six zeros; five zeros stay inside it. -/
theorem test_witness_OmittedRecordsAreTrimmed :
    (0 < 4 ∧ (0x1FFFE, [(0 : Byte), 0]) ∈ pageSegments 4 0x1FFFE [0, 0, 3, 4]) ∧
    1 ≤ 1 ∧ ([0, 0] : List Byte) ≠ [] ∧ (∀ b ∈ ([0, 0] : List Byte), b = 0) ∧
    (∃ b ∈ ([0, 5] : List Byte), b ≠ 0) ∧ (1, [(5 : Byte)]) ∈ omitSegment 1 (0, [0, 5]) ∧
    omitSegment 16 (0, [1, 0, 0, 0, 0, 0, 2]) = [(0, [1, 0, 0, 0, 0, 0, 2])] ∧
    ([1, 0, 0, 0, 0, 0, 2].take 16 = [] ++ (1 : Byte) :: (List.replicate 5 0 ++ 2 :: []) ∧
      (1 : Byte) ≠ 0 ∧ (2 : Byte) ≠ 0 ∧ 5 < 6 ∧ 0 < 7) ∧
    omitSegment 16 (0, [1, 0, 0, 0, 0, 0, 0, 2]) = [(0, [1]), (7, [2])] ∧
    omitSegment 4 (0, [1, 2, 0, 0, 0, 3]) = [(0, [1, 2]), (5, [3])] := by decide +kernel

theorem test_witness_NeverEmittedRecordTypesAreRefused : dataRecord 0 [0x55] ∈ encodeImage 1 none 0x10000 [0x55] := by
  decide +kernel

theorem test_witness_RecordLengthsFollowTheCountByte :
    (mkRecord .data 0 (List.replicate 255 0)).payload.length ≤ 255 ∧ eofRecord.payload.length ≤ 255 ∧
    hex2 0x9A = [0x39, 0x41] ∧ hex2 0xF0 = [0x46, 0x30] := by decide +kernel

theorem test_witness_EmptyImageGivesOnlyEof :
    let s := framer [] 0x1234 0x7001
    s.blk.IMG_LEN = 0 ∧ s.blk.ENC_ST ≠ .busy ∧ s.blk.LINE_LEN ≠ 0 ∧ ¬ (s.blk.OMIT_NULL = true ∧ s.blk.PAGE_EN = false) ∧
    ¬ (s.blk.PAGE_EN = true ∧ 16 < s.blk.PAGE_LOG2.toNat) := by decide

theorem test_witness_RecordRowsEmitTheirLine :
    fresh.blk.ENC_NREC.toNat + 1 < 2 ^ 32 ∧
    (machine { Block.reset with ENC_NREC := 0xFFFFFFFE }).blk.ENC_NREC.toNat + 1 < 2 ^ 32 := by decide

theorem test_witness_EncStartIsItsRecordsInTurn :
    let s := framer [0x55] 0x10000 0x10
    s.blk.ENC_ST ≠ .busy ∧ encCheck s.cfg s.blk = none ∧ s.encRecords.length < 2 ^ 32 := by decide +kernel

/-- V-SQ-3, ready to start, with VERIFY and SIGCHK. -/
def threePages : State :=
  machine { session 0x0004000E with IMG := bytesAt0 [1, 2, 3, 4, 5, 6], IMG_BASE := 0x103, IMG_LEN := 6 }

theorem test_witness_SesFlashIssuesSetDevice :
    threePages.blk.SES_ST = .idle ∧ threePages.blk.INFLIGHT = none ∧ threePages.flashCheck = none ∧
    threePages.blk.LINK_CLOSED = false ∧ threePages.nextAnswer = true ∧
    threePages.blk.RB.length < threePages.respLenOf .setDevice ∧
    (let s := machine { session 0x00100000 with RB := [0x14, 0x10, 0x14] }
     s.blk.SES_ST = .idle ∧ s.blk.INFLIGHT = none ∧ s.flashCheck = none ∧ s.blk.LINK_CLOSED = false ∧ s.nextAnswer = true ∧
     s.blk.RB = responseOf s.cfg.WP .setDevice [] ++ [0x14]) := by decide +kernel

/-- V-SQ-E1 to V-SQ-E8, each check the first to fail. -/
theorem test_witness_SesFlashRejectsInOrder :
    (machine { Block.reset with SES_ST := .done }).blk.SES_ST ≠ .idle ∧
    (flying emptyQ 0 .setDevice .idle []).blk.INFLIGHT ≠ none ∧
    fresh.flashCheck = some .devPageZero ∧
    (machine { session 0x00100000 with IMG_LEN := 1025 }).flashCheck = some .imgRange ∧
    (machine { session 0x00100000 with IMG_BASE := 0xFFFFFFFF, IMG_LEN := 2 }).flashCheck = some .imgRange ∧
    (machine (session 0x00100004)).flashCheck = some .sigLenInvalid ∧
    (machine { session 0x00100000 with PARAM_LEN := 65 }).flashCheck = some .paramLenInvalid ∧
    ({ machine { session 0x00100002 with IMG := bytesAt0 [1, 2, 3], IMG_LEN := 3 } with
      cfg := { cfg0 with RB_CAP := 4 } }).flashCheck = some .respTooLong ∧
    (machine { session 0x00100000 with IMG := [(0, 1)], IMG_BASE := 0x10000, IMG_LEN := 1 }).flashCheck = some .addrUnloadable ∧
    threePages.flashCheck = none := by decide +kernel

theorem test_witness_FlashSequenceFollowsThePages : threePages.flashCheck = none := by decide +kernel

theorem test_witness_SessionPagesTileTheImage :
    threePages.blk.DEV_PAGE ≠ 0 ∧ threePages.pages = [(0x103, [1]), (0x104, [2, 3, 4, 5]), (0x108, [6])] := by decide +kernel

theorem test_witness_SesSigIssuesReadSignature :
    (machine { Block.reset with SES_ST := .stopped }).blk.SES_ST ≠ .idle ∧
    ¬ (1 ≤ (machine (session 0x28)).blk.SIG_LEN.toNat ∧ (machine (session 0x28)).blk.SIG_LEN.toNat ≤ 4) ∧
    (1 ≤ (machine (session 0x20)).blk.SIG_LEN.toNat ∧ (machine (session 0x20)).blk.SIG_LEN.toNat ≤ 4) ∧
    5 < (tp.LEAD_EN.readSignature).toNat + (machine (session 0x20)).blk.SIG_LEN.toNat + (tp.TRAIL_EN.readSignature).toNat ∧
    (let s := machine (session 0x20)
     s.blk.SES_ST = .idle ∧ s.blk.INFLIGHT = none ∧ s.blk.LINK_CLOSED = false ∧ s.nextAnswer = true ∧
     ¬ s.cfg.RB_CAP < (s.cfg.WP.LEAD_EN.readSignature).toNat + s.blk.SIG_LEN.toNat + (s.cfg.WP.TRAIL_EN.readSignature).toNat ∧
     s.blk.RB.length < s.respLenOf .readSignature) ∧
    (let s := machine { session 0x18 with SIG_EXPECT := 0x000F951E, RB := [0x14, 0x1E, 0x94, 0x0F, 0x10, 0x77] }
     s.blk.SES_ST = .idle ∧ s.expects .readSignature [0x1E, 0x95, 0x0F] ∧
     s.blk.RB = responseOf s.cfg.WP .readSignature [0x1E, 0x94, 0x0F] ++ [0x77] ∧
     [(0x1E : Byte), 0x95, 0x0F][1]? = some 0x95 ∧ [(0x1E : Byte), 0x94, 0x0F][1]? = some 0x94 ∧ (0x94 : Byte) ≠ 0x95 ∧
     [(0x1E : Byte), 0x94, 0x0F].take 1 = [(0x1E : Byte), 0x95, 0x0F].take 1) := by
  unfold State.expects
  decide +kernel

theorem test_witness_SesStopStopsTheSession :
    (machine { Block.reset with SES_ST := .done }).blk.SES_ST = .done ∧
    (fresh.blk.SES_ST ≠ .done ∧ fresh.blk.SES_ST ≠ .failed ∧ fresh.blk.SES_ST ≠ .stopped ∧ fresh.blk.INFLIGHT = none) ∧
    (flying emptyQ 0 .setDevice .idle []).blk.INFLIGHT = some .setDevice := by decide

theorem test_witness_SesResetClearsTheSession :
    (flying emptyQ 0 .setDevice .idle []).blk.INFLIGHT ≠ none ∧
    (machine { Block.reset with SES_ST := .failed }).blk.INFLIGHT = none := by decide

theorem test_witness_WireFrameRowsIssueTheDueCommand :
    (let s := waiting emptyQ 0
     s.blk.current = some .setDevice ∧ s.blk.INFLIGHT = none ∧ s.blk.SES_ST.terminal = false ∧ s.blk.LINK_CLOSED = false ∧
     s.nextAnswer = true ∧ s.blk.RB.length < s.respLenOf .setDevice ∧ s.blk.RB.length < 2 ^ 32) ∧
    { waiting emptyQ 0 with linkAnswers := [false] }.nextAnswer = false ∧
    (machine { (waiting emptyQ 0).blk with LINK_CLOSED := true }).blk.LINK_CLOSED = true ∧
    (waiting emptyQ 1).blk.current ≠ some .setDevice ∧ (flying emptyQ 0 .setDevice .idle []).blk.INFLIGHT ≠ none := by
  decide +kernel

/-- The same rows with a complete response waiting in RB: a wrong marker, a wrong body, the last command and one with a next. -/
theorem test_witness_WireFrameRowsFindAResponse :
    (let s := holding emptyQ 0 [0x15, 0x10]
     s.blk.current = some .setDevice ∧ s.blk.RB = 0x15 :: [0x10] ++ [] ∧ (0x15 :: [(0x10 : Byte)]).length = s.respLenOf .setDevice ∧
     s.cfg.WP.LEAD_EN.get .setDevice = true ∧ (0x15 : Byte) ≠ s.cfg.WP.LEAD.get .setDevice) ∧
    (let s := holding emptyQ 0 [0x14, 0x11, 0x14]
     s.blk.current = some .setDevice ∧ s.blk.RB = [0x14] ++ 0x11 :: [0x14] ∧ [(0x14 : Byte)].length + 1 = s.respLenOf .setDevice ∧
     s.blk.RB.head? = some (s.cfg.WP.LEAD.get .setDevice) ∧ s.cfg.WP.TRAIL_EN.get .setDevice = true ∧
     (0x11 : Byte) ≠ s.cfg.WP.TRAIL.get .setDevice) ∧
    (let s := holding emptyQ 0 [0x14, 0x10, 0x14]
     s.blk.current = some .setDevice ∧ s.expects .setDevice [] ∧ s.follows .enterProgrammingMode ∧
     s.blk.RB = responseOf s.cfg.WP .setDevice [] ++ [0x14]) ∧
    (let s := holding emptyQ 2 [0x14, 0x10]
     s.blk.current = some .leaveProgrammingMode ∧ s.expects .leaveProgrammingMode [] ∧ s.blk.SEQ_IDX + 1 = s.blk.SEQ_LEN ∧
     s.blk.RB = responseOf s.cfg.WP .leaveProgrammingMode [] ++ []) ∧
    (let s := holding [.programPage .flash 0 [0xDE, 0xAD], .readPage .flash 0 2] 1 [0x14, 0xDE, 0xAC, 0x10]
     s.blk.current = some (.readPage .flash 0 2) ∧ s.expects (.readPage .flash 0 2) [0xDE, 0xAD] ∧
     s.blk.RB = responseOf s.cfg.WP .readPage [0xDE, 0xAC] ++ [] ∧ [(0xDE : Byte), 0xAC].take 1 = [(0xDE : Byte), 0xAD].take 1 ∧
     [(0xDE : Byte), 0xAD][1]? = some 0xAD ∧ [(0xDE : Byte), 0xAC][1]? = some 0xAC ∧ (0xAC : Byte) ≠ 0xAD) := by
  unfold State.follows
  exact ⟨by decide +kernel, by decide +kernel, ⟨by decide, rfl, by decide +kernel, by decide +kernel⟩,
    ⟨by decide, rfl, by decide, by decide +kernel⟩,
    ⟨by decide +kernel, ⟨rfl, .flash, 0, by decide +kernel⟩, by decide +kernel, by decide +kernel⟩⟩

theorem test_witness_SessionStartIsItsFirstFrameRow :
    threePages.blk.SES_ST = .idle ∧ threePages.blk.INFLIGHT = none ∧ threePages.flashCheck = none ∧
    threePages.sigCheck = none := by decide +kernel

theorem test_witness_BytesOutsideACommandAreKeptUpToCapacity :
    (machine { Block.reset with SES_ST := .stopped }).blk.SES_ST.terminal = true ∧
    (fresh.blk.SES_ST.terminal = false ∧ fresh.blk.INFLIGHT = none ∧ fresh.blk.RB.length ≤ fresh.cfg.RB_CAP) ∧
    (let s := { machine { Block.reset with RB := [1, 2] } with cfg := { cfg0 with RB_CAP := 2 } }
     s.blk.RB.length ≤ s.cfg.RB_CAP ∧ s.cfg.RB_CAP < s.blk.RB.length + [(3 : Byte)].length) := by decide +kernel

/-- SetDevice and LeaveProgrammingMode of V-SQ-1 in flight, one byte short. -/
theorem test_witness_GoodResponseCompletesTheCommand :
    (let s := flying emptyQ 0 .setDevice .idle []
     s.awaits .setDevice ∧ s.blk.RB.length < s.cfg.RB_CAP ∧ s.blk.RB.length + 1 < s.respLenOf .setDevice) ∧
    (let s := flying emptyQ 0 .setDevice .idle [0x14]
     s.awaits .setDevice ∧ s.blk.RB ++ [0x10] = responseOf s.cfg.WP .setDevice [] ∧ s.blk.SEQ_IDX + 1 ≠ s.blk.SEQ_LEN ∧
     s.blk.Q[s.blk.SEQ_IDX.toNat + 1]? = some .enterProgrammingMode ∧ s.blk.LINK_CLOSED = false ∧ s.nextAnswer = true ∧
     0 < s.respLenOf .enterProgrammingMode ∧ s.follows .enterProgrammingMode ∧
     { s with linkAnswers := [false] }.nextAnswer = false) ∧
    (let s := flying emptyQ 2 .leaveProgrammingMode .programmingModeEntered [0x14]
     s.awaits .leaveProgrammingMode ∧ s.blk.RB ++ [0x10] = responseOf s.cfg.WP .leaveProgrammingMode [] ∧
     s.blk.SEQ_IDX + 1 = s.blk.SEQ_LEN) := by
  unfold State.awaits State.follows
  decide +kernel

/-- V-VA-4 and V-VA-5. -/
theorem test_witness_WrongMarkerFailsWithProtocolDesync :
    (let s := flying emptyQ 0 .setDevice .idle [0x15]
     s.awaits .setDevice ∧ s.blk.RB.length < s.cfg.RB_CAP ∧ s.blk.RB.length + 1 = s.respLenOf .setDevice ∧
     s.blk.RB ++ [0x10] = 0x15 :: [0x10] ∧ s.cfg.WP.LEAD_EN.get .setDevice = true ∧
     (0x15 : Byte) ≠ s.cfg.WP.LEAD.get .setDevice) ∧
    (let s := flying emptyQ 0 .setDevice .idle [0x14]
     s.awaits .setDevice ∧ s.blk.RB.length + 1 = s.respLenOf .setDevice ∧ s.blk.RB ++ [0x11] = 0x14 :: [0x11] ∧
     0x14 = s.cfg.WP.LEAD.get .setDevice ∧ s.cfg.WP.TRAIL_EN.get .setDevice = true ∧
     (0x11 : Byte) ≠ s.cfg.WP.TRAIL.get .setDevice) := by
  unfold State.awaits
  decide +kernel

/-- A page of two bytes written and read back. -/
def readBack (q : List Cmd) (rb : List Byte) : State :=
  flying (.programPage .flash 0 [0xDE, 0xAD] :: .readPage .flash 0 2 :: q) 1 .readPage .programmingPage rb

theorem test_witness_ReadPageComparesWithTheBytesWritten :
    (let s := readBack [] [0x14, 0xDE, 0xAD]
     s.awaits (.readPage .flash 0 2) ∧ s.blk.RB.length < s.cfg.RB_CAP ∧
     s.blk.Q[s.blk.SEQ_IDX.toNat - 1]? = some (.programPage .flash 0 [0xDE, 0xAD]) ∧
     [(0xDE : Byte), 0xAD].length = (2#16).toNat ∧ s.blk.RB ++ [0x10] = responseOf s.cfg.WP .readPage [0xDE, 0xAD] ∧
     s.blk.SEQ_IDX + 1 = s.blk.SEQ_LEN) ∧
    (let s := readBack [.leaveProgrammingMode] [0x14, 0xDE, 0xAD]
     s.awaits (.readPage .flash 0 2) ∧ s.blk.SEQ_IDX + 1 ≠ s.blk.SEQ_LEN ∧
     s.blk.Q[s.blk.SEQ_IDX.toNat + 1]? = some .leaveProgrammingMode ∧ s.blk.LINK_CLOSED = false ∧ s.nextAnswer = true ∧
     0 < s.respLenOf .leaveProgrammingMode ∧ s.follows .leaveProgrammingMode ∧
     { s with linkAnswers := [false] }.nextAnswer = false) ∧
    (let s := readBack [] [0x14, 0xDE, 0xAC]
     s.awaits (.readPage .flash 0 2) ∧ s.blk.RB ++ [0x10] = responseOf s.cfg.WP .readPage [0xDE, 0xAC] ∧
     [(0xDE : Byte), 0xAD][1]? = some 0xAD ∧ [(0xDE : Byte), 0xAC][1]? = some 0xAC ∧ (0xAC : Byte) ≠ 0xAD ∧
     [(0xDE : Byte), 0xAC].take 1 = [(0xDE : Byte), 0xAD].take 1) := by
  unfold State.awaits State.follows
  decide +kernel

/-- V-VA-11, V-VA-12: a signature session one byte short. -/
def signing (rb : List Byte) : State :=
  let s := flying [.readSignature] 0 .readSignature .idle rb
  { s with blk := { s.blk with SIG_LEN := 3, SIG_EXPECT := 0x000F951E } }

theorem test_witness_ReadSignatureComparesWithSigExpect :
    (let s := signing [0x14, 0x1E, 0x95, 0x0F]
     s.awaits .readSignature ∧ s.blk.RB.length < s.cfg.RB_CAP ∧ [(0x1E : Byte), 0x95, 0x0F].length = s.blk.SIG_LEN.toNat ∧
     s.blk.RB ++ [0x10] = responseOf s.cfg.WP .readSignature [0x1E, 0x95, 0x0F] ∧
     (∀ i < 3, [(0x1E : Byte), 0x95, 0x0F][i]? = some (s.blk.SIG_EXPECT.extractLsb' (8 * i) 8)) ∧
     s.blk.SEQ_IDX + 1 = s.blk.SEQ_LEN) ∧
    (let s := signing [0x14, 0x1E, 0x94, 0x0F]
     s.awaits .readSignature ∧ s.blk.RB ++ [0x10] = responseOf s.cfg.WP .readSignature [0x1E, 0x94, 0x0F] ∧
     [(0x1E : Byte), 0x94, 0x0F][1]? = some 0x94 ∧ (0x94 : Byte) ≠ s.blk.SIG_EXPECT.extractLsb' (8 * 1) 8 ∧
     (∀ j < 1, [(0x1E : Byte), 0x94, 0x0F][j]? = some (s.blk.SIG_EXPECT.extractLsb' (8 * j) 8))) ∧
    (let s := flying [.readSignature, .setDevice] 0 .readSignature .idle [0x14]
     s.awaits .readSignature ∧ s.follows .setDevice ∧ s.blk.RB ++ [0x10] = responseOf s.cfg.WP .readSignature [] ∧
     ([] : List Byte).length = s.blk.SIG_LEN.toNat) := by
  unfold State.awaits State.follows
  decide +kernel

theorem test_witness_TickCountsDownTheBudget :
    fresh.blk.INFLIGHT = none ∧
    (let b := { (flying emptyQ 0 .setDevice .idle []).blk with TMR := 1 }
     b.INFLIGHT ≠ none ∧ b.TMR ≠ 0) ∧
    (let b := (flying emptyQ 0 .setDevice .idle []).blk
     b.INFLIGHT ≠ none ∧ b.TMR = 0 ∧ b.current = some .setDevice ∧ b.RB.length < 2 ^ 32) := by decide

theorem test_witness_TimeoutComesOneTickAfterTheBudget :
    let b := { (flying emptyQ 1 .enterProgrammingMode .deviceConfigured [0x14]).blk with TMR := 2 }
    b.INFLIGHT ≠ none ∧ b.current = some .enterProgrammingMode ∧ b.RB.length < 2 ^ 32 ∧ 2 ≤ b.TMR.toNat := by decide

theorem test_witness_CloseFailsTheCommandInFlight :
    (let b := { Block.reset with LINK_CLOSED := true }
     b.INFLIGHT = none ∧ b.LINK_CLOSED = true) ∧
    (let b := (flying emptyQ 0 .setDevice .idle []).blk
     b.INFLIGHT ≠ none ∧ b.current = some .setDevice ∧ b.RB.length < 2 ^ 32) := by decide

/-- V-VA-2. -/
theorem test_witness_RxIsFragmentationInvariant :
    let one : List (List Byte) := [[0x14, 0x10]]
    let two : List (List Byte) := [[0x14], [0x10]]
    (∀ c ∈ one, c ≠ []) ∧ (∀ c ∈ two, c ≠ []) ∧ one.flatten = two.flatten := by decide

/-- A state inside a session has the invariant, and a step of it is a byte received. -/
theorem test_witness_EveryStepKeepsTheInvariant :
    ∃ s t : State, s.Inv ∧ step s = .next t ∧ t.blk.SEQ_IDX = 2 := by
  refine ⟨{ flying emptyQ 1 .enterProgrammingMode .deviceConfigured [0x14] with cycles := [[.event (.rx [0x10])]] }, _, ?_, rfl, ?_⟩
  · exact {
      cfgValid := by decide +kernel
      imgWf := by decide
      imgWithin := by decide
      paramWf := by decide
      paramWithin := by decide
      seqLen := by decide
      phaseInFlight := by decide
      inFlight := fun _ => ⟨by decide, .enterProgrammingMode, by decide, by decide, by decide⟩
      terminalQuiet := by decide
      busyIff := by decide
      rbCap := by decide }
  · decide +kernel

/-- V-VA-15: a TICK in Failed. -/
theorem test_witness_TerminalStatesEndOnlyByReset :
    ∃ s t : State, s.Inv ∧ Instr.WellFormed .tick ∧ s.blk.SES_ST.terminal = true ∧ exec .tick s = .next t ∧
      Instr.tick ≠ .rst ∧ Instr.tick ≠ .softReset ∧ Instr.tick ≠ .sesReset := by
  refine ⟨machine { Block.reset with SES_ST := .failed, FAIL_REASON := .timeout, Q := emptyQ, SEQ_LEN := 3, RB := [0x15] }, _,
    ?_, rfl, by decide, rfl, by decide, by decide, by decide⟩
  exact {
    cfgValid := by decide +kernel
    imgWf := by decide
    imgWithin := by decide
    paramWf := by decide
    paramWithin := by decide
    seqLen := by decide
    phaseInFlight := by decide
    inFlight := by decide
    terminalQuiet := by decide
    busyIff := by decide
    rbCap := by decide }

theorem test_witness_OnlyMemoryWritesAndRstChangeMemory :
    ∃ t : State, exec (.imgWrite 5 0xFF) fresh = .next t ∧ Instr.imgWrite 5 0xFF ≠ .rst ∧
      (∀ (a : Word) (x : Byte), Instr.imgWrite 5 0xFF = .imgWrite a x → a.toNat ≠ 6) ∧
      (∀ (a : Half) (x : Byte), Instr.imgWrite 5 0xFF = .paramWrite a x → a.toNat ≠ 0) := by
  refine ⟨_, rfl, by decide, ?_, ?_⟩
  · intro a x h
    cases h
    decide
  · intro a x h
    cases h

end Sys2Proof.Tests
end

section
/-! PROOFS. Family 10_state: the invariant, the registers, the interrupt bits and the resets. -/

namespace Sys2Proof.Machine

/-! ### The invariant, operation by operation (spec R49) -/

section
variable {s t : State}

theorem State.Inv.reply (h : s.Inv) (r : HostRead) : (s.reply r).Inv := { h with }

theorem State.Inv.cmdErr (h : s.Inv) (code : CmdErrCode) (sub : SesCfgErr) :
    (s.mapBlk (Block.cmdErr code sub)).Inv := { h with }

theorem State.Inv.encErr (h : s.Inv) (e : EncErrCode) : (s.mapBlk (Block.encErr e)).Inv :=
  { h with busyIff := by simp }

theorem State.Inv.emitRecord (h : s.Inv) (r : HexRecord) : (s.mapBlk (Block.emitRecord r)).Inv :=
  { h with busyIff := by simp [textLine_ne_nil] }

/-- The text of an image is never empty: its EndOfFile record has a line (spec R179). -/
theorem textOf_encodeImage_ne_nil (L : Nat) (mode : Option Nat) (B : Nat) (d : List Byte) :
    textOf (encodeImage L mode B d) ≠ [] := by
  simp [textOf, encodeImage, textLine_ne_nil]

theorem State.Inv.encStart (h : s.Inv) : s.encStart.Inv := by
  rcases s.encStart_cases with ⟨-, e⟩ | ⟨-, x, -, e⟩ | ⟨-, -, e⟩ <;> rw [e]
  · exact h.cmdErr _ _
  · exact h.encErr x
  · exact { h with busyIff := by simp [State.encRecords, textOf_encodeImage_ne_nil] }

/-- The pop keeps BUSY as long as a byte is left, and ends it with the last (spec R192). -/
theorem State.Inv.popText (h : s.Inv) : (s.mapBlk Block.popText).Inv := by
  unfold State.mapBlk
  rcases s.blk.popText_cases with ⟨-, e⟩ | ⟨-, e⟩ | ⟨c, d, rest, hq, e⟩ <;> rw [e]
  · exact h
  · exact { h with busyIff := by simp }
  · exact { h with busyIff := by simp [h.busyIff, hq] }

theorem State.Inv.csrRead (h : s.Inv) (off : Word) (width : Nat) : (s.csrRead off width).Inv := by
  rcases s.csrRead_cases off width with ⟨-, e⟩ | ⟨-, e⟩ | ⟨r, -, -, e⟩ <;> rw [e]
  · exact (h.cmdErr _ _).reply _
  · exact h.popText.reply _
  · exact h.reply _

/-- A register write that is not locked: only SES_CFG holds a field the invariant speaks of, SIG_LEN, and its lock is the
command in flight whose response length SIG_LEN gives (spec R311). -/
theorem State.Inv.writeConfig (h : s.Inv) {r : Csr} (hl : s.blk.csrLocked r = false) (w : Word) :
    (s.mapBlk (Block.writeConfig r w)).Inv := by
  cases r with
  | SES_CFG =>
    have hin : s.blk.INFLIGHT = none := by simpa [Block.csrLocked, Block.sesActive] using hl
    exact { h with inFlight := fun hc => absurd hin hc }
  | _ => exact { h with }

theorem State.Inv.writeImg (h : s.Inv) {a : Nat} (ha : a < s.cfg.IMG_CAP) (x : Byte) :
    (s.mapBlk (Block.writeImg a x)).Inv :=
  { h with
    imgWf := Memory.wf_write h.imgWf a x
    imgWithin := Memory.within_write h.imgWithin ha x }

theorem State.Inv.writeParam (h : s.Inv) {a : Nat} (ha : a < s.cfg.PARAM_CAP) (x : Byte) :
    (s.mapBlk (Block.writeParam a x)).Inv :=
  { h with
    paramWf := Memory.wf_write h.paramWf a x
    paramWithin := Memory.within_write h.paramWithin ha x }

/-! The reset values, and the ways out of a session -/

/-- The block at its reset values, with memories in canonical form, has the invariant (spec R50, R301, R303). -/
theorem State.inv_of_softReset (hcfg : s.cfg.Valid) (himg : Memory.wf s.blk.IMG)
    (himg' : ∀ c ∈ s.blk.IMG, c.1 < s.cfg.IMG_CAP) (hpar : Memory.wf s.blk.PARAM)
    (hpar' : ∀ c ∈ s.blk.PARAM, c.1 < s.cfg.PARAM_CAP) (hb : s.blk = s.blk.softReset) : s.Inv where
  cfgValid := hcfg
  imgWf := himg
  imgWithin := himg'
  paramWf := hpar
  paramWithin := hpar'
  seqLen := by rw [hb]; rfl
  phaseInFlight := by rw [hb]; simp
  inFlight := by rw [hb]; simp
  terminalQuiet := by rw [hb]; simp
  busyIff := by rw [hb]; simp
  rbCap := by rw [hb]; simp

theorem State.Inv.softReset (h : s.Inv) : (s.mapBlk Block.softReset).Inv :=
  State.inv_of_softReset h.cfgValid h.imgWf h.imgWithin h.paramWf h.paramWithin rfl

theorem State.Inv.powerOn (h : s.Inv) : s.powerOn.Inv :=
  State.inv_of_softReset h.cfgValid .nil (by simp [Block.reset]) .nil (by simp [Block.reset]) rfl

theorem State.reset_inv : State.reset.Inv :=
  State.inv_of_softReset Config.platform_valid .nil (by simp [State.reset, Block.reset]) .nil
    (by simp [State.reset, Block.reset]) rfl

theorem State.Inv.sesReset (h : s.Inv) : s.sesReset.Inv := by
  rcases s.sesReset_cases with ⟨-, e⟩ | ⟨hin, e⟩ <;> rw [e]
  · exact h.cmdErr _ _
  · exact {
      h with
      seqLen := rfl
      phaseInFlight := by simp
      inFlight := fun hc => absurd hin hc
      terminalQuiet := fun _ => hin
      rbCap := by simp }

theorem State.Inv.stop (h : s.Inv) : (s.mapBlk Block.stop).Inv := by
  unfold State.mapBlk
  rcases s.blk.stop_cases with ⟨-, e⟩ | ⟨-, hin, e⟩ | ⟨-, k, -, e⟩ <;> rw [e]
  · exact h
  · exact {
      h with
      phaseInFlight := by simp [SesState.terminal]
      inFlight := fun hc => absurd hin hc
      terminalQuiet := fun _ => hin
      rbCap := by simp }
  · exact {
      h with
      phaseInFlight := by simp [SesState.terminal]
      inFlight := by simp
      terminalQuiet := by simp
      rbCap := by simp }

/-! The session engine -/

/-- The session engine keeps the invariant when it leaves the session settled and RB within its capacity. -/
theorem State.Inv.of_settled (h : s.Inv) (o : OnlySession s t) (hset : t.Settled)
    (hrb : t.blk.RB.length ≤ s.cfg.RB_CAP) : t.Inv where
  cfgValid := by rw [o.cfg]; exact h.cfgValid
  imgWf := by rw [o.IMG]; exact h.imgWf
  imgWithin := by rw [o.IMG, o.cfg]; exact h.imgWithin
  paramWf := by rw [o.PARAM]; exact h.paramWf
  paramWithin := by rw [o.PARAM, o.cfg]; exact h.paramWithin
  seqLen := by rw [o.SEQ_LEN, o.Q]; exact h.seqLen
  phaseInFlight _ hterm := by
    rcases hset with ⟨-, -, c, -, hin, -⟩ | ⟨hterm', -⟩
    · simp [hin]
    · simp [hterm] at hterm'
  inFlight hin := by
    rcases hset with ⟨-, hidx, hc⟩ | ⟨-, hin'⟩
    · exact ⟨hidx, hc⟩
    · exact absurd hin' hin
  terminalQuiet hterm := by
    rcases hset with ⟨hterm', -⟩ | ⟨-, hin⟩
    · simp [hterm] at hterm'
    · exact hin
  busyIff := by rw [o.ENC_ST, o.OUTQ]; exact h.busyIff
  rbCap := by rw [o.cfg]; exact hrb

theorem State.Inv.failWith (h : s.Inv) (r : FailReason) (x : FailCtx) : (s.failWith r x).Inv :=
  h.of_settled (failWith_onlySession r x s) (failWith_settled r x s) h.rbCap

/-- Issue of a command that is there, in a session that has not ended (spec R217). -/
theorem State.Inv.issue (h : s.Inv) (hrem : s.blk.remaining ≠ []) (hst : s.blk.SES_ST.terminal = false) : s.issue.Inv := by
  obtain ⟨hset, hrb⟩ := State.issueFrom_settles _ s rfl h.seqLen hrem hst
  exact h.of_settled (issue_onlySession s) hset (hrb.trans h.rbCap)

theorem Block.remaining_ne_nil {b : Block} {c : Cmd} (h : b.current = some c) : b.remaining ≠ [] := by
  obtain ⟨hlt, -⟩ := List.getElem?_eq_some_iff.mp h
  simpa [Block.remaining] using hlt

theorem State.Inv.issueDue (h : s.Inv) (c : Cmd) : (s.issueDue c).Inv := by
  rcases s.issueDue_cases c with ⟨-, hst, hcur, e⟩ | ⟨-, e⟩ <;> rw [e]
  · exact h.issue (Block.remaining_ne_nil hcur) hst
  · exact h

/-- A session opened in Idle and its first command issued (spec R206, R215). -/
theorem State.Inv.openSession_issue (h : s.Inv) (hst : s.blk.SES_ST = .idle) (hin : s.blk.INFLIGHT = none) {q : List Cmd}
    (hq : q ≠ []) (hlen : q.length < 2 ^ 32) : (s.mapBlk (Block.openSession q)).issue.Inv := by
  have hopen : (s.mapBlk (Block.openSession q)).Inv :=
    { h with
      seqLen := by simpa using hlen
      inFlight := fun hc => absurd hin hc }
  exact hopen.issue (by simpa [Block.remaining] using hq) (by simp [hst, SesState.terminal])

theorem State.Inv.sesFlash (h : s.Inv) : s.sesFlash.Inv := by
  rcases s.sesFlash_cases with ⟨code, sub, e⟩ | ⟨hst, hin, hcheck, e⟩ <;> rw [e]
  · exact h.cmdErr _ _
  · exact h.openSession_issue hst hin (by simp [State.flashQ]) (State.flashQ_length_lt hcheck)

theorem State.Inv.sesSig (h : s.Inv) : s.sesSig.Inv := by
  rcases s.sesSig_cases with ⟨code, sub, e⟩ | ⟨hst, hin, -, e⟩ <;> rw [e]
  · exact h.cmdErr _ _
  · exact h.openSession_issue hst hin (by simp) (by simp)

theorem State.Inv.rxByte (h : s.Inv) (x : Byte) : (s.rxByte x).Inv := by
  rcases s.rxByte_cases x with ⟨-, e⟩ | ⟨-, -, e⟩ | ⟨hst, hroom, t, rfl, ⟨hin, e⟩ | ⟨hin, e⟩⟩ <;> rw [e]
  · exact h
  · exact { h with }
  all_goals
    have hfits : (s.mapBlk (Block.store x)).blk.RB.length ≤ s.cfg.RB_CAP := by
      have := h.rbCap
      simp
      omega
  · exact { h with inFlight := fun hc => absurd hin hc, rbCap := hfits }
  · obtain ⟨-, c, hcur, hkind, -⟩ := h.inFlight hin
    obtain ⟨hset, hrb⟩ := State.checkCompletion_settles (s.mapBlk (Block.store x)) hcur h.seqLen hst hkind
    exact h.of_settled ((storeByte_onlySession x s).trans (checkCompletion_onlySession _)) hset (hrb.trans hfits)

theorem State.Inv.rxBytes (h : s.Inv) (chunk : List Byte) : (s.rxBytes chunk).Inv := by
  induction chunk generalizing s with
  | nil => exact h
  | cons x chunk ih => exact ih (h.rxByte x)

theorem State.Inv.tick (h : s.Inv) : s.tick.Inv := by
  rcases s.tick_cases with ⟨-, e⟩ | ⟨-, -, e⟩ | ⟨-, -, e⟩ <;> rw [e]
  · exact h
  · exact h.failWith _ _
  · exact { h with }

theorem State.Inv.close (h : s.Inv) : s.close.Inv := by
  have hclosed : (s.mapBlk Block.closeLink).Inv := { h with }
  rcases s.close_cases with ⟨-, e⟩ | ⟨-, e⟩ <;> rw [e]
  · exact hclosed
  · exact hclosed.failWith _ _

/-! Instructions and steps -/

/-- The invariant of an instruction's next state, from that of the state its meaning names. -/
theorem State.Inv.of_next {u : State} (h : u.Inv) (e : (.next u : Host.Outcome State Fault Refusal) = .next t) : t.Inv := by
  cases e; exact h

theorem State.Inv.exec_command (h : s.Inv) (c : Command) (e : exec c.toInstr s = .next t) : t.Inv := by
  cases c with
  | nop => exact h.of_next e
  | ckClr => cases e; exact { h with }
  | ckAdd b => cases e; exact { h with }
  | encStart => exact h.encStart.of_next e
  | sesFlash => exact h.sesFlash.of_next e
  | sesSig => exact h.sesSig.of_next e
  | sesReset => exact h.sesReset.of_next e
  | sesStop => exact h.stop.of_next e
  | softReset => exact h.softReset.of_next e

theorem State.Inv.exec_cmd (h : s.Inv) (c : Cmd) (e : exec c.toInstr s = .next t) : t.Inv := by
  rw [exec_cmd_toInstr] at e
  exact (h.issueDue c).of_next e

theorem State.Inv.exec_csrWrite (h : s.Inv) {off : Word} {width : Nat} {w : Word}
    (e : execCsrWrite off width w s = .next t) : t.Inv := by
  rcases execCsrWrite_cases off width w s with
    ⟨-, c, -, k⟩ | ⟨code, k⟩ | ⟨-, k⟩ | ⟨-, k⟩ | ⟨r, -, -, hl, k⟩ <;> rw [k] at e
  · exact h.exec_command c e
  · exact (h.cmdErr _ _).of_next e
  · cases e; exact { h with }
  · cases e; exact { h with }
  · exact (h.writeConfig hl w).of_next e

/-- Every instruction keeps the invariant. -/
theorem State.Inv.exec_instr (h : s.Inv) {i : Instr} (e : exec i s = .next t) : t.Inv := by
  cases i with
  | nop => exact h.exec_command .nop e
  | ckClr => exact h.exec_command .ckClr e
  | ckAdd b => exact h.exec_command (.ckAdd b) e
  | encStart => exact h.exec_command .encStart e
  | sesFlash => exact h.exec_command .sesFlash e
  | sesSig => exact h.exec_command .sesSig e
  | sesReset => exact h.exec_command .sesReset e
  | sesStop => exact h.exec_command .sesStop e
  | softReset => exact h.exec_command .softReset e
  | csrRead off width => exact (h.csrRead off width).of_next e
  | csrWrite off width w => exact h.exec_csrWrite e
  | imgRead a =>
    change execImgRead a s = _ at e
    rcases execImgRead_cases a s with ⟨-, k⟩ | ⟨-, k⟩ <;> rw [k] at e
    · exact ((h.cmdErr _ _).reply _).of_next e
    · exact (h.reply _).of_next e
  | imgWrite a x =>
    change execImgWrite a x s = _ at e
    rcases execImgWrite_cases a x s with ⟨code, k⟩ | ⟨ha, -, k⟩ <;> rw [k] at e
    · exact (h.cmdErr _ _).of_next e
    · exact (h.writeImg ha x).of_next e
  | paramRead a =>
    change execParamRead a s = _ at e
    rcases execParamRead_cases a s with ⟨-, k⟩ | ⟨-, k⟩ <;> rw [k] at e
    · exact ((h.cmdErr _ _).reply _).of_next e
    · exact (h.reply _).of_next e
  | paramWrite a x =>
    change execParamWrite a x s = _ at e
    rcases execParamWrite_cases a x s with ⟨code, k⟩ | ⟨ha, -, k⟩ <;> rw [k] at e
    · exact (h.cmdErr _ _).of_next e
    · exact (h.writeParam ha x).of_next e
  | rx chunk => exact (h.rxBytes chunk).of_next e
  | close => exact h.close.of_next e
  | tick => exact h.tick.of_next e
  | rst => exact h.powerOn.of_next e
  | recData a d => exact (h.emitRecord _).of_next e
  | recEof => exact (h.emitRecord _).of_next e
  | recEla k => exact (h.emitRecord _).of_next e
  | recEsa a d => cases e
  | recSsa a d => cases e
  | recSla a d => cases e
  | wSetDevice => exact h.exec_cmd .setDevice e
  | wEnterProgmode => exact h.exec_cmd .enterProgrammingMode e
  | wLoadAddress a16 a32 => exact h.exec_cmd (.loadAddress a16 a32) e
  | wProgramPage mk a32 d => exact h.exec_cmd (.programPage mk a32 d) e
  | wReadPage mk a32 n => exact h.exec_cmd (.readPage mk a32 n) e
  | wLeaveProgmode => exact h.exec_cmd .leaveProgrammingMode e
  | wReadSignature => exact h.exec_cmd .readSignature e

/-- A step that has a next state holds the state or executes an instruction (spec R9, R88, R296). -/
theorem step_next_cases (e : step s = .next t) :
    t = s ∨ ∃ (i : Instr) (rest : List (List Input)), exec i { s with cycles := rest } = .next t := by
  unfold step at e
  split at e
  · cases e; exact .inl rfl
  · split at e
    · exact .inr ⟨_, _, e⟩
    · cases e

end

/-! ### Which register an access reaches -/

/-- The register at an offset stands at four times its place in the map (spec R30). -/
theorem Csr.ofOffset_eq_some {n : Nat} {r : Csr} (h : Csr.ofOffset n = some r) : n = 4 * r.ctorIdx := by
  unfold Csr.ofOffset at h
  split at h <;> cases h <;> rfl

/-- Every access that reaches a register is 32 bits wide, at that register's offset (spec R77). -/
theorem csrAt_eq_some {off : Word} {width : Nat} {r : Csr} (h : csrAt off width = some r) :
    width = 32 ∧ off = BitVec.ofNat 32 (4 * r.ctorIdx) := by
  unfold csrAt at h
  split at h
  · cases h
  · rename_i hne
    refine ⟨by omega, ?_⟩
    rw [← Csr.ofOffset_eq_some h, BitVec.ofNat_toNat, BitVec.setWidth_eq]

/-- What a word that decodes has in its fields (spec R98). -/
theorem decodeCommand_eq_ok {w : Word} {c : Command} (h : decodeCommand w = .ok c) :
    commandOfOp (w.extractLsb' 24 8) (w.extractLsb' 0 8) = some c ∧ w.extractLsb' 8 16 = 0 ∧
      (w.extractLsb' 24 8 = 0x11 ∨ w.extractLsb' 0 8 = 0) := by
  dsimp only [decodeCommand] at h
  split at h
  · cases h
  · rename_i c' hop
    split at h
    · cases h
    · rename_i hrsvd
      split at h
      · cases h
      · rename_i himm
        cases h
        exact ⟨hop, not_not.mp hrsvd, by tauto⟩

/-- The only word of SOFT_RESET (spec R97). -/
theorem word_of_decode_softReset {w : Word} (h : decodeCommand w = .ok .softReset) : w = 0xF0000000#32 := by
  obtain ⟨hmap, hrsvd, himm⟩ := decodeCommand_eq_ok h
  have hop : w.extractLsb' 24 8 = 0xF0 := by simpa using commandOfOp_cases hmap
  have himm : w.extractLsb' 0 8 = 0 := himm.resolve_left (by rw [hop]; decide)
  rw [word_fields w, hop, hrsvd, himm]
  rfl

/-- A write of SOFT_RESET's word to CMD is its own row, not a CSR_WRITE (spec R96). -/
theorem softReset_write_not_wellFormed {off : Word} {width : Nat} {w : Word} (hr : csrAt off width = some .CMD)
    (hw : decodeCommand w = .ok .softReset) : ¬ Instr.WellFormed (.csrWrite off width w) := by
  obtain ⟨rfl, rfl⟩ := csrAt_eq_some hr
  rw [word_of_decode_softReset hw]
  decide

/-! ### The interrupt bits (spec R36, R287, R288) -/

/-- Every interrupt bit set in `b` is set in `b'`. -/
def Block.IrqKept (b b' : Block) : Prop := ∀ k, b.IRQ_STAT.getLsbD k = true → b'.IRQ_STAT.getLsbD k = true

section
variable {s t : State}

theorem Block.IrqKept.rfl {b : Block} : b.IrqKept b := fun _ h => h

/-- Bits raised beside those set keep those set. -/
theorem Block.IrqKept.of_or {b b' : Block} {m : Byte} (h : b'.IRQ_STAT = b.IRQ_STAT ||| m) : b.IrqKept b' :=
  fun _ hk => h ▸ getLsbD_or_of_left hk

theorem OnlySession.irqKept (o : OnlySession s t) : s.blk.IrqKept t.blk := o.irq

theorem encStart_irqKept (s : State) : s.blk.IrqKept s.encStart.blk := by
  rcases s.encStart_cases with ⟨-, e⟩ | ⟨-, x, -, e⟩ | ⟨-, -, e⟩ <;> rw [e]
  · exact .of_or rfl
  · exact .of_or rfl
  · exact .rfl

/-- An accepted session start opens the sequence, which raises no bit and clears none, and issues. -/
theorem openSession_issue_irqKept (q : List Cmd) (s : State) :
    s.blk.IrqKept (s.mapBlk (Block.openSession q)).issue.blk :=
  (issue_onlySession (s.mapBlk (Block.openSession q))).irqKept

theorem sesFlash_irqKept (s : State) : s.blk.IrqKept s.sesFlash.blk := by
  rcases s.sesFlash_cases with ⟨code, sub, e⟩ | ⟨-, -, -, e⟩ <;> rw [e]
  · exact .of_or rfl
  · exact openSession_issue_irqKept _ s

theorem sesSig_irqKept (s : State) : s.blk.IrqKept s.sesSig.blk := by
  rcases s.sesSig_cases with ⟨code, sub, e⟩ | ⟨-, -, -, e⟩ <;> rw [e]
  · exact .of_or rfl
  · exact openSession_issue_irqKept _ s

theorem sesReset_irqKept (s : State) : s.blk.IrqKept s.sesReset.blk := by
  rcases s.sesReset_cases with ⟨-, e⟩ | ⟨-, e⟩ <;> rw [e]
  · exact .of_or rfl
  · exact .rfl

theorem Block.stop_irqKept (b : Block) : b.IrqKept b.stop := by
  rcases b.stop_cases with ⟨-, e⟩ | ⟨-, -, e⟩ | ⟨-, k, -, e⟩ <;> rw [e]
  · exact .rfl
  · exact .of_or rfl
  · exact .of_or (BitVec.or_assoc ..)

theorem Block.popText_irqKept (b : Block) : b.IrqKept b.popText := by
  rcases b.popText_cases with ⟨-, e⟩ | ⟨-, e⟩ | ⟨c, d, rest, -, e⟩ <;> rw [e]
  · exact .rfl
  · exact .of_or rfl
  · exact .rfl

theorem csrRead_irqKept (off : Word) (width : Nat) (s : State) : s.blk.IrqKept (s.csrRead off width).blk := by
  rcases s.csrRead_cases off width with ⟨-, e⟩ | ⟨-, e⟩ | ⟨r, -, -, e⟩ <;> rw [e]
  · exact .of_or rfl
  · exact s.blk.popText_irqKept
  · exact .rfl

theorem Block.writeConfig_irqKept (r : Csr) (w : Word) (b : Block) : b.IrqKept (b.writeConfig r w) := by
  cases r <;> exact .rfl

theorem tick_irqKept (s : State) : s.blk.IrqKept s.tick.blk := by
  rcases s.tick_cases with ⟨-, e⟩ | ⟨-, -, e⟩ | ⟨-, -, e⟩ <;> rw [e]
  · exact .rfl
  · exact (failWith_onlySession _ _ s).irqKept
  · exact .rfl

theorem close_irqKept (s : State) : s.blk.IrqKept s.close.blk := by
  rcases s.close_cases with ⟨-, e⟩ | ⟨-, e⟩ <;> rw [e]
  · exact .rfl
  · exact (failWith_onlySession _ _ (s.mapBlk Block.closeLink)).irqKept

/-- The bits kept by an instruction's next state, from those kept by the state its meaning names. -/
theorem Block.IrqKept.of_next {b : Block} {u : State} (h : b.IrqKept u.blk)
    (e : (.next u : Host.Outcome State Fault Refusal) = .next t) : b.IrqKept t.blk := by
  cases e; exact h

theorem exec_command_irqKept {c : Command} (hc : c ≠ .softReset) (e : exec c.toInstr s = .next t) :
    s.blk.IrqKept t.blk := by
  cases c with
  | nop => exact Block.IrqKept.rfl.of_next e
  | ckClr => cases e; exact .rfl
  | ckAdd b => cases e; exact .rfl
  | encStart => exact (encStart_irqKept s).of_next e
  | sesFlash => exact (sesFlash_irqKept s).of_next e
  | sesSig => exact (sesSig_irqKept s).of_next e
  | sesReset => exact (sesReset_irqKept s).of_next e
  | sesStop => exact s.blk.stop_irqKept.of_next (u := s.mapBlk Block.stop) e
  | softReset => exact absurd rfl hc

theorem exec_cmd_irqKept {c : Cmd} (e : exec c.toInstr s = .next t) : s.blk.IrqKept t.blk := by
  rw [exec_cmd_toInstr] at e
  exact (issueDue_onlySession c s).irqKept.of_next e

theorem execCsrWrite_irqKept {off : Word} {width : Nat} {w : Word} (hwf : Instr.WellFormed (.csrWrite off width w))
    (hne : csrAt off width ≠ some .IRQ_STAT) (e : execCsrWrite off width w s = .next t) : s.blk.IrqKept t.blk := by
  rcases execCsrWrite_cases off width w s with
    ⟨hr, c, hc, k⟩ | ⟨code, k⟩ | ⟨hr, -⟩ | ⟨-, k⟩ | ⟨r, -, -, -, k⟩
  · rw [k] at e
    refine exec_command_irqKept ?_ e
    rintro rfl
    exact softReset_write_not_wellFormed hr hc hwf
  · rw [k] at e
    cases e
    exact .of_or rfl
  · exact absurd hr hne
  · rw [k] at e
    cases e
    exact .rfl
  · rw [k] at e
    cases e
    exact s.blk.writeConfig_irqKept r w

/-- No instruction but RST, SOFT_RESET and a write of IRQ_STAT clears an interrupt bit (spec R288). -/
theorem exec_irqKept {i : Instr} (hwf : i.WellFormed) (hrst : i ≠ .rst) (hsoft : i ≠ .softReset)
    (hstat : ∀ w : Word, i ≠ .csrWrite 0x08#32 32 w) (e : exec i s = .next t) : s.blk.IrqKept t.blk := by
  cases i with
  | nop => exact exec_command_irqKept (c := .nop) (by decide) e
  | ckClr => exact exec_command_irqKept (c := .ckClr) (by decide) e
  | ckAdd b => exact exec_command_irqKept (c := .ckAdd b) (by simp) e
  | encStart => exact exec_command_irqKept (c := .encStart) (by decide) e
  | sesFlash => exact exec_command_irqKept (c := .sesFlash) (by decide) e
  | sesSig => exact exec_command_irqKept (c := .sesSig) (by decide) e
  | sesReset => exact exec_command_irqKept (c := .sesReset) (by decide) e
  | sesStop => exact exec_command_irqKept (c := .sesStop) (by decide) e
  | softReset => exact absurd rfl hsoft
  | csrRead off width => exact (csrRead_irqKept off width s).of_next e
  | csrWrite off width w =>
    refine execCsrWrite_irqKept hwf (fun hr => ?_) e
    obtain ⟨rfl, rfl⟩ := csrAt_eq_some hr
    exact hstat w rfl
  | imgRead a =>
    change execImgRead a s = _ at e
    rcases execImgRead_cases a s with ⟨-, k⟩ | ⟨-, k⟩ <;> rw [k] at e <;> cases e
    · exact .of_or rfl
    · exact .rfl
  | imgWrite a x =>
    change execImgWrite a x s = _ at e
    rcases execImgWrite_cases a x s with ⟨code, k⟩ | ⟨-, -, k⟩ <;> rw [k] at e <;> cases e
    · exact .of_or rfl
    · exact .rfl
  | paramRead a =>
    change execParamRead a s = _ at e
    rcases execParamRead_cases a s with ⟨-, k⟩ | ⟨-, k⟩ <;> rw [k] at e <;> cases e
    · exact .of_or rfl
    · exact .rfl
  | paramWrite a x =>
    change execParamWrite a x s = _ at e
    rcases execParamWrite_cases a x s with ⟨code, k⟩ | ⟨-, -, k⟩ <;> rw [k] at e <;> cases e
    · exact .of_or rfl
    · exact .rfl
  | rx chunk => exact (rxBytes_onlySession chunk s).irqKept.of_next e
  | close => exact (close_irqKept s).of_next e
  | tick => exact (tick_irqKept s).of_next e
  | rst => exact absurd rfl hrst
  | recData a d => cases e; exact .rfl
  | recEof => cases e; exact .rfl
  | recEla k => cases e; exact .rfl
  | recEsa a d => cases e
  | recSsa a d => cases e
  | recSla a d => cases e
  | wSetDevice => exact exec_cmd_irqKept (c := .setDevice) e
  | wEnterProgmode => exact exec_cmd_irqKept (c := .enterProgrammingMode) e
  | wLoadAddress a16 a32 => exact exec_cmd_irqKept (c := .loadAddress a16 a32) e
  | wProgramPage mk a32 d => exact exec_cmd_irqKept (c := .programPage mk a32 d) e
  | wReadPage mk a32 n => exact exec_cmd_irqKept (c := .readPage mk a32 n) e
  | wLeaveProgmode => exact exec_cmd_irqKept (c := .leaveProgrammingMode) e
  | wReadSignature => exact exec_cmd_irqKept (c := .readSignature) e

end

/-- The line is high iff some bit is both pending and enabled (spec R287). -/
theorem Block.irq_iff (b : Block) :
    b.irq = true ↔ ∃ k < 8, b.IRQ_STAT.getLsbD k = true ∧ b.IRQ_EN.getLsbD k = true := by
  simp only [Block.irq, bne_iff_ne, ne_eq, BitVec.eq_of_getLsbD_eq_iff, BitVec.getLsbD_and]
  simp

/-! ### The words of the registers, field by field (spec R32 to R43) -/

/-- A byte in the low bits of a register whose other bits are reserved. -/
theorem zero_append_byte (x : Byte) : (0#24 ++ x : Word) = x.setWidth 32 :=
  (BitVec.setWidth_eq_append (by decide)).symm

theorem zero_append_half (x : Half) : (0#16 ++ x : Word) = x.setWidth 32 :=
  (BitVec.setWidth_eq_append (by decide)).symm

theorem countWord_of_lt {n : Nat} (h : n < 2 ^ 32) : countWord n = BitVec.ofNat 32 n := if_pos h

theorem Block.statusWord_fields (b : Block) :
    b.statusWord.getLsbD 0 = b.hckZero ∧ b.statusWord.extractLsb' 1 2 = b.ENC_ST.code ∧
    b.statusWord.getLsbD 3 = b.encOutValid ∧ b.statusWord.extractLsb' 4 4 = b.SES_ST.code ∧
    b.statusWord.extractLsb' 8 4 = kindCode b.INFLIGHT ∧ b.statusWord.getLsbD 12 = b.LINK_CLOSED ∧
    b.statusWord.getLsbD 13 = b.irq ∧ b.statusWord.getLsbD 14 = b.sesActive ∧
    b.statusWord.extractLsb' 15 17 = 0 := by
  refine ⟨?_, ?_, ?_, ?_, ?_, ?_, ?_, ?_, ?_⟩ <;>
    simp [Block.statusWord, bit, BitVec.extractLsb'_append_eq_ite, BitVec.getLsbD_append, -BitVec.getLsbD_eq_getElem,
      -Nat.reduceAdd]

theorem Block.hckWord_fields (b : Block) :
    b.hckWord.extractLsb' 0 8 = b.ACC ∧ b.hckWord.extractLsb' 8 8 = cksumOf b.ACC ∧
    b.hckWord.getLsbD 16 = b.hckZero ∧ b.hckWord.extractLsb' 17 15 = 0 := by
  refine ⟨?_, ?_, ?_, ?_⟩ <;>
    simp [Block.hckWord, bit, BitVec.extractLsb'_append_eq_ite, BitVec.getLsbD_append, -BitVec.getLsbD_eq_getElem,
      -Nat.reduceAdd]

theorem Block.encCfgWord_fields (b : Block) :
    b.encCfgWord.extractLsb' 0 8 = b.LINE_LEN ∧ b.encCfgWord.extractLsb' 8 5 = b.PAGE_LOG2 ∧
    b.encCfgWord.getLsbD 13 = b.PAGE_EN ∧ b.encCfgWord.getLsbD 14 = b.OMIT_NULL ∧
    b.encCfgWord.extractLsb' 15 17 = 0 := by
  refine ⟨?_, ?_, ?_, ?_, ?_⟩ <;>
    simp [Block.encCfgWord, bit, BitVec.extractLsb'_append_eq_ite, BitVec.getLsbD_append, -BitVec.getLsbD_eq_getElem,
      -Nat.reduceAdd]

/-- A register of one 4-bit code (spec R37). -/
theorem errCode_fields (x : BitVec 4) :
    (0#28 ++ x : Word).extractLsb' 0 4 = x ∧ (0#28 ++ x : Word).extractLsb' 4 28 = 0 := by
  refine ⟨?_, ?_⟩ <;> simp [BitVec.extractLsb'_append_eq_ite, -Nat.reduceAdd]

theorem memKindBit_eq_bit (m : MemKind) : memKindBit m = bit (decide (m = .eeprom)) := by cases m <;> rfl

theorem Block.sesCfgWord_fields (b : Block) :
    b.sesCfgWord.getLsbD 0 = decide (b.MEMKIND = .eeprom) ∧ b.sesCfgWord.getLsbD 1 = b.VERIFY ∧
    b.sesCfgWord.getLsbD 2 = b.SIGCHK ∧ b.sesCfgWord.extractLsb' 3 3 = b.SIG_LEN ∧
    b.sesCfgWord.extractLsb' 6 10 = 0 ∧ b.sesCfgWord.extractLsb' 16 16 = b.DEV_PAGE := by
  refine ⟨?_, ?_, ?_, ?_, ?_, ?_⟩ <;>
    simp [Block.sesCfgWord, memKindBit_eq_bit, bit, BitVec.extractLsb'_append_eq_ite, BitVec.getLsbD_append,
      -BitVec.getLsbD_eq_getElem, -Nat.reduceAdd]

theorem Block.failInfoWord_fields (b : Block) :
    b.failInfoWord.extractLsb' 0 4 = b.FAIL_REASON.code ∧ b.failInfoWord.extractLsb' 4 4 = kindCode b.FAIL_KIND ∧
    b.failInfoWord.extractLsb' 8 8 = b.FAIL_EXP ∧ b.failInfoWord.extractLsb' 16 8 = b.FAIL_ACT ∧
    b.failInfoWord.extractLsb' 24 8 = 0 := by
  refine ⟨?_, ?_, ?_, ?_, ?_⟩ <;> simp [Block.failInfoWord, BitVec.extractLsb'_append_eq_ite, -Nat.reduceAdd]

theorem Block.lastCmdWord_fields (b : Block) :
    b.lastCmdWord.extractLsb' 0 4 = kindCode b.LAST_KIND ∧ b.lastCmdWord.extractLsb' 4 2 = b.LAST_RES.code ∧
    b.lastCmdWord.extractLsb' 6 2 = 0 ∧ b.lastCmdWord.extractLsb' 8 24 = b.LAST_IDX := by
  refine ⟨?_, ?_, ?_, ?_⟩ <;> simp [Block.lastCmdWord, BitVec.extractLsb'_append_eq_ite, -Nat.reduceAdd]

theorem Block.cmdErrWord_fields (b : Block) :
    b.cmdErrWord.extractLsb' 0 4 = b.CMD_ERRC.code ∧ b.cmdErrWord.extractLsb' 4 4 = 0 ∧
    b.cmdErrWord.extractLsb' 8 4 = b.CMD_ERRS.code ∧ b.cmdErrWord.extractLsb' 12 20 = 0 := by
  refine ⟨?_, ?_, ?_, ?_⟩ <;> simp [Block.cmdErrWord, BitVec.extractLsb'_append_eq_ite, -Nat.reduceAdd]

theorem Block.wcurWord_fields (b : Block) :
    b.wcurWord.extractLsb' 0 16 = b.WCUR ∧ b.wcurWord.getLsbD 16 = b.WCUR_V ∧ b.wcurWord.extractLsb' 17 15 = 0 := by
  refine ⟨?_, ?_, ?_⟩ <;>
    simp [Block.wcurWord, bit, BitVec.extractLsb'_append_eq_ite, BitVec.getLsbD_append, -BitVec.getLsbD_eq_getElem,
      -Nat.reduceAdd]

/-! ### Reads of registers (spec R141) -/

/-- A read of a register other than ENC_OUT returns its value and changes nothing else (spec R82). -/
theorem exec_csrRead_of_csrAt {off : Word} {r : Csr} (h : csrAt off 32 = some r) (hr : r ≠ .ENC_OUT) (s : State)
    {v : Word} (hv : s.blk.csrValue r = v) :
    exec (.csrRead off 32) s = .next { s with reads := s.reads ++ [.word v] } := by
  subst hv
  rcases s.csrRead_cases off 32 with ⟨h', -⟩ | ⟨h', -⟩ | ⟨r', h', -, e⟩ <;> rw [h] at h' <;> cases h'
  · exact absurd rfl hr
  · exact congrArg Host.Outcome.next e

/-- A read of ENC_OUT returns the next text byte and pops it (spec R38). -/
theorem exec_csrRead_encOut (s : State) :
    exec (.csrRead 0x28#32 32) s = .next ((s.mapBlk Block.popText).reply (.word s.blk.encOutWord)) := rfl

theorem Block.encOutValid_eq (b : Block) : b.encOutValid = decide (0 < b.OUTQ.length) := by
  cases h : b.OUTQ <;> simp [Block.encOutValid, h]

theorem Block.irq_eq (b : Block) : b.irq = decide (b.IRQ_STAT &&& b.IRQ_EN ≠ 0) := by
  simp only [Block.irq, bne, ne_eq, decide_not]
  rfl

theorem Block.sesActive_eq (b : Block) : b.sesActive = decide (b.INFLIGHT ≠ none) := by
  cases h : b.INFLIGHT <;> simp [Block.sesActive, h]

/-- The checksum as a number and as a two's complement (spec R163). -/
theorem cksumOf_toNat (a : Byte) : (cksumOf a).toNat = (0x100 - a.toNat) % 0x100 := by
  simp [cksumOf]

theorem cksumOf_eq_not_add_one (a : Byte) : cksumOf a = ~~~a + 1 := by
  rw [cksumOf, zero_sub, BitVec.neg_eq_not_add]
  rfl

/-- ENC_OUT with VALID in bit 8 (spec R38). -/
theorem valid_append_byte (c : Byte) : (0#23 ++ 1#1 ++ c : Word) = 0x100#32 ||| c.setWidth 32 := by
  apply BitVec.eq_of_getLsbD_eq
  intro i hi
  simp only [BitVec.getLsbD_append, BitVec.getLsbD_or, BitVec.getLsbD_setWidth]
  interval_cases i <;> simp

theorem Block.encOutWord_nil {b : Block} (h : b.OUTQ = []) : b.encOutWord = 0 := by
  simp only [Block.encOutWord, h]

theorem Block.encOutWord_cons {b : Block} {c : Byte} {rest : List Byte} (h : b.OUTQ = c :: rest) :
    b.encOutWord = 0x100#32 ||| c.setWidth 32 := by
  simp only [Block.encOutWord, h]
  exact valid_append_byte c

theorem Block.popText_nil {b : Block} (h : b.OUTQ = []) : b.popText = b := by
  simp only [Block.popText, h]

theorem Block.popText_singleton {b : Block} {c : Byte} (h : b.OUTQ = [c]) :
    b.popText = Block.irqSet .encDone { b with OUTQ := [], ENC_ST := .done } := by
  simp only [Block.popText, h]

theorem Block.popText_cons_cons {b : Block} {c d : Byte} {rest : List Byte} (h : b.OUTQ = c :: d :: rest) :
    b.popText = { b with OUTQ := d :: rest } := by
  simp only [Block.popText, h]

/-! ### Writes of configuration registers, read back (spec R78, R142, R311) -/

theorem Block.encCfgWord_writeEncCfg (b : Block) (w : Word) : (b.writeEncCfg w).encCfgWord = w &&& 0x00007FFF#32 := by
  apply BitVec.eq_of_getLsbD_eq
  intro i hi
  simp only [Block.encCfgWord, bit, Block.writeEncCfg_LINE_LEN, Block.writeEncCfg_PAGE_LOG2, Block.writeEncCfg_PAGE_EN,
    Block.writeEncCfg_OMIT_NULL, BitVec.getLsbD_append, BitVec.getLsbD_ofBool, BitVec.getLsbD_and,
    BitVec.getLsbD_extractLsb']
  interval_cases i <;> simp

theorem Block.sesCfgWord_writeSesCfg (b : Block) (w : Word) : (b.writeSesCfg w).sesCfgWord = w &&& 0xFFFF003F#32 := by
  have hmk : memKindBit (b.writeSesCfg w).MEMKIND = bit (w.getLsbD 0) := by
    rw [Block.writeSesCfg_MEMKIND]
    cases w.getLsbD 0 <;> rfl
  apply BitVec.eq_of_getLsbD_eq
  intro i hi
  simp only [Block.sesCfgWord, hmk, bit, Block.writeSesCfg_VERIFY, Block.writeSesCfg_SIGCHK, Block.writeSesCfg_SIG_LEN,
    Block.writeSesCfg_DEV_PAGE, BitVec.getLsbD_append, BitVec.getLsbD_ofBool, BitVec.getLsbD_and,
    BitVec.getLsbD_extractLsb']
  interval_cases i <;> simp

/-- The field of PARAM_LEN (spec R40). -/
theorem zero_append_low (w : Word) : (0#16 ++ w.extractLsb' 0 16 : Word) = w &&& 0x0000FFFF#32 := by
  apply BitVec.eq_of_getLsbD_eq
  intro i hi
  simp only [BitVec.getLsbD_append, BitVec.getLsbD_and, BitVec.getLsbD_extractLsb']
  interval_cases i <;> simp

section
variable {s : State}

/-- A write of a configuration register that is not locked (spec R142). -/
theorem exec_csrWrite_config {off : Word} {r : Csr} (h : csrAt off 32 = some r) (hc : r.writeClass = .config)
    (hl : s.blk.csrLocked r = false) (w : Word) :
    exec (.csrWrite off 32 w) s = .next (s.mapBlk (Block.writeConfig r w)) := by
  change execCsrWrite off 32 w s = _
  simp [execCsrWrite, h, hc, State.writeConfig, hl]

/-- A configuration register that is not locked: the write, and what a read then returns. -/
theorem config_write_then_read {off : Word} {r : Csr} (h : csrAt off 32 = some r) (hc : r.writeClass = .config)
    (hl : s.blk.csrLocked r = false) {w v : Word} (hv : (s.blk.writeConfig r w).csrValue r = v) :
    let t := s.mapBlk (Block.writeConfig r w)
    exec (.csrWrite off 32 w) s = .next t ∧
      exec (.csrRead off 32) t = .next { t with reads := s.reads ++ [.word v] } := by
  have hr : r ≠ .ENC_OUT := by rintro rfl; cases hc
  exact ⟨exec_csrWrite_config h hc hl w, exec_csrRead_of_csrAt h hr _ hv⟩

theorem Block.encBusy_eq_false {b : Block} (h : b.ENC_ST ≠ .busy) : b.encBusy = false := by
  simpa [Block.encBusy] using h

theorem Block.sesActive_eq_false {b : Block} (h : b.INFLIGHT = none) : b.sesActive = false := by
  simp [Block.sesActive, h]
end

/-! ### The obligations -/

/-- Settles O58: each operation keeps the invariant, and the session engine leaves a session settled. -/
theorem everyStepKeepsTheInvariant : Obligations.EveryStepKeepsTheInvariant := by
  intro s t h e
  rcases step_next_cases e with rfl | ⟨i, rest, e⟩
  · exact h
  · have hrest : State.Inv { s with cycles := rest } := { h with }
    exact hrest.exec_instr e

/-- Settles O13: the write of each register, then its word field by field. -/
theorem configurationRegistersReadBackAsWritten : Obligations.ConfigurationRegistersReadBackAsWritten := by
  intro s w
  refine ⟨fun hbusy hin => ?_, fun hbusy => ?_, fun hin => ?_⟩
  · have hlock : (s.blk.encBusy || s.blk.sesActive) = false := by
      rw [Block.encBusy_eq_false hbusy, Block.sesActive_eq_false hin]; rfl
    exact ⟨config_write_then_read (r := .IMG_BASE) rfl rfl hlock BitVec.and_allOnes.symm,
      config_write_then_read (r := .IMG_LEN) rfl rfl hlock BitVec.and_allOnes.symm⟩
  · exact config_write_then_read (r := .ENC_CFG) rfl rfl (Block.encBusy_eq_false hbusy)
      (s.blk.encCfgWord_writeEncCfg w)
  · have hlock := Block.sesActive_eq_false hin
    exact ⟨config_write_then_read (r := .SES_CFG) rfl rfl hlock (s.blk.sesCfgWord_writeSesCfg w),
      config_write_then_read (r := .SES_TIMEOUT) rfl rfl hlock BitVec.and_allOnes.symm,
      config_write_then_read (r := .SIG_EXPECT) rfl rfl hlock BitVec.and_allOnes.symm,
      config_write_then_read (r := .PARAM_LEN) rfl rfl hlock (zero_append_low w)⟩

/-- Settles O14: each operation keeps the bits set, or raises more beside them. -/
theorem interruptBitsAreStickyUntilCleared : Obligations.InterruptBitsAreStickyUntilCleared :=
  ⟨fun _ _ => ⟨rfl, rfl⟩, fun _ _ _ k hwf e hrst hsoft hstat => exec_irqKept hwf hrst hsoft hstat e k, Block.irq_iff⟩

/-- Settles O9: each register is read at its offset, and its word has its fields at their places. -/
theorem csrReadsReturnTheirRegister : Obligations.CsrReadsReturnTheirRegister := by
  refine ⟨fun s => ?_, by decide, by decide, by decide, by decide, by decide⟩
  have reads {off : Word} (r : Csr) (h : csrAt off 32 = some r) (hr : r ≠ .ENC_OUT) {v : Word}
      (hv : s.blk.csrValue r = v) := exec_csrRead_of_csrAt h hr s hv
  exact ⟨
    reads .CMD rfl (by decide) rfl,
    reads .IRQ_STAT rfl (by decide) (zero_append_byte _),
    reads .IRQ_EN rfl (by decide) (zero_append_byte _),
    reads .IMG_BASE rfl (by decide) rfl,
    reads .IMG_LEN rfl (by decide) rfl,
    ⟨_, reads .ENC_CFG rfl (by decide) rfl, s.blk.encCfgWord_fields⟩,
    ⟨_, reads .ENC_ERRC rfl (by decide) rfl, errCode_fields _⟩,
    reads .ENC_NREC rfl (by decide) rfl,
    ⟨_, reads .SES_CFG rfl (by decide) rfl, s.blk.sesCfgWord_fields⟩,
    reads .SES_TIMEOUT rfl (by decide) rfl,
    reads .SIG_EXPECT rfl (by decide) rfl,
    reads .PARAM_LEN rfl (by decide) (zero_append_half _),
    reads .SEQ_IDX rfl (by decide) rfl,
    reads .SEQ_LEN rfl (by decide) rfl,
    fun hlen => reads .RB_COUNT rfl (by decide) (countWord_of_lt hlen),
    reads .TMR rfl (by decide) rfl,
    ⟨_, reads .FAIL_INFO rfl (by decide) rfl, s.blk.failInfoWord_fields⟩,
    reads .FAIL_IDX rfl (by decide) rfl,
    reads .FAIL_ADDR rfl (by decide) rfl,
    reads .FAIL_OFF rfl (by decide) rfl,
    reads .SIG_READ rfl (by decide) rfl,
    reads .REPORTS rfl (by decide) rfl,
    ⟨_, reads .LAST_CMD rfl (by decide) rfl, s.blk.lastCmdWord_fields⟩,
    ⟨_, reads .CMD_ERR rfl (by decide) rfl, s.blk.cmdErrWord_fields⟩,
    ⟨_, reads .WCUR rfl (by decide) rfl, s.blk.wcurWord_fields⟩⟩

/-- Settles O10: STATUS field by field, its fields being the live views. -/
theorem statusShowsTheLiveState : Obligations.StatusShowsTheLiveState := by
  refine ⟨fun s => ?_, rfl, by decide, by decide, by decide⟩
  refine ⟨s.blk.statusWord, exec_csrRead_of_csrAt (r := .STATUS) rfl (by decide) s rfl, ?_⟩
  rw [← s.blk.encOutValid_eq, ← s.blk.irq_eq, ← s.blk.sesActive_eq]
  exact s.blk.statusWord_fields

/-- Settles O11: HCK field by field, with both forms of the checksum. -/
theorem hckShowsAccumulatorAndChecksum : Obligations.HckShowsAccumulatorAndChecksum := by
  refine ⟨fun s => ?_, rfl⟩
  obtain ⟨hacc, hck, hzero, hrsvd⟩ := s.blk.hckWord_fields
  refine ⟨s.blk.hckWord, exec_csrRead_of_csrAt (r := .HCK) rfl (by decide) s rfl, hacc, ?_, ?_, hzero, hrsvd⟩
  · rw [hck, cksumOf_toNat]
  · rw [hck, cksumOf_eq_not_add_one]

/-- Settles O12, by the shape of OUTQ. -/
theorem encOutReadPopsTheText : Obligations.EncOutReadPopsTheText := by
  intro s
  refine ⟨fun hq => ?_, fun c hq => ?_, fun c d rest hq => ?_, fun w => rfl, fun hlen => ?_⟩
  · rw [exec_csrRead_encOut, State.mapBlk, Block.popText_nil hq, Block.encOutWord_nil hq]
    rfl
  · rw [exec_csrRead_encOut, State.mapBlk, Block.popText_singleton hq, Block.encOutWord_cons hq]
    rfl
  · rw [exec_csrRead_encOut, State.mapBlk, Block.popText_cons_cons hq, Block.encOutWord_cons hq]
    rfl
  · exact exec_csrRead_of_csrAt (r := .ENC_REM) rfl (by decide) s (countWord_of_lt hlen)

/-- Settles O19, by what the word decodes to. -/
theorem commandWriteRunsTheCommand : Obligations.CommandWriteRunsTheCommand := by
  intro w s
  change executeCommand w s = _
  unfold executeCommand
  cases decodeCommand w with
  | error e => cases e <;> rfl
  | ok c => cases c <;> rfl

/-- Settles O44: the reset values are written out in the statement, and each equation evaluates. -/
theorem resetsRestoreTheResetValues : Obligations.ResetsRestoreTheResetValues :=
  ⟨rfl, rfl, rfl, rfl, fun _ => rfl, fun s => ⟨s.mapBlk Block.softReset, rfl, rfl, fun _ => ⟨rfl, rfl⟩⟩⟩

/-- Settles O57: the reset values over a legal configuration. -/
theorem resetSatisfiesTheInvariant : Obligations.ResetSatisfiesTheInvariant := State.reset_inv

end Sys2Proof.Machine
end

section
/-! PROOFS. Family 20_memory: which input a step takes, the accesses of IMG and PARAM, the receiver of the records. -/

namespace Sys2Proof.Machine

/-! ### The input taken (spec R88, R290) -/

/-- Nothing is fetched exactly when no cycle presents an input (spec R296). -/
theorem fetch_eq_none_iff (cs : List (List Input)) : fetch cs = none ↔ ∀ c ∈ cs, c = [] := by
  induction cs with
  | nil => simp [fetch]
  | cons c cs ih =>
    cases c with
    | nil => simp [fetch_empty_cycle, ih]
    | cons x xs => simp [fetch]

/-- The input fetched stands in the first cycle that presents one, and that cycle keeps the others (spec R88). -/
theorem fetch_eq_some {cs rest : List (List Input)} {x : Input} (h : fetch cs = some (x, rest)) :
    ∃ (empty : List (List Input)) (y : Input) (ys : List Input) (post : List (List Input)),
      cs = empty ++ (y :: ys) :: post ∧ (∀ c ∈ empty, c = []) ∧ x = (firstOf y ys).1 ∧
        rest = (firstOf y ys).2 :: post := by
  induction cs with
  | nil => cases h
  | cons c cs ih =>
    cases c with
    | nil =>
      rw [fetch_empty_cycle] at h
      obtain ⟨empty, y, ys, post, rfl, hempty, hx, hrest⟩ := ih h
      exact ⟨[] :: empty, y, ys, post, rfl, by simpa using hempty, hx, hrest⟩
    | cons y ys =>
      cases h
      exact ⟨[], y, ys, cs, rfl, by simp, rfl, rfl⟩

/-! ### Accesses that fault (spec R77) -/

/-- The command error entry writes the error record and nothing else (spec R284). -/
theorem State.cmdErr_eq_afterCmdErr (code : CmdErrCode) (s : State) : s.cmdErr code = s.afterCmdErr code .noSub := rfl

/-- A misaligned access, one of another width than 32 and one at 0x74 or above reach no register (spec R77). -/
theorem csrAt_eq_none {off : Word} {width : Nat} (h : off.toNat % 4 ≠ 0 ∨ width ≠ 32 ∨ 0x74 ≤ off.toNat) :
    csrAt off width = none := if_pos h

section
variable {off : Word} {width : Nat}

theorem exec_csrRead_of_csrAt_none (h : csrAt off width = none) (s : State) :
    exec (.csrRead off width) s = .next ((s.cmdErr .accessFault).reply (.word 0)) := by
  change Host.Outcome.next (s.csrRead off width) = _
  rw [State.csrRead, h]

theorem exec_csrWrite_of_csrAt_none (h : csrAt off width = none) (w : Word) (s : State) :
    exec (.csrWrite off width w) s = .next (s.cmdErr .accessFault) := by
  change execCsrWrite off width w s = _
  rw [execCsrWrite, h]

theorem exec_csrWrite_readOnly {r : Csr} (h : csrAt off width = some r) (hr : r.writeClass = .readOnly) (w : Word)
    (s : State) : exec (.csrWrite off width w) s = .next (s.cmdErr .accessFault) := by
  change execCsrWrite off width w s = _
  simp only [execCsrWrite, h, hr]

end

/-! ### Accesses of IMG and PARAM (spec R143, R144) -/

section
variable {s : State}

theorem exec_imgRead_of_ge {i : Word} (h : s.cfg.IMG_CAP ≤ i.toNat) :
    exec (.imgRead i) s = .next ((s.cmdErr .accessFault).reply (.byte 0)) := if_pos h

theorem exec_imgRead_of_lt {i : Word} (h : i.toNat < s.cfg.IMG_CAP) :
    exec (.imgRead i) s = .next (s.reply (.byte (s.imgByte i.toNat))) := if_neg (Nat.not_le.mpr h)

theorem exec_imgWrite_of_ge {i : Word} (h : s.cfg.IMG_CAP ≤ i.toNat) (x : Byte) :
    exec (.imgWrite i x) s = .next (s.cmdErr .accessFault) := if_pos h

theorem exec_imgWrite_of_not_locked {i : Word} (h : i.toNat < s.cfg.IMG_CAP) (hl : s.blk.imgLocked = false) (x : Byte) :
    exec (.imgWrite i x) s = .next (s.mapBlk (Block.writeImg i.toNat x)) := by
  change execImgWrite i x s = _
  rw [execImgWrite, if_neg (Nat.not_le.mpr h), if_neg (by simp [hl])]

theorem exec_paramRead_of_ge {i : Half} (h : s.cfg.PARAM_CAP ≤ i.toNat) :
    exec (.paramRead i) s = .next ((s.cmdErr .accessFault).reply (.byte 0)) := if_pos h

theorem exec_paramRead_of_lt {i : Half} (h : i.toNat < s.cfg.PARAM_CAP) :
    exec (.paramRead i) s = .next (s.reply (.byte (s.paramByte i.toNat))) := if_neg (Nat.not_le.mpr h)

theorem exec_paramWrite_of_ge {i : Half} (h : s.cfg.PARAM_CAP ≤ i.toNat) (x : Byte) :
    exec (.paramWrite i x) s = .next (s.cmdErr .accessFault) := if_pos h

theorem exec_paramWrite_of_not_locked {i : Half} (h : i.toNat < s.cfg.PARAM_CAP) (hl : s.blk.paramLocked = false)
    (x : Byte) : exec (.paramWrite i x) s = .next (s.mapBlk (Block.writeParam i.toNat x)) := by
  change execParamWrite i x s = _
  rw [execParamWrite, if_neg (Nat.not_le.mpr h), if_neg (by simp [hl])]

end

theorem State.imgByte_writeImg (s : State) (a : Nat) (x : Byte) (j : Nat) :
    (s.mapBlk (Block.writeImg a x)).imgByte j = if j = a then x else s.imgByte j := s.imgByte_write a x j

theorem State.paramByte_writeParam (s : State) (a : Nat) (x : Byte) (j : Nat) :
    (s.mapBlk (Block.writeParam a x)).paramByte j = if j = a then x else s.paramByte j := s.paramByte_write a x j

@[simp] theorem State.paramByte_writeImg (s : State) (a : Nat) (x : Byte) (j : Nat) :
    (s.mapBlk (Block.writeImg a x)).paramByte j = s.paramByte j := rfl

@[simp] theorem State.imgByte_writeParam (s : State) (a : Nat) (x : Byte) (j : Nat) :
    (s.mapBlk (Block.writeParam a x)).imgByte j = s.imgByte j := rfl

/-! ### What an instruction does to the memories (spec R82, R86, R301, R303) -/

@[simp] theorem Block.popText_IMG (b : Block) : b.popText.IMG = b.IMG := by
  rcases b.popText_cases with ⟨-, e⟩ | ⟨-, e⟩ | ⟨c, d, rest, -, e⟩ <;> simp [e]

@[simp] theorem Block.popText_PARAM (b : Block) : b.popText.PARAM = b.PARAM := by
  rcases b.popText_cases with ⟨-, e⟩ | ⟨-, e⟩ | ⟨c, d, rest, -, e⟩ <;> simp [e]

@[simp] theorem Block.stop_IMG (b : Block) : b.stop.IMG = b.IMG := by
  rcases b.stop_cases with ⟨-, e⟩ | ⟨-, -, e⟩ | ⟨-, k, -, e⟩ <;> simp [e]

@[simp] theorem Block.stop_PARAM (b : Block) : b.stop.PARAM = b.PARAM := by
  rcases b.stop_cases with ⟨-, e⟩ | ⟨-, -, e⟩ | ⟨-, k, -, e⟩ <;> simp [e]

@[simp] theorem Block.writeConfig_IMG (r : Csr) (w : Word) (b : Block) : (b.writeConfig r w).IMG = b.IMG := by
  cases r <;> rfl

@[simp] theorem Block.writeConfig_PARAM (r : Csr) (w : Word) (b : Block) : (b.writeConfig r w).PARAM = b.PARAM := by
  cases r <;> rfl

/-- `t` holds the memories of `s`, under the same configuration and with the same inputs to come, and has every output
of `s`. -/
structure MemoriesKept (s t : State) : Prop where
  cfg : t.cfg = s.cfg
  cycles : t.cycles = s.cycles
  tx : s.tx <+: t.tx
  reads : s.reads <+: t.reads
  powerOns : t.powerOns = s.powerOns
  IMG : t.blk.IMG = s.blk.IMG
  PARAM : t.blk.PARAM = s.blk.PARAM

section
variable {s t u : State}

theorem MemoriesKept.refl (s : State) : MemoriesKept s s := ⟨rfl, rfl, List.prefix_rfl, List.prefix_rfl, rfl, rfl, rfl⟩

theorem MemoriesKept.trans (h : MemoriesKept s t) (k : MemoriesKept t u) : MemoriesKept s u where
  cfg := k.cfg.trans h.cfg
  cycles := k.cycles.trans h.cycles
  tx := h.tx.trans k.tx
  reads := h.reads.trans k.reads
  powerOns := k.powerOns.trans h.powerOns
  IMG := k.IMG.trans h.IMG
  PARAM := k.PARAM.trans h.PARAM

/-- Memories that list the same bytes since the same power-on read the same. -/
theorem MemoriesKept.imgByte (h : MemoriesKept s t) (j : Nat) : t.imgByte j = s.imgByte j := by
  unfold State.imgByte
  rw [h.IMG, h.powerOns]

theorem MemoriesKept.paramByte (h : MemoriesKept s t) (j : Nat) : t.paramByte j = s.paramByte j := by
  unfold State.paramByte
  rw [h.PARAM, h.powerOns]

/-- A change of the block alone that writes no memory. -/
theorem MemoriesKept.of_block {f : Block → Block} (himg : (f s.blk).IMG = s.blk.IMG := by simp)
    (hparam : (f s.blk).PARAM = s.blk.PARAM := by simp) : MemoriesKept s (s.mapBlk f) :=
  { MemoriesKept.refl s with IMG := himg, PARAM := hparam }

theorem OnlySession.memoriesKept (o : OnlySession s t) : MemoriesKept s t where
  cfg := o.cfg
  cycles := o.cycles
  tx := o.tx
  reads := by rw [o.reads]
  powerOns := o.powerOns
  IMG := o.IMG
  PARAM := o.PARAM

theorem cmdErr_memoriesKept (code : CmdErrCode) (s : State) : MemoriesKept s (s.cmdErr code) := .of_block

theorem reply_memoriesKept (r : HostRead) (s : State) : MemoriesKept s (s.reply r) :=
  { MemoriesKept.refl s with reads := List.prefix_append _ _ }

theorem encStart_memoriesKept (s : State) : MemoriesKept s s.encStart := by
  rcases s.encStart_cases with ⟨-, e⟩ | ⟨-, x, -, e⟩ | ⟨-, -, e⟩ <;> rw [e]
  · exact cmdErr_memoriesKept _ s
  · exact .of_block
  · exact .of_block

theorem openSession_issue_memoriesKept (q : List Cmd) (s : State) :
    MemoriesKept s (s.mapBlk (Block.openSession q)).issue :=
  MemoriesKept.trans .of_block (issue_onlySession _).memoriesKept

theorem sesFlash_memoriesKept (s : State) : MemoriesKept s s.sesFlash := by
  rcases s.sesFlash_cases with ⟨code, sub, e⟩ | ⟨-, -, -, e⟩ <;> rw [e]
  · exact .of_block
  · exact openSession_issue_memoriesKept _ s

theorem sesSig_memoriesKept (s : State) : MemoriesKept s s.sesSig := by
  rcases s.sesSig_cases with ⟨code, sub, e⟩ | ⟨-, -, -, e⟩ <;> rw [e]
  · exact .of_block
  · exact openSession_issue_memoriesKept _ s

theorem sesReset_memoriesKept (s : State) : MemoriesKept s s.sesReset := by
  rcases s.sesReset_cases with ⟨-, e⟩ | ⟨-, e⟩ <;> rw [e]
  · exact cmdErr_memoriesKept _ s
  · exact .of_block

theorem csrRead_memoriesKept (off : Word) (width : Nat) (s : State) : MemoriesKept s (s.csrRead off width) := by
  rcases s.csrRead_cases off width with ⟨-, e⟩ | ⟨-, e⟩ | ⟨r, -, -, e⟩ <;> rw [e]
  · exact (cmdErr_memoriesKept _ s).trans (reply_memoriesKept _ _)
  · exact MemoriesKept.trans .of_block (reply_memoriesKept _ _)
  · exact reply_memoriesKept _ s

theorem tick_memoriesKept (s : State) : MemoriesKept s s.tick := by
  rcases s.tick_cases with ⟨-, e⟩ | ⟨-, -, e⟩ | ⟨-, -, e⟩ <;> rw [e]
  · exact .refl s
  · exact (failWith_onlySession _ _ s).memoriesKept
  · exact .of_block

theorem close_memoriesKept (s : State) : MemoriesKept s s.close := by
  rcases s.close_cases with ⟨-, e⟩ | ⟨-, e⟩ <;> rw [e]
  · exact .of_block
  · exact MemoriesKept.trans .of_block (failWith_onlySession _ _ _).memoriesKept

/-- The memories kept by an instruction's next state, from those kept by the state its meaning names. -/
theorem MemoriesKept.of_next (h : MemoriesKept s u) (e : (.next u : Host.Outcome State Fault Refusal) = .next t) :
    MemoriesKept s t := by
  cases e; exact h

/-- No command writes a memory, SOFT_RESET included (spec R303). -/
theorem exec_command_memoriesKept (c : Command) (e : exec c.toInstr s = .next t) : MemoriesKept s t := by
  cases c with
  | nop => exact (MemoriesKept.refl s).of_next e
  | ckClr => cases e; exact .of_block
  | ckAdd b => cases e; exact .of_block
  | encStart => exact (encStart_memoriesKept s).of_next e
  | sesFlash => exact (sesFlash_memoriesKept s).of_next e
  | sesSig => exact (sesSig_memoriesKept s).of_next e
  | sesReset => exact (sesReset_memoriesKept s).of_next e
  | sesStop => cases e; exact .of_block
  | softReset => cases e; exact .of_block

theorem exec_cmd_memoriesKept (c : Cmd) (e : exec c.toInstr s = .next t) : MemoriesKept s t := by
  rw [exec_cmd_toInstr] at e
  exact (issueDue_onlySession c s).memoriesKept.of_next e

theorem execCsrWrite_memoriesKept {off : Word} {width : Nat} {w : Word} (e : execCsrWrite off width w s = .next t) :
    MemoriesKept s t := by
  rcases execCsrWrite_cases off width w s with
    ⟨-, c, -, k⟩ | ⟨code, k⟩ | ⟨-, k⟩ | ⟨-, k⟩ | ⟨r, -, -, -, k⟩ <;> rw [k] at e
  · exact exec_command_memoriesKept c e
  · exact (cmdErr_memoriesKept code s).of_next e
  all_goals cases e; exact .of_block

theorem execImgRead_memoriesKept {a : Word} (e : execImgRead a s = .next t) : MemoriesKept s t := by
  rcases execImgRead_cases a s with ⟨-, k⟩ | ⟨-, k⟩ <;> rw [k] at e
  · exact ((cmdErr_memoriesKept _ s).trans (reply_memoriesKept _ _)).of_next e
  · exact (reply_memoriesKept _ s).of_next e

theorem execParamRead_memoriesKept {a : Half} (e : execParamRead a s = .next t) : MemoriesKept s t := by
  rcases execParamRead_cases a s with ⟨-, k⟩ | ⟨-, k⟩ <;> rw [k] at e
  · exact ((cmdErr_memoriesKept _ s).trans (reply_memoriesKept _ _)).of_next e
  · exact (reply_memoriesKept _ s).of_next e

/-- An instruction keeps the memories, or it is RST, or it is a memory write that its range and its lock let through. -/
theorem exec_memory_cases {i : Instr} (e : exec i s = .next t) :
    MemoriesKept s t ∨ (i = .rst ∧ t = s.powerOn) ∨
    (∃ a x, i = .imgWrite a x ∧ t = s.mapBlk (Block.writeImg a.toNat x)) ∨
    (∃ a x, i = .paramWrite a x ∧ t = s.mapBlk (Block.writeParam a.toNat x)) := by
  cases i with
  | rst => cases e; exact .inr (.inl ⟨rfl, rfl⟩)
  | imgWrite a x =>
    change execImgWrite a x s = _ at e
    rcases execImgWrite_cases a x s with ⟨code, k⟩ | ⟨-, -, k⟩ <;> rw [k] at e
    · exact .inl ((cmdErr_memoriesKept code s).of_next e)
    · cases e; exact .inr (.inr (.inl ⟨a, x, rfl, rfl⟩))
  | paramWrite a x =>
    change execParamWrite a x s = _ at e
    rcases execParamWrite_cases a x s with ⟨code, k⟩ | ⟨-, -, k⟩ <;> rw [k] at e
    · exact .inl ((cmdErr_memoriesKept code s).of_next e)
    · cases e; exact .inr (.inr (.inr ⟨a, x, rfl, rfl⟩))
  | nop => exact .inl (exec_command_memoriesKept .nop e)
  | ckClr => exact .inl (exec_command_memoriesKept .ckClr e)
  | ckAdd b => exact .inl (exec_command_memoriesKept (.ckAdd b) e)
  | encStart => exact .inl (exec_command_memoriesKept .encStart e)
  | sesFlash => exact .inl (exec_command_memoriesKept .sesFlash e)
  | sesSig => exact .inl (exec_command_memoriesKept .sesSig e)
  | sesReset => exact .inl (exec_command_memoriesKept .sesReset e)
  | sesStop => exact .inl (exec_command_memoriesKept .sesStop e)
  | softReset => exact .inl (exec_command_memoriesKept .softReset e)
  | csrRead off width => exact .inl ((csrRead_memoriesKept off width s).of_next e)
  | csrWrite off width w => exact .inl (execCsrWrite_memoriesKept e)
  | imgRead a => exact .inl (execImgRead_memoriesKept e)
  | paramRead a => exact .inl (execParamRead_memoriesKept e)
  | rx chunk => exact .inl ((rxBytes_onlySession chunk s).memoriesKept.of_next e)
  | close => exact .inl ((close_memoriesKept s).of_next e)
  | tick => exact .inl ((tick_memoriesKept s).of_next e)
  | recData a d => cases e; exact .inl .of_block
  | recEof => cases e; exact .inl .of_block
  | recEla k => cases e; exact .inl .of_block
  | recEsa a d => cases e
  | recSsa a d => cases e
  | recSla a d => cases e
  | wSetDevice => exact .inl (exec_cmd_memoriesKept .setDevice e)
  | wEnterProgmode => exact .inl (exec_cmd_memoriesKept .enterProgrammingMode e)
  | wLoadAddress a16 a32 => exact .inl (exec_cmd_memoriesKept (.loadAddress a16 a32) e)
  | wProgramPage mk a32 d => exact .inl (exec_cmd_memoriesKept (.programPage mk a32 d) e)
  | wReadPage mk a32 n => exact .inl (exec_cmd_memoriesKept (.readPage mk a32 n) e)
  | wLeaveProgmode => exact .inl (exec_cmd_memoriesKept .leaveProgrammingMode e)
  | wReadSignature => exact .inl (exec_cmd_memoriesKept .readSignature e)

end

/-! ### The receiver of the records (spec R73, R180, R183) -/

/-- A Data record is placed at the upper address held and its own. -/
theorem received_dataRecord (u a : Half) (d : List Byte) (rs : List HexRecord) :
    received u (dataRecord a d :: rs) = ((u ++ a).toNat, d) :: received u rs := rfl

/-- The payload of an ELA record gives its block back (spec R108). -/
theorem blockOfPayload_beBytes (k : Half) : blockOfPayload (beBytes k) = k := beBytes_join k

/-- An ELA record sets the upper address to its block. -/
theorem received_elaRecord (u k : Half) (rs : List HexRecord) :
    received u (elaRecord k :: rs) = received k rs := by
  change received (blockOfPayload (beBytes k)) rs = _
  rw [blockOfPayload_beBytes]

/-- The block of a 32-bit linear address before its low 16 bits is the address (spec R73). -/
theorem blockOf_append_low {A : Nat} (h : A < 2 ^ 32) :
    (BitVec.ofNat 16 (blockOf A) ++ BitVec.ofNat 16 A : Word).toNat = A := by
  rw [BitVec.toNat_append, BitVec.toNat_ofNat, BitVec.toNat_ofNat, blockOf,
    ← Nat.shiftLeft_add_eq_or_of_lt (Nat.mod_lt _ (by decide)), Nat.shiftLeft_eq]
  omega

/-- A receiver whose upper address is the block last established places each chunk at its address. -/
theorem received_injectEla (u : Nat) {ps : List Piece} (h : ∀ p ∈ ps, p.1 < 2 ^ 32) (rs : List HexRecord)
    (hrs : ∀ v, received v rs = []) : received (BitVec.ofNat 16 u) (injectEla u ps ++ rs) = ps := by
  induction ps generalizing u with
  | nil => exact hrs _
  | cons p ps ih =>
    obtain ⟨hp, hps⟩ := List.forall_mem_cons.mp h
    have hdata : received (BitVec.ofNat 16 (blockOf p.1))
        (dataRecord (BitVec.ofNat 16 p.1) p.2 :: (injectEla (blockOf p.1) ps ++ rs)) = p :: ps := by
      rw [received_dataRecord, blockOf_append_low hp, ih _ hps]
    rw [injectEla_cons]
    split
    · rename_i hu
      rw [← hu]
      exact hdata
    · exact (received_elaRecord _ _ _).trans hdata

/-- The chunks of an image that ends at or below 2^32 begin below 2^32 (spec R72). -/
theorem imageChunks_address_lt {L : Nat} (hL : 1 ≤ L) {mode : Option Nat} (hm : ∀ P, mode = some P → 0 < P) {B : Nat}
    {d : List Byte} (hend : B + d.length ≤ 2 ^ 32) : ∀ p ∈ imageChunks L mode B d, p.1 < 2 ^ 32 := by
  intro p hp
  obtain ⟨hne, k, hk, hlen, -⟩ := (imageChunks_sparse hL hm B d).piece p hp
  have := List.length_pos_iff.mpr hne
  omega

/-! ### The obligations -/

/-- Settles O7: the cycle fetched from, then the split of that cycle at the input picked. -/
theorem inputsAreTakenInPriorityOrder : Obligations.InputsAreTakenInPriorityOrder := by
  refine ⟨fun cs rest x h => ?_, fetch_eq_none_iff,
    fun _ _ _ _ _ _ _ => ⟨rfl, rfl, rfl, rfl, rfl, rfl, rfl, rfl, rfl, rfl⟩⟩
  obtain ⟨empty, y, ys, post, rfl, hempty, rfl, rfl⟩ := fetch_eq_some h
  obtain ⟨a, b, hcycle, hothers, hbefore, hbehind⟩ := firstOf_split y ys
  exact ⟨empty, a, b, post, by rw [← hcycle], hempty, by rw [hothers], hbefore, hbehind⟩

/-- Settles O16, one case of ACCESS_FAULT after the other. -/
theorem accessFaultsRecordOnlyTheError : Obligations.AccessFaultsRecordOnlyTheError := by
  intro s fault
  have hfault : fault = s.cmdErr .accessFault := (s.cmdErr_eq_afterCmdErr .accessFault).symm
  rw [hfault]
  refine ⟨fun off w width h => ?_, fun off w hoff => ?_, fun i x h => ?_, fun i x h => ?_, ?_⟩
  · have hnone := csrAt_eq_none h
    exact ⟨exec_csrRead_of_csrAt_none hnone s, exec_csrWrite_of_csrAt_none hnone w s⟩
  · have hclass : ∃ r, csrAt off 32 = some r ∧ r.writeClass = .readOnly := by
      rw [← Option.map_eq_some_iff]
      fin_cases hoff <;> rfl
    obtain ⟨r, hr, hro⟩ := hclass
    exact exec_csrWrite_readOnly hr hro w s
  · exact ⟨exec_imgRead_of_ge h, exec_imgWrite_of_ge h x⟩
  · exact ⟨exec_paramRead_of_ge h, exec_paramWrite_of_ge h x⟩
  · exact exec_csrRead_of_csrAt (r := .CMD) rfl (by decide) s rfl

/-- Settles O17 by the rules of an IMG access and of a read after a write. -/
theorem imgAccessesReadAndWriteOneByte : Obligations.ImgAccessesReadAndWriteOneByte := by
  intro s i x h
  refine ⟨exec_imgRead_of_lt h, fun hbusy hin => ?_⟩
  have hlock : s.blk.imgLocked = false := by
    rw [Block.imgLocked, Block.encBusy_eq_false hbusy, Block.sesActive_eq_false hin]; rfl
  exact ⟨s.mapBlk (Block.writeImg i.toNat x), exec_imgWrite_of_not_locked h hlock x, rfl, s.imgByte_writeImg i.toNat x,
    s.paramByte_writeImg i.toNat x, fun hwf => Memory.wf_write hwf i.toNat x⟩

/-- Settles O18 by the rules of a PARAM access and of a read after a write. -/
theorem paramAccessesReadAndWriteOneByte : Obligations.ParamAccessesReadAndWriteOneByte := by
  intro s i x h
  refine ⟨exec_paramRead_of_lt h, fun hin => ?_⟩
  exact ⟨s.mapBlk (Block.writeParam i.toNat x), exec_paramWrite_of_not_locked h (Block.sesActive_eq_false hin) x, rfl,
    s.paramByte_writeParam i.toNat x, s.imgByte_writeParam i.toNat x, fun hwf => Memory.wf_write hwf i.toNat x⟩

/-- Settles O28: the upper address the receiver holds is the block the framer last established, from 0 on. -/
theorem receiverRebuildsTheChunks : Obligations.ReceiverRebuildsTheChunks := by
  intro L B mode d hL hm hend
  exact received_injectEla 0 (imageChunks_address_lt hL hm hend) [eofRecord] fun _ => rfl

/-- Settles O60, by what an instruction can do to the memories. -/
theorem onlyMemoryWritesAndRstChangeMemory : Obligations.OnlyMemoryWritesAndRstChangeMemory := by
  intro i s t e
  rcases exec_memory_cases e with k | ⟨rfl, rfl⟩ | ⟨a, x, rfl, rfl⟩ | ⟨a, x, rfl, rfl⟩
  · exact ⟨fun _ j => ⟨fun _ => k.imgByte j, fun _ => k.paramByte j⟩, k.cfg, k.cycles, k.tx, k.reads⟩
  · exact ⟨fun hrst => absurd rfl hrst, rfl, rfl, List.prefix_rfl, List.prefix_rfl⟩
  · refine ⟨fun _ j => ⟨fun hother => ?_, fun _ => s.paramByte_writeImg _ _ j⟩, rfl, rfl, List.prefix_rfl, List.prefix_rfl⟩
    rw [s.imgByte_writeImg, if_neg (hother a x rfl).symm]
  · refine ⟨fun _ j => ⟨fun _ => s.imgByte_writeParam _ _ j, fun hother => ?_⟩, rfl, rfl, List.prefix_rfl, List.prefix_rfl⟩
    rw [s.paramByte_writeParam, if_neg (hother a x rfl).symm]

/-- Settles O6: the step on the input fetched, and without one. -/
theorem stepRunsTheDecodedInstruction : Obligations.StepRunsTheDecodedInstruction := by
  refine ⟨fun s x rest i hfetch hdecode => ?_, fun s hfetch => ?_⟩
  · simp only [step, hfetch, hdecode]
  · simp only [step, hfetch]

end Sys2Proof.Machine
end

section
/-! PROOFS. Family 30_encoding: the decoder and the encoder, the records and their lines, the wire frames and their rows. -/

namespace Sys2Proof.Machine

/-! ### Command words (spec R96 to R98) -/

section
variable {w : Word} {c : Command}

theorem decodeCommand_of_unmapped (hop : commandOfOp (w.extractLsb' 24 8) (w.extractLsb' 0 8) = none) :
    decodeCommand w = .error .illegalOpcode := by
  simp only [decodeCommand, hop]

/-- The checks of the fields behind OP (spec R98). -/
theorem decodeCommand_of_mapped (hop : commandOfOp (w.extractLsb' 24 8) (w.extractLsb' 0 8) = some c) :
    decodeCommand w =
      if w.extractLsb' 8 16 ≠ 0 ∨ (w.extractLsb' 24 8 ≠ 0x11 ∧ w.extractLsb' 0 8 ≠ 0) then .error .reservedBits
      else .ok c := by
  simp only [decodeCommand, hop, ite_or]

theorem decodeCommand_of_fields (hop : commandOfOp (w.extractLsb' 24 8) (w.extractLsb' 0 8) = some c)
    (hrsvd : w.extractLsb' 8 16 = 0) (himm : w.extractLsb' 24 8 = 0x11 ∨ w.extractLsb' 0 8 = 0) :
    decodeCommand w = .ok c := by
  rw [decodeCommand_of_mapped hop, if_neg (by tauto)]

/-- CK_ADD is the one command with an operand: its word is OP, an RSVD of zero and the operand (spec R97). -/
theorem decodeCommand_ckAdd_word (b : Byte) : decodeCommand (0x110000#24 ++ b) = .ok (.ckAdd b) := by
  have hop : (0x110000#24 ++ b : Word).extractLsb' 24 8 = 0x11 := by
    simp [BitVec.extractLsb'_append_eq_ite, -Nat.reduceAdd]
  have hrsvd : (0x110000#24 ++ b : Word).extractLsb' 8 16 = 0 := by
    simp [BitVec.extractLsb'_append_eq_ite, -Nat.reduceAdd]
  have himm : (0x110000#24 ++ b : Word).extractLsb' 0 8 = b := by
    simp [BitVec.extractLsb'_append_eq_ite, -Nat.reduceAdd]
  refine decodeCommand_of_fields ?_ hrsvd (.inl hop)
  rw [hop, himm]
  rfl

theorem decodeCommand_commandWord (c : Command) : decodeCommand (commandWord c) = .ok c := by
  cases c with
  | ckAdd b => exact decodeCommand_ckAdd_word b
  | _ => rfl

/-- A word that decodes is the word of its command: OP names the command, and every other bit is checked or is its
operand. -/
theorem eq_commandWord_of_decode (h : decodeCommand w = .ok c) : w = commandWord c := by
  obtain ⟨hmap, hrsvd, himm⟩ := decodeCommand_eq_ok h
  rw [word_fields w, hrsvd]
  rcases commandOfOp_cases hmap with
    ⟨hop, rfl⟩ | ⟨hop, rfl⟩ | ⟨hop, rfl⟩ | ⟨hop, rfl⟩ | ⟨hop, rfl⟩ | ⟨hop, rfl⟩ | ⟨hop, rfl⟩ | ⟨hop, rfl⟩ | ⟨hop, rfl⟩
  case inr.inr.inl => rw [hop]; rfl
  all_goals
    rw [hop] at himm ⊢
    rw [himm.resolve_left (by decide)]
    rfl

theorem isCommandWord_commandWord (c : Command) : IsCommandWord (commandWord c) := by
  cases c with
  | ckAdd b =>
    have hhigh : (commandWord (.ckAdd b)).extractLsb' 8 24 = 0x110000#24 := by
      simp [commandWord, BitVec.extractLsb'_append_eq_ite, -Nat.reduceAdd]
    exact .inr (.inr (.inl hhigh))
  | _ => decide

end

/-- The OP bytes of the opcode map (spec R97). -/
def commandOps : List Byte := [0x00, 0x10, 0x11, 0x20, 0x30, 0x31, 0x3E, 0x3F, 0xF0]

theorem commandOfOp_eq_none {op imm : Byte} (h : op ∉ commandOps) :
    commandOfOp op imm = none := by
  cases hmap : commandOfOp op imm with
  | none => rfl
  | some c =>
    rcases commandOfOp_cases hmap with
      ⟨rfl, -⟩ | ⟨rfl, -⟩ | ⟨rfl, -⟩ | ⟨rfl, -⟩ | ⟨rfl, -⟩ | ⟨rfl, -⟩ | ⟨rfl, -⟩ | ⟨rfl, -⟩ | ⟨rfl, -⟩ <;>
      exact absurd (by decide) h

theorem commandOfOp_isSome {op : Byte} (h : op ∈ commandOps)
    (imm : Byte) : ∃ c, commandOfOp op imm = some c := by
  fin_cases h <;> exact ⟨_, rfl⟩

/-- A CMD write of a word that is no command only records why (spec R98, R145). -/
theorem exec_csrWrite_of_decode_error {w : Word} {e : CommandError} (h : decodeCommand w = .error e) (s : State) :
    exec (.csrWrite 0 32 w) s = .next (s.cmdErr (cmdErrOf e)) := by
  change executeCommand w s = _
  simp only [executeCommand, h]

/-! ### Records (spec R104, R105) -/

/-- The count byte is the number of payload bytes (spec R104). -/
theorem count_toNat {d : List Byte} (h : d.length ≤ 255) : (BitVec.ofNat 8 d.length).toNat = d.length := by
  rw [BitVec.toNat_ofNat, Nat.mod_eq_of_lt (by omega)]

/-- The record decoder reads back a record's type, address and payload: the count byte is the payload's length, the bytes sum
to zero, and the checksum is the last of them. -/
theorem decodeRecord_recBytes {d : List Byte} (hlen : d.length ≤ 255) (t : RecType) (a : Half) :
    decodeRecord (recBytes (mkRecord t a d)) = recordInstr t a d := by
  have hbytes : recBytes (mkRecord t a d) =
      BitVec.ofNat 8 d.length :: a.extractLsb' 8 8 :: a.extractLsb' 0 8 :: t.code :: (d ++ [cksum8 (recFields t a d)]) := rfl
  have hcount : (d ++ [cksum8 (recFields t a d)]).length = (BitVec.ofNat 8 d.length).toNat + 1 := by
    rw [count_toNat hlen, List.length_append, List.length_singleton]
  have hsum := recBytes_mkRecord_sum t a d
  rw [hbytes] at hsum ⊢
  simp only [decodeRecord, hcount, hsum, ofCode_code, ne_eq, not_true_eq_false, if_false, List.dropLast_concat,
    beBytes_join]

/-! ### The images of instructions -/

/-- A CSR_WRITE that is its own row is not read as a command (spec R96). -/
theorem decodeEvent_csrWrite {off : Word} {width : Nat} {w : Word} (h : Instr.WellFormed (.csrWrite off width w)) :
    decodeEvent (.csrWrite off width w) = .ok (.csrWrite off width w) := by
  have hrow : ¬ (off = 0 ∧ width = 32 ∧ IsCommandWord w) := by simpa only [Instr.WellFormed, Instr.wellFormed,
    Bool.not_eq_true', decide_eq_false_iff_not] using h
  simp only [decodeEvent]
  split
  · rename_i hcmd
    cases hw : decodeCommand w with
    | error e => rfl
    | ok c =>
      have hword : IsCommandWord w := by rw [eq_commandWord_of_decode hw]; exact isCommandWord_commandWord c
      exact absurd ⟨hcmd.1, hcmd.2, hword⟩ hrow
  · rfl

theorem decode_commandEvent (c : Command) : decode (commandEvent c) = .ok c.toInstr := by
  change decodeEvent (.csrWrite 0 32 (commandWord c)) = _
  simp only [decodeEvent, decodeCommand_commandWord, and_self, if_true]

theorem decode_recordImage {d : List Byte} (hlen : d.length ≤ 255) (t : RecType) (a : Half) :
    decode (recordImage t a d) = recordInstr t a d := decodeRecord_recBytes hlen t a

theorem decode_frame {c : Cmd} (h : c.toInstr.WellFormed) : decode (.frame c) = .ok c.toInstr := if_pos h

/-- The image of an ELA row carries its block, high byte first (spec R108). -/
theorem decode_elaImage (k : Half) : decode (recordImage .extendedLinearAddress 0 (beBytes k)) = .ok (.recEla k) := by
  rw [decode_recordImage (by simp)]
  exact congrArg (fun b => Except.ok (Instr.recEla b)) (beBytes_join k)

theorem decode_encode {i : Instr} (h : i.WellFormed) : decode (encode i) = .ok i := by
  cases i with
  | nop => exact decode_commandEvent .nop
  | ckClr => exact decode_commandEvent .ckClr
  | ckAdd b => exact decode_commandEvent (.ckAdd b)
  | encStart => exact decode_commandEvent .encStart
  | sesFlash => exact decode_commandEvent .sesFlash
  | sesSig => exact decode_commandEvent .sesSig
  | sesReset => exact decode_commandEvent .sesReset
  | sesStop => exact decode_commandEvent .sesStop
  | softReset => exact decode_commandEvent .softReset
  | csrWrite off width w => exact decodeEvent_csrWrite h
  | rx chunk =>
    have hne : chunk ≠ [] := List.ne_nil_of_length_pos (of_decide_eq_true h)
    exact if_neg hne
  | csrRead off width => rfl
  | imgRead a => rfl
  | imgWrite a x => rfl
  | paramRead a => rfl
  | paramWrite a x => rfl
  | close => rfl
  | tick => rfl
  | rst => rfl
  | recData a d => exact decode_recordImage (of_decide_eq_true h) .data a
  | recEof => rfl
  | recEsa a d => exact decode_recordImage (of_decide_eq_true h) .extendedSegmentAddress a
  | recSsa a d => exact decode_recordImage (of_decide_eq_true h) .startSegmentAddress a
  | recEla k => exact decode_elaImage k
  | recSla a d => exact decode_recordImage (of_decide_eq_true h) .startLinearAddress a
  | wSetDevice => exact decode_frame (c := .setDevice) h
  | wEnterProgmode => exact decode_frame (c := .enterProgrammingMode) h
  | wLoadAddress a16 a32 => exact decode_frame (c := .loadAddress a16 a32) h
  | wProgramPage mk a32 d => exact decode_frame (c := .programPage mk a32 d) h
  | wReadPage mk a32 n => exact decode_frame (c := .readPage mk a32 n) h
  | wLeaveProgmode => exact decode_frame (c := .leaveProgrammingMode) h
  | wReadSignature => exact decode_frame (c := .readSignature) h

/-! ### What an event can do (spec R122, R145, R275) -/

theorem exec_command_next (c : Command) (s : State) : ∃ t, exec c.toInstr s = .next t := by
  cases c <;> exact ⟨_, rfl⟩

theorem exec_csrWrite_next (off : Word) (width : Nat) (w : Word) (s : State) :
    ∃ t, exec (.csrWrite off width w) s = .next t := by
  change ∃ t, execCsrWrite off width w s = .next t
  rcases execCsrWrite_cases off width w s with
    ⟨-, c, -, k⟩ | ⟨code, k⟩ | ⟨-, k⟩ | ⟨-, k⟩ | ⟨r, -, -, -, k⟩ <;> rw [k]
  · exact exec_command_next c s
  all_goals exact ⟨_, rfl⟩

/-- An instruction has a next state, but for the three records the framer never emits (spec R195). -/
theorem exec_next_or_refused (i : Instr) (s : State) :
    (∃ t, exec i s = .next t) ∨ (i.format = .hexrec ∧ ∃ k, exec i s = .refused (.recordNeverEmitted k)) := by
  cases i with
  | recEsa a d => exact .inr ⟨rfl, _, rfl⟩
  | recSsa a d => exact .inr ⟨rfl, _, rfl⟩
  | recSla a d => exact .inr ⟨rfl, _, rfl⟩
  | csrWrite off width w => exact .inl (exec_csrWrite_next off width w s)
  | imgRead a => exact .inl ((execImgRead_cases a s).elim (fun h => ⟨_, h.2⟩) fun h => ⟨_, h.2⟩)
  | imgWrite a x => exact .inl ((execImgWrite_cases a x s).elim (fun ⟨_, h⟩ => ⟨_, h⟩) fun h => ⟨_, h.2.2⟩)
  | paramRead a => exact .inl ((execParamRead_cases a s).elim (fun h => ⟨_, h.2⟩) fun h => ⟨_, h.2⟩)
  | paramWrite a x => exact .inl ((execParamWrite_cases a x s).elim (fun ⟨_, h⟩ => ⟨_, h⟩) fun h => ⟨_, h.2.2⟩)
  | _ => exact .inl ⟨_, rfl⟩

theorem Command.format_toInstr (c : Command) : c.toInstr.format = .cmd32 := by cases c <;> rfl

/-- An event of the closed set is a command or its own row (spec R122). -/
theorem decodeEvent_ok {e : Event} (h : e ≠ .rx []) : ∃ i, decodeEvent e = .ok i ∧ i.format ≠ .hexrec := by
  cases e with
  | csrWrite off width w =>
    simp only [decodeEvent]
    split
    · cases decodeCommand w with
      | ok c => exact ⟨c.toInstr, rfl, by rw [Command.format_toInstr]; decide⟩
      | error e => exact ⟨.csrWrite off width w, rfl, nofun⟩
    · exact ⟨.csrWrite off width w, rfl, nofun⟩
  | rx chunk =>
    have hne : chunk ≠ [] := fun hnil => h (congrArg Event.rx hnil)
    exact ⟨.rx chunk, if_neg hne, nofun⟩
  | _ => exact ⟨_, rfl, nofun⟩

/-- Every step has a next state, but on a record never emitted and on an image that is no instruction. -/
theorem step_cases (s : State) :
    (∃ t, step s = .next t) ∨ (∃ k, step s = .refused (.recordNeverEmitted k)) ∨
      ∃ e, step s = .refused (.undecodable e) := by
  unfold step
  split
  · exact .inl ⟨_, rfl⟩
  · split
    · exact (exec_next_or_refused _ _).imp_right fun h => .inl h.2
    · exact .inr (.inr ⟨_, rfl⟩)

/-! ### The records of an image (spec R180, R183, R188) -/

theorem type_of_mem_injectEla {u : Nat} {ps : List Piece} {r : HexRecord} (h : r ∈ injectEla u ps) :
    r.type ≠ .endOfFile := by
  obtain ⟨p, -, rfl | rfl⟩ := mem_injectEla h <;> exact nofun

/-- The block changes of a list of blocks, from the block `u` on. -/
def blockChanges (u : Nat) (bs : List Nat) : List Nat := (List.destutter' (· ≠ ·) u bs).tail

theorem blockChanges_cons_self (u : Nat) (bs : List Nat) : blockChanges u (u :: bs) = blockChanges u bs := by
  simp [blockChanges]

theorem destutter'_eq_cons_blockChanges (u : Nat) (bs : List Nat) :
    List.destutter' (· ≠ ·) u bs = u :: blockChanges u bs := by
  induction bs with
  | nil => rfl
  | cons b bs ih =>
    by_cases h : u = b
    · subst h
      rw [blockChanges_cons_self, List.destutter'_cons_neg _ (by simp), ih]
    · rw [blockChanges, List.destutter'_cons_pos _ h, List.tail_cons]

theorem blockChanges_cons_of_ne {u b : Nat} (h : b ≠ u) (bs : List Nat) :
    blockChanges u (b :: bs) = b :: blockChanges b bs := by
  rw [blockChanges, List.destutter'_cons_pos _ h.symm, List.tail_cons, destutter'_eq_cons_blockChanges]

/-- The blocks the ELA records of a list name, in order (spec R108). -/
def elaBlocks (rs : List HexRecord) : List Nat :=
  (rs.filter (fun r => decide (r.type = .extendedLinearAddress))).map (fun r => (blockOfPayload r.payload).toNat)

theorem elaBlocks_append (rs qs : List HexRecord) : elaBlocks (rs ++ qs) = elaBlocks rs ++ elaBlocks qs := by
  simp [elaBlocks]

@[simp] theorem elaBlocks_dataRecord_cons (a : Half) (d : List Byte) (rs : List HexRecord) :
    elaBlocks (dataRecord a d :: rs) = elaBlocks rs := rfl

@[simp] theorem elaBlocks_elaRecord_cons (k : Half) (rs : List HexRecord) :
    elaBlocks (elaRecord k :: rs) = k.toNat :: elaBlocks rs :=
  congrArg (fun b : Half => b.toNat :: elaBlocks rs) (blockOfPayload_beBytes k)

@[simp] theorem elaBlocks_eofRecord : elaBlocks [eofRecord] = [] := rfl

theorem toNat_blockOf {A : Nat} (h : A < 2 ^ 32) : (BitVec.ofNat 16 (blockOf A)).toNat = blockOf A := by
  rw [BitVec.toNat_ofNat, blockOf]
  omega

/-- `emit_data` names each block as it is entered (spec R183). -/
theorem elaBlocks_injectEla (u : Nat) {ps : List Piece} (h : ∀ p ∈ ps, p.1 < 2 ^ 32) :
    elaBlocks (injectEla u ps) = blockChanges u (ps.map (fun p => blockOf p.1)) := by
  induction ps generalizing u with
  | nil => rfl
  | cons p ps ih =>
    obtain ⟨hp, hps⟩ := List.forall_mem_cons.mp h
    rw [injectEla_cons, List.map_cons]
    split
    · rename_i hu
      rw [hu, blockChanges_cons_self, List.nil_append, elaBlocks_dataRecord_cons, ih u hps]
    · rename_i hu
      rw [blockChanges_cons_of_ne hu, List.singleton_append, elaBlocks_elaRecord_cons, elaBlocks_dataRecord_cons,
        ih _ hps, toNat_blockOf hp]

/-- An ELA record of `emit_data` is followed at once by the Data record of a chunk of its block (spec R180). -/
theorem injectEla_ela_next {u n : Nat} {ps : List Piece} {r : HexRecord} (hr : (injectEla u ps)[n]? = some r)
    (hela : r.type = .extendedLinearAddress) :
    ∃ p ∈ ps, r = elaRecord (BitVec.ofNat 16 (blockOf p.1)) ∧
      (injectEla u ps)[n + 1]? = some (dataRecord (BitVec.ofNat 16 p.1) p.2) := by
  induction ps generalizing u n with
  | nil => simp [injectEla] at hr
  | cons p ps ih =>
    -- behind the Data record of the first chunk the records of the others follow
    have later {m : Nat} (hm : (dataRecord (BitVec.ofNat 16 p.1) p.2 :: injectEla (blockOf p.1) ps)[m]? = some r) :
        ∃ q ∈ p :: ps, r = elaRecord (BitVec.ofNat 16 (blockOf q.1)) ∧
          (dataRecord (BitVec.ofNat 16 p.1) p.2 :: injectEla (blockOf p.1) ps)[m + 1]? =
            some (dataRecord (BitVec.ofNat 16 q.1) q.2) := by
      cases m with
      | zero => cases hm; cases hela
      | succ m =>
        obtain ⟨q, hq, hqr, hnext⟩ := ih hm
        exact ⟨q, List.mem_cons_of_mem _ hq, hqr, hnext⟩
    by_cases hu : blockOf p.1 = u
    · rw [injectEla_cons, if_pos hu] at hr ⊢
      exact later hr
    · rw [injectEla_cons, if_neg hu] at hr ⊢
      cases n with
      | zero => cases hr; exact ⟨p, List.mem_cons_self .., rfl, rfl⟩
      | succ n => exact later hr

/-! ### The bytes of a record and its line (spec R104, R106, R107) -/

/-- The sixteen hex digits (spec R15). -/
def hexDigits : List Byte := [0x30, 0x31, 0x32, 0x33, 0x34, 0x35, 0x36, 0x37, 0x38, 0x39, 0x41, 0x42, 0x43, 0x44, 0x45, 0x46]

theorem hexDigit_eq (n : BitVec 4) : hexDigit n = hexDigits.getD n.toNat 0 := by
  revert n
  decide

theorem hex2_eq (b : Byte) : hex2 b = [hexDigits.getD (b.toNat / 16) 0, hexDigits.getD (b.toNat % 16) 0] := by
  have hhigh : (b.extractLsb' 4 4).toNat = b.toNat / 16 := by
    simp [BitVec.extractLsb'_toNat, Nat.shiftRight_eq_div_pow]
    omega
  have hlow : (b.extractLsb' 0 4).toNat = b.toNat % 16 := by simp [BitVec.extractLsb'_toNat]
  rw [hex2, hexDigit_eq, hexDigit_eq, hhigh, hlow]

theorem recBytes_eq (r : HexRecord) : recBytes r =
    [BitVec.ofNat 8 r.payload.length, r.address.extractLsb' 8 8, r.address.extractLsb' 0 8, r.type.code] ++ r.payload ++
      [r.checksum] := rfl

/-- A record row appends the line of its record and counts it (spec R177, R188). -/
theorem exec_emits {i : Instr} {r : HexRecord} {s : State} (h : exec i s = .next (s.mapBlk (Block.emitRecord r))) :
    ∃ n : Word, (s.blk.ENC_NREC.toNat + 1 < 2 ^ 32 → n = s.blk.ENC_NREC + 1) ∧
      exec i s = .next { s with blk := { s.blk with OUTQ := s.blk.OUTQ ++ textLine r, ENC_NREC := n, ENC_ST := .busy } } := by
  refine ⟨countWord (s.blk.ENC_NREC.toNat + 1), fun hlt => ?_, h⟩
  rw [countWord_of_lt hlt, BitVec.ofNat_add, BitVec.ofNat_toNat, BitVec.setWidth_eq]
  rfl

/-! ### Frames (spec R112, R118) -/

theorem State.paramBlock_length (s : State) : s.paramBlock.length = s.blk.PARAM_LEN.toNat := by
  simp [State.paramBlock]

theorem frameCksum_length (wp : WireProfile) (fields : List Byte) :
    (frameCksum wp fields).length = wp.WIRE_CKSUM.toNat := by
  cases h : wp.WIRE_CKSUM <;> simp [frameCksum, h]

theorem frameEnd_length (wp : WireProfile) : (frameEnd wp).length = wp.EOP_EN.toNat := by
  cases h : wp.EOP_EN <;> simp [frameEnd, h]

theorem frame_length (wp : WireProfile) (param : List Byte) (c : Cmd) :
    (frame wp param c).length = 1 + (operands wp param c).length + wp.WIRE_CKSUM.toNat + wp.EOP_EN.toNat := by
  rw [frame, List.length_append, List.length_append, frameCksum_length, frameEnd_length, List.length_cons]
  omega

theorem addrBytes_eq (wp : WireProfile) (a : Half) : addrBytes wp a =
    if wp.ADDR_ORDER = .be then [a.extractLsb' 8 8, a.extractLsb' 0 8] else [a.extractLsb' 0 8, a.extractLsb' 8 8] := by
  cases h : wp.ADDR_ORDER <;> simp [addrBytes, h, beBytes, leBytes]

theorem addrBytes_length (wp : WireProfile) (a : Half) : (addrBytes wp a).length = 2 := by
  cases h : wp.ADDR_ORDER <;> simp [addrBytes, h, leBytes]

theorem operands_programPage_length (wp : WireProfile) (param : List Byte) (mk : MemKind) (a : Word) (d : List Byte) :
    (operands wp param (.programPage mk a d)).length = 3 + d.length := by
  rw [operands, List.length_append, beBytes_length, List.length_cons]
  omega

theorem memCode_eq (wp : WireProfile) (mk : MemKind) :
    memCode wp mk = if mk = .flash then wp.MEMCODE_FLASH else wp.MEMCODE_EEPROM := by
  cases mk <;> rfl

/-! ### Responses (spec R117, R246) -/

theorem leadLen_eq (wp : WireProfile) (k : Kind) :
    leadLen wp k = (if wp.LEAD_EN.get k then [wp.LEAD.get k] else []).length := by
  cases h : wp.LEAD_EN.get k <;> simp [leadLen, h]

theorem trailLen_eq (wp : WireProfile) (k : Kind) :
    trailLen wp k = (if wp.TRAIL_EN.get k then [wp.TRAIL.get k] else []).length := by
  cases h : wp.TRAIL_EN.get k <;> simp [trailLen, h]

theorem responseOf_length (wp : WireProfile) (k : Kind) (body : List Byte) :
    (responseOf wp k body).length = leadLen wp k + body.length + trailLen wp k := by
  rw [responseOf, List.length_append, List.length_append, leadLen_eq, trailLen_eq]

theorem bodyOf_responseOf (wp : WireProfile) {n : Nat} {c : Cmd} {body : List Byte} (h : bodyLen n c = body.length) :
    bodyOf wp n c (responseOf wp c.kind body) = body := by
  rw [bodyOf, responseOf, leadLen_eq, List.append_assoc, List.drop_left, h, List.take_left]

theorem markerFault_responseOf (wp : WireProfile) (k : Kind) (body : List Byte) :
    markerFault wp k (responseOf wp k body) = none := by
  have hlead : wp.LEAD_EN.get k = true → (responseOf wp k body).getD 0 0 = wp.LEAD.get k := fun h => by
    simp [responseOf, h]
  have htrail : wp.TRAIL_EN.get k = true →
      (responseOf wp k body).getD ((responseOf wp k body).length - 1) 0 = wp.TRAIL.get k := fun h => by
    rw [List.getD_eq_getElem?_getD, ← List.getLast?_eq_getElem?]
    simp [responseOf, h]
  unfold markerFault
  rw [if_neg (fun h => h.2 (hlead h.1)), if_neg (fun h => h.2 (htrail h.1))]

theorem markerFault_lead {wp : WireProfile} {k : Kind} {h : Byte} (r : List Byte) (hen : wp.LEAD_EN.get k = true)
    (hne : h ≠ wp.LEAD.get k) : markerFault wp k (h :: r) = some ⟨0, wp.LEAD.get k, h⟩ := if_pos ⟨hen, hne⟩

theorem markerFault_trail {wp : WireProfile} {k : Kind} {r : List Byte} {x : Byte}
    (hlead : wp.LEAD_EN.get k = true → (r ++ [x]).head? = some (wp.LEAD.get k)) (hen : wp.TRAIL_EN.get k = true)
    (hne : x ≠ wp.TRAIL.get k) :
    markerFault wp k (r ++ [x]) = some ⟨BitVec.ofNat 32 r.length, wp.TRAIL.get k, x⟩ := by
  have hfirst : wp.LEAD_EN.get k = true → (r ++ [x]).getD 0 0 = wp.LEAD.get k := fun h => by
    rw [List.getD_eq_getElem?_getD, ← List.head?_eq_getElem?, hlead h, Option.getD_some]
  have hlast : (r ++ [x]).getD ((r ++ [x]).length - 1) 0 = x := by simp
  unfold markerFault
  rw [if_neg (fun h => h.2 (hfirst h.1)), hlast, if_pos ⟨hen, hne⟩, List.length_append, List.length_singleton,
    Nat.add_sub_cancel]

theorem firstDiff_self (i : Nat) (e : List Byte) : firstDiff i e e = none := by
  induction e generalizing i with
  | nil => rfl
  | cons b e ih => exact (if_pos rfl).trans (ih _)

/-- The first place where the body is not what is expected (spec R251, R252). -/
theorem firstDiff_eq_some {e body : List Byte} {i : Nat} {u v : Byte} (k : Nat) (hu : e[i]? = some u)
    (hv : body[i]? = some v) (hne : v ≠ u) (hpre : body.take i = e.take i) :
    firstDiff k e body = some ⟨BitVec.ofNat 32 (k + i), u, v⟩ := by
  induction i generalizing k e body with
  | zero =>
    cases e with
    | nil => cases hu
    | cons a e =>
      cases body with
      | nil => cases hv
      | cons b body =>
        cases hu
        cases hv
        exact if_neg hne
  | succ i ih =>
    cases e with
    | nil => cases hu
    | cons a e =>
      cases body with
      | nil => cases hv
      | cons b body =>
        obtain ⟨hab, hpre⟩ := List.cons.inj hpre
        have hnext := ih (k + 1) hu hv hpre
        rw [Nat.add_right_comm] at hnext
        exact (if_pos hab).trans hnext

theorem sum_mapIdx_succ (bs : List Byte) :
    (bs.mapIdx (fun (i : Nat) (b : Byte) => b.toNat * 256 ^ (i + 1))).sum =
      256 * (bs.mapIdx (fun (i : Nat) (b : Byte) => b.toNat * 256 ^ i)).sum := by
  rw [List.mapIdx_eq_zipIdx_map, List.mapIdx_eq_zipIdx_map, ← List.sum_map_mul_left]
  exact congrArg (fun f => (bs.zipIdx.map f).sum) (funext fun p => by simp only [pow_succ]; ring)

/-- The signature as a number, first byte least significant (spec R252). -/
theorem sigWord_eq (bs : List Byte) :
    sigWord bs = BitVec.ofNat 32 (bs.mapIdx (fun (i : Nat) (b : Byte) => b.toNat * 256 ^ i)).sum := by
  induction bs with
  | nil => rfl
  | cons b bs ih =>
    rw [sigWord, ih, List.mapIdx_cons, List.sum_cons, sum_mapIdx_succ]
    apply BitVec.eq_of_toNat_eq
    simp [Nat.shiftLeft_eq]
    omega

/-! ### The outcomes of a session's command, as the statements write them -/

section
variable {s : State} {c : Cmd}

/-- A failure of the command at SEQ_IDX (spec R277). -/
theorem failWith_eq_afterFail (h : s.blk.current = some c) (reason : FailReason) (x : FailCtx) :
    s.failWith reason x = s.afterFail reason c x.off x.exp x.act := by
  have hirq : s.blk.IRQ_STAT ||| 0x20#8 ||| 0x08#8 = s.blk.IRQ_STAT ||| 0x28#8 := BitVec.or_assoc ..
  have hblk : s.blk.fail reason x = (s.afterFail reason c x.off x.exp x.act).blk := by
    simp only [State.afterFail, ← hirq, Block.fail, h, Option.map_some, Option.getD_some]
    rfl
  exact congrArg (fun b => { s with blk := b }) hblk

theorem noteSignature_eq_noted (c : Cmd) (body : List Byte) (s : State) :
    s.mapBlk (Block.noteSignature c body) = s.noted c body := by
  cases c with
  | readSignature => exact congrArg (fun w => { s with blk := { s.blk with SIG_READ := w } }) (sigWord_eq body)
  | _ => rfl

@[simp] theorem noted_SEQ_IDX (c : Cmd) (body : List Byte) (s : State) : (s.noted c body).blk.SEQ_IDX = s.blk.SEQ_IDX := by
  cases c <;> rfl

@[simp] theorem noted_SEQ_LEN (c : Cmd) (body : List Byte) (s : State) : (s.noted c body).blk.SEQ_LEN = s.blk.SEQ_LEN := by
  cases c <;> rfl

@[simp] theorem noted_Q (c : Cmd) (body : List Byte) (s : State) : (s.noted c body).blk.Q = s.blk.Q := by cases c <;> rfl

@[simp] theorem noted_RB (c : Cmd) (body : List Byte) (s : State) : (s.noted c body).blk.RB = s.blk.RB := by cases c <;> rfl

theorem finish_eq_afterLast {n : Nat} {surplus : List Byte} (h : s.blk.RB.drop n = surplus) (c : Cmd) :
    (s.mapBlk (Block.consume n)).mapBlk (Block.finish c) = s.afterLast c surplus := by
  subst h
  cases c <;> rfl

theorem moveOn_eq_movedOn {n : Nat} {surplus : List Byte} (h : s.blk.RB.drop n = surplus) (c : Cmd) :
    (s.mapBlk (Block.consume n)).mapBlk (Block.moveOn c) = s.movedOn c surplus := by
  subst h
  cases c <;> rfl

theorem begin_emitTx_eq_afterIssue (h : s.nextAnswer = true) (c : Cmd) :
    (s.mapBlk (Block.begin c)).emitTx (s.frameOf c) = s.afterIssue c := by
  have hans : (s.mapBlk (Block.begin c)).nextAnswer = true := h
  rw [State.emitTx, hans]
  rfl

/-- Nothing is checked before the response is complete (spec R245). -/
theorem respond_of_short {go : State → State} (h : s.blk.RB.length < s.respLenOf c) : s.respond c go = s := if_pos h

/-- The bytes of a complete response are validated, whatever follows them in RB (spec R245). -/
theorem respond_of_complete {go : State → State} {r rest : List Byte} (hrb : s.blk.RB = r ++ rest)
    (hlen : r.length = s.respLenOf c) : s.respond c go = s.validate c r go := by
  have hle : ¬ s.blk.RB.length < s.respLenOf c := by rw [hrb, ← hlen, List.length_append]; omega
  rw [State.respond, if_neg hle, hrb, ← hlen, List.take_left]

theorem validate_of_markerFault {go : State → State} {r : List Byte} {x : FailCtx}
    (h : markerFault s.cfg.WP c.kind r = some x) : s.validate c r go = s.failWith .protocolDesync x := by
  simp only [State.validate, h]

/-- A well-marked response that its compare finds wrong (spec R246). -/
theorem validate_of_mismatch {go : State → State} {body : List Byte} {f : FailReason × FailCtx}
    (hbody : bodyLen s.blk.SIG_LEN.toNat c = body.length)
    (hcmp : (s.noted c body).blk.compareFault c body = some f) :
    s.validate c (responseOf s.cfg.WP c.kind body) go = (s.noted c body).failWith f.1 f.2 := by
  simp only [State.validate, markerFault_responseOf, bodyOf_responseOf _ hbody, noteSignature_eq_noted, hcmp]

/-- A good response is consumed and completes its command (spec R246, R250). -/
theorem validate_of_match {go : State → State} {body : List Byte} (hbody : bodyLen s.blk.SIG_LEN.toNat c = body.length)
    (hcmp : (s.noted c body).blk.compareFault c body = none) :
    s.validate c (responseOf s.cfg.WP c.kind body) go =
      ((s.noted c body).mapBlk (Block.consume (responseOf s.cfg.WP c.kind body).length)).completeOk c go := by
  simp only [State.validate, markerFault_responseOf, bodyOf_responseOf _ hbody, noteSignature_eq_noted, hcmp]

/-- The body expected of a command has the length of its response's body (spec R117). -/
theorem bodyLen_of_expects {e : List Byte} (h : s.expects c e) : bodyLen s.blk.SIG_LEN.toNat c = e.length := by
  cases c with
  | readPage mk a n => exact h.1.symm
  | readSignature => rw [show e = _ from h]; simp [bodyLen]
  | _ => rw [show e = [] from h]; rfl

/-- The compare is the search for the first difference from the body expected (spec R248, R251, R252). -/
theorem compareFault_of_expects {e : List Byte} (h : s.expects c e) (body : List Byte) :
    (s.noted c body).blk.compareFault c body = (firstDiff 0 e body).map (fun x => (mismatchOf c, x)) := by
  cases c with
  | readPage mk a n =>
    obtain ⟨-, mk', a', hq⟩ := h
    have hdata : s.blk.verifiedData = e := by rw [Block.verifiedData, hq]; rfl
    rw [← hdata]
    rfl
  | readSignature => rw [show e = _ from h]; rfl
  | _ => rw [show e = [] from h]; rfl

theorem respLenOf_eq_length {body : List Byte} (h : bodyLen s.blk.SIG_LEN.toNat c = body.length) :
    s.respLenOf c = (responseOf s.cfg.WP c.kind body).length := by
  rw [responseOf_length, State.respLenOf, respLen, h]

section
variable {go : State → State} {e body surplus : List Byte}

/-- A wrong leading marker fails the command at offset 0 (spec R246, D25). -/
theorem respond_of_wrong_lead (hcur : s.blk.current = some c) {x : Byte} {r rest : List Byte}
    (hrb : s.blk.RB = x :: r ++ rest) (hlen : (x :: r).length = s.respLenOf c) (hen : s.cfg.WP.LEAD_EN.get c.kind = true)
    (hne : x ≠ s.cfg.WP.LEAD.get c.kind) :
    s.respond c go = s.afterFail .protocolDesync c 0 (s.cfg.WP.LEAD.get c.kind) x := by
  rw [respond_of_complete hrb hlen, validate_of_markerFault (markerFault_lead r hen hne), failWith_eq_afterFail hcur]

/-- A wrong trailing marker, the leading one being right, fails the command at the last offset (spec R246). -/
theorem respond_of_wrong_trail (hcur : s.blk.current = some c) {x : Byte} {r rest : List Byte}
    (hrb : s.blk.RB = r ++ x :: rest) (hlen : r.length + 1 = s.respLenOf c)
    (hlead : s.cfg.WP.LEAD_EN.get c.kind = true → s.blk.RB.head? = some (s.cfg.WP.LEAD.get c.kind))
    (hen : s.cfg.WP.TRAIL_EN.get c.kind = true) (hne : x ≠ s.cfg.WP.TRAIL.get c.kind) :
    s.respond c go =
      s.afterFail .protocolDesync c (BitVec.ofNat 32 (s.respLenOf c - 1)) (s.cfg.WP.TRAIL.get c.kind) x := by
  have hhead : s.blk.RB.head? = (r ++ [x]).head? := by rw [hrb]; cases r <;> rfl
  have hrb' : s.blk.RB = (r ++ [x]) ++ rest := by rw [hrb, List.append_assoc]; rfl
  rw [respond_of_complete hrb' (by rw [List.length_append, List.length_singleton, hlen]),
    validate_of_markerFault (markerFault_trail (fun h => hhead ▸ hlead h) hen hne), failWith_eq_afterFail hcur, ← hlen,
    Nat.add_sub_cancel]

/-- The first wrong byte of a body fails the command (spec R251, R252). -/
theorem respond_of_wrong_body (hcur : s.blk.current = some c) (hexp : s.expects c e) (hlen : body.length = e.length)
    (hrb : s.blk.RB = responseOf s.cfg.WP c.kind body ++ surplus) {i : Nat} {u v : Byte} (hu : e[i]? = some u)
    (hv : body[i]? = some v) (hne : v ≠ u) (hpre : body.take i = e.take i) :
    s.respond c go = (s.noted c body).afterFail (mismatchOf c) c (BitVec.ofNat 32 i) u v := by
  have hbody : bodyLen s.blk.SIG_LEN.toNat c = body.length := by rw [bodyLen_of_expects hexp, hlen]
  have hcmp := compareFault_of_expects hexp body
  rw [firstDiff_eq_some 0 hu hv hne hpre, Nat.zero_add] at hcmp
  have hcur' : (s.noted c body).blk.current = some c := by
    simpa [Block.current] using hcur
  rw [respond_of_complete hrb (respLenOf_eq_length hbody).symm, validate_of_mismatch hbody hcmp,
    failWith_eq_afterFail hcur']

/-- A good response completes its command, and what follows it stays in RB (spec R250). -/
theorem respond_of_good (hexp : s.expects c body) (hrb : s.blk.RB = responseOf s.cfg.WP c.kind body ++ surplus) :
    s.respond c go = ((s.noted c body).mapBlk (Block.consume (s.respLenOf c))).completeOk c go := by
  have hbody := bodyLen_of_expects hexp
  have hcmp := compareFault_of_expects hexp body
  rw [firstDiff_self, Option.map_none] at hcmp
  rw [respLenOf_eq_length hbody, respond_of_complete hrb (respLenOf_eq_length hbody).symm, validate_of_match hbody hcmp]

end

/-! ### Completion, and the row that issues a command (spec R217, R218, R221) -/

section
variable {go : State → State} {body surplus : List Byte}

theorem drop_respLenOf (hexp : s.expects c body) (hrb : s.blk.RB = responseOf s.cfg.WP c.kind body ++ surplus) :
    (s.noted c body).blk.RB.drop (s.respLenOf c) = surplus := by
  rw [noted_RB, hrb, respLenOf_eq_length (bodyLen_of_expects hexp), List.drop_left]

/-- A good response to the last command ends the session (spec R222). -/
theorem respond_of_good_last (hexp : s.expects c body) (hrb : s.blk.RB = responseOf s.cfg.WP c.kind body ++ surplus)
    (hlast : s.blk.SEQ_IDX + 1 = s.blk.SEQ_LEN) : s.respond c go = (s.noted c body).afterLast c surplus := by
  rw [respond_of_good hexp hrb, State.completeOk, if_pos, finish_eq_afterLast (drop_respLenOf hexp hrb)]
  simpa using hlast

/-- A good response to any other command moves the session on (spec R221, R223). -/
theorem respond_of_good_next (hexp : s.expects c body) (hrb : s.blk.RB = responseOf s.cfg.WP c.kind body ++ surplus)
    (hmore : s.blk.SEQ_IDX + 1 ≠ s.blk.SEQ_LEN) : s.respond c go = go ((s.noted c body).movedOn c surplus) := by
  rw [respond_of_good hexp hrb, State.completeOk, if_neg, moveOn_eq_movedOn (drop_respLenOf hexp hrb)]
  simpa using hmore

end

/-- The commands behind the one at SEQ_IDX (spec R46). -/
def State.behind (s : State) : List Cmd := s.blk.Q.drop (s.blk.SEQ_IDX.toNat + 1)

theorem remaining_of_current (h : s.blk.current = some c) : s.blk.remaining = c :: s.behind := by
  obtain ⟨hlt, hget⟩ := List.getElem?_eq_some_iff.mp h
  rw [Block.remaining, List.drop_eq_getElem_cons hlt, hget, State.behind]

theorem behind_noted (c : Cmd) (body : List Byte) (s : State) : (s.noted c body).behind = s.behind := by
  simp [State.behind]

theorem State.follows.noted {d : Cmd} (h : s.follows d) (c : Cmd) (body : List Byte) : (s.noted c body).follows d := by
  simpa [State.follows] using h

/-- The row of a command that is due issues it, and with it what follows it (spec R217, R218). -/
theorem exec_of_due (hcur : s.blk.current = some c) (hin : s.blk.INFLIGHT = none)
    (hst : s.blk.SES_ST.terminal = false) : exec c.toInstr s = .next (State.issueFrom (c :: s.behind) s) := by
  have hissue : s.issueDue c = s.issue := by
    rcases s.issueDue_cases c with ⟨-, -, -, h⟩ | ⟨hnot, -⟩
    · exact h
    · exact absurd ⟨hin, hst, hcur⟩ hnot
  rw [exec_cmd_toInstr, hissue, State.issue, remaining_of_current hcur]

theorem exec_of_not_due (h : s.blk.current ≠ some c ∨ s.blk.INFLIGHT ≠ none ∨ s.blk.SES_ST.terminal = true) :
    exec c.toInstr s = .next s := by
  rcases s.issueDue_cases c with ⟨hin, hst, hcur, -⟩ | ⟨-, heq⟩
  · simp [hin, hst, hcur] at h
  · rw [exec_cmd_toInstr, heq]

/-- The frame written and answered `ok`: RB is checked for the response (spec R217). -/
theorem issueFrom_of_ok (hopen : s.blk.LINK_CLOSED = false) (hans : s.nextAnswer = true) (rest : List Cmd) :
    State.issueFrom (c :: rest) s = (s.afterIssue c).respond c (State.issueFrom rest) := by
  rw [State.issueFrom_cons, if_neg (by simp [hopen]), if_pos hans, begin_emitTx_eq_afterIssue hans]

theorem Block.ctxNone_of_lt {b : Block} (h : b.RB.length < 2 ^ 32) : b.ctxNone = ⟨BitVec.ofNat 32 b.RB.length, 0, 0⟩ := by
  rw [Block.ctxNone, countWord_of_lt h]

/-- The frame refused by LINK (spec R217, R260). -/
theorem issueFrom_of_fail (hcur : s.blk.current = some c) (hopen : s.blk.LINK_CLOSED = false)
    (hans : s.nextAnswer = false) (hrb : s.blk.RB.length < 2 ^ 32) (rest : List Cmd) :
    State.issueFrom (c :: rest) s = s.afterLinkFail c := by
  have hctx : (s.blk.begin c).ctxNone = ⟨BitVec.ofNat 32 s.blk.RB.length, 0, 0⟩ := Block.ctxNone_of_lt hrb
  have hans' : (s.mapBlk (Block.begin c)).nextAnswer = false := hans
  have hcur' : ((s.mapBlk (Block.begin c)).emitTx (s.frameOf c)).blk.current = some c := hcur
  rw [State.issueFrom_cons, if_neg (by simp [hopen]), if_neg (by simp [hans]), hctx, failWith_eq_afterFail hcur',
    State.emitTx, hans']
  rfl

/-- No frame is written on a closed link (spec R217, R278). -/
theorem issueFrom_of_closed (hcur : s.blk.current = some c) (hclosed : s.blk.LINK_CLOSED = true)
    (hrb : s.blk.RB.length < 2 ^ 32) (rest : List Cmd) :
    State.issueFrom (c :: rest) s = State.afterFail .disconnected c (BitVec.ofNat 32 s.blk.RB.length) 0 0
      { s with blk := { s.blk with TMR := s.blk.SES_TIMEOUT } } := by
  have hctx : (s.blk.begin c).ctxNone = ⟨BitVec.ofNat 32 s.blk.RB.length, 0, 0⟩ := Block.ctxNone_of_lt hrb
  have hcur' : (s.mapBlk (Block.begin c)).blk.current = some c := hcur
  rw [State.issueFrom_cons, if_pos hclosed, hctx, failWith_eq_afterFail hcur']
  rfl

/-- Moving on to the next command, whose row then does what `issue` does (spec R217, R221). -/
theorem issueFrom_movedOn {d : Cmd} (h : s.follows d) (surplus : List Byte) :
    exec d.toInstr (s.movedOn c surplus) = .next (State.issueFrom s.behind (s.movedOn c surplus)) := by
  obtain ⟨-, hd, hlen⟩ := h
  obtain ⟨hlt, hget⟩ := List.getElem?_eq_some_iff.mp hd
  have hidx : (s.blk.SEQ_IDX + 1).toNat = s.blk.SEQ_IDX.toNat + 1 := by
    rw [BitVec.toNat_add]
    simp
    omega
  have hcur : (s.movedOn c surplus).blk.current = some d := by
    change s.blk.Q[(s.blk.SEQ_IDX + 1).toNat]? = some d
    rw [hidx, hd]
  have hbehind : s.behind = d :: (s.movedOn c surplus).behind := by
    change _ = d :: s.blk.Q.drop ((s.blk.SEQ_IDX + 1).toNat + 1)
    rw [State.behind, List.drop_eq_getElem_cons hlt, hget, hidx]
  rw [exec_of_due hcur rfl (phaseOf_terminal _), hbehind]

end

/-! ### The obligations -/

/-- Settles O3, one image after the other. -/
theorem decodeInvertsEncode : Obligations.DecodeInvertsEncode := fun _ h => decode_encode h

/-- Settles O1: the three checks in order, and the record a failed one leaves. -/
theorem commandDecoderFollowsTheOpcodeMap : Obligations.CommandDecoderFollowsTheOpcodeMap := by
  intro w op rsvd imm ops
  have fixed {x : Byte} {c : Command} (hmap : commandOfOp x 0 = some c) (hrsvd : rsvd = 0) (himm : imm = 0)
      (hop : op = x) : decodeCommand w = .ok c := by
    subst hop
    exact decodeCommand_of_fields (by rw [← hmap, ← himm]) hrsvd (.inr himm)
  refine ⟨fun hop => decodeCommand_of_unmapped (commandOfOp_eq_none hop), fun hop hbad => ?_, fun hrsvd hop => ?_,
    fun hrsvd himm => ?_, fun s => ⟨fun he => ?_, fun he => ?_⟩⟩
  · obtain ⟨c, hc⟩ := commandOfOp_isSome hop imm
    rw [decodeCommand_of_mapped hc, if_pos hbad]
  · exact decodeCommand_of_fields (by rw [show w.extractLsb' 24 8 = 0x11 from hop]; rfl) hrsvd (.inl hop)
  · exact ⟨fixed rfl hrsvd himm, fixed rfl hrsvd himm, fixed rfl hrsvd himm, fixed rfl hrsvd himm, fixed rfl hrsvd himm,
      fixed rfl hrsvd himm, fixed rfl hrsvd himm, fixed rfl hrsvd himm⟩
  · exact exec_csrWrite_of_decode_error he s
  · exact exec_csrWrite_of_decode_error he s

/-- Settles O2 by both directions of the word of a command. -/
theorem commandWordsAndDecoderAreInverse : Obligations.CommandWordsAndDecoderAreInverse :=
  ⟨decodeCommand_commandWord, fun _ _ => eq_commandWord_of_decode⟩

/-- Settles O8: what the decoder makes of an event, and what the instruction does. -/
theorem noEventIsRefused : Obligations.NoEventIsRefused := by
  refine ⟨fun s e rest hcycles he => ?_, fun s r hr => ?_, fun s r hr => by cases r⟩
  · obtain ⟨i, hdecode, hformat⟩ := decodeEvent_ok he
    obtain ⟨t, ht⟩ := (exec_next_or_refused i { s with cycles := [] :: rest }).resolve_right fun h => hformat h.1
    have hstep : step s = exec i { s with cycles := [] :: rest } :=
      stepRunsTheDecodedInstruction.1 s (.event e) ([] :: rest) i (by rw [hcycles, fetch_single]) hdecode
    obtain ⟨-, hcfg, hcyc, -⟩ := onlyMemoryWritesAndRstChangeMemory i _ t ht
    exact ⟨t, hstep.trans ht, hcyc, hcfg⟩
  · rcases step_cases s with ⟨t, h⟩ | ⟨k, h⟩ | ⟨e, h⟩ <;> rw [h] at hr <;> cases hr
    · exact .inl ⟨k, rfl⟩
    · exact .inr ⟨e, rfl⟩

/-- Settles O27: the blocks named along the chunks, and the Data record behind each ELA record. -/
theorem elaRecordsAreTheBlockChanges : Obligations.ElaRecordsAreTheBlockChanges := by
  intro L B mode d hL hm hend ps rs
  refine ⟨?_, fun n r hr hela => ?_⟩
  · change elaBlocks (injectEla 0 ps ++ [eofRecord]) = _
    rw [elaBlocks_append, elaBlocks_eofRecord, List.append_nil, elaBlocks_injectEla 0 (imageChunks_address_lt hL hm hend)]
    rfl
  · change (injectEla 0 ps ++ [eofRecord])[n]? = some r at hr
    have hn : n < (injectEla 0 ps).length := by
      by_contra hge
      rw [List.getElem?_append_right (by omega), List.getElem?_singleton] at hr
      split at hr <;> cases hr
      cases hela
    rw [List.getElem?_append_left hn] at hr
    obtain ⟨p, hp, hpr, hnext⟩ := injectEla_ela_next hr hela
    obtain ⟨hlt, -⟩ := List.getElem?_eq_some_iff.mp hnext
    exact ⟨p, hp, hpr, (List.getElem?_append_left hlt).trans hnext⟩

/-- Settles O31: the records before the last are ELA and Data records. -/
theorem eofRecordIsOnceAndLast : Obligations.EofRecordIsOnceAndLast := by
  intro L B mode d
  refine ⟨injectEla 0 (imageChunks L mode B d), rfl, fun r hr => type_of_mem_injectEla hr, ?_⟩
  rw [encodeImage, textOf, List.flatMap_append]
  rfl

/-- Settles O33: the digits of a byte, and the count byte of the payload. -/
theorem recordLengthsFollowTheCountByte : Obligations.RecordLengthsFollowTheCountByte := by
  refine ⟨fun r => ⟨recBytes_eq r, ?_, fun hlen => ⟨_, _, rfl, ?_, ?_⟩⟩, rfl, rfl, rfl, rfl, rfl, rfl⟩
  · exact congrArg (fun f => [0x3A#8] ++ (recBytes r).flatMap f ++ [0x0A#8]) (funext hex2_eq)
  · rw [recBytes_length, count_toNat hlen]
  · rw [textLine_length, count_toNat hlen]

/-- Settles O45: issue, and then the case of the response that waits. -/
theorem wireFrameRowsIssueTheDueCommand : Obligations.WireFrameRowsIssueTheDueCommand := by
  intro s c wp
  refine ⟨fun hcur hin hst => ⟨fun hopen hans => ?_, fun hopen hans hrb => ?_, fun hclosed hrb => ?_⟩, exec_of_not_due⟩
  · have hrow : exec c.toInstr s = .next ((s.afterIssue c).respond c (State.issueFrom s.behind)) := by
      rw [exec_of_due hcur hin hst, issueFrom_of_ok hopen hans]
    rw [hrow]
    have hcur' : (s.afterIssue c).blk.current = some c := hcur
    refine ⟨fun hshort => ?_, fun x r rest hrb hlen hen hne => ?_, fun r rest x hrb hlen hlead hen hne => ?_,
      fun e body surplus hexp hlen hrb => ⟨fun i u v hu hv hne hpre => ?_, ?_, ?_⟩⟩
    · exact congrArg Host.Outcome.next (respond_of_short hshort)
    · rw [respond_of_wrong_lead hcur' hrb hlen hen hne]
      rfl
    · rw [respond_of_wrong_trail hcur' hrb hlen hlead hen hne]
      rfl
    · rw [respond_of_wrong_body hcur' hexp hlen hrb hu hv hne hpre]
    · rintro rfl hlast
      rw [respond_of_good_last (s := s.afterIssue c) hexp hrb hlast]
    · rintro d rfl hnext
      have hnext' : (s.afterIssue c).follows d := hnext
      rw [respond_of_good_next (s := s.afterIssue c) hexp hrb hnext.1, issueFrom_movedOn (hnext'.noted c body),
        behind_noted]
      rfl
  · rw [exec_of_due hcur hin hst, issueFrom_of_fail hcur hopen hans hrb]
  · rw [exec_of_due hcur hin hst, issueFrom_of_closed hcur hclosed hrb]

/-- Settles O47: the operand bytes of each kind. -/
theorem framesHaveTheirBytesAndLength : Obligations.FramesHaveTheirBytesAndLength := by
  intro s c wp ops
  have hops : operands wp s.paramBlock c = ops := by
    cases c with
    | loadAddress a16 a32 => exact addrBytes_eq wp a16
    | programPage mk a32 d => exact congrArg (fun m => beBytes (BitVec.ofNat 16 d.length) ++ m :: d) (memCode_eq wp mk)
    | readPage mk a32 n => exact congrArg (fun m => beBytes n ++ [m]) (memCode_eq wp mk)
    | _ => rfl
  refine ⟨by rw [← hops]; rfl, ?_⟩
  rw [State.frameOf, frame_length]
  cases c with
  | setDevice => rw [operands, State.paramBlock_length]
  | loadAddress a16 a32 => rw [operands, addrBytes_length]
  | programPage mk a32 d => rw [operands_programPage_length]
  | _ => rfl

/-- Settles O5: each image is a literal, and the decoder evaluates on it. -/
theorem specWordsDecode : Obligations.SpecWordsDecode := ⟨rfl, rfl, rfl, rfl, rfl, rfl, rfl⟩

/-- Settles O35: the three records the rows name, and their lines. -/
theorem recordRowsEmitTheirLine : Obligations.RecordRowsEmitTheirLine :=
  fun _ _ _ _ => ⟨exec_emits rfl, exec_emits rfl, exec_emits rfl⟩

end Sys2Proof.Machine
end

section
/-! PROOFS. Family 40_host_access: the writes of locked targets, and NOP. -/

namespace Sys2Proof.Machine

/-! ### Writes of locked targets (spec R143, R144, R311) -/

theorem Block.encBusy_of_busy {b : Block} (h : b.ENC_ST = .busy) : b.encBusy = true := by
  simp [Block.encBusy, h]

theorem Block.sesActive_of_inFlight {b : Block} (h : b.INFLIGHT ≠ none) : b.sesActive = true := by
  rw [b.sesActive_eq, decide_eq_true h]

section
variable {s : State}

theorem exec_csrWrite_of_locked {off : Word} {r : Csr} (h : csrAt off 32 = some r) (hc : r.writeClass = .config)
    (hl : s.blk.csrLocked r = true) (w : Word) : exec (.csrWrite off 32 w) s = .next (s.cmdErr .writeLocked) := by
  change execCsrWrite off 32 w s = _
  simp only [execCsrWrite, h, hc, State.writeConfig, if_pos hl]

theorem exec_imgWrite_of_locked {i : Word} (h : i.toNat < s.cfg.IMG_CAP) (hl : s.blk.imgLocked = true) (x : Byte) :
    exec (.imgWrite i x) s = .next (s.cmdErr .writeLocked) := by
  change execImgWrite i x s = _
  rw [execImgWrite, if_neg (Nat.not_le.mpr h), if_pos hl]

theorem exec_paramWrite_of_locked {i : Half} (h : i.toNat < s.cfg.PARAM_CAP) (hl : s.blk.paramLocked = true) (x : Byte) :
    exec (.paramWrite i x) s = .next (s.cmdErr .writeLocked) := by
  change execParamWrite i x s = _
  rw [execParamWrite, if_neg (Nat.not_le.mpr h), if_pos hl]

end

/-! ### The obligations -/

/-- Settles O15: each target has one of three locks, and its write is refused under it. -/
theorem lockedTargetsRefuseWrites : Obligations.LockedTargetsRefuseWrites := by
  intro s w a h x refused
  refine ⟨fun hlock => ?_, fun hbusy => ?_, fun hin => ?_⟩
  · have himg : s.blk.imgLocked = true :=
      Bool.or_eq_true_iff.mpr (hlock.imp Block.encBusy_of_busy Block.sesActive_of_inFlight)
    exact ⟨exec_csrWrite_of_locked (r := .IMG_BASE) rfl rfl himg w,
      exec_csrWrite_of_locked (r := .IMG_LEN) rfl rfl himg w, fun ha => exec_imgWrite_of_locked ha himg x⟩
  · exact exec_csrWrite_of_locked (r := .ENC_CFG) rfl rfl (Block.encBusy_of_busy hbusy) w
  · have hses : s.blk.sesActive = true := Block.sesActive_of_inFlight hin
    exact ⟨exec_csrWrite_of_locked (r := .SES_CFG) rfl rfl hses w,
      exec_csrWrite_of_locked (r := .SES_TIMEOUT) rfl rfl hses w,
      exec_csrWrite_of_locked (r := .SIG_EXPECT) rfl rfl hses w,
      exec_csrWrite_of_locked (r := .PARAM_LEN) rfl rfl hses w, fun hh => exec_paramWrite_of_locked hh hses x⟩

/-- Settles O20: OP 00 names NOP, whose word has no operand. -/
theorem nopChangesNothing : Obligations.NopChangesNothing := by
  refine ⟨fun _ => rfl, decodeCommand_commandWord .nop, fun w hop hbad => ?_⟩
  have hmap : commandOfOp (w.extractLsb' 24 8) (w.extractLsb' 0 8) = some .nop := by rw [hop]; rfl
  have hne : w.extractLsb' 24 8 ≠ 0x11 := by rw [hop]; decide
  exact (decodeCommand_of_mapped hmap).trans (if_pos (hbad.imp_right fun himm => ⟨hne, himm⟩))

end Sys2Proof.Machine
end

section
/-! PROOFS. Family 41_checksum: the accumulator commands, runs of them, and the sum of a record's bytes. -/

namespace Sys2Proof.Machine

/-! ### The sum a fold computes (spec R162 to R166) -/

/-- The carries out of bit 7 are discarded: the fold is the sum of the bytes mod 256 (spec R162, R164). -/
theorem ckFold_toNat (a : Byte) (bs : List Byte) :
    (ckFold a bs).toNat = (a.toNat + (bs.map BitVec.toNat).sum) % 256 := by
  induction bs generalizing a with
  | nil => exact (Nat.mod_eq_of_lt a.isLt).symm
  | cons b bs ih =>
    rw [ckFold_cons, ih, BitVec.toNat_add, List.map_cons, List.sum_cons, Nat.mod_add_mod, Nat.add_assoc]

theorem ckFold_zero_toNat (bs : List Byte) : (ckFold 0 bs).toNat = (bs.map BitVec.toNat).sum % 256 := by
  simpa using ckFold_toNat 0 bs

theorem sum_mod_eq_zero_of_ckFold {bs : List Byte} (h : ckFold 0 bs = 0) : (bs.map BitVec.toNat).sum % 256 = 0 := by
  rw [← ckFold_zero_toNat, h]
  rfl

/-- The order of the bytes does not change the sum (spec R166 (a)). -/
theorem ckFold_perm {bs cs : List Byte} (h : bs.Perm cs) (a : Byte) : ckFold a bs = ckFold a cs := by
  have hsum : (bs.map BitVec.toNat).sum = (cs.map BitVec.toNat).sum := (h.map _).sum_eq
  exact BitVec.eq_of_toNat_eq (by rw [ckFold_toNat, ckFold_toNat, hsum])

theorem cksum8_perm {bs cs : List Byte} (h : bs.Perm cs) : cksum8 bs = cksum8 cs :=
  congrArg cksumOf (ckFold_perm h 0)

/-- The checksum of every record of an encoding is rule R105's, so its bytes sum to 0 (spec R165). -/
theorem ckFold_recBytes_of_mem_encodeImage {L : Nat} {mode : Option Nat} {B : Nat} {d : List Byte} {r : HexRecord}
    (h : r ∈ encodeImage L mode B d) : ckFold 0 (recBytes r) = 0 := by
  rcases mem_encodeImage h with ⟨p, -, rfl | rfl⟩ | rfl <;> exact recBytes_mkRecord_sum ..

/-! ### The commands and their runs (spec R161, R162, R164) -/

/-- The state with another accumulator, and nothing else changed. -/
def State.withAcc (a : Byte) (s : State) : State := { s with blk := { s.blk with ACC := a } }

@[simp] theorem State.withAcc_ACC (a : Byte) (s : State) : (s.withAcc a).blk.ACC = a := rfl

@[simp] theorem State.withAcc_withAcc (a b : Byte) (s : State) : (s.withAcc a).withAcc b = s.withAcc b := rfl

theorem exec_ckClr (s : State) : exec .ckClr s = .next (s.withAcc 0) := rfl

theorem exec_ckAdd (b : Byte) (s : State) : exec (.ckAdd b) s = .next (s.withAcc (s.blk.ACC + b)) := rfl

theorem runInstrs_cons_of_next {i : Instr} {s t : State} (h : exec i s = .next t) (is : List Instr) :
    runInstrs (i :: is) s = runInstrs is t := by
  simp only [runInstrs, h]

theorem runInstrs_ckAdd (bs : List Byte) (s : State) :
    runInstrs (bs.map .ckAdd) s = .next (s.withAcc (ckFold s.blk.ACC bs)) := by
  induction bs generalizing s with
  | nil => rfl
  | cons b bs ih =>
    rw [List.map_cons, runInstrs_cons_of_next (exec_ckAdd b s), ih, State.withAcc_withAcc, State.withAcc_ACC, ckFold_cons]

theorem runInstrs_ckClr_ckAdd (bs : List Byte) (s : State) :
    runInstrs (.ckClr :: bs.map .ckAdd) s = .next (s.withAcc (ckFold 0 bs)) := by
  rw [runInstrs_cons_of_next (exec_ckClr s), runInstrs_ckAdd, State.withAcc_withAcc, State.withAcc_ACC]

theorem Block.hckZero_eq (b : Block) : b.hckZero = decide (b.ACC.toNat = 0) := by
  rw [Block.hckZero, beq_eq_decide]
  exact decide_eq_decide.mpr BitVec.toNat_inj.symm

/-- A word whose OP names a command, with a field that is not zero as it must be (spec R98). -/
theorem decodeCommand_of_reserved {w : Word} {c : Command}
    (hmap : commandOfOp (w.extractLsb' 24 8) (w.extractLsb' 0 8) = some c)
    (hbad : w.extractLsb' 8 16 ≠ 0 ∨ (w.extractLsb' 24 8 ≠ 0x11 ∧ w.extractLsb' 0 8 ≠ 0)) :
    decodeCommand w = .error .reservedBits := by
  rw [decodeCommand_of_mapped hmap, if_pos hbad]

/-! ### The obligations -/

/-- Settles O23: the run is the fold from 0, which is a sum mod 256. -/
theorem hostCommandsFoldToCksum8 : Obligations.HostCommandsFoldToCksum8 :=
  fun bs s => ⟨⟨s.withAcc (ckFold 0 bs), runInstrs_ckClr_ckAdd bs s, rfl, ckFold_zero_toNat bs, cksumOf_toNat _⟩,
    fun _ h => cksum8_perm h.symm⟩

/-- Settles O24: the fold over bytes and their checksum is 0, and every record ends with its checksum. -/
theorem checksumVerificationLaw : Obligations.ChecksumVerificationLaw := by
  refine ⟨fun bs => ?_, fun L mode B d r hr => ?_⟩
  · have hsum := sum_mod_eq_zero_of_ckFold (ckFold_cksum8 bs)
    rwa [List.map_append, List.sum_append, List.map_singleton, List.sum_singleton] at hsum
  · have hzero : ckFold 0 (recBytes r) = 0 := ckFold_recBytes_of_mem_encodeImage hr
    refine ⟨sum_mod_eq_zero_of_ckFold hzero, fun s => ⟨s.withAcc 0, ?_, rfl, rfl⟩⟩
    rw [runInstrs_ckClr_ckAdd, hzero]

/-- Settles O21: OP 10 names CK_CLR, whose word has no operand. -/
theorem ckClrClearsTheAccumulator : Obligations.CkClrClearsTheAccumulator := by
  refine ⟨exec_ckClr, fun _ => rfl, decodeCommand_commandWord .ckClr, fun w hop hbad => ?_⟩
  have hmap : commandOfOp (w.extractLsb' 24 8) (w.extractLsb' 0 8) = some .ckClr := by rw [hop]; rfl
  have hne : w.extractLsb' 24 8 ≠ 0x11 := by rw [hop]; decide
  exact decodeCommand_of_reserved hmap (hbad.imp_right fun himm => ⟨hne, himm⟩)

/-- Settles O22: the sum of two bytes without its carry, and OP 11, whose operand may be any byte. -/
theorem ckAddAddsModulo256 : Obligations.CkAddAddsModulo256 := by
  refine ⟨fun b s => ⟨_, exec_ckAdd b s, ?_, ?_⟩, decodeCommand_ckAdd_word, fun w hop hrsvd => ?_⟩
  · have hsum : s.blk.ACC + b = BitVec.ofNat 8 ((s.blk.ACC.toNat + b.toNat) % 256) := by bv_omega
    rw [hsum]
    rfl
  · rw [Block.hckZero_eq, State.withAcc_ACC, BitVec.toNat_add]
  · have hmap : commandOfOp (w.extractLsb' 24 8) (w.extractLsb' 0 8) = some (.ckAdd (w.extractLsb' 0 8)) := by
      rw [hop]; rfl
    exact decodeCommand_of_reserved hmap (.inl hrsvd)

end Sys2Proof.Machine
end

section
/-! PROOFS. Family 42_framer: the chunks of an image, the checks of ENC_START, and its records as rows in turn. -/

namespace Sys2Proof.Machine

/-! ### The records inside a segment (spec R185) -/

/-- Each record inside a segment starts at a nonzero byte, and its payload is the one R185 gives there. -/
theorem segmentChunks_piece {L fuel A : Nat} {d : List Byte} {p : Piece} (hp : p ∈ segmentChunks L fuel A d) :
    ∃ k b t, d.drop k = b :: t ∧ b ≠ 0 ∧ p.1 = A + k ∧ p.2 = recordPayload L (b :: t) := by
  induction fuel generalizing A d with
  | zero => simp [segmentChunks] at hp
  | succ fuel ih =>
    cases d with
    | nil => simp [segmentChunks] at hp
    | cons b t =>
      rw [segmentChunks] at hp
      split at hp
      · obtain ⟨k, c, u, hdrop, hc, haddr, hpay⟩ := ih hp
        exact ⟨k + 1, c, u, hdrop, hc, by omega, hpay⟩
      · rename_i hb
        rcases List.mem_cons.mp hp with rfl | hp
        · exact ⟨0, b, t, rfl, hb, rfl, rfl⟩
        · obtain ⟨k, c, u, hdrop, hc, haddr, hpay⟩ := ih hp
          rw [List.drop_drop] at hdrop
          exact ⟨_, c, u, hdrop, hc, by omega, hpay⟩

theorem omitSegment_of_allZero {d : List Byte} (h : allZero d = true) (L A : Nat) :
    omitSegment L (A, d) = [(A, [0x00#8])] := if_pos h

/-- The records of a segment that is not all zero are those of R185. -/
theorem omitSegment_piece {L A : Nat} {d : List Byte} (h : ¬ allZero d = true) {p : Piece}
    (hp : p ∈ omitSegment L (A, d)) :
    ∃ k b t, d.drop k = b :: t ∧ b ≠ 0 ∧ p.1 = A + k ∧ p.2 = recordPayload L (b :: t) := by
  rw [omitSegment, if_neg h] at hp
  exact segmentChunks_piece hp

/-- A segment without a record would be all zero: what lies between the records is. -/
theorem omitSegment_ne_nil {L A : Nat} (hL : 1 ≤ L) {d : List Byte} (h : ¬ allZero d = true) :
    omitSegment L (A, d) ≠ [] := by
  intro hnil
  have hd : d ≠ [] := fun hd => h (by rw [hd]; rfl)
  have hsparse := omitSegment_sparse hL (A, d) hd
  rw [hnil] at hsparse
  exact h hsparse

theorem omitSegment_length_le {L : Nat} (hL : 1 ≤ L) {q p : Piece} (hp : p ∈ omitSegment L q) : p.2.length ≤ L := by
  rw [omitSegment] at hp
  split at hp
  · cases List.mem_singleton.mp hp
    exact hL
  · obtain ⟨k, b, t, -, hb, -, hpay⟩ := segmentChunks_piece hp
    obtain ⟨-, hlen, -⟩ := recordPayload_spec hL hb t
    rwa [hpay]

/-- A run of ZRUN zeros anywhere in a list is a zero run at the index where it begins. -/
theorem zeroRunAt_of_eq_append {w x y : List Byte} (h : w = x ++ List.replicate Config.ZRUN 0 ++ y) :
    ZeroRunAt w x.length := by
  subst h
  refine ⟨by simp, ?_⟩
  rw [List.append_assoc, List.drop_left, List.take_left' (List.length_replicate ..), allZero_iff]
  exact fun b hb => List.eq_of_mem_replicate hb

/-- The first ZRUN bytes of what a record leaves of its window are zero, as far as the window has them. -/
theorem eq_zero_of_left {w : List Byte} (h : (∀ b ∈ w, b = 0) ∨ List.replicate Config.ZRUN 0 <+: w) {i : Nat}
    {b : Byte} (hi : i < Config.ZRUN) (hb : w[i]? = some b) : b = 0 := by
  rcases h with hzero | ⟨t, rfl⟩
  · exact hzero b (List.mem_of_getElem? hb)
  · rw [List.getElem?_append_left (by simpa using hi), List.getElem?_replicate_of_lt hi] at hb
    exact (Option.some.inj hb).symm

/-- Fewer than ZRUN zeros before another nonzero byte do not end a record (spec R185 c). -/
theorem short_zero_run_inside {r w u v : List Byte} {x y : Byte} {m : Nat}
    (h : (∀ b ∈ w, b = 0) ∨ List.replicate Config.ZRUN 0 <+: w)
    (hw : r ++ w = u ++ x :: (List.replicate m 0 ++ y :: v)) (hy : y ≠ 0) (hm : m < Config.ZRUN)
    (hu : u.length < r.length) : u.length + m + 1 < r.length := by
  by_contra hle
  have hat : (u ++ x :: (List.replicate m 0 ++ y :: v))[u.length + m + 1]? = some y := by
    rw [List.append_cons, ← List.append_assoc, List.getElem?_append_right (by simp; omega)]
    simp
  rw [← hw, List.getElem?_append_right (by omega)] at hat
  exact hy (eq_zero_of_left h (by omega) hat)

/-! ### Pieces and the multiples they lie between (spec R181, R182) -/

/-- What ends at or below the next multiple of `m` has its first and its last byte between the same multiples. -/
theorem last_div_eq_of_le_room {m : Nat} (hm : 0 < m) {a n : Nat} (hn : 0 < n) (h : n ≤ roomBelowMultiple m a) :
    (a + n - 1) / m = a / m := by
  have hend := add_roomBelowMultiple hm a
  have hle : a / m ≤ (a + n - 1) / m := Nat.div_le_div_right (by omega)
  have hlt : (a + n - 1) / m < a / m + 1 := (Nat.div_lt_iff_lt_mul hm).mpr (by omega)
  omega

/-- Part of a range with its first and last byte between the same multiples is such a range too. -/
theorem last_div_eq_of_within {m a n b l : Nat} (h : (a + n - 1) / m = a / m) (hab : a ≤ b) (hl : 0 < l)
    (hend : b + l ≤ a + n) : (b + l - 1) / m = b / m := by
  have h1 : a / m ≤ b / m := Nat.div_le_div_right hab
  have h2 : b / m ≤ (b + l - 1) / m := Nat.div_le_div_right (by omega)
  have h3 : (b + l - 1) / m ≤ (a + n - 1) / m := Nat.div_le_div_right (by omega)
  omega

theorem div_eq_div_of_dvd {m n a b : Nat} (hdvd : m ∣ n) (h : a / m = b / m) : a / n = b / n := by
  obtain ⟨k, rfl⟩ := hdvd
  rw [← Nat.div_div_eq_div_mul, ← Nat.div_div_eq_div_mul, h]

/-- A page segment is the image bytes at its address, up to the next multiple of the page size (spec R182). -/
theorem pageSegments_piece {P B : Nat} (hP : 0 < P) {d : List Byte} {q : Piece} (hq : q ∈ pageSegments P B d) :
    q.2 ≠ [] ∧ ∃ k, q.1 = B + k ∧ q.2 = (d.drop k).take (P - q.1 % P) := by
  obtain ⟨hne, -⟩ := (pageSegments_tiles hP B d).sparse.piece q hq
  obtain ⟨k, haddr, -, hbytes⟩ := cut_piece _ _ _ _ q hq
  exact ⟨hne, k, haddr, hbytes⟩

/-- A chunk of omitting mode has its first and last byte in one page (spec R182). -/
theorem omitChunks_last_div {L P B : Nat} (hL : 1 ≤ L) (hP : 0 < P) {d : List Byte} {p : Piece}
    (hp : p ∈ omitChunks L P B d) : (p.1 + p.2.length - 1) / P = p.1 / P := by
  obtain ⟨q, hq, hpq⟩ := List.mem_flatMap.mp hp
  obtain ⟨hne, -⟩ := pageSegments_piece hP hq
  obtain ⟨hpne, k, haddr, hend, -⟩ := (omitSegment_sparse hL q hne).piece p hpq
  have hpage : (q.1 + q.2.length - 1) / P = q.1 / P :=
    last_div_eq_of_le_room hP (List.length_pos_iff.mpr hne) (cut_length_le _ _ _ _ q hq)
  exact last_div_eq_of_within hpage (by omega) (List.length_pos_iff.mpr hpne) (by omega)

/-- A plain chunk is as long as L, the end of the data and the end of its block allow (spec R181). -/
theorem plainChunks_length {L B : Nat} {d : List Byte} {p : Piece} (hp : p ∈ plainChunks L B d) :
    p.2.length = min L (min (B + d.length - p.1) (0x10000 - p.1 % 0x10000)) := by
  obtain ⟨k, haddr, -, hbytes⟩ := cut_piece _ _ _ _ p hp
  rw [hbytes, List.length_take, List.length_drop, roomBelowMultiple]
  omega

theorem imageChunks_length_le {L : Nat} (hL : 1 ≤ L) {mode : Option Nat} {B : Nat} {d : List Byte} {p : Piece}
    (hp : p ∈ imageChunks L mode B d) : p.2.length ≤ L := by
  cases mode with
  | none => exact (cut_length_le _ _ _ _ p hp).trans (Nat.min_le_left ..)
  | some P =>
    obtain ⟨q, -, hpq⟩ := List.mem_flatMap.mp hp
    exact omitSegment_length_le hL hpq

theorem imageChunks_nil (L : Nat) (mode : Option Nat) (B : Nat) : imageChunks L mode B [] = [] := by
  cases mode <;> rfl

theorem encodeImage_nil (L : Nat) (mode : Option Nat) (B : Nat) : encodeImage L mode B [] = [eofRecord] := by
  rw [encodeImage, imageChunks_nil]
  rfl

/-! ### ENC_START, outcome by outcome (spec R177, R178, R186) -/

section
variable {s : State}

theorem exec_encStart_of_busy (h : s.blk.ENC_ST = .busy) : exec .encStart s = .next (s.cmdErr .wrongState) :=
  congrArg Host.Outcome.next (if_pos (Block.encBusy_of_busy h))

theorem exec_encStart_of_check {e : EncErrCode} (hst : s.blk.ENC_ST ≠ .busy) (h : encCheck s.cfg s.blk = some e) :
    exec .encStart s = .next (s.mapBlk (Block.encErr e)) := by
  rcases s.encStart_cases with ⟨hbusy, -⟩ | ⟨-, e', he', heq⟩ | ⟨-, hnone, -⟩
  · exact absurd hbusy hst
  · cases h.symm.trans he'
    exact congrArg Host.Outcome.next heq
  · cases h.symm.trans hnone

theorem exec_encStart_of_accepted (hst : s.blk.ENC_ST ≠ .busy) (h : encCheck s.cfg s.blk = none) :
    exec .encStart s = .next (s.mapBlk (Block.loadText s.encRecords)) := by
  rcases s.encStart_cases with ⟨hbusy, -⟩ | ⟨-, e, he, -⟩ | ⟨-, -, heq⟩
  · exact absurd hbusy hst
  · cases h.symm.trans he
  · exact congrArg Host.Outcome.next heq

end

/-- The checks pass when none of the five conditions of R178 holds. -/
theorem encCheck_eq_none {cfg : Config} {b : Block} (hline : b.LINE_LEN ≠ 0)
    (homit : ¬ (b.OMIT_NULL = true ∧ b.PAGE_EN = false)) (hpage : ¬ (b.PAGE_EN = true ∧ 16 < b.PAGE_LOG2.toNat))
    (hlen : b.IMG_LEN.toNat ≤ cfg.IMG_CAP) (hend : b.IMG_BASE.toNat + b.IMG_LEN.toNat ≤ 2 ^ 32) :
    encCheck cfg b = none := by
  rw [encCheck, if_neg hline, if_neg homit, if_neg hpage, if_neg (Nat.not_lt.mpr hlen),
    if_neg (c := 2 ^ 32 < b.imgEnd) (Nat.not_lt.mpr hend)]

/-! ### Records as rows in turn (spec R177, R188) -/

/-- The block after the records `rs` are emitted: their text joins OUTQ, and ENC_NREC counts them. -/
def Block.emitRecords (rs : List HexRecord) (b : Block) : Block :=
  { b with OUTQ := b.OUTQ ++ textOf rs, ENC_NREC := countWord (b.ENC_NREC.toNat + rs.length), ENC_ST := .busy }

theorem Block.emitRecords_singleton (r : HexRecord) : Block.emitRecords [r] = Block.emitRecord r := by
  funext b
  rw [Block.emitRecords, textOf, List.flatMap_singleton]
  rfl

theorem Block.emitRecord_count {b : Block} {r : HexRecord} (h : b.ENC_NREC.toNat + 1 < 2 ^ 32) :
    (b.emitRecord r).ENC_NREC.toNat = b.ENC_NREC.toNat + 1 := by
  rw [Block.emitRecord_ENC_NREC, countWord_of_lt h, BitVec.toNat_ofNat, Nat.mod_eq_of_lt h]

/-- One record and then others is all of them, as long as a 32-bit count holds their number. -/
theorem Block.emitRecords_emitRecord {b : Block} {r : HexRecord} {rs : List HexRecord}
    (h : b.ENC_NREC.toNat + (rs.length + 1) < 2 ^ 32) :
    (b.emitRecord r).emitRecords rs = b.emitRecords (r :: rs) := by
  rw [Block.emitRecords, Block.emitRecord_count (by omega), Block.emitRecord_OUTQ, List.append_assoc, Nat.add_assoc,
    Nat.add_comm 1]
  rfl

/-- The text loaded is that of the records emitted from an empty output. -/
theorem Block.loadText_eq_emitRecords (rs : List HexRecord) (b : Block) :
    b.loadText rs = { b with OUTQ := [], ENC_NREC := 0, ENC_ERRC := .noError }.emitRecords rs :=
  congrArg (fun n => { b.loadText rs with ENC_NREC := countWord n }) (Nat.zero_add rs.length).symm

/-- The row of a record of an encoding emits that record (spec R108 to R110, R177). -/
theorem exec_toInstr_of_mem_encodeImage {L : Nat} {mode : Option Nat} {B : Nat} {d : List Byte} {r : HexRecord}
    (h : r ∈ encodeImage L mode B d) (s : State) : exec r.toInstr s = .next (s.mapBlk (Block.emitRecord r)) := by
  rcases mem_encodeImage h with ⟨p, -, rfl | rfl⟩ | rfl
  · change exec (.recEla (blockOfPayload (beBytes _))) s = _
    rw [blockOfPayload_beBytes]
    rfl
  · rfl
  · rfl

/-- The rows of records that each emit their record emit all of them, in turn. -/
theorem runInstrs_toInstr {rs : List HexRecord} (hne : rs ≠ [])
    (hrow : ∀ r ∈ rs, ∀ s, exec r.toInstr s = .next (s.mapBlk (Block.emitRecord r))) (s : State)
    (hlt : s.blk.ENC_NREC.toNat + rs.length < 2 ^ 32) :
    runInstrs (rs.map HexRecord.toInstr) s = .next (s.mapBlk (Block.emitRecords rs)) := by
  induction rs generalizing s with
  | nil => exact absurd rfl hne
  | cons r rs ih =>
    obtain ⟨hr, hrs⟩ := List.forall_mem_cons.mp hrow
    rw [List.map_cons, runInstrs_cons_of_next (hr s)]
    cases rs with
    | nil => rw [Block.emitRecords_singleton]; rfl
    | cons q qs =>
      rw [List.length_cons] at hlt
      rw [ih (List.cons_ne_nil q qs) hrs _ (by rw [State.mapBlk_blk, Block.emitRecord_count (by omega)]; omega)]
      exact congrArg (fun b => Host.Outcome.next { s with blk := b }) (Block.emitRecords_emitRecord hlt)

/-! ### The obligations -/

/-- Settles O25: the first check that fails decides, and ENC_START answers what the checks answer. -/
theorem encStartChecksThenEncodes : Obligations.EncStartChecksThenEncodes := by
  intro s b rejected records
  refine ⟨exec_encStart_of_busy, fun hst => ?_⟩
  have reject {e : EncErrCode} (h : encCheck s.cfg b = some e) : rejected e := exec_encStart_of_check hst h
  refine ⟨fun hline => reject (if_pos hline), fun hline => ⟨fun homit => reject ?_, fun homit =>
    ⟨fun hpage => reject ?_, fun hpage => ⟨fun hlen => reject ?_, fun hlen => ⟨fun hend => reject ?_, fun hend => ?_⟩⟩⟩⟩⟩
  · rw [encCheck, if_neg hline, if_pos homit]
  · rw [encCheck, if_neg hline, if_neg homit, if_pos hpage]
  · rw [encCheck, if_neg hline, if_neg homit, if_neg hpage, if_pos hlen]
  · rw [encCheck, if_neg hline, if_neg homit, if_neg hpage, if_neg (Nat.not_lt.mpr hlen),
      if_pos (c := 2 ^ 32 < b.imgEnd) hend]
  · exact ⟨countWord records.length, countWord_of_lt,
      exec_encStart_of_accepted hst (encCheck_eq_none hline homit hpage hlen hend)⟩

/-- Settles O26: the chunks stand in the image with only zeros between them, and plain chunks tile it. -/
theorem encoderReconstructsTheImage : Obligations.EncoderReconstructsTheImage := by
  intro L B mode d hL hm ps
  have hsparse : Sparse B d ps := imageChunks_sparse hL hm B d
  refine ⟨hsparse.pairwise, fun p hp => ?_, hsparse.covers, ?_⟩
  · obtain ⟨hne, hpiece⟩ := hsparse.piece p hp
    exact ⟨List.length_pos_iff.mpr hne, imageChunks_length_le hL hp, hpiece⟩
  · rintro rfl
    exact ⟨(plainChunks_tiles hL B d).flatten, fun p hp => plainChunks_length hp⟩

/-- Settles O29: a chunk ends at or below the end of its block or page, and a page of at most 2^16 bytes lies in one block. -/
theorem chunksStayInOneBlock : Obligations.ChunksStayInOneBlock := by
  intro L B d hL
  refine ⟨fun p hp => ?_, fun k hk p hp => ?_⟩
  · obtain ⟨hne, -⟩ := (plainChunks_tiles hL B d).sparse.piece p hp
    exact last_div_eq_of_le_room (by decide) (List.length_pos_iff.mpr hne)
      ((cut_length_le _ _ _ _ p hp).trans (Nat.min_le_right ..))
  · have hpage := omitChunks_last_div hL (Nat.two_pow_pos k) hp
    exact ⟨hpage, div_eq_div_of_dvd (Nat.pow_dvd_pow 2 hk) hpage⟩

/-- Settles O30: the cut at the pages; then each record of a segment is the payload of R185 at a nonzero byte. -/
theorem omittedRecordsAreTrimmed : Obligations.OmittedRecordsAreTrimmed := by
  refine ⟨fun L P B d hP => ?_, fun L A d hL hd => ⟨fun hzero => ?_, fun ⟨b, hb, hb0⟩ => ?_⟩⟩
  · have htiles := pageSegments_tiles hP B d
    exact ⟨rfl, htiles.flatten, htiles.sparse.pairwise, fun q hq => pageSegments_piece hP hq⟩
  · exact omitSegment_of_allZero ((allZero_iff d).mpr hzero) L A
  · have hnonzero : ¬ allZero d = true := fun h => hb0 ((allZero_iff d).mp h b hb)
    refine ⟨omitSegment_ne_nil hL hnonzero, fun p hp => ?_⟩
    obtain ⟨k, c, t, hdrop, hc, haddr, hpay⟩ := omitSegment_piece hnonzero hp
    obtain ⟨⟨u, hhead⟩, hlen, -, hlast, hrun⟩ := recordPayload_spec hL hc t
    obtain ⟨w, hwindow, hleft⟩ := recordPayload_window L (c :: t)
    rw [← hpay] at hhead hlen hlast hrun hwindow
    have hne : p.2 ≠ [] := by rw [hhead]; exact List.cons_ne_nil c u
    refine ⟨?_, ?_, List.length_pos_iff.mpr hne, hlen, fun x y h => hrun _ (zeroRunAt_of_eq_append h), k, haddr, ?_⟩
    · rw [hhead]
      exact fun h => hc (Option.some.inj h)
    · rw [List.getLast?_eq_some_getLast hne]
      exact fun h => hlast hne (Option.some.inj h)
    · rw [allZero_iff] at hleft
      rw [hdrop, hwindow]
      intro window
      have hrest : window.drop p.2.length = w := List.drop_left
      exact ⟨List.prefix_append .., by rwa [hrest], fun u v x y m heq _ hy hm hu =>
        short_zero_run_inside hleft heq hy hm hu⟩

/-- Settles O32: an encoding holds ELA, Data and EOF records. -/
theorem neverEmittedRecordTypesAreRefused : Obligations.NeverEmittedRecordTypesAreRefused := by
  refine ⟨fun L B mode d r hr => ?_, fun a d s => ⟨rfl, rfl, rfl⟩⟩
  rcases mem_encodeImage hr with ⟨p, -, rfl | rfl⟩ | rfl <;> exact ⟨nofun, nofun, nofun⟩

/-- Settles O34: with no byte in the image both range checks pass, and there is no chunk. -/
theorem emptyImageGivesOnlyEof : Obligations.EmptyImageGivesOnlyEof := by
  intro s hzero hst hline homit hpage
  have hlen : s.blk.IMG_LEN.toNat = 0 := by rw [hzero]; rfl
  have hcheck : encCheck s.cfg s.blk = none := by
    refine encCheck_eq_none hline homit hpage (by omega) ?_
    have := s.blk.IMG_BASE.isLt
    omega
  have hrecords : s.encRecords = [eofRecord] := by
    rw [State.encRecords, State.imageBytes, hlen]
    exact encodeImage_nil ..
  refine ⟨encodeImage_nil .., ?_⟩
  rw [exec_encStart_of_accepted hst hcheck, hrecords]
  rfl

/-- Settles O36: the text loaded is what the rows of the records emit, one after another. -/
theorem encStartIsItsRecordsInTurn : Obligations.EncStartIsItsRecordsInTurn := by
  intro s hst hcheck hlt
  have hne : s.encRecords ≠ [] := List.concat_ne_nil _ _
  rw [exec_encStart_of_accepted hst hcheck,
    runInstrs_toInstr hne (fun r hr t => exec_toInstr_of_mem_encodeImage hr t) _ (by simpa using hlt)]
  exact congrArg (fun b => Host.Outcome.next { s with blk := b }) (Block.loadText_eq_emitRecords ..)

end Sys2Proof.Machine
end

section
/-! PROOFS. Family 43_sequencer: the session pages and the flash sequence, the starts and ends of a session, the responses
that complete a command or fail it, and what a session that has ended keeps. -/

namespace Sys2Proof.Machine

/-! ### The session pages (spec R208, R209) -/

theorem State.imageBytes_length (s : State) : s.imageBytes.length = s.blk.IMG_LEN.toNat := by
  simp [State.imageBytes]

/-- A page with another behind it ends at a multiple of the page size, where the next begins (spec R209). -/
theorem pageSegments_next {m A n : Nat} {d : List Byte} {p q : Piece} (hm : 0 < m)
    (hp : (pageSegments m A d)[n]? = some p) (hq : (pageSegments m A d)[n + 1]? = some q) :
    q.1 = p.1 + p.2.length ∧ q.1 % m = 0 := by
  have hnext := (pageSegments_tiles hm A d).next hp hq
  obtain ⟨k, hpaddr, -, hbytes⟩ := cut_piece _ _ _ _ p (List.mem_of_getElem? hp)
  obtain ⟨l, hqaddr, hl, -⟩ := cut_piece _ _ _ _ q (List.mem_of_getElem? hq)
  have hlen : p.2.length = min (roomBelowMultiple m p.1) (d.length - k) := by
    rw [hbytes, List.length_take, List.length_drop]
  have hend : q.1 = (p.1 / m + 1) * m := by
    rw [← add_roomBelowMultiple hm]
    omega
  exact ⟨hnext, by rw [hend, Nat.mul_mod_left]⟩

/-- A page has 1 to `m` bytes, all between the same two multiples of `m` (spec R209). -/
theorem pageSegments_piece_within {m A : Nat} {d : List Byte} {p : Piece} (hm : 0 < m) (hp : p ∈ pageSegments m A d) :
    1 ≤ p.2.length ∧ p.2.length ≤ m ∧ (p.1 + p.2.length - 1) / m = p.1 / m := by
  obtain ⟨hne, -⟩ := pageSegments_piece hm hp
  have hpos : 0 < p.2.length := List.length_pos_iff.mpr hne
  have hroom : p.2.length ≤ roomBelowMultiple m p.1 := cut_length_le _ _ _ _ p hp
  exact ⟨hpos, hroom.trans (Nat.sub_le ..), last_div_eq_of_le_room hm hpos hroom⟩

/-- A page that runs from one multiple of the page size to another is a whole page. -/
theorem eq_of_between_multiples {m a n : Nat} (hn : 1 ≤ n) (hle : n ≤ m) (ha : a % m = 0) (hend : (a + n) % m = 0) :
    n = m := by
  have hdvd : m ∣ n := (Nat.dvd_add_right (Nat.dvd_of_mod_eq_zero ha)).mp (Nat.dvd_of_mod_eq_zero hend)
  exact Nat.le_antisymm hle (Nat.le_of_dvd hn hdvd)

/-- The number of pages of an image that is not empty: one for each multiple its bytes reach (spec R211). -/
theorem pageSegments_length {m : Nat} (hm : 0 < m) (A : Nat) {d : List Byte} (hd : d ≠ []) :
    (pageSegments m A d).length = (A + d.length - 1) / m - A / m + 1 := by
  induction hn : d.length using Nat.strong_induction_on generalizing A d with
  | _ n ih =>
    subst hn
    have hpos : 0 < d.length := List.length_pos_iff.mpr hd
    rw [pageSegments_of_ne_nil hm A hd, List.length_cons]
    by_cases hle : d.length ≤ roomBelowMultiple m A
    · rw [List.drop_eq_nil_of_le hle, pageSegments_nil, last_div_eq_of_le_room hm hpos hle, Nat.sub_self]
      rfl
    · have hroom := roomBelowMultiple_pos hm A
      have hrest : (d.drop (roomBelowMultiple m A)).length = d.length - roomBelowMultiple m A := List.length_drop
      rw [ih _ (by omega) _ (List.length_pos_iff.mp (by omega)) rfl, hrest,
        show A + roomBelowMultiple m A + (d.length - roomBelowMultiple m A) = A + d.length by omega,
        add_roomBelowMultiple hm, Nat.mul_div_cancel _ hm]
      have hreach : A / m + 1 ≤ (A + d.length - 1) / m := by
        rw [Nat.le_div_iff_mul_le hm, ← add_roomBelowMultiple hm]
        omega
      omega

/-! ### The flash sequence (spec R210 to R214) -/

/-- The commands of one page whose address is not in the cursor (spec R212). -/
def pageCmdsOf (cfg : Config) (mk : MemKind) (verify : Bool) (p : Piece) : List Cmd :=
  [.loadAddress (loadOperand cfg p.1) (BitVec.ofNat 32 p.1), .programPage mk (BitVec.ofNat 32 p.1) p.2] ++
    (if verify then [.readPage mk (BitVec.ofNat 32 p.1) (BitVec.ofNat 16 p.2.length)] else [])

theorem pageCmdsOf_length (cfg : Config) (mk : MemKind) (verify : Bool) (p : Piece) :
    (pageCmdsOf cfg mk verify p).length = 2 + verify.toNat := by
  cases verify <;> rfl

/-- No LoadAddress is left out when no page has the operand of the one before it (spec R214). -/
theorem pageCmds_eq_flatMap {cfg : Config} {cur : Option Half} {ps : List Piece} (mk : MemKind) (verify : Bool)
    (hcur : ∀ p ∈ ps, cur ≠ some (loadOperand cfg p.1)) (hps : (ps.map (fun p => loadOperand cfg p.1)).Nodup) :
    pageCmds cfg mk verify cur ps = ps.flatMap (pageCmdsOf cfg mk verify) := by
  induction ps generalizing cur with
  | nil => rfl
  | cons p ps ih =>
    obtain ⟨hfresh, hps⟩ := List.nodup_cons.mp hps
    have hload : cur ≠ some (loadOperand cfg p.1) := hcur p List.mem_cons_self
    have hnext : ∀ q ∈ ps, some (loadOperand cfg p.1) ≠ some (loadOperand cfg q.1) := fun q hq he =>
      hfresh (List.mem_map.mpr ⟨q, hq, (Option.some.inj he).symm⟩)
    rw [pageCmds, if_neg hload, ih hnext hps, List.flatMap_cons]
    rfl

section
variable {s : State}

theorem State.DEV_PAGE_pos (h : s.blk.DEV_PAGE ≠ 0) : 0 < s.blk.DEV_PAGE.toNat :=
  Nat.pos_of_ne_zero fun h0 => h (BitVec.eq_of_toNat_eq h0)

/-- The number of session pages (spec R211). -/
theorem State.pages_length (h : s.blk.DEV_PAGE ≠ 0) :
    s.pages.length =
      if s.blk.IMG_LEN.toNat = 0 then 0
      else (s.blk.IMG_BASE.toNat + s.blk.IMG_LEN.toNat - 1) / s.blk.DEV_PAGE.toNat -
        s.blk.IMG_BASE.toNat / s.blk.DEV_PAGE.toNat + 1 := by
  have hlen := s.imageBytes_length
  rw [State.pages]
  split
  · rw [List.length_eq_zero_iff.mp (by omega : s.imageBytes.length = 0)]
    rfl
  · rw [pageSegments_length (State.DEV_PAGE_pos h) _ (List.length_pos_iff.mp (by omega)), hlen]

/-- The pages of an accepted configuration have different LoadAddress operands (spec R207 check 6, R210). -/
theorem State.pages_operands_nodup (h : s.flashCheck = none) : (s.pages.map (fun p => loadOperand s.cfg p.1)).Nodup := by
  obtain ⟨hpage, -, -, -, -, -, hload⟩ := State.flashCheck_none h
  exact loadOperands_nodup (State.pages_tiles hpage) hload

/-- The sequence of an accepted configuration: every page has its LoadAddress (spec R212, R214). -/
theorem State.flashQ_eq (h : s.flashCheck = none) :
    s.flashQ = [.setDevice, .enterProgrammingMode] ++ s.pages.flatMap (pageCmdsOf s.cfg s.blk.MEMKIND s.blk.VERIFY) ++
      [.leaveProgrammingMode] ++ (if s.blk.SIGCHK then [.readSignature] else []) := by
  rw [State.flashQ, pageCmds_eq_flatMap _ _ (by simp) (State.pages_operands_nodup h)]
  simp only [List.append_assoc, List.cons_append, List.nil_append]

theorem State.flashQ_length (h : s.flashCheck = none) :
    s.flashQ.length = 2 + s.pages.length * (2 + s.blk.VERIFY.toNat) + 1 + s.blk.SIGCHK.toNat := by
  have hsig : (if s.blk.SIGCHK then [Cmd.readSignature] else []).length = s.blk.SIGCHK.toNat := by
    cases s.blk.SIGCHK <;> rfl
  have hpages : (s.pages.flatMap (pageCmdsOf s.cfg s.blk.MEMKIND s.blk.VERIFY)).length =
      s.pages.length * (2 + s.blk.VERIFY.toNat) := by
    simp only [List.length_flatMap, pageCmdsOf_length, List.map_const', List.sum_replicate, smul_eq_mul]
  rw [State.flashQ_eq h, List.length_append, List.length_append, List.length_append, hpages, hsig]
  rfl

end

/-! ### The start of a session (spec R206, R215, R216) -/

section
variable {s : State}

theorem Block.not_ready_eq_false {b : Block} (hst : b.SES_ST = .idle) (hin : b.INFLIGHT = none) : ¬ b.ready = false := by
  simp [Block.ready, hst, hin]

theorem Block.ready_eq_false {b : Block} (h : b.SES_ST ≠ .idle ∨ b.INFLIGHT ≠ none) : b.ready = false := by
  simpa [Block.ready, or_iff_not_imp_left, Option.isSome_iff_ne_none] using h

theorem Block.sigLenValid_eq_false_iff {b : Block} :
    b.sigLenValid = false ↔ ¬ (1 ≤ b.SIG_LEN.toNat ∧ b.SIG_LEN.toNat ≤ 4) :=
  decide_eq_false_iff_not

theorem State.respTooLong_iff {q : List Cmd} : s.respTooLong q = true ↔ ∃ c ∈ q, s.cfg.RB_CAP < s.respLenOf c := by
  simp [State.respTooLong]

/-- A page whose address its LoadAddress operand would not load exactly (spec R207 check 6). -/
theorem not_loadable_iff {cfg : Config} {A : Nat} :
    (!loadable cfg A) = true ↔ A % 2 ^ cfg.WP.ADDR_SHIFT ≠ 0 ∨ 2 ^ 16 ≤ A >>> cfg.WP.ADDR_SHIFT := by
  simp only [loadable, Bool.not_eq_true', Bool.and_eq_false_iff, beq_eq_false_iff_ne, decide_eq_false_iff_not, Nat.not_lt]

theorem State.unloadable_iff : s.pages.any (fun p => !loadable s.cfg p.1) = true ↔
    ∃ p ∈ s.pages, p.1 % 2 ^ s.cfg.WP.ADDR_SHIFT ≠ 0 ∨ 2 ^ 16 ≤ p.1 >>> s.cfg.WP.ADDR_SHIFT := by
  simp only [List.any_eq_true, not_loadable_iff]

theorem exec_sesFlash_of_not_ready (h : s.blk.SES_ST ≠ .idle ∨ s.blk.INFLIGHT ≠ none) :
    exec .sesFlash s = .next (s.afterCmdErr .wrongState .noSub) :=
  congrArg Host.Outcome.next (if_pos (Block.ready_eq_false h))

theorem exec_sesSig_of_not_ready (h : s.blk.SES_ST ≠ .idle ∨ s.blk.INFLIGHT ≠ none) :
    exec .sesSig s = .next (s.afterCmdErr .wrongState .noSub) :=
  congrArg Host.Outcome.next (if_pos (Block.ready_eq_false h))

theorem exec_sesFlash_of_check {e : SesCfgErr} (hst : s.blk.SES_ST = .idle) (hin : s.blk.INFLIGHT = none)
    (h : s.flashCheck = some e) : exec .sesFlash s = .next (s.afterCmdErr .sesCfgInvalid e) := by
  change Host.Outcome.next s.sesFlash = _
  rw [State.sesFlash, if_neg (Block.not_ready_eq_false hst hin), h]
  rfl

theorem exec_sesSig_of_check {e : SesCfgErr} (hst : s.blk.SES_ST = .idle) (hin : s.blk.INFLIGHT = none)
    (h : s.sigCheck = some e) : exec .sesSig s = .next (s.afterCmdErr .sesCfgInvalid e) := by
  change Host.Outcome.next s.sesSig = _
  rw [State.sesSig, if_neg (Block.not_ready_eq_false hst hin), h]
  rfl

/-- The row of a command that is due is the sequencer's issue (spec R217, R218). -/
theorem exec_eq_issue_of_due {c : Cmd} (hcur : s.blk.current = some c) (hin : s.blk.INFLIGHT = none)
    (hst : s.blk.SES_ST.terminal = false) : exec c.toInstr s = .next s.issue := by
  rw [exec_of_due hcur hin hst, State.issue, remaining_of_current hcur]

theorem not_terminal_of_idle (h : s.blk.SES_ST = .idle) : s.blk.SES_ST.terminal = false := by
  rw [h]
  rfl

/-- The first command of a sequence just set up is due (spec R206, R215). -/
theorem issue_opened {c : Cmd} {rest : List Cmd} (hst : s.blk.SES_ST = .idle) (hin : s.blk.INFLIGHT = none) :
    Host.Outcome.next (s.opened (c :: rest)).issue = exec c.toInstr (s.opened (c :: rest)) :=
  (exec_eq_issue_of_due (s := s.opened (c :: rest)) rfl hin (not_terminal_of_idle hst)).symm

theorem exec_sesFlash_of_accepted (hst : s.blk.SES_ST = .idle) (hin : s.blk.INFLIGHT = none)
    (h : s.flashCheck = none) : exec .sesFlash s = exec .wSetDevice (s.opened s.flashQ) := by
  change Host.Outcome.next s.sesFlash = exec Cmd.setDevice.toInstr _
  rw [State.sesFlash, if_neg (Block.not_ready_eq_false hst hin), h]
  exact issue_opened hst hin

theorem exec_sesSig_of_accepted (hst : s.blk.SES_ST = .idle) (hin : s.blk.INFLIGHT = none)
    (h : s.sigCheck = none) : exec .sesSig s = exec .wReadSignature (s.opened [.readSignature]) := by
  change Host.Outcome.next s.sesSig = exec Cmd.readSignature.toInstr _
  rw [State.sesSig, if_neg (Block.not_ready_eq_false hst hin), h]
  exact issue_opened hst hin

/-- The second command of a sequence just set up is next after the first. -/
theorem opened_follows {c d : Cmd} {rest q : List Cmd} (hq : q = c :: d :: rest) (hlen : q.length < 2 ^ 32) (s : State) :
    (s.opened q).follows d := by
  refine ⟨fun h => ?_, by rw [hq]; rfl, hlen⟩
  have hone : 1 = q.length % 2 ^ 32 := congrArg BitVec.toNat h
  rw [Nat.mod_eq_of_lt hlen, hq] at hone
  simp at hone

end

/-! ### A byte that completes a response (spec R221, R245, R246) -/

section
variable {s : State} {c : Cmd}

/-- A byte received toward the response of the command in flight is stored, and the response is checked (spec R242,
R245). -/
theorem exec_rx_of_awaits (h : s.awaits c) (hroom : s.blk.RB.length < s.cfg.RB_CAP) (x : Byte) :
    exec (.rx [x]) s = .next ((s.mapBlk (Block.store x)).respond c (State.issueFrom s.behind)) := by
  obtain ⟨hcur, hin, hst⟩ := h
  have hcheck : (s.mapBlk (Block.store x)).checkCompletion =
      (s.mapBlk (Block.store x)).respond c (State.issueFrom s.behind) := by
    have hrem : (s.mapBlk (Block.store x)).blk.remaining = c :: s.behind := remaining_of_current hcur
    simp only [State.checkCompletion, hrem]
  change Host.Outcome.next (s.rxByte x) = _
  rcases s.rxByte_cases x with ⟨hterm, -⟩ | ⟨-, hfull, -⟩ | ⟨-, -, t, rfl, ⟨hnone, -⟩ | ⟨-, heq⟩⟩
  · simp [hst] at hterm
  · omega
  · simp [hin] at hnone
  · rw [heq, hcheck]

theorem exec_rx_of_short (h : s.awaits c) (hroom : s.blk.RB.length < s.cfg.RB_CAP) {x : Byte}
    (hshort : s.blk.RB.length + 1 < s.respLenOf c) :
    exec (.rx [x]) s = .next { s with blk := { s.blk with RB := s.blk.RB ++ [x] } } := by
  have hstored : (s.mapBlk (Block.store x)).blk.RB.length < (s.mapBlk (Block.store x)).respLenOf c := by
    rw [State.mapBlk_blk, Block.store_RB, List.length_append]
    exact hshort
  rw [exec_rx_of_awaits h hroom, respond_of_short hstored]
  rfl

@[simp] theorem noted_LINK_CLOSED (c : Cmd) (body : List Byte) (s : State) :
    (s.noted c body).blk.LINK_CLOSED = s.blk.LINK_CLOSED := by cases c <;> rfl

@[simp] theorem noted_nextAnswer (c : Cmd) (body : List Byte) (s : State) :
    (s.noted c body).nextAnswer = s.nextAnswer := by cases c <;> rfl

@[simp] theorem noted_respLenOf (c d : Cmd) (body : List Byte) (s : State) :
    (s.noted c body).respLenOf d = s.respLenOf d := by cases c <;> rfl

theorem behind_of_next {d : Cmd} (hd : s.blk.Q[s.blk.SEQ_IDX.toNat + 1]? = some d) :
    s.behind = d :: s.blk.Q.drop (s.blk.SEQ_IDX.toNat + 2) := by
  obtain ⟨hlt, hget⟩ := List.getElem?_eq_some_iff.mp hd
  rw [State.behind, List.drop_eq_getElem_cons hlt, hget]

theorem current_movedOn {d : Cmd} (h : s.follows d) {surplus : List Byte} :
    (s.movedOn c surplus).blk.current = some d := by
  obtain ⟨-, hd, hlen⟩ := h
  obtain ⟨hlt, -⟩ := List.getElem?_eq_some_iff.mp hd
  have hidx : (s.blk.SEQ_IDX + 1).toNat = s.blk.SEQ_IDX.toNat + 1 :=
    BitVec.toNat_add_of_lt (show s.blk.SEQ_IDX.toNat + 1 < 2 ^ 32 by omega)
  change s.blk.Q[(s.blk.SEQ_IDX + 1).toNat]? = some d
  rw [hidx, hd]

/-- The next command's frame, answered `ok`, with no byte of its response in RB: it is in flight (spec R217, R245). -/
theorem issueFrom_movedOn_of_ok {d : Cmd} {rest : List Cmd} (hopen : s.blk.LINK_CLOSED = false)
    (hans : s.nextAnswer = true) (hlen : 0 < s.respLenOf d) :
    State.issueFrom (d :: rest) (s.movedOn c []) = s.afterNext c d := by
  rw [issueFrom_of_ok (s := s.movedOn c []) hopen hans]
  exact respond_of_short (s := s.afterNext c d) hlen

/-- The next command's frame, answered `fail` (spec R217, R260). -/
theorem issueFrom_movedOn_of_fail {d : Cmd} {rest : List Cmd} (hnext : s.follows d) (hopen : s.blk.LINK_CLOSED = false)
    (hans : s.nextAnswer = false) :
    State.issueFrom (d :: rest) (s.movedOn c []) = (s.movedOn c []).afterLinkFail d :=
  issueFrom_of_fail (s := s.movedOn c []) (current_movedOn hnext) hopen hans (Nat.two_pow_pos 32) rest

section
variable {x : Byte} {e body : List Byte} (h : s.awaits c) (hroom : s.blk.RB.length < s.cfg.RB_CAP)
  (hrb : s.blk.RB ++ [x] = responseOf s.cfg.WP c.kind body)
include h hroom hrb

/-- The first wrong byte of a body fails the command, and RB keeps the response (spec R251, R252). -/
theorem exec_rx_of_wrong_body (hexp : s.expects c e) (hlen : body.length = e.length) {i : Nat} {u v : Byte}
    (hu : e[i]? = some u) (hv : body[i]? = some v) (hne : v ≠ u) (hpre : body.take i = e.take i) :
    exec (.rx [x]) s = .next (State.afterFail (mismatchOf c) c (BitVec.ofNat 32 i) u v
      (({ s with blk := { s.blk with RB := s.blk.RB ++ [x] } } : State).noted c body)) := by
  obtain ⟨hcur, -⟩ := id h
  rw [exec_rx_of_awaits h hroom, respond_of_wrong_body (s := s.mapBlk (Block.store x)) (surplus := []) hcur hexp hlen
    (by rw [List.append_nil]; exact hrb) hu hv hne hpre]
  rfl

/-- A good response to the last command ends the session (spec R222). -/
theorem exec_rx_of_good_last (hexp : s.expects c body) (hlast : s.blk.SEQ_IDX + 1 = s.blk.SEQ_LEN) :
    exec (.rx [x]) s = .next ((s.noted c body).afterLast c []) := by
  rw [exec_rx_of_awaits h hroom, respond_of_good_last (s := s.mapBlk (Block.store x)) (surplus := []) hexp
    (by rw [List.append_nil]; exact hrb) hlast]
  cases c <;> rfl

/-- A good response to any other command moves the session on, and the commands behind it are issued (spec R221, R223). -/
theorem exec_rx_of_good_next (hexp : s.expects c body) (hmore : s.blk.SEQ_IDX + 1 ≠ s.blk.SEQ_LEN) :
    exec (.rx [x]) s = .next (State.issueFrom s.behind ((s.noted c body).movedOn c [])) := by
  rw [exec_rx_of_awaits h hroom, respond_of_good_next (s := s.mapBlk (Block.store x)) (surplus := []) hexp
    (by rw [List.append_nil]; exact hrb) hmore]
  cases c <;> rfl

/-- The next command's row, whatever LINK answers (spec R217, log entry 4). -/
theorem exec_rx_eq_next_row (hexp : s.expects c body) {d : Cmd} (hnext : s.follows d) :
    exec (.rx [x]) s = exec d.toInstr ((s.noted c body).movedOn c []) := by
  rw [exec_rx_of_good_next h hroom hrb hexp hnext.1, issueFrom_movedOn (hnext.noted c body), behind_noted]

/-- The next command's frame, answered `ok` (spec R217, R221). -/
theorem exec_rx_issues_next (hexp : s.expects c body) {d : Cmd} (hmore : s.blk.SEQ_IDX + 1 ≠ s.blk.SEQ_LEN)
    (hd : s.blk.Q[s.blk.SEQ_IDX.toNat + 1]? = some d) (hopen : s.blk.LINK_CLOSED = false)
    (hans : s.nextAnswer = true) (hlen : 0 < s.respLenOf d) :
    exec (.rx [x]) s = .next ((s.noted c body).afterNext c d) := by
  rw [exec_rx_of_good_next h hroom hrb hexp hmore, behind_of_next hd, issueFrom_movedOn_of_ok] <;> simpa

/-- The next command's frame, answered `fail` (spec R217, R260, R277). -/
theorem exec_rx_next_disconnected (hexp : s.expects c body) {d : Cmd} (hnext : s.follows d)
    (hopen : s.blk.LINK_CLOSED = false) (hans : s.nextAnswer = false) :
    exec (.rx [x]) s = .next (((s.noted c body).movedOn c []).afterLinkFail d) := by
  obtain ⟨hmore, hd, -⟩ := id hnext
  rw [exec_rx_of_good_next h hroom hrb hexp hmore, behind_of_next hd,
    issueFrom_movedOn_of_fail (hnext.noted c body)] <;> simpa

end

/-- A command without a response body expects the empty one (spec R117, R248). -/
theorem expects_nil (hpage : c.kind ≠ .readPage) (hsig : c.kind ≠ .readSignature) : s.expects c [] := by
  cases c with
  | readPage mk a n => exact absurd rfl hpage
  | readSignature => exact absurd rfl hsig
  | _ => exact Eq.refl []

theorem expectedSig_getElem? {i : Nat} (h : i < s.blk.SIG_LEN.toNat) :
    s.blk.expectedSig[i]? = some (s.blk.SIG_EXPECT.extractLsb' (8 * i) 8) := by
  rw [Block.expectedSig, List.getElem?_map, List.getElem?_range h, Option.map_some]

/-- A signature read whose first `n` bytes are as expected begins like the expected one (spec R252). -/
theorem take_eq_take_expectedSig {body : List Byte} {n : Nat} (hbody : body.length = s.blk.SIG_LEN.toNat)
    (h : ∀ i < n, ∀ v : Byte, body[i]? = some v → v = s.blk.SIG_EXPECT.extractLsb' (8 * i) 8) :
    body.take n = s.blk.expectedSig.take n := by
  refine List.ext_getElem (by simp [Block.expectedSig, hbody]) fun i hi _ => ?_
  obtain ⟨hin, hib⟩ := Nat.lt_min.mp (List.length_take ▸ hi)
  rw [List.getElem_take, List.getElem_take, h i hin _ (List.getElem?_eq_getElem hib)]
  exact ((List.getElem_eq_iff _).mpr (expectedSig_getElem? (hbody ▸ hib))).symm

theorem expects_signature {body : List Byte} (hbody : body.length = s.blk.SIG_LEN.toNat)
    (h : ∀ (i : Nat) (v : Byte), body[i]? = some v → v = s.blk.SIG_EXPECT.extractLsb' (8 * i) 8) :
    s.expects .readSignature body := by
  have hlen : s.blk.expectedSig.length = body.length := by simp [Block.expectedSig, hbody]
  have heq := take_eq_take_expectedSig (n := body.length) hbody fun i _ => h i
  rwa [List.take_length, ← hlen, List.take_length] at heq

theorem noted_of_not_signature (hsig : c.kind ≠ .readSignature) (body : List Byte) : s.noted c body = s := by
  cases c with
  | readSignature => exact absurd rfl hsig
  | _ => rfl

end

/-! ### A session that has ended (spec R228, R281) -/

/-- The session of a block: its phase, its sequence and position, the bytes received, the budget, the failure record, the
signature read and the reports. Everything else is put at its reset value. -/
def Block.session (b : Block) : Block :=
  { Block.reset with
    SES_ST := b.SES_ST, INFLIGHT := b.INFLIGHT, Q := b.Q, SEQ_IDX := b.SEQ_IDX, SEQ_LEN := b.SEQ_LEN, RB := b.RB
    TMR := b.TMR, FAIL_REASON := b.FAIL_REASON, FAIL_KIND := b.FAIL_KIND, FAIL_IDX := b.FAIL_IDX
    FAIL_ADDR := b.FAIL_ADDR, FAIL_OFF := b.FAIL_OFF, FAIL_EXP := b.FAIL_EXP, FAIL_ACT := b.FAIL_ACT
    SIG_READ := b.SIG_READ, REPORTS := b.REPORTS, LAST_KIND := b.LAST_KIND, LAST_RES := b.LAST_RES
    LAST_IDX := b.LAST_IDX }

/-- `t` has the session of `s`, and no frame more. -/
structure SessionKept (s t : State) : Prop where
  session : t.blk.session = s.blk.session
  tx : t.tx = s.tx

section
variable {s t u : State}

theorem SessionKept.refl (s : State) : SessionKept s s := ⟨rfl, rfl⟩

theorem SessionKept.of_next (h : SessionKept s u) (e : (.next u : Host.Outcome State Fault Refusal) = .next t) :
    SessionKept s t := by
  cases e; exact h

theorem Block.popText_session (b : Block) : b.popText.session = b.session := by
  rcases b.popText_cases with ⟨-, e⟩ | ⟨-, e⟩ | ⟨c, d, rest, -, e⟩ <;> rw [e] <;> rfl

theorem Block.writeConfig_session (r : Csr) (w : Word) (b : Block) : (b.writeConfig r w).session = b.session := by
  cases r <;> rfl

/-- An instruction that changes nothing keeps the session. -/
theorem SessionKept.of_unchanged {i : Instr} (h : exec i s = .next s) (e : exec i s = .next t) : SessionKept s t :=
  (SessionKept.refl s).of_next (h.symm.trans e)

/-- A word that is a command is not written to CMD by a CSR_WRITE of its own row (spec R96). -/
theorem command_write_not_wellFormed {off : Word} {width : Nat} {w : Word} {c : Command}
    (hr : csrAt off width = some .CMD) (hw : decodeCommand w = .ok c) : ¬ Instr.WellFormed (.csrWrite off width w) := by
  obtain ⟨rfl, rfl⟩ := csrAt_eq_some hr
  have hword : IsCommandWord w := by rw [eq_commandWord_of_decode hw]; exact isCommandWord_commandWord c
  exact fun h => of_decide_eq_false ((Bool.not_eq_true' _).mp h) ⟨rfl, rfl, hword⟩

theorem encStart_sessionKept (s : State) : SessionKept s s.encStart := by
  rcases s.encStart_cases with ⟨-, e⟩ | ⟨-, x, -, e⟩ | ⟨-, -, e⟩ <;> rw [e] <;> exact ⟨rfl, rfl⟩

theorem csrRead_sessionKept (off : Word) (width : Nat) (s : State) : SessionKept s (s.csrRead off width) := by
  rcases s.csrRead_cases off width with ⟨-, e⟩ | ⟨-, e⟩ | ⟨r, -, -, e⟩ <;> rw [e]
  · exact ⟨rfl, rfl⟩
  · exact ⟨s.blk.popText_session, rfl⟩
  · exact ⟨rfl, rfl⟩

theorem execCsrWrite_sessionKept {off : Word} {width : Nat} {w : Word} (hwf : Instr.WellFormed (.csrWrite off width w))
    (e : execCsrWrite off width w s = .next t) : SessionKept s t := by
  rcases execCsrWrite_cases off width w s with
    ⟨hr, c, hc, -⟩ | ⟨code, k⟩ | ⟨-, k⟩ | ⟨-, k⟩ | ⟨r, -, -, -, k⟩
  · exact absurd hwf (command_write_not_wellFormed hr hc)
  all_goals rw [k] at e; cases e
  · exact ⟨rfl, rfl⟩
  · exact ⟨rfl, rfl⟩
  · exact ⟨rfl, rfl⟩
  · exact ⟨s.blk.writeConfig_session r w, rfl⟩

theorem execImgRead_sessionKept {a : Word} (e : execImgRead a s = .next t) : SessionKept s t := by
  rcases execImgRead_cases a s with ⟨-, k⟩ | ⟨-, k⟩ <;> rw [k] at e <;> cases e <;> exact ⟨rfl, rfl⟩

theorem execParamRead_sessionKept {a : Half} (e : execParamRead a s = .next t) : SessionKept s t := by
  rcases execParamRead_cases a s with ⟨-, k⟩ | ⟨-, k⟩ <;> rw [k] at e <;> cases e <;> exact ⟨rfl, rfl⟩

theorem execImgWrite_sessionKept {a : Word} {x : Byte} (e : execImgWrite a x s = .next t) : SessionKept s t := by
  rcases execImgWrite_cases a x s with ⟨code, k⟩ | ⟨-, -, k⟩ <;> rw [k] at e <;> cases e <;> exact ⟨rfl, rfl⟩

theorem execParamWrite_sessionKept {a : Half} {x : Byte} (e : execParamWrite a x s = .next t) : SessionKept s t := by
  rcases execParamWrite_cases a x s with ⟨code, k⟩ | ⟨-, -, k⟩ <;> rw [k] at e <;> cases e <;> exact ⟨rfl, rfl⟩

theorem SesState.terminal_iff (st : SesState) : st.terminal = true ↔ st = .done ∨ st = .failed ∨ st = .stopped := by
  cases st <;> decide

theorem exec_sesStop (s : State) : exec .sesStop s = .next { s with blk := s.blk.stop } := rfl

section
variable (hterm : s.blk.SES_ST.terminal = true)
include hterm

theorem not_idle_of_terminal : s.blk.SES_ST ≠ .idle := fun h => by
  rw [h] at hterm
  cases hterm

theorem exec_sesStop_of_terminal : exec .sesStop s = .next s := by
  rcases s.blk.stop_cases with ⟨-, e⟩ | ⟨hrun, -⟩ | ⟨hrun, -⟩
  · rw [exec_sesStop, e]
  · simp [hterm] at hrun
  · simp [hterm] at hrun

/-- Bytes received after the session ended are dropped (spec R242). -/
theorem rxBytes_of_terminal (chunk : List Byte) : s.rxBytes chunk = s := by
  induction chunk with
  | nil => rfl
  | cons x chunk ih =>
    have hdrop : s.rxByte x = s := if_pos hterm
    change (s.rxByte x).rxBytes chunk = s
    rw [hdrop, ih]

theorem exec_rx_of_terminal (chunk : List Byte) : exec (.rx chunk) s = .next s :=
  congrArg Host.Outcome.next (rxBytes_of_terminal hterm chunk)

theorem exec_cmd_of_terminal (c : Cmd) : exec c.toInstr s = .next s := exec_of_not_due (.inr (.inr hterm))

end

theorem exec_tick_of_none (h : s.blk.INFLIGHT = none) : exec .tick s = .next s := congrArg Host.Outcome.next (if_pos h)

theorem close_sessionKept (h : s.blk.INFLIGHT = none) : SessionKept s s.close := by
  rcases s.close_cases with ⟨-, e⟩ | ⟨hin, -⟩
  · rw [e]; exact ⟨rfl, rfl⟩
  · exact absurd h hin

/-- In a terminal state every instruction but the three resets keeps the session: no command is in flight, so no tick and
no close fails one, and no row is due (spec R228, R281). -/
theorem exec_sessionKept_of_terminal {i : Instr} (hterm : s.blk.SES_ST.terminal = true) (hin : s.blk.INFLIGHT = none)
    (hwf : i.WellFormed) (hrst : i ≠ .rst) (hsoft : i ≠ .softReset) (hreset : i ≠ .sesReset)
    (e : exec i s = .next t) : SessionKept s t := by
  have hstart : s.blk.SES_ST ≠ .idle ∨ s.blk.INFLIGHT ≠ none := .inl (not_idle_of_terminal hterm)
  have hrow (c : Cmd) (ec : exec c.toInstr s = .next t) : SessionKept s t :=
    .of_unchanged (exec_cmd_of_terminal hterm c) ec
  cases i with
  | nop => exact .of_unchanged rfl e
  | ckClr => cases e; exact ⟨rfl, rfl⟩
  | ckAdd b => cases e; exact ⟨rfl, rfl⟩
  | encStart => exact (encStart_sessionKept s).of_next e
  | sesFlash => rw [exec_sesFlash_of_not_ready hstart] at e; cases e; exact ⟨rfl, rfl⟩
  | sesSig => rw [exec_sesSig_of_not_ready hstart] at e; cases e; exact ⟨rfl, rfl⟩
  | sesReset => exact absurd rfl hreset
  | sesStop => exact .of_unchanged (exec_sesStop_of_terminal hterm) e
  | softReset => exact absurd rfl hsoft
  | csrRead off width => exact (csrRead_sessionKept off width s).of_next e
  | csrWrite off width w => exact execCsrWrite_sessionKept hwf e
  | imgRead a => exact execImgRead_sessionKept e
  | imgWrite a x => exact execImgWrite_sessionKept e
  | paramRead a => exact execParamRead_sessionKept e
  | paramWrite a x => exact execParamWrite_sessionKept e
  | rx chunk => exact .of_unchanged (exec_rx_of_terminal hterm chunk) e
  | close => exact (close_sessionKept hin).of_next e
  | tick => exact .of_unchanged (exec_tick_of_none hin) e
  | rst => exact absurd rfl hrst
  | recData a d => cases e; exact ⟨rfl, rfl⟩
  | recEof => cases e; exact ⟨rfl, rfl⟩
  | recEla k => cases e; exact ⟨rfl, rfl⟩
  | recEsa a d => cases e
  | recSsa a d => cases e
  | recSla a d => cases e
  | wSetDevice => exact hrow .setDevice e
  | wEnterProgmode => exact hrow .enterProgrammingMode e
  | wLoadAddress a16 a32 => exact hrow (.loadAddress a16 a32) e
  | wProgramPage mk a32 d => exact hrow (.programPage mk a32 d) e
  | wReadPage mk a32 n => exact hrow (.readPage mk a32 n) e
  | wLeaveProgmode => exact hrow .leaveProgrammingMode e
  | wReadSignature => exact hrow .readSignature e

end

/-! ### The obligations -/

/-- Settles O46: the first command of the sequence set up is due, and its row is the issue. -/
theorem sessionStartIsItsFirstFrameRow : Obligations.SessionStartIsItsFirstFrameRow :=
  fun _ hst hin => ⟨exec_sesFlash_of_accepted hst hin, exec_sesSig_of_accepted hst hin⟩

/-- Settles O37: the row of SetDevice (O45) on the sequence set up, which has EnterProgrammingMode next. -/
theorem sesFlashIssuesSetDevice : Obligations.SesFlashIssuesSetDevice := by
  intro s hst hin hcheck hopen hans
  obtain ⟨hdue, -⟩ := wireFrameRowsIssueTheDueCommand (s.opened s.flashQ) .setDevice
  obtain ⟨hok, -⟩ := hdue rfl hin (not_terminal_of_idle hst)
  obtain ⟨hwaiting, -, -, hcomplete⟩ := hok hopen hans
  have hnext : (s.opened s.flashQ).follows .enterProgrammingMode := opened_follows rfl (State.flashQ_length_lt hcheck) s
  rw [exec_sesFlash_of_accepted hst hin hcheck]
  refine ⟨hwaiting, fun surplus hrb => ?_⟩
  obtain ⟨-, -, hrow⟩ := hcomplete [] [] surplus rfl rfl hrb
  exact hrow .enterProgrammingMode rfl hnext

/-- Settles O38: the first check that fails decides, and SES_FLASH answers what the checks answer. -/
theorem sesFlashRejectsInOrder : Obligations.SesFlashRejectsInOrder := by
  intro s b rejected range sig long unloadable
  refine ⟨exec_sesFlash_of_not_ready, fun hst hin => ?_⟩
  have reject {e : SesCfgErr} (h : s.flashCheck = some e) : rejected e := exec_sesFlash_of_check hst hin h
  have range_iff : range ↔ s.cfg.IMG_CAP < s.blk.IMG_LEN.toNat ∨ 2 ^ 32 < s.blk.imgEnd := Iff.rfl
  have sig_iff : sig ↔ s.blk.SIGCHK = true ∧ s.blk.sigLenValid = false :=
    and_congr_right fun _ => Block.sigLenValid_eq_false_iff.symm
  have long_iff : long ↔ s.respTooLong s.flashQ = true := State.respTooLong_iff.symm
  have unloadable_iff : unloadable ↔ s.pages.any (fun p => !loadable s.cfg p.1) = true := State.unloadable_iff.symm
  rw [range_iff, sig_iff, long_iff, unloadable_iff]
  refine ⟨fun hpage => reject (if_pos hpage), fun hpage => ⟨fun hrange => reject ?_, fun hrange =>
    ⟨fun hsig => reject ?_, fun hsig => ⟨fun hparam => reject ?_, fun hparam => ⟨fun hlong => reject ?_, fun hlong =>
    ⟨fun hload => reject ?_, fun hload => ?_⟩⟩⟩⟩⟩⟩
  · rw [State.flashCheck, if_neg hpage, if_pos hrange]
  · rw [State.flashCheck, if_neg hpage, if_neg hrange, if_pos hsig]
  · rw [State.flashCheck, if_neg hpage, if_neg hrange, if_neg hsig, if_pos hparam]
  · rw [State.flashCheck, if_neg hpage, if_neg hrange, if_neg hsig, if_neg (Nat.not_lt.mpr hparam), if_pos hlong]
  · rw [State.flashCheck, if_neg hpage, if_neg hrange, if_neg hsig, if_neg (Nat.not_lt.mpr hparam), if_neg hlong,
      if_pos hload]
  · rw [State.flashCheck, if_neg hpage, if_neg hrange, if_neg hsig, if_neg (Nat.not_lt.mpr hparam), if_neg hlong,
      if_neg hload]

/-- Settles O39: no two pages share an operand, so each has its LoadAddress; the rest is counting. -/
theorem flashSequenceFollowsThePages : Obligations.FlashSequenceFollowsThePages := by
  intro s hcheck b N npages
  obtain ⟨hpage, -⟩ := State.flashCheck_none hcheck
  have hlen : s.pages.length = npages := State.pages_length hpage
  exact ⟨State.flashQ_eq hcheck, hlen, by rw [← hlen]; exact State.flashQ_length hcheck, State.pages_operands_nodup hcheck⟩

/-- Settles O40: the pages tile the image, and each but the last ends at a multiple of DEV_PAGE. -/
theorem sessionPagesTileTheImage : Obligations.SessionPagesTileTheImage := by
  intro s hpage S ps
  have hS : 0 < S := State.DEV_PAGE_pos hpage
  have htiles : Tiles s.blk.IMG_BASE.toNat s.imageBytes ps := State.pages_tiles hpage
  have hnext (n : Nat) (p q : Piece) (hp : ps[n]? = some p) (hq : ps[n + 1]? = some q) :
      q.1 = p.1 + p.2.length ∧ q.1 % S = 0 := pageSegments_next hS hp hq
  have hwithin (p : Piece) (hp : p ∈ ps) : 1 ≤ p.2.length ∧ p.2.length ≤ S ∧ (p.1 + p.2.length - 1) / S = p.1 / S :=
    pageSegments_piece_within hS hp
  refine ⟨htiles.flatten, fun p ps' hps => ?_, hnext, hwithin, fun n p hp hfirst hlast => ?_⟩
  · rw [hps] at htiles
    obtain ⟨haddr, -⟩ := htiles
    exact haddr
  · obtain ⟨m, rfl⟩ : ∃ m, n = m + 1 := ⟨n - 1, by omega⟩
    obtain ⟨hpos, hle, -⟩ := hwithin p (List.mem_of_getElem? hp)
    have hbefore : ps[m]? = some ps[m] := List.getElem?_eq_getElem (by omega)
    have hbehind : ps[m + 1 + 1]? = some ps[m + 1 + 1] := List.getElem?_eq_getElem hlast
    obtain ⟨-, hstart⟩ := hnext m ps[m] p hbefore hp
    obtain ⟨haddr, hend⟩ := hnext (m + 1) p ps[m + 1 + 1] hp hbehind
    rw [haddr] at hend
    exact eq_of_between_multiples hpos hle hstart hend

/-- Settles O41: the two checks, and then the row of ReadSignature (O45), which is the last of its sequence. -/
theorem sesSigIssuesReadSignature : Obligations.SesSigIssuesReadSignature := by
  intro s tooLong
  refine ⟨exec_sesSig_of_not_ready, fun hst hin => ⟨fun hlen => ?_, fun hlo hhi => ?_⟩⟩
  · exact exec_sesSig_of_check hst hin (if_pos (Block.sigLenValid_eq_false_iff.mpr hlen))
  have hvalid : ¬ s.blk.sigLenValid = false := fun h => Block.sigLenValid_eq_false_iff.mp h ⟨hlo, hhi⟩
  have hlong : s.respTooLong [.readSignature] = true ↔ tooLong := by
    rw [State.respTooLong_iff]
    simp only [List.mem_singleton, exists_eq_left]
    rfl
  have haccept (h : ¬ tooLong) : exec .sesSig s = exec .wReadSignature (s.opened [.readSignature]) :=
    exec_sesSig_of_accepted hst hin (by rw [State.sigCheck, if_neg hvalid, if_neg (hlong.not.mpr h)])
  obtain ⟨hdue, -⟩ := wireFrameRowsIssueTheDueCommand (s.opened [.readSignature]) .readSignature
  obtain ⟨hok, -⟩ := hdue rfl hin (not_terminal_of_idle hst)
  refine ⟨fun h => ?_, fun h hopen hans hrb => ?_, fun e body surplus h hopen hans hexp hbody hrb => ?_⟩
  · exact exec_sesSig_of_check hst hin (by rw [State.sigCheck, if_neg hvalid, if_pos (hlong.mpr h)])
  · obtain ⟨hwaiting, -⟩ := hok hopen hans
    rw [haccept h]
    exact hwaiting hrb
  · obtain ⟨-, -, -, hcomplete⟩ := hok hopen hans
    obtain ⟨hwrong, hlast, -⟩ := hcomplete e body surplus hexp hbody hrb
    rw [haccept h]
    exact ⟨fun heq => hlast heq rfl, hwrong⟩

/-- Settles O49: no body is expected, so the response is the markers alone. -/
theorem goodResponseCompletesTheCommand : Obligations.GoodResponseCompletesTheCommand := by
  refine ⟨fun s c x h hroom => ⟨exec_rx_of_short h hroom, fun hpage hsig hrb => ?_⟩, rfl, rfl, rfl, rfl, rfl, rfl, rfl⟩
  have hexp : s.expects c [] := expects_nil hpage hsig
  have hnoted : s.noted c [] = s := noted_of_not_signature hsig []
  refine ⟨fun hlast => ?_, fun d hmore hd hopen hans hlen => ?_, fun d hnext => ⟨?_, fun hopen hans => ?_⟩⟩
  · rw [exec_rx_of_good_last h hroom hrb hexp hlast, hnoted]
  · rw [exec_rx_issues_next h hroom hrb hexp hmore hd hopen hans hlen, hnoted]
  · rw [exec_rx_eq_next_row h hroom hrb hexp hnext, hnoted]
  · rw [exec_rx_next_disconnected h hroom hrb hexp hnext hopen hans, hnoted]

/-- Settles O51: the body expected is the data of the ProgramPage before the ReadPage. -/
theorem readPageComparesWithTheBytesWritten : Obligations.ReadPageComparesWithTheBytesWritten := by
  intro s mk mk' a a' n x d body h hroom hpage hd hbody hrb
  have hexp : s.expects (.readPage mk a n) d := ⟨hd, mk', a', hpage⟩
  refine ⟨?_, ?_, ?_, fun i e v hu hv hne hpre => ?_⟩
  · rintro rfl hlast
    exact exec_rx_of_good_last h hroom hrb hexp hlast
  · rintro e rfl hmore he hopen hans hlen
    exact exec_rx_issues_next h hroom hrb hexp hmore he hopen hans hlen
  · rintro e rfl hnext
    exact ⟨exec_rx_eq_next_row h hroom hrb hexp hnext, exec_rx_next_disconnected h hroom hrb hexp hnext⟩
  · exact exec_rx_of_wrong_body h hroom hrb hexp (hbody.trans hd.symm) hu hv hne hpre

/-- Settles O52: the body expected is the bytes of SIG_EXPECT. -/
theorem readSignatureComparesWithSigExpect : Obligations.ReadSignatureComparesWithSigExpect := by
  intro s x body h hroom hbody hrb noted expected
  refine ⟨fun hgood hlast => ?_, fun d hgood hnext => ?_, fun i v hv hne hpre => ?_⟩
  · exact exec_rx_of_good_last h hroom hrb (expects_signature hbody hgood) hlast
  · exact exec_rx_eq_next_row h hroom hrb (expects_signature hbody hgood) hnext
  · obtain ⟨hlt, -⟩ := List.getElem?_eq_some_iff.mp hv
    have hexp : s.expects .readSignature s.blk.expectedSig := Eq.refl s.blk.expectedSig
    have hlen : body.length = s.blk.expectedSig.length := by simp [Block.expectedSig, hbody]
    exact exec_rx_of_wrong_body h hroom hrb hexp hlen (expectedSig_getElem? (hbody ▸ hlt)) hv hne
      (take_eq_take_expectedSig hbody hpre)

/-- Settles O59: the session part of the block and the frames are kept, and the invariant has no command in flight. -/
theorem terminalStatesEndOnlyByReset : Obligations.TerminalStatesEndOnlyByReset := by
  intro i s t hinv hwf hterm e hrst hsoft hreset
  have hin := hinv.terminalQuiet hterm
  obtain ⟨hses, htx⟩ := exec_sessionKept_of_terminal hterm hin hwf hrst hsoft hreset e
  have keep {α : Type} (f : Block → α) : f t.blk.session = f s.blk.session := congrArg f hses
  exact ⟨keep Block.SES_ST, (keep Block.INFLIGHT).trans hin, keep Block.Q, keep Block.SEQ_IDX, keep Block.SEQ_LEN,
    keep Block.RB, keep Block.TMR, keep Block.FAIL_REASON, keep Block.FAIL_KIND, keep Block.FAIL_IDX, keep Block.FAIL_ADDR,
    keep Block.FAIL_OFF, keep Block.FAIL_EXP, keep Block.FAIL_ACT, keep Block.SIG_READ, keep Block.REPORTS,
    keep Block.LAST_KIND, keep Block.LAST_RES, keep Block.LAST_IDX, htx⟩

/-- Settles O42: the three cases of SES_STOP. -/
theorem sesStopStopsTheSession : Obligations.SesStopStopsTheSession := by
  refine ⟨decodeCommand_commandWord .sesStop, fun s => ⟨fun h => ?_, fun hdone hfailed hstopped => ?_⟩⟩
  · exact exec_sesStop_of_terminal ((SesState.terminal_iff _).mpr h)
  rcases s.blk.stop_cases with ⟨hterm, -⟩ | ⟨-, hin, e⟩ | ⟨-, j, hin, e⟩
  · simpa [hdone, hfailed, hstopped] using (SesState.terminal_iff _).mp hterm
  · refine ⟨fun _ => ?_, fun k hk => by simp [hin] at hk⟩
    rw [exec_sesStop, e]
    rfl
  · refine ⟨fun hnone => by simp [hin] at hnone, fun k hk => ?_⟩
    cases hin.symm.trans hk
    have hirq : s.blk.IRQ_STAT ||| 0x20#8 ||| 0x10#8 = s.blk.IRQ_STAT ||| 0x30#8 := BitVec.or_assoc ..
    rw [← hirq, exec_sesStop, e]
    rfl

/-- Settles O43: the two cases of SES_RESET. -/
theorem sesResetClearsTheSession : Obligations.SesResetClearsTheSession := by
  refine ⟨decodeCommand_commandWord .sesReset, fun s => ?_⟩
  rcases s.sesReset_cases with ⟨hin, e⟩ | ⟨hin, e⟩
  · exact ⟨fun _ => congrArg Host.Outcome.next e, fun hnone => absurd hnone hin⟩
  · exact ⟨fun hsome => absurd hin hsome, fun _ => congrArg Host.Outcome.next e⟩

end Sys2Proof.Machine
end

section
/-! PROOFS. Family 44_validator: bytes received with no command in flight, responses with a wrong marker, the time budget,
a closed link, and RX events that split the same bytes. -/

namespace Sys2Proof.Machine

/-! ### Bytes received with no command in flight (spec R242, R244) -/

section
variable {s : State}

/-- `s` with the bytes of a chunk in RB as far as RB_CAP allows, and RB_OVF set when a byte was dropped. -/
def State.kept (chunk : List Byte) (s : State) : State :=
  { s with
    blk := { s.blk with
      RB := (s.blk.RB ++ chunk).take s.cfg.RB_CAP
      IRQ_STAT := if s.cfg.RB_CAP < s.blk.RB.length + chunk.length then s.blk.IRQ_STAT ||| 0x80#8 else s.blk.IRQ_STAT } }

theorem kept_nil (hcap : s.blk.RB.length ≤ s.cfg.RB_CAP) : s.kept [] = s := by
  simp [State.kept, List.take_of_length_le hcap, Nat.not_lt.mpr hcap]

/-- A byte that finds RB full is dropped and sets RB_OVF, whatever follows it (spec R244). -/
theorem kept_cons_of_full (hfull : s.blk.RB.length = s.cfg.RB_CAP) (x : Byte) (chunk : List Byte) :
    (s.mapBlk (Block.irqSet .rbOvf)).kept chunk = s.kept (x :: chunk) := by
  have hirq : s.blk.IRQ_STAT ||| IrqBit.rbOvf.mask = s.blk.IRQ_STAT ||| 0x80#8 := rfl
  simp [State.kept, State.mapBlk, Block.irqSet, ← hfull, hirq, BitVec.or_assoc]

/-- A byte that finds room is stored before the bytes that follow it. -/
theorem kept_store (x : Byte) (chunk : List Byte) :
    (s.mapBlk (Block.store x)).kept chunk = s.kept (x :: chunk) := by
  simp [State.kept, State.mapBlk, Block.store, Nat.add_assoc, Nat.add_comm 1]

theorem rxBytes_of_none (hst : s.blk.SES_ST.terminal = false) (hin : s.blk.INFLIGHT = none)
    (hcap : s.blk.RB.length ≤ s.cfg.RB_CAP) (chunk : List Byte) : s.rxBytes chunk = s.kept chunk := by
  induction chunk generalizing s with
  | nil => exact (kept_nil hcap).symm
  | cons x chunk ih =>
    change (s.rxByte x).rxBytes chunk = _
    rcases s.rxByte_cases x with ⟨hterm, -⟩ | ⟨-, hfull, e⟩ | ⟨-, hroom, t, rfl, ⟨-, e⟩ | ⟨hsome, -⟩⟩
    · simp [hst] at hterm
    · rw [e, ih (s := s.mapBlk (Block.irqSet .rbOvf)) hst hin hcap, kept_cons_of_full hfull]
    · have hcap' : (s.mapBlk (Block.store x)).blk.RB.length ≤ s.cfg.RB_CAP := by
        rw [State.mapBlk_blk, Block.store_RB, List.length_append, List.length_singleton]
        omega
      rw [e, ih (s := s.mapBlk (Block.store x)) hst hin hcap', kept_store]
    · exact absurd hin hsome

end

/-! ### The time budget (spec R254, R256) -/

section
variable {s : State} {c : Cmd}

/-- `s` with another time budget left. -/
def State.withTmr (w : Word) (s : State) : State := { s with blk := { s.blk with TMR := w } }

@[simp] theorem State.withTmr_TMR (w : Word) (s : State) : (s.withTmr w).blk.TMR = w := rfl

@[simp] theorem State.withTmr_withTmr (v w : Word) (s : State) : (s.withTmr v).withTmr w = s.withTmr w := rfl

theorem exec_tick_of_budget (hin : s.blk.INFLIGHT ≠ none) (htmr : s.blk.TMR ≠ 0) :
    exec .tick s = .next (s.withTmr (BitVec.ofNat 32 (s.blk.TMR.toNat - 1))) := by
  rcases s.tick_cases with ⟨hnone, -⟩ | ⟨-, hzero, -⟩ | ⟨-, -, e⟩
  · exact absurd hnone hin
  · exact absurd hzero htmr
  · have hpred : s.blk.TMR - 1 = BitVec.ofNat 32 (s.blk.TMR.toNat - 1) := by bv_omega
    rw [← hpred]
    exact congrArg Host.Outcome.next e

theorem exec_tick_of_zero (hin : s.blk.INFLIGHT ≠ none) (htmr : s.blk.TMR = 0) (hcur : s.blk.current = some c)
    (hrb : s.blk.RB.length < 2 ^ 32) :
    exec .tick s = .next (s.afterFail .timeout c (BitVec.ofNat 32 s.blk.RB.length) 0 0) := by
  rcases s.tick_cases with ⟨hnone, -⟩ | ⟨-, -, e⟩ | ⟨-, hbudget, -⟩
  · exact absurd hnone hin
  · rw [Block.ctxNone_of_lt hrb, failWith_eq_afterFail hcur] at e
    exact congrArg Host.Outcome.next e
  · exact absurd htmr hbudget

/-- Ticks within the budget only lower it. -/
theorem runInstrs_tick_of_le (hin : s.blk.INFLIGHT ≠ none) {n : Nat} (hn : n ≤ s.blk.TMR.toNat) :
    runInstrs (List.replicate n .tick) s = .next (s.withTmr (BitVec.ofNat 32 (s.blk.TMR.toNat - n))) := by
  induction n generalizing s with
  | zero => simp [runInstrs, State.withTmr]
  | succ n ih =>
    have htmr : s.blk.TMR ≠ 0 := by bv_omega
    have hleft : (BitVec.ofNat 32 (s.blk.TMR.toNat - 1)).toNat = s.blk.TMR.toNat - 1 := by bv_omega
    have hrest := ih (s := s.withTmr (BitVec.ofNat 32 (s.blk.TMR.toNat - 1))) hin (by rw [State.withTmr_TMR, hleft]; omega)
    rw [State.withTmr_TMR, hleft, State.withTmr_withTmr, Nat.sub_sub, Nat.add_comm 1] at hrest
    rw [List.replicate_succ, runInstrs_cons_of_next (exec_tick_of_budget hin htmr), hrest]

theorem runInstrs_append_of_next {is : List Instr} {t : State} (h : runInstrs is s = .next t) (js : List Instr) :
    runInstrs (is ++ js) s = runInstrs js t := by
  induction is generalizing s with
  | nil => cases h; rfl
  | cons i is ih =>
    cases hi : exec i s with
    | next u =>
      rw [runInstrs_cons_of_next hi] at h
      rw [List.cons_append, runInstrs_cons_of_next hi, ih h]
    | fault r => simp [runInstrs, hi] at h
    | refused r => simp [runInstrs, hi] at h

end

/-! ### A closed link (spec R258) -/

section
variable {s : State} {c : Cmd}

theorem exec_close_of_none (hin : s.blk.INFLIGHT = none) :
    exec .close s = .next { s with blk := { s.blk with LINK_CLOSED := true } } := by
  rcases s.close_cases with ⟨-, e⟩ | ⟨hsome, -⟩
  · exact congrArg Host.Outcome.next e
  · exact absurd hin hsome

theorem exec_close_of_inFlight (hin : s.blk.INFLIGHT ≠ none) (hcur : s.blk.current = some c)
    (hrb : s.blk.RB.length < 2 ^ 32) :
    exec .close s = .next (State.afterFail .disconnected c (BitVec.ofNat 32 s.blk.RB.length) 0 0
      { s with blk := { s.blk with LINK_CLOSED := true } }) := by
  rcases s.close_cases with ⟨hnone, -⟩ | ⟨-, e⟩
  · exact absurd hnone hin
  · rw [Block.ctxNone_of_lt hrb, failWith_eq_afterFail (s := s.mapBlk Block.closeLink) hcur] at e
    exact congrArg Host.Outcome.next e

end

/-! ### RX events in turn (spec R241, R243) -/

theorem step_rx {chunk : List Byte} (hne : chunk ≠ []) {cs rest : List (List Input)}
    (hcs : fetch cs = some (.event (.rx chunk), rest)) (s : State) :
    step (s.withCycles cs) = .next ((s.rxBytes chunk).withCycles rest) := by
  have hfetch : fetch (s.withCycles cs).cycles = some (.event (.rx chunk), rest) := hcs
  have hdecode : decode (.event (.rx chunk)) = .ok (.rx chunk) := if_neg hne
  simp only [step, hfetch, hdecode]
  exact congrArg Host.Outcome.next (rxBytes_withCycles rest chunk s)

/-- A run of RX events, one a cycle, receives the bytes of all its chunks. A cycle whose input was taken stays as an empty
one, which `fetch` passes over; so the inputs to come are given by what `fetch` finds in them. -/
theorem run_rx {chunks : List (List Byte)} (hne : ∀ c ∈ chunks, c ≠ []) {cs : List (List Input)}
    (hcs : fetch cs = fetch (cyclesOf (chunks.map .rx))) (s : State) :
    ∃ rest, Host.Core.run core chunks.length (s.withCycles cs) = .next ((s.rxBytes chunks.flatten).withCycles rest) := by
  induction chunks generalizing s cs with
  | nil => exact ⟨cs, rfl⟩
  | cons chunk chunks ih =>
    obtain ⟨hchunk, hchunks⟩ := List.forall_mem_cons.mp hne
    obtain ⟨rest, e⟩ := ih hchunks (fetch_empty_cycle _) (s.rxBytes chunk)
    refine ⟨rest, ?_⟩
    rw [List.length_cons, run_of_next core _ (step_rx hchunk hcs s), List.flatten_cons, State.rxBytes_append]
    exact e

/-! ### The obligations -/

/-- Settles O48: byte by byte, stored while RB has room and dropped from then on. -/
theorem bytesOutsideACommandAreKeptUpToCapacity : Obligations.BytesOutsideACommandAreKeptUpToCapacity := fun _ chunk =>
  ⟨fun hterm => exec_rx_of_terminal hterm chunk,
    fun hst hin hcap => congrArg Host.Outcome.next (rxBytes_of_none hst hin hcap chunk)⟩

/-- Settles O50: the markers are checked when the response is complete, the leading one first. -/
theorem wrongMarkerFailsWithProtocolDesync : Obligations.WrongMarkerFailsWithProtocolDesync := by
  intro s c x h r hawaits hroom hlen hrb wp
  obtain ⟨hcur, -⟩ := id hawaits
  have hlen' : (h :: r).length = s.respLenOf c := by rw [← hrb, List.length_append]; exact hlen
  rw [exec_rx_of_awaits hawaits hroom, ← hrb]
  refine ⟨fun hen hne => congrArg Host.Outcome.next ?_, fun hlead hen hne => congrArg Host.Outcome.next ?_⟩
  · exact respond_of_wrong_lead (s := s.mapBlk (Block.store x)) (rest := []) hcur (hrb.trans (List.append_nil _).symm) hlen'
      hen hne
  · have hhead : wp.LEAD_EN.get c.kind = true → (s.blk.RB ++ [x]).head? = some (wp.LEAD.get c.kind) := fun h' => by
      rw [hrb, List.head?_cons, hlead h']
    exact respond_of_wrong_trail (s := s.mapBlk (Block.store x)) (rest := []) hcur rfl hlen hhead hen hne

/-- Settles O54: the ticks of the budget, and one more that finds it used up. -/
theorem timeoutComesOneTickAfterTheBudget : Obligations.TimeoutComesOneTickAfterTheBudget := by
  intro s c hin hcur hrb
  refine ⟨fun n hn => runInstrs_tick_of_le hin hn, ?_⟩
  have hspent := runInstrs_tick_of_le hin (Nat.le_refl s.blk.TMR.toNat)
  rw [Nat.sub_self] at hspent
  rw [List.replicate_succ', runInstrs_append_of_next hspent]
  exact runInstrs_cons_of_next (exec_tick_of_zero (s := s.withTmr 0) hin rfl hcur hrb) []

/-- Settles O56: both runs receive the same bytes in the same order. -/
theorem rxIsFragmentationInvariant : Obligations.RxIsFragmentationInvariant := by
  intro s chunks chunks' hne hne' heq
  obtain ⟨rest, e⟩ := run_rx hne rfl s
  obtain ⟨rest', e'⟩ := run_rx hne' rfl s
  rw [← heq] at e'
  exact ⟨_, _, e, e', rfl, rfl⟩

/-- Settles O53: the three cases of TICK. -/
theorem tickCountsDownTheBudget : Obligations.TickCountsDownTheBudget := fun _ =>
  ⟨exec_tick_of_none, exec_tick_of_budget, fun _ hin htmr hcur hrb => exec_tick_of_zero hin htmr hcur hrb⟩

/-- Settles O55: the two cases of CLOSE; a link that is closed already stays as it is. -/
theorem closeFailsTheCommandInFlight : Obligations.CloseFailsTheCommandInFlight := by
  refine fun s => ⟨fun hin => ⟨exec_close_of_none hin, fun hclosed => ?_⟩,
    fun c hin hcur hrb => exec_close_of_inFlight hin hcur hrb⟩
  rw [exec_close_of_none hin, ← hclosed]

end Sys2Proof.Machine
end

section
/-! PROOFS. What the decoder accepts: only well-formed instructions, and of a record only the bytes its encoder writes. -/

namespace Sys2Proof.Machine

/-! ### Events and command words (spec R97, R122) -/

theorem wellFormed_toInstr (c : Command) : c.toInstr.WellFormed := by cases c <;> rfl

/-- Each word of the opcode map is the word of a command; CK_ADD's low byte is its operand (spec R97). -/
theorem exists_commandWord_of_isCommandWord {w : Word} (h : IsCommandWord w) : ∃ c, w = commandWord c := by
  rcases h with rfl | rfl | hhigh | rfl | rfl | rfl | rfl | rfl | rfl
  case inr.inr.inl =>
    refine ⟨.ckAdd (w.extractLsb' 0 8), ?_⟩
    calc
      w = (w.extractLsb' 8 24 ++ w.extractLsb' 0 8 : Word) :=
        (BitVec.extractLsb'_append_extractLsb' (w := 24) (len := 8)).symm
      _ = commandWord (.ckAdd (w.extractLsb' 0 8)) := by rw [hhigh]; rfl
  · exact ⟨.nop, rfl⟩
  · exact ⟨.ckClr, rfl⟩
  · exact ⟨.encStart, rfl⟩
  · exact ⟨.sesFlash, rfl⟩
  · exact ⟨.sesSig, rfl⟩
  · exact ⟨.sesReset, rfl⟩
  · exact ⟨.sesStop, rfl⟩
  · exact ⟨.softReset, rfl⟩

/-- A word that does not decode is no word of the opcode map, for those decode to their commands (spec R97, R98). -/
theorem not_isCommandWord_of_decode_error {w : Word} {e : CommandError} (h : decodeCommand w = .error e) :
    ¬ IsCommandWord w := by
  intro hword
  obtain ⟨c, rfl⟩ := exists_commandWord_of_isCommandWord hword
  rw [decodeCommand_commandWord] at h
  cases h

/-- A CSR_WRITE is its own row exactly where it writes no command word to CMD (spec R96). -/
theorem wellFormed_csrWrite_iff {off : Word} {width : Nat} {w : Word} :
    Instr.WellFormed (.csrWrite off width w) ↔ ¬ (off = 0 ∧ width = 32 ∧ IsCommandWord w) := by
  simp only [Instr.WellFormed, Instr.wellFormed, Bool.not_eq_true', decide_eq_false_iff_not]

theorem wellFormed_of_decodeEvent {e : Event} {i : Instr} (h : decodeEvent e = .ok i) : i.WellFormed := by
  cases e with
  | csrWrite off width w =>
    simp only [decodeEvent] at h
    split at h
    · cases hw : decodeCommand w with
      | ok c =>
        rw [hw] at h
        cases h
        exact wellFormed_toInstr c
      | error e =>
        rw [hw] at h
        cases h
        exact wellFormed_csrWrite_iff.mpr fun hrow => not_isCommandWord_of_decode_error hw hrow.2.2
    · rename_i hcmd
      cases h
      exact wellFormed_csrWrite_iff.mpr fun hrow => hcmd ⟨hrow.1, hrow.2.1⟩
  | rx chunk =>
    simp only [decodeEvent] at h
    split at h
    · cases h
    · rename_i hne
      cases h
      exact decide_eq_true (List.length_pos_of_ne_nil hne)
  | _ => cases h; rfl

/-! ### Records (spec R104, R105) -/

/-- Only the checksum brings the sum of a record's bytes to 0 (spec R105, R165). -/
theorem eq_cksum8_of_ckFold_eq_zero {bs : List Byte} {x : Byte} (h : ckFold 0 (bs ++ [x]) = 0) : x = cksum8 bs := by
  rw [ckFold_append, ckFold_cons, ckFold_nil] at h
  rw [cksum8, cksumOf]
  bv_omega

/-- A record's fields are what is left of its bytes when count, type and payload agree (spec R104). -/
theorem recFields_of_bytes {count hi lo tt : Byte} {t : RecType} {d : List Byte} (hcount : d.length = count.toNat)
    (htype : RecType.ofCode tt = some t) : recFields t (hi ++ lo) d = count :: hi :: lo :: tt :: d := by
  rw [recFields, beBytes_append, code_of_ofCode htype, hcount, BitVec.ofNat_toNat, BitVec.setWidth_eq]
  rfl

/-- The bytes of an accepted record are the binary form of a record with a payload of at most 255 bytes, and the instruction
is that record's: the converse of `decodeRecord_recBytes`. -/
theorem decodeRecord_eq_ok {bytes : List Byte} {i : Instr} (h : decodeRecord bytes = .ok i) :
    ∃ t a d, d.length ≤ 255 ∧ bytes = recBytes (mkRecord t a d) ∧ recordInstr t a d = .ok i := by
  unfold decodeRecord at h
  split at h
  · rename_i count hi lo tt rest
    split at h
    · cases h
    · rename_i hrest
      split at h
      · cases h
      · rename_i hsum
        split at h
        · cases h
        · rename_i t htype
          have hlen : rest.length = count.toNat + 1 := not_not.mp hrest
          obtain ⟨d, x, rfl⟩ := (List.eq_nil_or_concat' rest).resolve_left (List.ne_nil_of_length_eq_add_one hlen)
          have hcount : d.length = count.toNat := by simpa using hlen
          have hfields := recFields_of_bytes (hi := hi) (lo := lo) hcount htype
          have hx : x = cksum8 (recFields t (hi ++ lo) d) := by
            rw [hfields]
            exact eq_cksum8_of_ckFold_eq_zero (not_not.mp hsum)
          rw [List.dropLast_concat] at h
          refine ⟨t, hi ++ lo, d, hcount ▸ Nat.le_of_lt_succ count.isLt, ?_, h⟩
          calc
            count :: hi :: lo :: tt :: (d ++ [x]) = recFields t (hi ++ lo) d ++ [x] := by rw [hfields]; rfl
            _ = recBytes (mkRecord t (hi ++ lo) d) := by rw [hx]; rfl
  · cases h

/-- The instruction of a record is encoded as that record, and is well-formed as its payload is no longer than the count byte
can say; an EndOfFile and an ELA record hold no more than their rows say (spec R102, R108, R109). -/
theorem recordInstr_eq_ok {t : RecType} {a : Half} {d : List Byte} {i : Instr} (h : recordInstr t a d = .ok i) :
    encode i = recordImage t a d ∧ (d.length ≤ 255 → i.WellFormed) := by
  cases t with
  | data => cases h; exact ⟨rfl, decide_eq_true⟩
  | endOfFile =>
    simp only [recordInstr] at h
    split at h
    · rename_i hshape
      obtain ⟨rfl, rfl⟩ := hshape
      cases h
      exact ⟨rfl, fun _ => rfl⟩
    · cases h
  | extendedSegmentAddress => cases h; exact ⟨rfl, decide_eq_true⟩
  | startSegmentAddress => cases h; exact ⟨rfl, decide_eq_true⟩
  | extendedLinearAddress =>
    simp only [recordInstr] at h
    split at h
    · rename_i hi lo
      split at h
      · rename_i haddr
        subst haddr
        cases h
        exact ⟨congrArg (recordImage .extendedLinearAddress 0) (beBytes_append hi lo), fun _ => rfl⟩
      · cases h
    · cases h
  | startLinearAddress => cases h; exact ⟨rfl, decide_eq_true⟩

theorem wellFormed_of_decodeRecord {bytes : List Byte} {i : Instr} (h : decodeRecord bytes = .ok i) : i.WellFormed := by
  obtain ⟨_, _, _, hlen, -, hinstr⟩ := decodeRecord_eq_ok h
  exact (recordInstr_eq_ok hinstr).2 hlen

theorem encode_of_decodeRecord {bytes : List Byte} {i : Instr} (h : decodeRecord bytes = .ok i) :
    encode i = .record bytes := by
  obtain ⟨_, _, _, -, rfl, hinstr⟩ := decodeRecord_eq_ok h
  exact (recordInstr_eq_ok hinstr).1

/-! ### The obligation -/

theorem wellFormed_of_decode {x : Input} {i : Instr} (h : decode x = .ok i) : i.WellFormed := by
  cases x with
  | event e => exact wellFormed_of_decodeEvent h
  | record bytes => exact wellFormed_of_decodeRecord h
  | frame c =>
    simp only [decode] at h
    split at h
    · rename_i hwf
      cases h
      exact hwf
    · cases h

/-- Settles O4: the kinds of input for the first half, and the record behind the accepted bytes for the second. -/
theorem decodedInstructionsAreWellFormed : Obligations.DecodedInstructionsAreWellFormed :=
  ⟨fun _ _ => wellFormed_of_decode, fun _ _ => encode_of_decodeRecord⟩

end Sys2Proof.Machine
end
